-- ==== Sys2Proof/Word.lean ====
section
/-! DEFINITION. The bit-vector types of the T6210: a data word, a line byte, its ten line bits, a station address, a sequence. -/

namespace Sys2Proof

/-- A word of the part: 16 bits (00_scope, Conventions). -/
abbrev Word := BitVec 16

/-- A byte on a line: eight data bits (R1). A sequence and a status are bytes too (R9, R17). -/
abbrev Byte := BitVec 8

/-- A serial byte as it stands on a line, ten bits in line order: bit 0 is the start bit, bits 1 to 8 are the data bits,
the least significant first, and bit 9 is the stop bit (R1). -/
abbrev SerialByte := BitVec 10

/-- An address 0 to 63: the low six bits of an address byte (R9). -/
abbrev Addr := BitVec 6

end Sys2Proof
end

