-- ==== Sys2Proof/Syntax.lean ====
section
/-! DEFINITION. The commands of the part: one constructor per row of spec/opcode_table.json, with the row's operands.
Every row is one step of the part, whole and indivisible (95_what_each_step_holds). -/

namespace Sys2Proof

/-- The three line ports (chapter 1): T is the trunk, A and B are the drops. -/
inductive Port where
  | t | a | b
  deriving DecidableEq, Repr

/-- The two drop segments; segment A is served by port A and segment B by port B (chapter 5). -/
inductive Segment where
  | a | b
  deriving DecidableEq, Repr

/-- One constructor per row of spec/opcode_table.json. -/
inductive Instr where
  /-- RESET_ASSERTED (R12, R199): RESET_N is sampled low. -/
  | resetAsserted
  /-- POWER_ON_RESET (R199): the release of the reset pin. -/
  | powerOnReset
  /-- COUNT_ABOVE_32 (R6): the receiver of `p` takes the serial bytes `bytes`, up to a sixth header byte above 32. -/
  | countAbove32 (p : Port) (bytes : List SerialByte)
  /-- TRUNCATION (R5): a silence of more than 4 byte times passes on port `p` in FRAME. -/
  | truncation (p : Port)
  /-- DISCARD_SILENCE (R6): a silence of more than 4 byte times passes on port `p` in DISCARD. -/
  | discardSilence (p : Port)
  /-- RECEIVE_TELEGRAM (R7): the receiver of `p` takes the serial bytes `bytes`, up to the second CRC byte. -/
  | receiveTelegram (p : Port) (bytes : List SerialByte)
  /-- TRANSMISSION_COMPLETE (R11): the transmitter of `p` has sent the second CRC byte. -/
  | transmissionComplete (p : Port)
  /-- SPACING_ENDS (R11): the 5 byte times of SPACING on port `p` are over. -/
  | spacingEnds (p : Port)
  /-- TAKE (R87): the Segment Controller of `g` removes the head of its queue. -/
  | take (g : Segment)
  /-- REPLY_WINDOW_EXPIRY (R93): the reply-window timer of segment `g` expires. -/
  | replyWindowExpiry (g : Segment)
  /-- COPY_COMPLETION (R52): the bank engine completes its copy. -/
  | copyCompletion
  /-- CHECK_COMPLETION (R54): the bank engine completes its check. -/
  | checkCompletion
  /-- STATUS (R168): the agent executes the head of its request queue, a STATUS. -/
  | status
  /-- READ_STATION (R42): the agent executes the head of its request queue, a READ_STATION. -/
  | readStation
  /-- READ_POINTS (R42): the agent executes the head of its request queue, a READ_POINTS. -/
  | readPoints
  /-- WRITE_STATION (R44): the agent executes the head of its request queue, a WRITE_STATION. -/
  | writeStation
  /-- WRITE_POINTS (R44): the agent executes the head of its request queue, a WRITE_POINTS. -/
  | writePoints
  /-- SET_LABEL (R45): the agent executes the head of its request queue, a SET_LABEL. -/
  | setLabel
  /-- READ_IMAGE (R170): the agent executes the head of its request queue, a READ_IMAGE. -/
  | readImage
  /-- READ_STATION_STATE (R171): the agent executes the head of its request queue, a READ_STATION_STATE. -/
  | readStationState
  /-- READ_COUNTERS (R195): the agent executes the head of its request queue, a READ_COUNTERS. -/
  | readCounters
  /-- CLEAR_COUNTERS (R196): the agent executes the head of its request queue, a CLEAR_COUNTERS. -/
  | clearCounters
  /-- SET_MODE (R173): the agent executes the head of its request queue, a SET_MODE. -/
  | setMode
  /-- COPY (R51): the agent executes the head of its request queue, a COPY. -/
  | copy
  /-- COMMIT (R53): the agent executes the head of its request queue, a COMMIT. -/
  | commit
  /-- CANCEL (R58): the agent executes the head of its request queue, a CANCEL. -/
  | cancel
  /-- RESTART (R179): the agent executes the head of its request queue, a RESTART. -/
  | restart
  /-- MALFORMED_REQUEST (R166): the agent executes the head of its request queue, which fails tests 1 to 3. -/
  | malformedRequest
  /-- LEAD_BYTE (R4): the receiver of `p` takes one serial byte `b`; in HUNT, 5Ah starts a telegram. -/
  | leadByte (p : Port) (b : SerialByte)
  deriving DecidableEq, Repr

end Sys2Proof
end

