-- ==== Sys2Proof/Decode.lean ====
section
/-! DEFINITION. The command that a word of the opcode table's bits spells. No row of spec/opcode_table.json gives bits
(every row's "fields" is empty and none has "fixed"): the part decodes no command words, so every word spells none. -/

namespace Sys2Proof

/-- The command spelled by the table's bits: none, since no row gives bits (98_reader, "n_rows_with_fixed": 0). -/
def decodeTableWord (_nbits _w : Nat) : Option Instr := none

end Sys2Proof
end

