-- ==== Sys2Proof/Config.lean ====
section
/-! DEFINITION. What the part fixes (the sizes of its stores) and the FREE VALUES: the values the spec leaves open,
as opaque constants that nothing in Lean can evaluate. -/

namespace Sys2Proof.Config

/-- Descriptors of Telegram Memory, numbered 0 to 159 (chapter 2, R23). -/
def descriptors : Nat := 160

/-- Blocks of Telegram Memory, numbered 0 to 639 (chapter 2, R23). -/
def blocks : Nat := 640

/-- Words in a block (R22). -/
def blockWords : Nat := 8

/-- Stations 1 to 61 (R37). -/
def stations : Nat := 61

/-- Point records 0 to 1023 of a bank (R37). -/
def points : Nat := 1024

/-- FREE VALUE (log entry 5). How many further station entries and point records the copy has written when the
partly filled target is next observed: R52 bounds it (a leading part of the copy order, never shrinking) and does
not fix it. The argument is State's counter `freeTick`. -/
opaque copyAdvance : Nat → Nat

/-- FREE VALUE (log entry 6). The word and the limit outcome of a SCALE record whose divisor lies outside 1 to
32767: R109 says a validated bank holds none and that the result would be undefined. Arguments: x, A, B. -/
opaque scaleUndefined : Word → Word → Word → Word × Bool

/-- FREE VALUE (log entry 6). The word of a CLAMP record with A above B for an x that is both below A and above B:
R109 says a validated bank holds none and that CLAMP would have two answers. Arguments: x, A, B. -/
opaque clampUndefined : Word → Word → Word → Word

end Sys2Proof.Config
end

