-- ==== Sys2Proof/Machine/State.lean ====
section
/-! DEFINITION. The state of the T6210: everything the data book gives the part, block by block, as plain data, and the
state right after a power-on reset. -/

namespace Sys2Proof.Machine

/-- Data by number (station, record, descriptor, word address), as a list in ONE canonical form: numbers strictly
rising, and no entry equal to what an unlisted number reads as. -/
abbrev Table (α : Type) := List (Nat × α)

/-! ## Telegrams (chapter 1) -/

/-- The known telegram kinds, codes 1 to 6 (R8). -/
inductive Kind where
  | poll | reply | sync | mgmtReq | mgmtAns | notice
  deriving DecidableEq, Repr

/-- The four marks of a header (R21, section 1.7). -/
structure Marks where
  transformed : Bool
  faulted : Bool
  limited : Bool
  retried : Bool
  deriving DecidableEq, Repr

/-- All marks clear. -/
def Marks.clear : Marks := ⟨false, false, false, false⟩

/-- A telegram as a transmitter copies it from a descriptor (R10). -/
structure Telegram where
  dest : Addr
  src : Addr
  kind : Kind
  marks : Marks
  seq : Byte
  status : Byte
  words : List Word
  deriving DecidableEq, Repr

/-- The REPLY statuses (R17). -/
inductive ReplyStatus where
  | ok | subst | noreply | refused | unrouted | superseded | echo | overrun
  deriving DecidableEq, Repr

/-- The answer statuses (R17). -/
inductive AnswerStatus where
  | done | badOperation | badArgument | format | notStandby | engineBusy | checkFailed | cancelled | nothingPending
  | noRoom
  deriving DecidableEq, Repr

/-! ## Line ports (chapter 1) -/

/-- A receiver: HUNT, FRAME with the receive buffer (the bytes after the lead byte), DISCARD (section 1.3, R4). -/
inductive Receiver where
  | hunt
  | frame (buf : List Byte)
  | discard
  deriving DecidableEq, Repr

/-- A transmitter: IDLE, SENDING its copy, SPACING with the telegram handed meanwhile, if any (section 1.4, R10). -/
inductive Transmitter where
  | idle
  | sending (copy : Telegram)
  | spacing (held : Option Nat)
  deriving DecidableEq, Repr

/-- A line port. -/
structure LinePort where
  rx : Receiver
  tx : Transmitter
  deriving DecidableEq, Repr

/-! ## Configuration banks (chapter 3) -/

/-- The two banks (R37). -/
inductive BankId where
  | bank0 | bank1
  deriving DecidableEq, Repr

/-- The segment field of a station entry (R38). -/
inductive Route where
  | none | a | b
  deriving DecidableEq, Repr

/-- A station entry: nine fields (R38). -/
structure StationEntry where
  route : Route
  window : Nat
  retryLimit : Nat
  downThreshold : Nat
  ageLimit : Nat
  outFirst : Nat
  outLength : Nat
  inFirst : Nat
  inLength : Nat
  deriving DecidableEq, Repr

/-- The default station entry of a power-on reset (R63). -/
def StationEntry.default : StationEntry := ⟨.a, 20, 1, 3, 0, 0, 0, 0, 0⟩

/-- The eleven point kinds, codes 0 to 10 (section 6.2). -/
inductive PointKind where
  | none | fixed | complement | bcdToBin | binToBcd | bcd8ToBin32 | bin32ToBcd8 | scale | clamp | bits | range
  deriving DecidableEq, Repr

/-- The fault policies (R39). -/
inductive Policy where
  | substitute | hold
  deriving DecidableEq, Repr

/-- A point record: six fields (R39). -/
structure PointRecord where
  index : Nat
  kind : PointKind
  policy : Policy
  a : Word
  b : Word
  subst : Word
  deriving DecidableEq, Repr

/-- The default point record of a power-on reset (R63). -/
def PointRecord.default : PointRecord := ⟨0, .none, .substitute, 0, 0, 0⟩

/-- The six bank states (section 3.2). -/
inductive BankState where
  | active | standby | filling | checking | pending | retiring
  deriving DecidableEq, Repr

/-- A configuration bank (R37). -/
structure Bank where
  stations : Table StationEntry
  points : Table PointRecord
  label : Word
  state : BankState
  inFlight : Nat
  deriving DecidableEq, Repr

/-! ## Telegram Memory (chapter 2) -/

/-- An IN USE descriptor (R21). A descriptor the table does not list is FREE. -/
structure Descriptor where
  dest : Addr
  src : Addr
  kind : Kind
  marks : Marks
  seq : Byte
  status : Byte
  count : Nat
  chain : List Nat
  holders : Nat
  stamp : Option BankId
  deriving DecidableEq, Repr

/-- What reading a descriptor that is not in use gives; no rule reads one (log entry 12). -/
def Descriptor.blank : Descriptor := ⟨0, 0, .poll, Marks.clear, 0, 0, 0, [], 0, Option.none⟩

/-- Telegram Memory. `blocks` is keyed by word address 8 × block + index; an unlisted word reads 0 (log entry 7). -/
structure TelegramMemory where
  descs : Table Descriptor
  blocks : Table Word
  freeDescs : List Nat
  freeBlocks : List Nat
  minDescs : Nat
  minBlocks : Nat
  deriving DecidableEq, Repr

/-! ## Admission Unit (chapter 4) -/

/-- The cycle register (R66). -/
structure CycleRegister where
  number : Word
  seen : Bool
  deriving DecidableEq, Repr

/-! ## Segment Controllers and the Station Runtime Table (chapter 5) -/

/-- The segment states (section 5.1). -/
inductive SegState where
  | idle | sending | awaiting
  deriving DecidableEq, Repr

/-- The transaction record (R88). -/
structure Transaction where
  station : Addr
  seq : Byte
  desc : Nat
  bank : BankId
  triesAllowed : Nat
  triesMade : Nat
  retried : Bool
  deriving DecidableEq, Repr

/-- The transaction slot: empty, a taken SYNC, or a transaction (R83). -/
inductive Slot where
  | empty
  | sync (d : Nat)
  | poll (t : Transaction)
  deriving DecidableEq, Repr

/-- A Segment Controller. `timer` is stopped (`none`) or runs to an expiry, in CLK periods after the transmission
complete of the try (R83, R92, R200). -/
structure SegmentController where
  queue : List Nat
  slot : Slot
  timer : Option Nat
  state : SegState
  deriving DecidableEq, Repr

/-- Health of a station (R101). -/
inductive Health where
  | unknown | up | failing | down
  deriving DecidableEq, Repr

/-- Mode of a station (R101). -/
inductive Mode where
  | normal | isolated | echo
  deriving DecidableEq, Repr

/-- A station's entry in the Station Runtime Table (R101). -/
structure StationRuntime where
  health : Health
  failCount : Nat
  mode : Mode
  deriving DecidableEq, Repr

/-- A station's runtime after either reset (R101, R106). -/
def StationRuntime.default : StationRuntime := ⟨.unknown, 0, .normal⟩

/-! ## Image Store (chapter 7) -/

/-- An image record (R130); its count is the number of its words. -/
structure ImageRecord where
  valid : Bool
  words : List Word
  cycle : Word
  faulted : Bool
  deriving DecidableEq, Repr

/-- An image record after a power-on reset (R141). -/
def ImageRecord.default : ImageRecord := ⟨false, [], 0, false⟩

/-! ## Trunk Egress (chapter 8) -/

/-- Trunk Egress: its queue, whether the head has been handed, the notice count (section 8.5). -/
structure TrunkEgress where
  queue : List Nat
  handed : Bool
  noticeCount : Nat
  deriving DecidableEq, Repr

/-! ## Management Agent (chapter 9) -/

/-- An entry of the answer cache (R160). -/
structure CacheEntry where
  seq : Byte
  status : AnswerStatus
  words : List Word
  deriving DecidableEq, Repr

/-- The Management Agent (R159). -/
structure Agent where
  requests : List Nat
  openSlot : Option Nat
  cache : List CacheEntry
  deriving DecidableEq, Repr

/-! ## Notice Unit (chapter 10) -/

/-- An entry of the pending set (R183). -/
inductive NoticeEntry where
  | bank (b : BankId) (label : Word) (cycle : Word)
  | station (s : Nat) (changes : Nat)
  deriving DecidableEq, Repr

/-- The Notice Unit (section 10.1). -/
structure NoticeUnit where
  pendingSet : List NoticeEntry
  number : Byte
  deriving DecidableEq, Repr

/-! ## Counter Bank (chapter 10) -/

/-- The counters of port T (R16, group 0). -/
structure TrunkCounters where
  rxGood : BitVec 32
  rxCrc : BitVec 32
  rxFormat : BitVec 32
  rxAddress : BitVec 32
  rxUnexpected : BitVec 32
  rxNoroom : BitVec 32
  txDone : BitVec 32
  deriving DecidableEq, Repr

/-- The counters of a drop port (R16, groups 1 and 2). -/
structure DropCounters where
  rxGood : BitVec 32
  rxCrc : BitVec 32
  rxFormat : BitVec 32
  rxAddress : BitVec 32
  rxStray : BitVec 32
  txDone : BitVec 32
  deriving DecidableEq, Repr

/-- The nine counters of a station (R193, group 16 + s). -/
structure StationCounters where
  transmissions : BitVec 16
  retries : BitVec 16
  repliesOk : BitVec 16
  failures : BitVec 16
  substitutions : BitVec 16
  superseded : BitVec 16
  pointFaults : BitVec 16
  pointLimits : BitVec 16
  shortSkips : BitVec 16
  deriving DecidableEq, Repr

/-- Port T's counters at 0. -/
def TrunkCounters.zero : TrunkCounters := ⟨0, 0, 0, 0, 0, 0, 0⟩

/-- A drop port's counters at 0. -/
def DropCounters.zero : DropCounters := ⟨0, 0, 0, 0, 0, 0⟩

/-- A station's counters at 0. -/
def StationCounters.zero : StationCounters := ⟨0, 0, 0, 0, 0, 0, 0, 0, 0⟩

/-- The Counter Bank; the two free-count minima of group 3 have their home in Telegram Memory (R34, R193). -/
structure CounterBank where
  trunk : TrunkCounters
  dropA : DropCounters
  dropB : DropCounters
  duplicates : BitVec 16
  queueFull : BitVec 16
  stations : Table StationCounters
  deriving DecidableEq, Repr

/-! ## The whole part -/

/-- The state of the part. `copyDone` is how many entries and records of the copy order the running copy has written
(R52). `resetHeld` says RESET_N is sampled low (R199). `freeTick` (the free value's counter, log entry 5) and `pending`
(the commands waiting) are the model's own. -/
structure State where
  portT : LinePort
  portA : LinePort
  portB : LinePort
  mem : TelegramMemory
  bank0 : Bank
  bank1 : Bank
  copyDone : Nat
  cycle : CycleRegister
  segA : SegmentController
  segB : SegmentController
  runtime : Table StationRuntime
  inImages : Table ImageRecord
  outImages : Table ImageRecord
  egress : TrunkEgress
  agent : Agent
  notices : NoticeUnit
  counters : CounterBank
  resetHeld : Bool
  freeTick : Nat
  pending : List Instr
  deriving DecidableEq, Repr

/-- Why a step can stop with a fault: for no reason. The data book describes no event that stops the part; what it
cannot use it counts, discards, refuses for memory or answers with a status (R5 to R8, R13 to R15, R31 to R33, R166).
Nobody raises one; safe. -/
inductive Fault where
  deriving DecidableEq, Repr

/-- Why a step can be refused. -/
inductive Refusal where
  /-- A command that has no meaning yet, raised by `exec`'s own arm; safe. No arm raises it. -/
  | notModelled (mnemonic : String)
  deriving DecidableEq, Repr

/-! ## Reset (R12, R35, R63, R66, R83, R101, R141, R156, R159, R192, R198) -/

/-- A line port after a power-on reset (R12). -/
def LinePort.reset : LinePort := ⟨.hunt, .idle⟩

/-- Telegram Memory after a power-on reset (R35); the block store lists nothing (log entry 7). -/
def TelegramMemory.reset : TelegramMemory :=
  { descs := [], blocks := [], freeDescs := List.range Config.descriptors, freeBlocks := List.range Config.blocks,
    minDescs := Config.descriptors, minBlocks := Config.blocks }

/-- A bank's default contents (R63), in the state given. -/
def Bank.reset (st : BankState) : Bank := { stations := [], points := [], label := 0, state := st, inFlight := 0 }

/-- A Segment Controller after a power-on reset (R83, R76). -/
def SegmentController.reset : SegmentController := { queue := [], slot := .empty, timer := none, state := .idle }

/-- The Counter Bank after a power-on reset (R198). -/
def CounterBank.reset : CounterBank :=
  { trunk := TrunkCounters.zero, dropA := DropCounters.zero, dropB := DropCounters.zero, duplicates := 0,
    queueFull := 0, stations := [] }

/-- The machine right after a power-on reset. -/
def State.reset : State :=
  { portT := LinePort.reset, portA := LinePort.reset, portB := LinePort.reset,
    mem := TelegramMemory.reset,
    bank0 := Bank.reset .active, bank1 := Bank.reset .standby, copyDone := 0,
    cycle := ⟨0, false⟩,
    segA := SegmentController.reset, segB := SegmentController.reset,
    runtime := [], inImages := [], outImages := [],
    egress := ⟨[], false, 0⟩,
    agent := ⟨[], none, []⟩,
    notices := ⟨[], 0⟩,
    counters := CounterBank.reset,
    resetHeld := false, freeTick := 0, pending := [] }

end Sys2Proof.Machine
end

