-- ==== Sys2Proof/Machine/Ops.lean ====
section
/-! DEFINITION. The named operations over the state: tables in canonical form, the parts of the state by their
identifier, and the update of each part. -/

namespace Sys2Proof.Machine

/-! ## Tables -/

/-- The entry listed at number `k`. -/
def Table.lookup {α : Type} (t : Table α) (k : Nat) : Option α :=
  match t with
  | [] => none
  | (j, v) :: rest => if j = k then some v else if k < j then none else Table.lookup rest k

/-- The value at number `k`, where an unlisted number reads as `dflt`. -/
def Table.get {α : Type} (dflt : α) (t : Table α) (k : Nat) : α := (Table.lookup t k).getD dflt

/-- List `v` at number `k`, in its place in the rising order. -/
def Table.insert {α : Type} (t : Table α) (k : Nat) (v : α) : Table α :=
  match t with
  | [] => [(k, v)]
  | (j, w) :: rest =>
    if k < j then (k, v) :: (j, w) :: rest
    else if j = k then (k, v) :: rest
    else (j, w) :: Table.insert rest k v

/-- Unlist number `k`. -/
def Table.erase {α : Type} (t : Table α) (k : Nat) : Table α :=
  match t with
  | [] => []
  | (j, w) :: rest => if j = k then rest else if k < j then (j, w) :: rest else (j, w) :: Table.erase rest k

/-- Set number `k` to `v`, keeping the canonical form: the value an unlisted number reads as is not listed. -/
def Table.set {α : Type} [DecidableEq α] (dflt : α) (t : Table α) (k : Nat) (v : α) : Table α :=
  if v = dflt then Table.erase t k else Table.insert t k v

/-- Apply `f` to every listed value, keeping the canonical form. `f dflt` is taken to be `dflt`. -/
def Table.mapValues {α : Type} [DecidableEq α] (dflt : α) (f : α → α) (t : Table α) : Table α :=
  List.filter (fun e => e.2 ≠ dflt) (List.map (fun e => (e.1, f e.2)) t)

/-- The entries of `src` below number `k`, and those of `tgt` from `k` on. -/
def Table.splice {α : Type} (src tgt : Table α) (k : Nat) : Table α :=
  List.filter (fun e => e.1 < k) src ++ List.filter (fun e => k ≤ e.1) tgt

/-- Numbers strictly rising. -/
def Table.rising {α : Type} : Table α → Bool
  | [] => true
  | [_] => true
  | (j, _) :: (k, w) :: rest => decide (j < k) && Table.rising ((k, w) :: rest)

/-- The canonical form of a table whose unlisted numbers read as `dflt`. -/
def Table.wf {α : Type} [DecidableEq α] (dflt : α) (t : Table α) : Bool :=
  Table.rising t && List.all t fun e => e.2 ≠ dflt

/-! ## Parts of the state by identifier -/

/-- The other bank. -/
def BankId.other : BankId → BankId
  | .bank0 => .bank1
  | .bank1 => .bank0

/-- The port that serves a segment (chapter 5). -/
def dropPort : Segment → Port
  | .a => .a
  | .b => .b

/-- The line port `p`. -/
def State.port (s : State) : Port → LinePort
  | .t => s.portT
  | .a => s.portA
  | .b => s.portB

/-- Replace the line port `p`. -/
def State.setPort (s : State) (p : Port) (v : LinePort) : State :=
  match p with
  | .t => { s with portT := v }
  | .a => { s with portA := v }
  | .b => { s with portB := v }

/-- Replace the receiver of port `p`. -/
def State.setRx (s : State) (p : Port) (r : Receiver) : State := s.setPort p { s.port p with rx := r }

/-- Replace the transmitter of port `p`. -/
def State.setTx (s : State) (p : Port) (x : Transmitter) : State := s.setPort p { s.port p with tx := x }

/-- The bank `b`. -/
def State.bank (s : State) : BankId → Bank
  | .bank0 => s.bank0
  | .bank1 => s.bank1

/-- Replace the bank `b`. -/
def State.setBank (s : State) (b : BankId) (v : Bank) : State :=
  match b with
  | .bank0 => { s with bank0 := v }
  | .bank1 => { s with bank1 := v }

/-- The Segment Controller of `g`. -/
def State.seg (s : State) : Segment → SegmentController
  | .a => s.segA
  | .b => s.segB

/-- Replace the Segment Controller of `g`. -/
def State.setSeg (s : State) (g : Segment) (v : SegmentController) : State :=
  match g with
  | .a => { s with segA := v }
  | .b => { s with segB := v }

/-- Replace Telegram Memory. -/
def State.setMem (s : State) (m : TelegramMemory) : State := { s with mem := m }

/-- Replace the cycle register. -/
def State.setCycle (s : State) (c : CycleRegister) : State := { s with cycle := c }

/-- Replace the copy's progress. -/
def State.setCopyDone (s : State) (n : Nat) : State := { s with copyDone := n }

/-- Replace the Station Runtime Table. -/
def State.setRuntime (s : State) (t : Table StationRuntime) : State := { s with runtime := t }

/-- Replace the inbound images. -/
def State.setInImages (s : State) (t : Table ImageRecord) : State := { s with inImages := t }

/-- Replace the outbound images. -/
def State.setOutImages (s : State) (t : Table ImageRecord) : State := { s with outImages := t }

/-- Replace Trunk Egress. -/
def State.setEgress (s : State) (e : TrunkEgress) : State := { s with egress := e }

/-- Replace the Management Agent. -/
def State.setAgent (s : State) (a : Agent) : State := { s with agent := a }

/-- Replace the Notice Unit. -/
def State.setNotices (s : State) (n : NoticeUnit) : State := { s with notices := n }

/-- Replace the Counter Bank. -/
def State.setCounters (s : State) (c : CounterBank) : State := { s with counters := c }

/-- Hold or release the reset. -/
def State.setResetHeld (s : State) (b : Bool) : State := { s with resetHeld := b }

/-- Advance the free value's counter (log entry 5). -/
def State.tickFree (s : State) : State := { s with freeTick := s.freeTick + 1 }

/-! ## Station data -/

/-- The runtime of station `n` (R101). -/
def State.station (s : State) (n : Nat) : StationRuntime := Table.get StationRuntime.default s.runtime n

/-- Replace the runtime of station `n`. -/
def State.setStation (s : State) (n : Nat) (r : StationRuntime) : State :=
  s.setRuntime (Table.set StationRuntime.default s.runtime n r)

/-- The inbound image of station `n` (R130). -/
def State.inImage (s : State) (n : Nat) : ImageRecord := Table.get ImageRecord.default s.inImages n

/-- The outbound image of station `n` (R130). -/
def State.outImage (s : State) (n : Nat) : ImageRecord := Table.get ImageRecord.default s.outImages n

/-- The station entry of station `n` in a bank (R37). -/
def Bank.entry (b : Bank) (n : Nat) : StationEntry := Table.get StationEntry.default b.stations n

/-- The point record `k` of a bank (R37). -/
def Bank.point (b : Bank) (k : Nat) : PointRecord := Table.get PointRecord.default b.points k

/-- The number of words of an image record: its count (R130). -/
def ImageRecord.count (r : ImageRecord) : Nat := r.words.length

/-! ## Events -/

/-- An event of the part: it takes place in a running part; while reset is asserted none does (R199). -/
def event (f : State → State) (s : State) : Host.Outcome State Fault Refusal :=
  if s.resetHeld then .next s else .next (f s)

end Sys2Proof.Machine
end

