-- ==== Sys2Proof/Machine/Flags.lean ====
section
/-! DEFINITION. The marks of a telegram and the counters of the Counter Bank: every mark and count computation. -/

namespace Sys2Proof.Machine

/-! ## Marks (R21, R125, R146) -/

/-- Clear the Point Engine's three marks, keeping RETRIED (R89, R94, R96). -/
def Marks.clearPoint (m : Marks) : Marks := { Marks.clear with retried := m.retried }

/-- Set TRANSFORMED, FAULTED and LIMITED in addition to those already set (R125). -/
def Marks.add (m : Marks) (transformed faulted limited : Bool) : Marks :=
  { m with transformed := m.transformed || transformed, faulted := m.faulted || faulted, limited := m.limited || limited }

/-- The marks as the high four bits of the kind and marks byte: RETRIED, LIMITED, FAULTED, TRANSFORMED (section 1.7). -/
def Marks.bits (m : Marks) : BitVec 4 :=
  BitVec.ofBool m.retried ++ BitVec.ofBool m.limited ++ BitVec.ofBool m.faulted ++ BitVec.ofBool m.transformed

/-! ## Saturating counters (R193) -/

/-- One more, staying at the largest value of the width (R193). -/
def satInc {w : Nat} (c : BitVec w) : BitVec w := if c = BitVec.allOnes w then c else c + 1

/-- `n` more, one at a time (R126, R193). -/
def satAdd {w : Nat} (c : BitVec w) (n : Nat) : BitVec w :=
  match n with
  | 0 => c
  | k + 1 => satAdd (satInc c) k

/-- The counters of the ports (R16); RX_UNEXPECTED and RX_NOROOM are port T's alone, RX_STRAY the drops'. -/
inductive PortCounter where
  | rxGood | rxCrc | rxFormat | rxAddress | rxUnexpected | rxStray | rxNoroom | txDone
  deriving DecidableEq, Repr

/-- Count one on port T. -/
def TrunkCounters.bump (c : TrunkCounters) : PortCounter → TrunkCounters
  | .rxGood => { c with rxGood := satInc c.rxGood }
  | .rxCrc => { c with rxCrc := satInc c.rxCrc }
  | .rxFormat => { c with rxFormat := satInc c.rxFormat }
  | .rxAddress => { c with rxAddress := satInc c.rxAddress }
  | .rxUnexpected => { c with rxUnexpected := satInc c.rxUnexpected }
  | .rxStray => c
  | .rxNoroom => { c with rxNoroom := satInc c.rxNoroom }
  | .txDone => { c with txDone := satInc c.txDone }

/-- Count one on a drop port. -/
def DropCounters.bump (c : DropCounters) : PortCounter → DropCounters
  | .rxGood => { c with rxGood := satInc c.rxGood }
  | .rxCrc => { c with rxCrc := satInc c.rxCrc }
  | .rxFormat => { c with rxFormat := satInc c.rxFormat }
  | .rxAddress => { c with rxAddress := satInc c.rxAddress }
  | .rxUnexpected => c
  | .rxStray => { c with rxStray := satInc c.rxStray }
  | .rxNoroom => c
  | .txDone => { c with txDone := satInc c.txDone }

/-- Count one in counter `c` of port `p` (R16). -/
def State.countPort (s : State) (p : Port) (c : PortCounter) : State :=
  match p with
  | .t => s.setCounters { s.counters with trunk := s.counters.trunk.bump c }
  | .a => s.setCounters { s.counters with dropA := s.counters.dropA.bump c }
  | .b => s.setCounters { s.counters with dropB := s.counters.dropB.bump c }

/-- The counters of station `n` (R193). -/
def State.stationCounters (s : State) (n : Nat) : StationCounters :=
  Table.get StationCounters.zero s.counters.stations n

/-- Change the counters of station `n`. -/
def State.countStation (s : State) (n : Nat) (f : StationCounters → StationCounters) : State :=
  s.setCounters { s.counters with
    stations := Table.set StationCounters.zero s.counters.stations n (f (s.stationCounters n)) }

/-- TRANSMISSIONS + 1 (R91). -/
def StationCounters.bumpTransmissions (c : StationCounters) : StationCounters :=
  { c with transmissions := satInc c.transmissions }

/-- RETRIES + 1 (R93). -/
def StationCounters.bumpRetries (c : StationCounters) : StationCounters := { c with retries := satInc c.retries }

/-- REPLIES_OK + 1 (R96). -/
def StationCounters.bumpRepliesOk (c : StationCounters) : StationCounters := { c with repliesOk := satInc c.repliesOk }

/-- FAILURES + 1 (R94). -/
def StationCounters.bumpFailures (c : StationCounters) : StationCounters := { c with failures := satInc c.failures }

/-- SUBSTITUTIONS + 1 (R137). -/
def StationCounters.bumpSubstitutions (c : StationCounters) : StationCounters :=
  { c with substitutions := satInc c.substitutions }

/-- SUPERSEDED + 1 (R71). -/
def StationCounters.bumpSuperseded (c : StationCounters) : StationCounters :=
  { c with superseded := satInc c.superseded }

/-- The counts of one point application (R126). -/
def StationCounters.addPoints (c : StationCounters) (faults limits skips : Nat) : StationCounters :=
  { c with pointFaults := satAdd c.pointFaults faults, pointLimits := satAdd c.pointLimits limits,
           shortSkips := satAdd c.shortSkips skips }

/-- DUPLICATES + 1 (R162). -/
def State.countDuplicate (s : State) : State :=
  s.setCounters { s.counters with duplicates := satInc s.counters.duplicates }

/-- QUEUE_FULL + 1 (R163). -/
def State.countQueueFull (s : State) : State :=
  s.setCounters { s.counters with queueFull := satInc s.counters.queueFull }

/-! ## The codes of R17 and R18 -/

/-- REPLY status codes (R17). -/
def ReplyStatus.code : ReplyStatus → Byte
  | .ok => 0
  | .subst => 1
  | .noreply => 2
  | .refused => 3
  | .unrouted => 4
  | .superseded => 5
  | .echo => 6
  | .overrun => 7

/-- Answer status codes (R17). -/
def AnswerStatus.code : AnswerStatus → Byte
  | .done => 0
  | .badOperation => 1
  | .badArgument => 2
  | .format => 3
  | .notStandby => 4
  | .engineBusy => 5
  | .checkFailed => 6
  | .cancelled => 7
  | .nothingPending => 8
  | .noRoom => 9

/-- A flag of an answer: 1 for true, 0 for false (R18). -/
def flagWord (b : Bool) : Word := if b then 1 else 0

/-- Bank state codes (R18). -/
def BankState.code : BankState → Word
  | .active => 0
  | .standby => 1
  | .filling => 2
  | .checking => 3
  | .pending => 4
  | .retiring => 5

/-- Segment state codes (R18). -/
def SegState.code : SegState → Word
  | .idle => 0
  | .sending => 1
  | .awaiting => 2

/-- Health codes (R18). -/
def Health.code : Health → Word
  | .unknown => 0
  | .up => 1
  | .failing => 2
  | .down => 3

/-- Mode codes (R18). -/
def Mode.code : Mode → Word
  | .normal => 0
  | .isolated => 1
  | .echo => 2

/-- Bank numbers (R37). -/
def BankId.code : BankId → Word
  | .bank0 => 0
  | .bank1 => 1

end Sys2Proof.Machine
end

