-- ==== Sys2Proof/Machine/Line.lean ====
section
/-! DEFINITION. The telegram on the line (chapter 1): the CRC, the bytes and bits a transmitter sends, the byte a
receiver takes from ten line bits, and the checks it makes of the bytes it has collected. -/

namespace Sys2Proof.Machine

/-! ## Words and bytes -/

/-- The high byte of a word. -/
def hiByte (w : Word) : Byte := w.extractLsb' 8 8

/-- The low byte of a word. -/
def loByte (w : Word) : Byte := w.extractLsb' 0 8

/-- The word of a high and a low byte. -/
def wordOf (hi lo : Byte) : Word := hi ++ lo

/-- Words as bytes, each high byte first (R2). -/
def wordBytes : List Word → List Byte
  | [] => []
  | w :: ws => hiByte w :: loByte w :: wordBytes ws

/-- Bytes as words, each high byte first (R2); a last byte alone makes no word. -/
def bytesWords : List Byte → List Word
  | hi :: lo :: rest => wordOf hi lo :: bytesWords rest
  | _ => []

/-! ## The CRC (R3) -/

/-- The generator x^16 + x^12 + x^5 + 1 without its leading term (R3). -/
def crcGenerator : Word := 0x1021

/-- The check register's starting value (R3). -/
def crcStart : Word := 0xFFFF

/-- Feed one bit into the check register. -/
def crcBit (c : Word) (bit : Bool) : Word :=
  if xor c.msb bit then (c <<< 1) ^^^ crcGenerator else c <<< 1

/-- Feed one byte, most significant bit first (R3). -/
def crcByte (c : Word) (b : Byte) : Word :=
  [7, 6, 5, 4, 3, 2, 1, 0].foldl (fun c i => crcBit c (b.getLsbD i)) c

/-- The CRC of header and data bytes: the register after the last of them, not inverted (R3). -/
def crc16 (bytes : List Byte) : Word := bytes.foldl crcByte crcStart

/-! ## Sending (R2, R10) -/

/-- Kind codes (section 1.7). -/
def Kind.code : Kind → BitVec 4
  | .poll => 1
  | .reply => 2
  | .sync => 3
  | .mgmtReq => 4
  | .mgmtAns => 5
  | .notice => 6

/-- The known kind of a kind code; 0 and 7 to 15 are unknown (R8). -/
def Kind.ofCode (c : BitVec 4) : Option Kind :=
  match c.toNat with
  | 1 => some .poll
  | 2 => some .reply
  | 3 => some .sync
  | 4 => some .mgmtReq
  | 5 => some .mgmtAns
  | 6 => some .notice
  | _ => none

/-- The marks a port sends: 0 on the drops (R10). -/
def sentMarks (p : Port) (t : Telegram) : BitVec 4 :=
  match p with
  | .t => t.marks.bits
  | .a => 0
  | .b => 0

/-- The status byte a port sends: 0 on the drops (R10). -/
def sentStatus (p : Port) (t : Telegram) : Byte :=
  match p with
  | .t => t.status
  | .a => 0
  | .b => 0

/-- The six header bytes a port sends (R10). -/
def headerBytes (p : Port) (t : Telegram) : List Byte :=
  [t.dest.setWidth 8, t.src.setWidth 8, sentMarks p t ++ t.kind.code, t.seq, sentStatus p t,
   BitVec.ofNat 8 t.words.length]

/-- The header and data bytes a port sends, which the CRC covers (R3). -/
def bodyBytes (p : Port) (t : Telegram) : List Byte := headerBytes p t ++ wordBytes t.words

/-- The lead byte (R2). -/
def leadByteValue : Byte := 0x5A

/-- Every byte a port sends of a telegram: the lead byte, header, data, and the CRC, high byte first (R2, R10). -/
def lineBytes (p : Port) (t : Telegram) : List Byte :=
  leadByteValue :: (bodyBytes p t ++ [hiByte (crc16 (bodyBytes p t)), loByte (crc16 (bodyBytes p t))])

/-- The bits of a serial byte, in line order (R1). -/
def serialBits (f : SerialByte) : List Bool := [0, 1, 2, 3, 4, 5, 6, 7, 8, 9].map fun i => f.getLsbD i

/-- The serial byte a port sends for a byte: a low start bit, the data bits, a high stop bit (R1). -/
def serialOf (b : Byte) : SerialByte := (1 : BitVec 1) ++ b ++ (0 : BitVec 1)

/-- The serial bytes a port sends of a telegram (R1, R2). -/
def lineSerial (p : Port) (t : Telegram) : List SerialByte := (lineBytes p t).map serialOf

/-- The bits a port sends of a telegram, byte after byte with no idle time between (R1). -/
def lineBits (p : Port) (t : Telegram) : List Bool := (lineSerial p t).flatMap serialBits

/-- What a transmit output carries: the bits of the telegram being sent, or nothing, when it rests high: IDLE, SPACING,
and while reset is asserted (R12, R203). -/
def State.transmitted (s : State) (p : Port) : Option (List Bool) :=
  if s.resetHeld then none
  else
    match (s.port p).tx with
    | .sending t => some (lineBits p t)
    | .idle => none
    | .spacing _ => none

/-! ## Receiving serial bytes (R1) -/

/-- The data bits of a serial byte, the first on the line being the least significant (R1). -/
def dataByte (f : SerialByte) : Byte := f.extractLsb' 1 8

/-- The byte a receiver takes from ten line bits: the data bits as sampled, whether the stop bit is found high or low. With
a high first bit there is no start bit: the line rests, and no byte is taken (R1). -/
def takenByte (f : SerialByte) : Option Byte := if f.getLsbD 0 then none else some (dataByte f)

/-- The bytes a receiver takes from serial bytes that come one after another. -/
def takenBytes (fs : List SerialByte) : List Byte := fs.filterMap takenByte

/-- The serial bytes on a receive line, given the level of each bit time: a line that rests high holds none, a low level
between bytes is a start bit, and the stop bit ends the byte at whatever level it is found (R1, R202). Fewer than ten bits
are a byte still under way. -/
def serialBytes : List Bool → List SerialByte
  | true :: rest => serialBytes rest
  | false :: d0 :: d1 :: d2 :: d3 :: d4 :: d5 :: d6 :: d7 :: stop :: rest =>
    BitVec.ofBoolListLE [false, d0, d1, d2, d3, d4, d5, d6, d7, stop] :: serialBytes rest
  | _ => []

/-! ## Receiving telegrams (R4 to R9) -/

/-- What an arrival hands to classification (R9); the count is the number of words. -/
structure Arrival where
  dest : Addr
  src : Addr
  kind : Kind
  seq : Byte
  words : List Word
  deriving DecidableEq, Repr

/-- What the checks of R7 and R8 make of a completed telegram. -/
inductive TelegramCheck where
  | crcMismatch
  | unknownKind
  | arrived (a : Arrival)
  deriving DecidableEq, Repr

/-- Header byte `i` of the receive buffer. -/
def bufByte (buf : List Byte) (i : Nat) : Byte := buf.getD i 0

/-- The count of the telegram being collected, once its sixth header byte is in (R6). -/
def bufCount (buf : List Byte) : Nat := (bufByte buf 5).toNat

/-- Whether the buffer holds header, data and both CRC bytes (R6, R7). -/
def bufComplete (buf : List Byte) : Bool := 6 ≤ buf.length && buf.length = 8 + 2 * bufCount buf

/-- The checks of a completed telegram: the CRC (R7), then the kind (R8). -/
def checkTelegram (buf : List Byte) : TelegramCheck :=
  let body := buf.take (6 + 2 * bufCount buf)
  let sent := wordOf (bufByte buf (6 + 2 * bufCount buf)) (bufByte buf (7 + 2 * bufCount buf))
  if crc16 body = sent then
    match Kind.ofCode ((bufByte buf 2).setWidth 4) with
    | none => .unknownKind
    | some k =>
      .arrived
        { dest := (bufByte buf 0).setWidth 6, src := (bufByte buf 1).setWidth 6, kind := k, seq := bufByte buf 3,
          words := bytesWords (body.drop 6) }
  else .crcMismatch

end Sys2Proof.Machine
end

