-- ==== Sys2Proof/Machine/TelegramMemory.lean ====
section
/-! DEFINITION. Telegram Memory (chapter 2): chains, allocation by class, chain replacement, release, holders. -/

namespace Sys2Proof.Machine

/-- The blocks that `n` words take: ceil(n/8) (R22). -/
def blocksFor (n : Nat) : Nat := (n + 7) / Config.blockWords

/-- The reserve of descriptors that traffic leaves behind (R25). -/
def reserveDescs : Nat := 8

/-- The reserve of blocks that traffic leaves behind (R25). -/
def reserveBlocks : Nat := 16

/-- The allocation classes (R25, R26). -/
inductive AllocClass where
  | traffic | part
  deriving DecidableEq, Repr

/-- Whether an allocation of `nd` descriptors and `nb` blocks succeeds, by its class alone (R25, R26). -/
def TelegramMemory.admits (m : TelegramMemory) (cls : AllocClass) (nd nb : Nat) : Bool :=
  match cls with
  | .traffic => nd + reserveDescs ≤ m.freeDescs.length && nb + reserveBlocks ≤ m.freeBlocks.length
  | .part => nd ≤ m.freeDescs.length && nb ≤ m.freeBlocks.length

/-- The word address of word `i` of block `b`. -/
def wordAddr (b i : Nat) : Nat := Config.blockWords * b + i

/-- Word `i` of block `b`. -/
def TelegramMemory.word (m : TelegramMemory) (b i : Nat) : Word := Table.get 0 m.blocks (wordAddr b i)

/-- Write word `i` of block `b`. -/
def TelegramMemory.setWord (m : TelegramMemory) (b i : Nat) (w : Word) : TelegramMemory :=
  { m with blocks := Table.set 0 m.blocks (wordAddr b i) w }

/-- Write the eight words of block `b` from `ws`; the words beyond the end of `ws` are set to 0 (R22). -/
def TelegramMemory.setBlock (m : TelegramMemory) (b : Nat) (ws : List Word) : TelegramMemory :=
  (List.range Config.blockWords).foldl (fun m i => m.setWord b i (ws.getD i 0)) m

/-- Write data words into a chain: block k holds words 8k to 8k + 7 (R22). -/
def TelegramMemory.writeChain (m : TelegramMemory) : List Nat → List Word → TelegramMemory
  | [], _ => m
  | b :: rest, ws => TelegramMemory.writeChain (m.setBlock b ws) rest (ws.drop Config.blockWords)

/-- The first `n` data words of a chain (R22). -/
def TelegramMemory.readChain (m : TelegramMemory) : List Nat → Nat → List Word
  | [], _ => []
  | b :: rest, n =>
    ((List.range (min n Config.blockWords)).map fun i => m.word b i)
      ++ TelegramMemory.readChain m rest (n - Config.blockWords)

/-- The IN USE descriptor `d` (R21). -/
def TelegramMemory.desc (m : TelegramMemory) (d : Nat) : Descriptor := (Table.lookup m.descs d).getD Descriptor.blank

/-- Write the fields of the IN USE descriptor `d`. -/
def TelegramMemory.setDesc (m : TelegramMemory) (d : Nat) (x : Descriptor) : TelegramMemory :=
  { m with descs := Table.insert m.descs d x }

/-- The data words of descriptor `d` (R22). -/
def TelegramMemory.words (m : TelegramMemory) (d : Nat) : List Word := m.readChain (m.desc d).chain (m.desc d).count

/-- Rewrite the data words of descriptor `d` in its present chain; its count stays (R22). -/
def TelegramMemory.rewriteWords (m : TelegramMemory) (d : Nat) (ws : List Word) : TelegramMemory :=
  m.writeChain (m.desc d).chain ws

/-- Take `nd` descriptors and `nb` blocks from the heads of the free lists, and lower the minima that are above the new
free counts (R24, R34). -/
def TelegramMemory.takeFree (m : TelegramMemory) (nd nb : Nat) : TelegramMemory :=
  { m with
    freeDescs := m.freeDescs.drop nd
    freeBlocks := m.freeBlocks.drop nb
    minDescs := min m.minDescs (m.freeDescs.drop nd).length
    minBlocks := min m.minBlocks (m.freeBlocks.drop nb).length }

/-- The header fields a requester supplies at an allocation (R21). -/
structure Header where
  dest : Addr
  src : Addr
  kind : Kind
  seq : Byte
  status : Byte
  deriving DecidableEq, Repr

/-- The descriptor an allocation writes: marks clear, no holder yet, stamp NONE (R21). -/
def Header.descriptor (h : Header) (count : Nat) (chain : List Nat) : Descriptor :=
  { dest := h.dest, src := h.src, kind := h.kind, marks := Marks.clear, seq := h.seq, status := h.status,
    count := count, chain := chain, holders := 0, stamp := none }

/-- Allocate one descriptor with the data words `ws`: whole, or not at all (R24). -/
def TelegramMemory.allocate (m : TelegramMemory) (cls : AllocClass) (h : Header) (ws : List Word) :
    Option (Nat × TelegramMemory) :=
  match m.freeDescs with
  | [] => none
  | d :: _ =>
    if m.admits cls 1 (blocksFor ws.length) then
      let chain := m.freeBlocks.take (blocksFor ws.length)
      some (d, (((m.takeFree 1 (blocksFor ws.length)).setDesc d (h.descriptor ws.length chain)).writeChain chain ws))
    else none

/-- Give the blocks of descriptor `d` back to the tail of the free block list, in chain order: count 0, empty chain
(R27). -/
def TelegramMemory.emptyChain (m : TelegramMemory) (d : Nat) : TelegramMemory :=
  { (m.setDesc d { m.desc d with count := 0, chain := [] }) with freeBlocks := m.freeBlocks ++ (m.desc d).chain }

/-- Chain replacement: release first, then a part-originated allocation of the new chain; says whether it succeeded
(R27). -/
def TelegramMemory.replaceChain (m : TelegramMemory) (d : Nat) (ws : List Word) : Bool × TelegramMemory :=
  let m1 := m.emptyChain d
  let nb := blocksFor ws.length
  if ws = [] then (true, m1)
  else if m1.admits .part 0 nb then
    let chain := m1.freeBlocks.take nb
    (true, (((m1.takeFree 0 nb).setDesc d { m1.desc d with count := ws.length, chain := chain }).writeChain chain ws))
  else (false, m1)

/-- Release descriptor `d`: its blocks, then itself, go to the tails of the free lists (R29). -/
def TelegramMemory.release (m : TelegramMemory) (d : Nat) : TelegramMemory :=
  { m with
    descs := Table.erase m.descs d
    freeBlocks := m.freeBlocks ++ (m.desc d).chain
    freeDescs := m.freeDescs ++ [d] }

/-- A holder takes a reference (R28). -/
def TelegramMemory.hold (m : TelegramMemory) (d : Nat) : TelegramMemory :=
  m.setDesc d { m.desc d with holders := (m.desc d).holders + 1 }

/-- A holder gives a reference up (R28). -/
def TelegramMemory.unhold (m : TelegramMemory) (d : Nat) : TelegramMemory :=
  m.setDesc d { m.desc d with holders := (m.desc d).holders - 1 }

/-- The numbers of the IN USE descriptors, ascending. -/
def TelegramMemory.inUse (m : TelegramMemory) : List Nat := List.map (fun e => e.1) m.descs

/-- Release every IN USE descriptor but `keep`, in ascending descriptor number (R36). -/
def TelegramMemory.releaseAllBut (m : TelegramMemory) (keep : Nat) : TelegramMemory :=
  (m.inUse.filter fun d => d ≠ keep).foldl TelegramMemory.release m

/-! ## On the state -/

/-- The IN USE descriptor `d`. -/
def State.desc (s : State) (d : Nat) : Descriptor := s.mem.desc d

/-- The data words of descriptor `d`. -/
def State.words (s : State) (d : Nat) : List Word := s.mem.words d

/-- Rewrite fields of descriptor `d`. -/
def State.modDesc (s : State) (d : Nat) (f : Descriptor → Descriptor) : State :=
  s.setMem (s.mem.setDesc d (f (s.desc d)))

/-- A holder takes a reference to `d` (R28). -/
def State.hold (s : State) (d : Nat) : State := s.setMem (s.mem.hold d)

/-- The telegram a transmitter copies from descriptor `d` (R10). -/
def State.telegram (s : State) (d : Nat) : Telegram :=
  { dest := (s.desc d).dest, src := (s.desc d).src, kind := (s.desc d).kind, marks := (s.desc d).marks,
    seq := (s.desc d).seq, status := (s.desc d).status, words := s.words d }

/-- The stations' number that descriptor `d` is addressed to. -/
def State.stationOf (s : State) (d : Nat) : Nat := (s.desc d).dest.toNat

end Sys2Proof.Machine
end

