-- ==== Sys2Proof/Machine/Egress.lean ====
section
/-! DEFINITION. Handing a telegram to a transmitter (R10) and the trunk egress queue (section 8.5). -/

namespace Sys2Proof.Machine

/-- Hand descriptor `d` to the transmitter of port `p`: an IDLE transmitter copies it and starts; one in SPACING holds
it (R10). A SENDING transmitter is never handed one (section 1.4; log entry 12). -/
def State.handTx (s : State) (p : Port) (d : Nat) : State :=
  match (s.port p).tx with
  | .idle => s.setTx p (.sending (s.telegram d))
  | .spacing _ => s.setTx p (.spacing (some d))
  | .sending _ => s

/-- Hand the head of trunk egress to port T, if there is one and it has not been handed (R153). -/
def State.handHead (s : State) : State :=
  match s.egress.queue, s.egress.handed with
  | d :: _, false => (s.setEgress { s.egress with handed := true }).handTx .t d
  | _, _ => s

/-- Descriptor `d`, whose reference its builder gives up, joins the tail of trunk egress (R152). -/
def State.joinEgress (s : State) (d : Nat) : State :=
  (s.setEgress { s.egress with queue := s.egress.queue ++ [d] }).handHead

end Sys2Proof.Machine
end

