-- ==== Sys2Proof/Machine/Notices.lean ====
section
/-! DEFINITION. The Notice Unit (sections 10.1 and 10.2): reports, the pending set, emission attempts, and the
allocation-freeing operations that lead to an attempt (R29, R187, R189). -/

namespace Sys2Proof.Machine

/-- The address of the part (00_scope, Addresses). -/
def partAddr : Addr := 62

/-- The address of the controller (00_scope, Addresses). -/
def controllerAddr : Addr := 0

/-- The broadcast address (00_scope, Addresses). -/
def broadcastAddr : Addr := 63

/-- The four data words of a notice; a station's health is read at the emission (R188, section 1.7). -/
def noticeWords (s : State) : NoticeEntry → List Word
  | .bank b label cycle => [1, b.code, label, cycle]
  | .station n changes => [2, BitVec.ofNat 16 n, (s.station n).health.code, BitVec.ofNat 16 changes]

/-- The header of a notice (R188). -/
def noticeHeader (number : Byte) : Header :=
  { dest := controllerAddr, src := partAddr, kind := .notice, seq := number, status := 0 }

/-- One emission: the head entry becomes a NOTICE in trunk egress, if the set is not empty, the notice count is below 2
and one descriptor and one block can be had, in that order (R187, R188). -/
def State.emitOne (s : State) : Option State :=
  match s.notices.pendingSet with
  | [] => none
  | e :: rest =>
    if s.egress.noticeCount < 2 then
      match s.mem.allocate .part (noticeHeader s.notices.number) (noticeWords s e) with
      | none => none
      | some (d, m) =>
        some ((((s.setMem (m.hold d)).setNotices { pendingSet := rest, number := s.notices.number + 1 }).setEgress
          { s.egress with noticeCount := s.egress.noticeCount + 1 }).joinEgress d)
    else none

/-- An emission attempt: entries are emitted until one cannot be; the notice limit allows two at most (R187). -/
def State.emissionAttempt (s : State) : State :=
  match s.emitOne with
  | none => s
  | some s1 =>
    match s1.emitOne with
    | none => s1
    | some s2 => s2

/-- Replace the bank entry's values where one stands (R184). -/
def updateBankEntry (b : BankId) (label cycle : Word) : NoticeEntry → NoticeEntry
  | .bank _ _ _ => .bank b label cycle
  | e => e

/-- Whether an entry is the bank's. -/
def NoticeEntry.isBank : NoticeEntry → Bool
  | .bank _ _ _ => true
  | .station _ _ => false

/-- Whether an entry is station `n`'s. -/
def NoticeEntry.isStation (n : Nat) : NoticeEntry → Bool
  | .bank _ _ _ => false
  | .station k _ => k = n

/-- Raise the change count of station `n`'s entry, staying at 65535 (R185). -/
def updateStationEntry (n : Nat) : NoticeEntry → NoticeEntry
  | .bank b l c => .bank b l c
  | .station k changes => if k = n then .station k (min 65535 (changes + 1)) else .station k changes

/-- The pending set after a BANK_SWITCHED report (R184). -/
def reportBankIn (b : BankId) (label cycle : Word) (es : List NoticeEntry) : List NoticeEntry :=
  if es.any NoticeEntry.isBank then es.map (updateBankEntry b label cycle) else es ++ [.bank b label cycle]

/-- The pending set after a STATION_STATE report (R185). -/
def reportStationIn (n : Nat) (es : List NoticeEntry) : List NoticeEntry :=
  if es.any (NoticeEntry.isStation n) then es.map (updateStationEntry n) else es ++ [.station n 1]

/-- A BANK_SWITCHED report and its emission attempt (R184). -/
def State.reportBank (s : State) (b : BankId) (label cycle : Word) : State :=
  (s.setNotices { s.notices with pendingSet := reportBankIn b label cycle s.notices.pendingSet }).emissionAttempt

/-- A STATION_STATE report and its emission attempt (R185). -/
def State.reportStation (s : State) (n : Nat) : State :=
  (s.setNotices { s.notices with pendingSet := reportStationIn n s.notices.pendingSet }).emissionAttempt

/-- Chain replacement of descriptor `d`, then the emission attempt that follows it (R27, R189; log entry 9). Says
whether the replacement succeeded. -/
def State.replaceChain (s : State) (d : Nat) (ws : List Word) : Bool × State :=
  ((s.mem.replaceChain d ws).1, (s.setMem (s.mem.replaceChain d ws).2).emissionAttempt)

/-- A holder gives up its reference to `d`, and a descriptor left with none is released (R28, R29). -/
def TelegramMemory.dropRef (m : TelegramMemory) (d : Nat) : TelegramMemory :=
  if ((m.unhold d).desc d).holders = 0 then (m.unhold d).release d else m.unhold d

/-- A holder gives up its reference to `d`; the release of `d`, if it comes to that, is a memory freed event (R29,
R187). -/
def State.unhold (s : State) (d : Nat) : State :=
  if ((s.mem.unhold d).desc d).holders = 0 then (s.setMem (s.mem.dropRef d)).emissionAttempt
  else s.setMem (s.mem.dropRef d)

end Sys2Proof.Machine
end

