-- ==== Sys2Proof/Machine/Operands.lean ====
section
/-! DEFINITION. The operand forms of a management request: its operation code, the count each operation requires, and
its arguments, each compared as a whole 16-bit word (R18, R19, section 1.7). -/

namespace Sys2Proof.Machine

/-- The fifteen management operations (section 1.7). -/
inductive MgmtOp where
  | status | readStation | writeStation | readPoints | writePoints | setLabel | readImage | readStationState
  | readCounters | clearCounters | setMode | copy | commit | cancel | restart
  deriving DecidableEq, Repr

/-- The operation a request's word 0 names; a word outside 1 to 15 names none (R19). -/
def MgmtOp.ofCode (w : Word) : Option MgmtOp :=
  match w.toNat with
  | 1 => some .status
  | 2 => some .readStation
  | 3 => some .writeStation
  | 4 => some .readPoints
  | 5 => some .writePoints
  | 6 => some .setLabel
  | 7 => some .readImage
  | 8 => some .readStationState
  | 9 => some .readCounters
  | 10 => some .clearCounters
  | 11 => some .setMode
  | 12 => some .copy
  | 13 => some .commit
  | 14 => some .cancel
  | 15 => some .restart
  | _ => none

/-- Word `i` of a request, as an unsigned number (R19). -/
def argNat (words : List Word) (i : Nat) : Nat := (words.getD i 0).toNat

/-- Whether a request's count fits its operation (R19, R166 test 3; the request table of section 1.7). -/
def MgmtOp.fits (op : MgmtOp) (words : List Word) : Bool :=
  match op with
  | .status => words.length = 1
  | .readStation => words.length = 3
  | .writeStation => words.length = 12
  | .readPoints => words.length = 4
  | .writePoints =>
    4 ≤ words.length && (1 ≤ argNat words 3 && argNat words 3 ≤ 4) && words.length = 4 + 6 * argNat words 3
  | .setLabel => words.length = 3
  | .readImage => words.length = 4
  | .readStationState => words.length = 2
  | .readCounters => words.length = 2
  | .clearCounters => words.length = 2
  | .setMode => words.length = 3
  | .copy => words.length = 1
  | .commit => words.length = 1
  | .cancel => words.length = 1
  | .restart => words.length = 1

/-- What tests 1 to 3 of R166 make of a request. -/
inductive Request where
  | malformed (st : AnswerStatus)
  | op (o : MgmtOp)
  deriving DecidableEq, Repr

/-- Tests 1 to 3 of R166, in their order. -/
def classifyRequest (words : List Word) : Request :=
  match words with
  | [] => .malformed .format
  | w :: _ =>
    match MgmtOp.ofCode w with
    | none => .malformed .badOperation
    | some o => if o.fits words then .op o else .malformed .format

/-- A bank argument: 0 or 1 (R42). -/
def bankArg (w : Word) : Option BankId :=
  match w.toNat with
  | 0 => some .bank0
  | 1 => some .bank1
  | _ => none

/-- A station argument: 1 to 61 (R42). -/
def stationArg (w : Word) : Option Nat := if 1 ≤ w.toNat ∧ w.toNat ≤ Config.stations then some w.toNat else none

/-- A mode argument: 0, 1 or 2 (R173). -/
def modeArg (w : Word) : Option Mode :=
  match w.toNat with
  | 0 => some .normal
  | 1 => some .isolated
  | 2 => some .echo
  | _ => none

/-- An image direction argument: 0 inbound (`false`), 1 outbound (`true`) (R18, R170). -/
def directionArg (w : Word) : Option Bool :=
  match w.toNat with
  | 0 => some false
  | 1 => some true
  | _ => none

/-- A segment field of a station entry: 0, 1 or 2 (R18). -/
def routeArg (w : Word) : Option Route :=
  match w.toNat with
  | 0 => some .none
  | 1 => some .a
  | 2 => some .b
  | _ => none

/-- The code of a segment field (R18). -/
def Route.code : Route → Word
  | .none => 0
  | .a => 1
  | .b => 2

/-- A point kind code: 0 to 10 (section 6.2). -/
def pointKindArg (w : Word) : Option PointKind :=
  match w.toNat with
  | 0 => some .none
  | 1 => some .fixed
  | 2 => some .complement
  | 3 => some .bcdToBin
  | 4 => some .binToBcd
  | 5 => some .bcd8ToBin32
  | 6 => some .bin32ToBcd8
  | 7 => some .scale
  | 8 => some .clamp
  | 9 => some .bits
  | 10 => some .range
  | _ => none

/-- The code of a point kind (section 6.2). -/
def PointKind.code : PointKind → Word
  | .none => 0
  | .fixed => 1
  | .complement => 2
  | .bcdToBin => 3
  | .binToBcd => 4
  | .bcd8ToBin32 => 5
  | .bin32ToBcd8 => 6
  | .scale => 7
  | .clamp => 8
  | .bits => 9
  | .range => 10

/-- A policy code: 0 or 1 (R18). -/
def policyArg (w : Word) : Option Policy :=
  match w.toNat with
  | 0 => some .substitute
  | 1 => some .hold
  | _ => none

/-- The code of a policy (R18). -/
def Policy.code : Policy → Word
  | .substitute => 0
  | .hold => 1

/-- A word as an unsigned number between `lo` and `hi`. -/
def rangeArg (lo hi : Nat) (w : Word) : Option Nat := if lo ≤ w.toNat ∧ w.toNat ≤ hi then some w.toNat else none

/-- The station entry that nine words carry, if every one is in its field's range (R43). -/
def StationEntry.ofWords (ws : List Word) : Option StationEntry := do
  let route ← routeArg (ws.getD 0 0)
  let window ← rangeArg 1 255 (ws.getD 1 0)
  let retryLimit ← rangeArg 0 3 (ws.getD 2 0)
  let downThreshold ← rangeArg 1 15 (ws.getD 3 0)
  let ageLimit ← rangeArg 0 255 (ws.getD 4 0)
  let outFirst ← rangeArg 0 1023 (ws.getD 5 0)
  let outLength ← rangeArg 0 32 (ws.getD 6 0)
  let inFirst ← rangeArg 0 1023 (ws.getD 7 0)
  let inLength ← rangeArg 0 32 (ws.getD 8 0)
  pure ⟨route, window, retryLimit, downThreshold, ageLimit, outFirst, outLength, inFirst, inLength⟩

/-- The nine words of a station entry, in the order they travel (section 1.7). -/
def StationEntry.toWords (e : StationEntry) : List Word :=
  [e.route.code, BitVec.ofNat 16 e.window, BitVec.ofNat 16 e.retryLimit, BitVec.ofNat 16 e.downThreshold,
   BitVec.ofNat 16 e.ageLimit, BitVec.ofNat 16 e.outFirst, BitVec.ofNat 16 e.outLength, BitVec.ofNat 16 e.inFirst,
   BitVec.ofNat 16 e.inLength]

/-- The point record that six words carry, if word index, kind and policy are in range (R43). -/
def PointRecord.ofWords (ws : List Word) : Option PointRecord := do
  let index ← rangeArg 0 31 (ws.getD 0 0)
  let kind ← pointKindArg (ws.getD 1 0)
  let policy ← policyArg (ws.getD 2 0)
  pure ⟨index, kind, policy, ws.getD 3 0, ws.getD 4 0, ws.getD 5 0⟩

/-- The six words of a point record, in the order they travel (section 1.7). -/
def PointRecord.toWords (r : PointRecord) : List Word :=
  [BitVec.ofNat 16 r.index, r.kind.code, r.policy.code, r.a, r.b, r.subst]

/-- The `n` point records that follow in `ws`, six words each, if every one is in range (R43). -/
def pointRecordsArg (n : Nat) (ws : List Word) : Option (List PointRecord) :=
  match n with
  | 0 => some []
  | k + 1 => do
    let r ← PointRecord.ofWords (ws.take 6)
    let rs ← pointRecordsArg k (ws.drop 6)
    pure (r :: rs)

/-- A counter group (section 10.3). -/
inductive Group where
  | trunk | dropA | dropB | memoryAgent
  | station (s : Nat)
  deriving DecidableEq, Repr

/-- A group argument: 0 to 3, or 17 to 77 (R172). -/
def groupArg (w : Word) : Option Group :=
  match w.toNat with
  | 0 => some .trunk
  | 1 => some .dropA
  | 2 => some .dropB
  | 3 => some .memoryAgent
  | n => if 17 ≤ n ∧ n ≤ 16 + Config.stations then some (.station (n - 16)) else none

/-- A 32-bit counter as two words, low word first (R20). -/
def counterWords (c : BitVec 32) : List Word := [c.extractLsb' 0 16, c.extractLsb' 16 16]

end Sys2Proof.Machine
end

