-- ==== Sys2Proof/Machine/Banks.lean ====
section
/-! DEFINITION. The Bank Controller (chapter 3): the ACTIVE bank, stamps and in-flight counts, the switch, the copy's
progress, and commit validation. -/

namespace Sys2Proof.Machine

/-- The number of the ACTIVE bank (R41). -/
def State.active (s : State) : BankId := if s.bank0.state = .active then .bank0 else .bank1

/-- The number of the non-active bank (R41). -/
def State.standbyId (s : State) : BankId := s.active.other

/-- The state of the non-active bank. -/
def State.standbyState (s : State) : BankState := (s.bank s.standbyId).state

/-- Whether the bank engine is running: exactly when the non-active bank is FILLING or CHECKING (R50). -/
def State.engineRunning (s : State) : Bool := s.standbyState = .filling || s.standbyState = .checking

/-- Change the state of bank `b`. -/
def State.setBankState (s : State) (b : BankId) (st : BankState) : State := s.setBank b { s.bank b with state := st }

/-! ## Stamps (R46, R47) -/

/-- Stamp descriptor `d` with the ACTIVE bank, whose in-flight count rises by 1 (R46). -/
def State.stamp (s : State) (d : Nat) : State :=
  (s.modDesc d fun x => { x with stamp := some s.active }).setBank s.active
    { s.bank s.active with inFlight := (s.bank s.active).inFlight + 1 }

/-- A bank after one of its stamps is released: the count falls, and a RETIRING bank reaching 0 goes to STANDBY (R47). -/
def Bank.releaseOne (b : Bank) : Bank :=
  { b with
    inFlight := b.inFlight - 1
    state := if b.state = .retiring ∧ b.inFlight - 1 = 0 then .standby else b.state }

/-- Release the stamp of descriptor `d`, if it carries one (R47). -/
def State.releaseStamp (s : State) (d : Nat) : State :=
  match (s.desc d).stamp with
  | none => s
  | some b => (s.modDesc d fun x => { x with stamp := none }).setBank b (s.bank b).releaseOne

/-- The bank a stamped poll is treated under; an unstamped descriptor names none (log entry 12). -/
def State.stampedBank (s : State) (d : Nat) : BankId := (s.desc d).stamp.getD s.active

/-- The station entry of descriptor `d`'s station in its stamped bank (R38). -/
def State.stampedEntry (s : State) (d : Nat) : StationEntry := (s.bank (s.stampedBank d)).entry (s.stationOf d)

/-! ## The switch at SYNC (R60) -/

/-- The switch check of a sync admission: a PENDING bank becomes ACTIVE, the former ACTIVE bank RETIRING or STANDBY, and
the BANK_SWITCHED report is made (R60). -/
def State.switchCheck (s : State) : State :=
  let new := s.standbyId
  let old := s.active
  if s.standbyState = .pending then
    let s1 := (s.setBankState new .active).setBankState old (if (s.bank old).inFlight = 0 then .standby else .retiring)
    s1.reportBank new (s.bank new).label s1.cycle.number
  else s

/-! ## The copy (R52, R201) -/

/-- Entries and records in the copy order: stations 1 to 61, then points 0 to 1023 (R52). -/
def copyLength : Nat := Config.stations + Config.points

/-- The label INCOMPLETE (R40). -/
def labelIncomplete : Word := 65535

/-- The contents of a copy's target once the first `n` entries and records hold the source's values (R52). -/
def Bank.copyFrom (tgt src : Bank) (n : Nat) : Bank :=
  { tgt with
    stations := Table.splice src.stations tgt.stations (min n Config.stations + 1)
    points := Table.splice src.points tgt.points (n - Config.stations) }

/-- The copy as it is next observed: it has advanced by a free amount, never back (R52; log entry 5). -/
def State.copyAdvances (s : State) : State :=
  let n := min copyLength (s.copyDone + Config.copyAdvance s.freeTick)
  ((s.setBank s.standbyId ((s.bank s.standbyId).copyFrom (s.bank s.active) n)).setCopyDone n).tickFree

/-- Before bank `b` is read, its copy advances if it is the target of one (R42, R52). -/
def State.observeCopy (s : State) (b : BankId) : State :=
  if (s.bank b).state = .filling then s.copyAdvances else s

/-! ## Commit validation (section 3.6) -/

/-- A run as the check examines it. -/
structure RunRef where
  station : Nat
  inbound : Bool
  first : Nat
  length : Nat
  deriving DecidableEq, Repr

/-- What a failed check reports: table, index and reason code (R54). -/
structure CheckFailure where
  table : Word
  index : Nat
  reason : Word
  deriving DecidableEq, Repr

/-- The two runs of a station: outbound, then inbound (R55). -/
def Bank.stationRuns (b : Bank) (n : Nat) : List RunRef :=
  [⟨n, false, (b.entry n).outFirst, (b.entry n).outLength⟩, ⟨n, true, (b.entry n).inFirst, (b.entry n).inLength⟩]

/-- Stations 1 to 61. -/
def stationNumbers : List Nat := (List.range Config.stations).map (· + 1)

/-- The non-empty runs of a bank in the order of R55. -/
def Bank.runs (b : Bank) : List RunRef :=
  (stationNumbers.flatMap b.stationRuns).filter fun r => r.length ≠ 0

/-- The first step: a run that reaches beyond record 1023 (R55). -/
def checkRange (r : RunRef) : Option CheckFailure :=
  if r.first + r.length > Config.points then some ⟨0, r.station, if r.inbound then 2 else 1⟩ else none

/-- Whether two runs name a record in common. -/
def RunRef.shares (r e : RunRef) : Bool := r.first < e.first + e.length && e.first < r.first + r.length

/-- The second step: the first run that shares a record with an earlier one (R56). -/
def checkShared : List RunRef → List RunRef → Option CheckFailure
  | _, [] => none
  | earlier, r :: rest =>
    if earlier.any r.shares then some ⟨0, r.station, if r.inbound then 4 else 3⟩
    else checkShared (earlier ++ [r]) rest

/-- Whether a kind acts on a pair of words (R39). -/
def PointKind.isPair : PointKind → Bool
  | .bcd8ToBin32 => true
  | .bin32ToBcd8 => true
  | _ => false

/-- The words a record covers (R57). -/
def PointRecord.covers (r : PointRecord) : List Nat := if r.kind.isPair then [r.index, r.index + 1] else [r.index]

/-- The third step's tests of one record, in their order; `covered` are the words the run's earlier records cover (R57). -/
def checkRecord (covered : List Nat) (k : Nat) (r : PointRecord) : Option CheckFailure :=
  if r.kind = .none then some ⟨1, k, 5⟩
  else if r.kind.isPair ∧ r.index = 31 then some ⟨1, k, 6⟩
  else if r.covers.any covered.contains then some ⟨1, k, 7⟩
  else if r.kind = .scale ∧ ¬(1 ≤ r.b.toInt ∧ r.b.toInt ≤ 32767) then some ⟨1, k, 8⟩
  else if (r.kind = .clamp ∨ r.kind = .range) ∧ r.b.toInt < r.a.toInt then some ⟨1, k, 9⟩
  else none

/-- The third step over the `n` records of a run from `k` on (R57). -/
def Bank.checkRun (b : Bank) (covered : List Nat) (k : Nat) : Nat → Option CheckFailure
  | 0 => none
  | n + 1 =>
    match checkRecord covered k (b.point k) with
    | some f => some f
    | none => Bank.checkRun b (covered ++ (b.point k).covers) (k + 1) n

/-- The check of a bank: its first failure under the order of section 3.6, or none (R54 to R57). -/
def Bank.check (b : Bank) : Option CheckFailure :=
  match b.runs.findSome? checkRange with
  | some f => some f
  | none =>
    match checkShared [] b.runs with
    | some f => some f
    | none => b.runs.findSome? fun r => b.checkRun [] r.first r.length

/-- The three words of a CHECK_FAILED answer (R54). -/
def CheckFailure.words (f : CheckFailure) : List Word := [f.table, BitVec.ofNat 16 f.index, f.reason]

end Sys2Proof.Machine
end

