-- ==== Sys2Proof/Machine/PointEngine.lean ====
section
/-! DEFINITION. The Point Engine (chapter 6): the transforms, the fault policies, and the application of a run. -/

namespace Sys2Proof.Machine

/-! ## Digits -/

/-- BCD digit `i` of a word, d0 the least significant (section 6.2). -/
def digit (x : Word) (i : Nat) : Nat := (x.extractLsb' (4 * i) 4).toNat

/-- Whether every digit of a word is 0 to 9 (R114). -/
def isBcd (x : Word) : Bool := digit x 3 ≤ 9 && digit x 2 ≤ 9 && digit x 1 ≤ 9 && digit x 0 ≤ 9

/-- The value of the four digits of a word (R114). -/
def bcdValue (x : Word) : Nat := digit x 3 * 1000 + digit x 2 * 100 + digit x 1 * 10 + digit x 0

/-- The four decimal digits of a number below 10000, in BCD (R115). -/
def toBcd (n : Nat) : Word := BitVec.ofNat 16 (n / 1000 % 10 * 4096 + n / 100 % 10 * 256 + n / 10 % 10 * 16 + n % 10)

/-! ## Transforms (section 6.2) -/

/-- The outcome of a transform on one word. -/
inductive WordOutcome where
  | result (w : Word) (limited : Bool)
  | fault
  deriving DecidableEq, Repr

/-- SCALE: the exact product divided by B, truncated toward zero, saturated to a signed word (R118). -/
def scaleWord (x a b : Word) : WordOutcome :=
  if 1 ≤ b.toInt then
    let q := Int.tdiv (x.toInt * a.toInt) b.toInt
    if 32767 < q then .result 0x7FFF true
    else if q < -32768 then .result 0x8000 true
    else .result (BitVec.ofInt 16 q) false
  else .result (Config.scaleUndefined x a b).1 (Config.scaleUndefined x a b).2

/-- CLAMP (R119). -/
def clampWord (x a b : Word) : WordOutcome :=
  if x.toInt < a.toInt ∧ b.toInt < x.toInt then .result (Config.clampUndefined x a b) true
  else if x.toInt < a.toInt then .result a true
  else if b.toInt < x.toInt then .result b true
  else .result x false

/-- RANGE (R120). -/
def rangeWord (x a b : Word) : WordOutcome :=
  if a.toInt ≤ x.toInt ∧ x.toInt ≤ b.toInt then .result x false else .fault

/-- The transform of a single-word kind (R113 to R115, R118 to R120). A pair kind and NONE are treated elsewhere. -/
def transformWord (kind : PointKind) (a b x : Word) : WordOutcome :=
  match kind with
  | .fixed => .result a false
  | .complement => .result (~~~x) false
  | .bcdToBin => if isBcd x then .result (BitVec.ofNat 16 (bcdValue x)) false else .fault
  | .binToBcd => if 0 ≤ x.toInt ∧ x.toInt ≤ 9999 then .result (toBcd x.toNat) false else .fault
  | .scale => scaleWord x a b
  | .clamp => clampWord x a b
  | .bits => .result ((x &&& a) ||| b) false
  | .range => rangeWord x a b
  | .none => .result x false
  | .bcd8ToBin32 => .result x false
  | .bin32ToBcd8 => .result x false

/-- The transform of a pair kind on the words at i and i + 1; `none` is a fault (R116, R117). -/
def transformPair (kind : PointKind) (lo hi : Word) : Option (Word × Word) :=
  match kind with
  | .bcd8ToBin32 =>
    if isBcd lo && isBcd hi then
      let v := bcdValue hi * 10000 + bcdValue lo
      some (BitVec.ofNat 16 v, BitVec.ofNat 16 (v / 65536))
    else none
  | _ =>
    let v := (hi ++ lo).toInt
    if 0 ≤ v ∧ v ≤ 99999999 then some (toBcd (v.toNat % 10000), toBcd (v.toNat / 10000)) else none

/-! ## Fault policies (section 6.3) -/

/-- The replacement of a faulted word (R122, R123). -/
def replaceWord (r : PointRecord) (img : ImageRecord) : Word :=
  match r.policy with
  | .substitute => r.subst
  | .hold => if img.valid ∧ r.index + 1 ≤ img.count then img.words.getD r.index 0 else r.subst

/-- The replacement of a faulted pair (R122, R123). -/
def replacePair (r : PointRecord) (img : ImageRecord) : Word × Word :=
  match r.policy with
  | .substitute => (r.subst, r.subst)
  | .hold =>
    if img.valid ∧ r.index + 2 ≤ img.count then (img.words.getD r.index 0, img.words.getD (r.index + 1) 0)
    else (r.subst, r.subst)

/-! ## The application of a run (R107, R108) -/

/-- What an application makes: the words, the marks it sets and the counts it makes (R125, R126). -/
structure Applied where
  words : List Word
  transformed : Bool
  faulted : Bool
  limited : Bool
  faults : Nat
  limits : Nat
  skips : Nat
  deriving DecidableEq, Repr

/-- An application that has treated no record yet. -/
def Applied.start (words : List Word) : Applied := ⟨words, false, false, false, 0, 0, 0⟩

/-- A record skipped (R111). -/
def Applied.skip (r : Applied) : Applied := { r with skips := r.skips + 1 }

/-- A record applied with a result (R112). -/
def Applied.result (r : Applied) (words : List Word) (limited : Bool) : Applied :=
  { r with words := words, transformed := true, limited := r.limited || limited,
           limits := if limited then r.limits + 1 else r.limits }

/-- A record applied with a fault (R121). -/
def Applied.fault (r : Applied) (words : List Word) : Applied :=
  { r with words := words, transformed := true, faulted := true, faults := r.faults + 1 }

/-- Treat one record of a run (R108, R110, R111, R121). -/
def treatRecord (img : ImageRecord) (acc : Applied) (r : PointRecord) : Applied :=
  if r.kind = .none then acc
  else if r.kind.isPair then
    if acc.words.length ≤ r.index + 1 then acc.skip
    else
      match transformPair r.kind (acc.words.getD r.index 0) (acc.words.getD (r.index + 1) 0) with
      | some (lo, hi) => acc.result ((acc.words.set r.index lo).set (r.index + 1) hi) false
      | none =>
        acc.fault ((acc.words.set r.index (replacePair r img).1).set (r.index + 1) (replacePair r img).2)
  else if acc.words.length ≤ r.index then acc.skip
  else
    match transformWord r.kind r.a r.b (acc.words.getD r.index 0) with
    | .result w limited => acc.result (acc.words.set r.index w) limited
    | .fault => acc.fault (acc.words.set r.index (replaceWord r img))

/-- The records of a run, ascending (R107). -/
def Bank.runRecords (b : Bank) (first length : Nat) : List PointRecord :=
  (List.range length).map fun i => b.point (first + i)

/-- Apply a run to data words: its records one after another (R108). -/
def applyRun (records : List PointRecord) (img : ImageRecord) (words : List Word) : Applied :=
  records.foldl (treatRecord img) (Applied.start words)

/-- Put an application's outcome into descriptor `d`: words in place, marks, and station `n`'s counts (R108, R125,
R126). -/
def State.putApplied (s : State) (d n : Nat) (r : Applied) : State :=
  ((s.setMem (s.mem.rewriteWords d r.words)).modDesc d
    fun x => { x with marks := x.marks.add r.transformed r.faulted r.limited }).countStation n
      fun c => c.addPoints r.faults r.limits r.skips

/-- The outbound application on poll `d` (R69, R127). -/
def State.applyOutbound (s : State) (d : Nat) : State :=
  let n := s.stationOf d
  let e := s.stampedEntry d
  s.putApplied d n (applyRun ((s.bank (s.stampedBank d)).runRecords e.outFirst e.outLength) (s.outImage n) (s.words d))

/-- The inbound application on descriptor `d` of station `n`, under bank `b` (R96 stage 4, R128). -/
def State.applyInbound (s : State) (d n : Nat) (b : BankId) : State :=
  let e := (s.bank b).entry n
  s.putApplied d n (applyRun ((s.bank b).runRecords e.inFirst e.inLength) (s.inImage n) (s.words d))

end Sys2Proof.Machine
end

