-- ==== Sys2Proof/Machine/Images.lean ====
section
/-! DEFINITION. The Image Store (chapter 7) and the building of replies (chapter 8): capture, image age, the
substitution rule, the reply header and the stamp release. -/

namespace Sys2Proof.Machine

/-! ## Capture (section 7.2) -/

/-- The image of the words of descriptor `d` as they stand (R131, R132). -/
def State.imageOf (s : State) (d : Nat) : ImageRecord :=
  { valid := true, words := s.words d, cycle := s.cycle.number, faulted := (s.desc d).marks.faulted }

/-- Capture the outbound image of station `n` from poll `d` (R131). -/
def State.captureOut (s : State) (n d : Nat) : State :=
  s.setOutImages (Table.set ImageRecord.default s.outImages n (s.imageOf d))

/-- Capture the inbound image of station `n` from reply `d` (R132). -/
def State.captureIn (s : State) (n d : Nat) : State :=
  s.setInImages (Table.set ImageRecord.default s.inImages n (s.imageOf d))

/-- The age of an image: cycles advanced since its capture, modulo 65536 (R135). -/
def State.imageAge (s : State) (r : ImageRecord) : Nat := (s.cycle.number - r.cycle).toNat

/-! ## The reply build (section 8.1) -/

/-- Rewrite the header of poll `d` as a reply: destination 0, source the station, the sequence kept (R143). -/
def Descriptor.toReply (st : ReplyStatus) (x : Descriptor) : Descriptor :=
  { x with dest := controllerAddr, src := x.dest, kind := .reply, status := st.code }

/-- Header and stamp release of a reply build; marks, count and chain are set before it (R143, R147). -/
def State.buildReply (s : State) (d : Nat) (st : ReplyStatus) : State :=
  (s.modDesc d (Descriptor.toReply st)).releaseStamp d

/-- A reply with no data: chain replacement to 0, which always succeeds, then the header (R144). -/
def State.buildEmptyReply (s : State) (d : Nat) (st : ReplyStatus) : State := (s.replaceChain d []).2.buildReply d st

/-- Clear the Point Engine's marks of `d` and set RETRIED from a transaction's flag (R94, R96). -/
def State.transactionMarks (s : State) (d : Nat) (retried : Bool) : State :=
  s.modDesc d fun x => { x with marks := { x.marks.clearPoint with retried := x.marks.retried || retried } }

/-! ## The substitution rule (section 7.4) -/

/-- Whether the inbound image of `d`'s station serves for substitution (R136). -/
def State.substitutable (s : State) (d : Nat) : Bool :=
  let img := s.inImage (s.stationOf d)
  let limit := (s.stampedEntry d).ageLimit
  img.valid && 0 < limit && s.imageAge img ≤ limit

/-- The substitution rule for poll `d`: SUBST from the inbound image, or NOREPLY (R136 to R138). -/
def State.substitute (s : State) (d : Nat) : State :=
  let n := s.stationOf d
  let img := s.inImage n
  if s.substitutable d then
    match s.replaceChain d img.words with
    | (true, s1) =>
      ((s1.modDesc d fun x => { x with marks := { x.marks with faulted := x.marks.faulted || img.faulted } }).buildReply d
        .subst).countStation n StationCounters.bumpSubstitutions
    | (false, s1) => s1.buildReply d .noreply
  else s.buildEmptyReply d .noreply

end Sys2Proof.Machine
end

