-- ==== Sys2Proof/Machine/Timing.lean ====
section
/-! DEFINITION. The durations the data book gives, in periods of CLK at 40 MHz (R200, R201). The model has no clock
(log entry 4): only the reply-window timer's expiry enters the state. -/

namespace Sys2Proof.Machine

/-- Clock periods of one bit on a port (R200). -/
def bitPeriods : Port → Nat
  | .t => 4
  | .a => 16
  | .b => 16

/-- A byte time is ten bit times (R1). -/
def byteTime (p : Port) : Nat := 10 * bitPeriods p

/-- When bit `i` of a serial byte is sampled, counted from the falling edge of its start bit, bit 0: the middle of its bit
time (R200). -/
def sampleTime (p : Port) (i : Nat) : Nat := i * bitPeriods p + bitPeriods p / 2

/-- A silence of more than this many periods ends a telegram in FRAME or DISCARD (R1, R5, R6). -/
def silenceLimit (p : Port) : Nat := 4 * byteTime p

/-- The spacing after a transmission (R11). -/
def spacingTime (p : Port) : Nat := 5 * byteTime p

/-- A telegram of `n` data words occupies 9 + 2n bytes (R2). -/
def telegramBytes (n : Nat) : Nat := 9 + 2 * n

/-- The time a telegram of `n` data words lasts (R2). -/
def telegramTime (p : Port) (n : Nat) : Nat := telegramBytes n * byteTime p

/-- The unit of a reply window: 50 µs (R200). -/
def windowUnit : Nat := 2000

/-- The time from the transmission complete of a try to the expiry of its window (R92, R200). -/
def windowTime (window : Nat) : Nat := window * windowUnit

/-- The words a copy writes: nine a station entry, six a point record (R201). -/
def copyWords : Nat := 9 * Config.stations + 6 * Config.points

/-- The time from the start of a copy to its completion: four periods a word (R200, R201). -/
def copyTime : Nat := 4 * copyWords

/-- The longest transaction, from take to reply build: a spacing, then four tries of a full telegram and the longest
window (R151). -/
def longestTransaction (p : Port) : Nat := spacingTime p + 4 * (telegramTime p 32 + windowTime 255)

end Sys2Proof.Machine
end

