-- ==== Sys2Proof/Machine/Segments.lean ====
section
/-! DEFINITION. The Segment Controllers and the Station Runtime Table (chapter 5): take, tries, reply window, matching,
the end of a transaction, the health machine. -/

namespace Sys2Proof.Machine

/-! ## The health machine (section 5.5) -/

/-- The Station Runtime Table is told "success" for station `n` (R102). -/
def State.success (s : State) (n : Nat) : State :=
  let r := s.station n
  let s1 := s.setStation n { r with health := .up, failCount := 0 }
  if r.health = .down then s1.reportStation n else s1

/-- A station's runtime after a failure judged against threshold `t` (R103). -/
def StationRuntime.failed (r : StationRuntime) (t : Nat) : StationRuntime :=
  let fc := min 15 (r.failCount + 1)
  { r with failCount := fc, health := if r.health = .down ∨ t ≤ fc then .down else .failing }

/-- The Station Runtime Table is told "failure" for station `n` with down threshold `t` (R103). -/
def State.failure (s : State) (n t : Nat) : State :=
  let r := s.station n
  let s1 := s.setStation n (r.failed t)
  if r.health ≠ .down ∧ (r.failed t).health = .down then s1.reportStation n else s1

/-! ## The take (section 5.2) -/

/-- Hand a try of transaction `t` to the transmitter of segment `g`: TRANSMISSIONS counted, segment SENDING (R91). -/
def State.handTry (s : State) (g : Segment) (t : Transaction) : State :=
  ((s.countStation t.station.toNat StationCounters.bumpTransmissions).setSeg g
    { s.seg g with slot := .poll t, timer := none, state := .sending }).handTx (dropPort g) t.desc

/-- The transaction record of poll `d` at its take (R88). -/
def State.newTransaction (s : State) (d : Nat) : Transaction :=
  { station := (s.desc d).dest, seq := (s.desc d).seq, desc := d, bank := s.stampedBank d,
    triesAllowed := if (s.station (s.stationOf d)).health = .down then 1 else 1 + (s.stampedEntry d).retryLimit,
    triesMade := 1, retried := false }

/-- The take of poll `d`, already out of queue `g`, for a station in NORMAL mode: the transaction starts, the outbound
image is captured and try 1 is handed (R88, R91, R131). -/
def State.startTransaction (s : State) (g : Segment) (d : Nat) : State :=
  (s.captureOut (s.stationOf d) d).handTry g (s.newTransaction d)

/-- The take of poll `d` for a station in ISOLATED mode: answered by the substitution rule (R89). -/
def State.answerIsolated (s : State) (d : Nat) : State :=
  ((s.modDesc d fun x => { x with marks := x.marks.clearPoint }).substitute d).joinEgress d

/-- The take of poll `d` for a station in ECHO mode: answered with its own words and outbound marks (R90). -/
def State.answerEcho (s : State) (d : Nat) : State := (s.buildReply d .echo).joinEgress d

/-- The take of SYNC `d`: it moves to the transaction slot and is handed to the transmitter (R85). -/
def State.takeSync (s : State) (g : Segment) (d : Nat) : State :=
  (s.setSeg g { s.seg g with slot := .sync d, timer := none, state := .sending }).handTx (dropPort g) d

/-- The take: an IDLE segment removes the head of its queue and treats it by its kind and the station's mode (R85, R87). -/
def State.take (s : State) (g : Segment) : State :=
  match (s.seg g).state, (s.seg g).queue with
  | .idle, d :: rest =>
    let s1 := s.setSeg g { s.seg g with queue := rest }
    if (s.desc d).kind = .sync then s1.takeSync g d
    else
      match (s.station (s.stationOf d)).mode with
      | .normal => s1.startTransaction g d
      | .isolated => s1.answerIsolated d
      | .echo => s1.answerEcho d
  | _, _ => s

/-! ## Tries and the reply window (section 5.3) -/

/-- The next try of a transaction (R93). -/
def Transaction.retry (t : Transaction) : Transaction := { t with triesMade := t.triesMade + 1, retried := true }

/-- The retransmission at an expiry with tries left (R93). -/
def State.retransmit (s : State) (g : Segment) (t : Transaction) : State :=
  (s.countStation t.station.toNat StationCounters.bumpRetries).handTry g t.retry

/-- The failure of a transaction at the expiry of its last window (R94). -/
def State.failTransaction (s : State) (g : Segment) (t : Transaction) : State :=
  let n := t.station.toNat
  let s1 := s.setSeg g { s.seg g with slot := .empty, timer := none, state := .idle }
  let s2 := ((s1.transactionMarks t.desc t.retried).substitute t.desc).joinEgress t.desc
  (s2.countStation n StationCounters.bumpFailures).failure n ((s.bank t.bank).entry n).downThreshold

/-- The expiry of the reply window of segment `g` (R93, R94). It comes only in AWAITING, and finds the transmitter IDLE
(R93; log entry 4). -/
def State.windowExpiry (s : State) (g : Segment) : State :=
  match (s.seg g).state, (s.seg g).slot, (s.port (dropPort g)).tx with
  | .awaiting, .poll t, .idle => if t.triesMade < t.triesAllowed then s.retransmit g t else s.failTransaction g t
  | _, _, _ => s

/-- The Segment Controller's response to a transmission complete of its port (R86, R92, R100). -/
def State.dropComplete (s : State) (g : Segment) : State :=
  match (s.seg g).slot with
  | .sync d => (s.setSeg g { s.seg g with slot := .empty, timer := none, state := .idle }).unhold d
  | .poll t =>
    s.setSeg g { s.seg g with
      timer := some (windowTime ((s.bank t.bank).entry t.station.toNat).window), state := .awaiting }
  | .empty => s.setSeg g { s.seg g with timer := none, state := .idle }

/-! ## Replies on the drop (section 5.4) -/

/-- Whether a candidate reply is accepted as the reply of the segment's transaction (R95). -/
def SegmentController.accepts (c : SegmentController) (src : Addr) (seq : Byte) : Option Transaction :=
  match c.slot with
  | .poll t =>
    if src = t.station ∧ seq = t.seq ∧ (c.state = .awaiting ∨ (c.state = .sending ∧ 2 ≤ t.triesMade)) then some t
    else none
  | .empty => none
  | .sync _ => none

/-- The segment after a match: an AWAITING one goes to IDLE, a SENDING one goes on with an empty slot (R96). -/
def SegmentController.matched (c : SegmentController) : SegmentController :=
  { c with slot := .empty, timer := none, state := if c.state = .awaiting then .idle else c.state }

/-- Stages 4 to 6 of the reply build of a matched reply of `m` words, its words in the descriptor: inbound run, capture,
OK reply, REPLIES_OK (R96). -/
def State.buildOk (s : State) (t : Transaction) : State :=
  let n := t.station.toNat
  ((((s.applyInbound t.desc n t.bank).captureIn n t.desc).buildReply t.desc .ok).joinEgress t.desc).countStation n
    StationCounters.bumpRepliesOk

/-- A matched reply ends the transaction `t` of segment `g`: OK, or OVERRUN when its words find no blocks (R96, R97). -/
def State.matchReply (s : State) (g : Segment) (t : Transaction) (ws : List Word) : State :=
  let s1 := (s.setSeg g (s.seg g).matched).transactionMarks t.desc t.retried
  match s1.replaceChain t.desc ws with
  | (true, s2) => (s2.buildOk t).success t.station.toNat
  | (false, s2) => ((s2.buildReply t.desc .overrun).joinEgress t.desc).success t.station.toNat

end Sys2Proof.Machine
end

