-- ==== Sys2Proof/Machine/Admission.lean ====
section
/-! DEFINITION. Admission and routing (chapter 4): poll admission, supersede, sync admission, distribution. -/

namespace Sys2Proof.Machine

/-! ## Segment queues (section 4.3) -/

/-- Whether descriptor `d` is a poll for station `n`. -/
def State.isPollFor (s : State) (n d : Nat) : Bool := (s.desc d).kind = .poll && s.stationOf d = n

/-- The waiting poll for station `n` in queue `g` (R70). -/
def State.waitingPoll (s : State) (g : Segment) (n : Nat) : Option Nat := (s.seg g).queue.find? (s.isPollFor n)

/-- The waiting SYNC in queue `g` (R79). -/
def State.waitingSync (s : State) (g : Segment) : Option Nat :=
  (s.seg g).queue.find? fun d => (s.desc d).kind = .sync

/-- Descriptor `d` joins the tail of queue `g`, which takes a reference (R70, R79). -/
def State.joinQueue (s : State) (g : Segment) (d : Nat) : State :=
  (s.hold d).setSeg g { s.seg g with queue := (s.seg g).queue ++ [d] }

/-- Descriptor `new` takes the position of `old` in queue `g`, which takes a reference to it (R71). -/
def State.takePlace (s : State) (g : Segment) (old new : Nat) : State :=
  (s.hold new).setSeg g { s.seg g with queue := (s.seg g).queue.map fun d => if d = old then new else d }

/-! ## Poll admission (section 4.2) -/

/-- The header of an admitted telegram: as it arrived, status 0 (R21, R67). -/
def Arrival.header (a : Arrival) : Header :=
  { dest := a.dest, src := a.src, kind := a.kind, seq := a.seq, status := 0 }

/-- The header of a REFUSED reply to a poll (R31). -/
def Arrival.refusedHeader (a : Arrival) : Header :=
  { dest := controllerAddr, src := a.dest, kind := .reply, seq := a.seq, status := ReplyStatus.refused.code }

/-- A poll refused memory: RX_NOROOM, and a REFUSED reply if a descriptor can be had (R31, R148). -/
def State.refusePoll (s : State) (a : Arrival) : State :=
  let s1 := s.countPort .t .rxNoroom
  match s1.mem.allocate .part a.refusedHeader [] with
  | none => s1
  | some (d, m) => (s1.setMem (m.hold d)).joinEgress d

/-- The answer to an unrouted poll, in its own descriptor (R68). -/
def State.answerUnrouted (s : State) (d : Nat) : State := ((s.hold d).buildEmptyReply d .unrouted).joinEgress d

/-- The superseded poll `old` is answered SUPERSEDED and counted (R71). -/
def State.answerSuperseded (s : State) (n old : Nat) : State :=
  (((s.modDesc old fun x => { x with marks := Marks.clear }).buildEmptyReply old .superseded).joinEgress
    old).countStation n StationCounters.bumpSuperseded

/-- Placement of the stamped poll `d` for station `n` in queue `g`: at the tail, or in a waiting poll's position (R70,
R71). -/
def State.place (s : State) (g : Segment) (n d : Nat) : State :=
  match s.waitingPoll g n with
  | none => s.joinQueue g d
  | some old => (s.takePlace g old d).answerSuperseded n old

/-- Stamp, outbound run and placement of poll `d` routed to segment `g` (R69, R70). -/
def State.admitRouted (s : State) (g : Segment) (d : Nat) : State :=
  ((s.stamp d).applyOutbound d).place g (s.stationOf d) d

/-- Poll admission (R67 to R71). -/
def State.admitPoll (s : State) (a : Arrival) : State :=
  match s.mem.allocate .traffic a.header a.words with
  | none => s.refusePoll a
  | some (d, m) =>
    match ((s.bank s.active).entry a.dest.toNat).route with
    | .none => (s.setMem m).answerUnrouted d
    | .a => (s.setMem m).admitRouted .a d
    | .b => (s.setMem m).admitRouted .b d

/-! ## Sync admission (section 4.4) -/

/-- Queue `g` is given SYNC `d` with cycle number `w`: it joins the tail, or is coalesced into the waiting SYNC there
(R79). -/
def State.distribute (s : State) (g : Segment) (d : Nat) (w : Word) : State :=
  match s.waitingSync g with
  | none => s.joinQueue g d
  | some old => s.setMem (s.mem.rewriteWords old [w])

/-- A descriptor left with no holder at the end of its event is released, which is a memory freed event (R30). -/
def State.releaseUnheld (s : State) (d : Nat) : State :=
  if (s.desc d).holders = 0 then (s.setMem (s.mem.release d)).emissionAttempt else s

/-- Stages 2 and 3 of sync admission: cycle register, then switch check (R66, R60). -/
def State.newCycle (s : State) (w : Word) : State := (s.setCycle { number := w, seen := true }).switchCheck

/-- Sync admission (R78, R32). -/
def State.admitSync (s : State) (a : Arrival) : State :=
  let w := a.words.getD 0 0
  match s.mem.allocate .traffic a.header a.words with
  | none => (s.newCycle w).countPort .t .rxNoroom
  | some (d, m) => ((((s.setMem m).newCycle w).distribute .a d w).distribute .b d w).releaseUnheld d

end Sys2Proof.Machine
end

