-- ==== Sys2Proof/Machine/Agent.lean ====
section
/-! DEFINITION. The Management Agent (chapter 9): intake, answers, the answer cache, and the operations. -/

namespace Sys2Proof.Machine

/-! ## The answer cache (R160) -/

/-- How many answers the cache keeps (R160). -/
def cacheSize : Nat := 4

/-- A new entry joins the cache; an entry of the same sequence goes first, and the oldest goes when there are more than
four (R160). -/
def cacheAdd (es : List CacheEntry) (e : CacheEntry) : List CacheEntry :=
  let es1 := es.filter (fun x => x.seq ≠ e.seq) ++ [e]
  es1.drop (es1.length - cacheSize)

/-- Make a cache entry (R160). -/
def State.cacheAnswer (s : State) (e : CacheEntry) : State :=
  s.setAgent { s.agent with cache := cacheAdd s.agent.cache e }

/-! ## Answers (R167) -/

/-- Rewrite the header of a request as its answer (R167). -/
def Descriptor.toAnswer (st : AnswerStatus) (x : Descriptor) : Descriptor :=
  { x with dest := controllerAddr, src := partAddr, kind := .mgmtAns, marks := Marks.clear, status := st.code }

/-- Build an answer in descriptor `d` and put it into trunk egress; NO_ROOM replaces it when its words find no blocks.
Says what was actually built (R167). -/
def State.buildAnswer (s : State) (d : Nat) (st : AnswerStatus) (ws : List Word) : CacheEntry × State :=
  match s.replaceChain d ws with
  | (true, s1) => (⟨(s.desc d).seq, st, ws⟩, (s1.modDesc d (Descriptor.toAnswer st)).joinEgress d)
  | (false, s1) => (⟨(s.desc d).seq, .noRoom, []⟩, (s1.modDesc d (Descriptor.toAnswer .noRoom)).joinEgress d)

/-- Answer request `d`: the answer joins trunk egress and is cached as built (R167, R160). -/
def State.answer (s : State) (d : Nat) (st : AnswerStatus) (ws : List Word) : State :=
  (s.buildAnswer d st ws).2.cacheAnswer (s.buildAnswer d st ws).1

/-! ## Intake (section 9.2) -/

/-- How many requests the queue holds (R163). -/
def requestLimit : Nat := 4

/-- The sequences of the queued requests and the open request (R162). -/
def State.heldSeqs (s : State) : List Byte :=
  (s.agent.requests ++ s.agent.openSlot.toList).map fun d => (s.desc d).seq

/-- The request is answered with a copy of the cached answer `e` (R161). -/
def State.answerFromCache (s : State) (a : Arrival) (e : CacheEntry) : State :=
  match s.mem.allocate .traffic a.header a.words with
  | none => s.countPort .t .rxNoroom
  | some (d, m) => ((s.setMem (m.hold d)).buildAnswer d e.status e.words).2

/-- The request is admitted to the tail of the request queue (R164). -/
def State.admitRequest (s : State) (a : Arrival) : State :=
  match s.mem.allocate .traffic a.header a.words with
  | none => s.countPort .t .rxNoroom
  | some (d, m) => (s.setMem (m.hold d)).setAgent { s.agent with requests := s.agent.requests ++ [d] }

/-- Management intake: the four steps of section 9.2, in order (R161 to R164). -/
def State.intake (s : State) (a : Arrival) : State :=
  match s.agent.cache.find? fun e => e.seq = a.seq with
  | some e => s.answerFromCache a e
  | none =>
    if s.heldSeqs.contains a.seq then s.countDuplicate
    else if requestLimit ≤ s.agent.requests.length then s.countQueueFull
    else s.admitRequest a

/-! ## Execution (R166) -/

/-- The execution of the head request, if it is one that `want` names: it leaves the queue and `body` treats it, with
its descriptor and words. If it is not, the event named does not take place (log entry 1). -/
def State.execute (s : State) (want : Request → Bool) (body : State → Nat → List Word → State) : State :=
  match s.agent.requests with
  | [] => s
  | d :: rest =>
    if want (classifyRequest (s.words d)) then body (s.setAgent { s.agent with requests := rest }) d (s.words d) else s

/-- The execution of a head request that names operation `o`. -/
def State.executeOp (s : State) (o : MgmtOp) (body : State → Nat → List Word → State) : State :=
  s.execute (fun r => r = .op o) body

/-- The status a request that fails tests 1 to 3 is answered with (R166). -/
def Request.status : Request → AnswerStatus
  | .malformed st => st
  | .op _ => .done

/-- Whether a request fails tests 1 to 3. -/
def Request.isMalformed : Request → Bool
  | .malformed _ => true
  | .op _ => false

/-- Word `i` of a request. -/
def arg (ws : List Word) (i : Nat) : Word := ws.getD i 0

/-! ## Short operations (section 9.4) -/

/-- The sequence of the open request, or FFFFh when the open slot is empty (R168). -/
def State.openSeqWord (s : State) : Word :=
  match s.agent.openSlot with
  | none => 0xFFFF
  | some d => (s.desc d).seq.setWidth 16

/-- The three words of a bank in a STATUS answer (R168). -/
def Bank.statusWords (b : Bank) : List Word := [b.state.code, b.label, BitVec.ofNat 16 b.inFlight]

/-- The sixteen words of a STATUS answer (R168). -/
def State.statusWords (s : State) : List Word :=
  [s.active.code] ++ s.bank0.statusWords ++ s.bank1.statusWords ++
    [s.cycle.number, flagWord s.cycle.seen, BitVec.ofNat 16 s.mem.freeDescs.length,
     BitVec.ofNat 16 s.mem.freeBlocks.length, BitVec.ofNat 16 s.mem.minDescs, BitVec.ofNat 16 s.mem.minBlocks,
     s.segA.state.code, s.segB.state.code, s.openSeqWord]

/-- STATUS (R168). -/
def opStatus (s : State) (d : Nat) (_ : List Word) : State := s.answer d .done s.statusWords

/-- READ_STATION (R42). -/
def opReadStation (s : State) (d : Nat) (ws : List Word) : State :=
  match bankArg (arg ws 1), stationArg (arg ws 2) with
  | some b, some n => (s.observeCopy b).answer d .done (((s.observeCopy b).bank b).entry n).toWords
  | _, _ => s.answer d .badArgument []

/-- The words of `n` point records from record `k` on (R42). -/
def Bank.pointWords (b : Bank) (k n : Nat) : List Word := (b.runRecords k n).flatMap PointRecord.toWords

/-- READ_POINTS (R42). -/
def opReadPoints (s : State) (d : Nat) (ws : List Word) : State :=
  match bankArg (arg ws 1) with
  | some b =>
    if argNat ws 2 ≤ 1023 ∧ 1 ≤ argNat ws 3 ∧ argNat ws 3 ≤ 4 ∧ argNat ws 2 + argNat ws 3 ≤ Config.points then
      (s.observeCopy b).answer d .done (((s.observeCopy b).bank b).pointWords (argNat ws 2) (argNat ws 3))
    else s.answer d .badArgument []
  | none => s.answer d .badArgument []

/-- A write or SET_LABEL whose arguments are in range: carried out on a STANDBY bank, NOT_STANDBY otherwise (R44, R45). -/
def State.writeBank (s : State) (d : Nat) (b : BankId) (f : Bank → Bank) : State :=
  if (s.bank b).state = .standby then (s.setBank b (f (s.bank b))).answer d .done []
  else s.answer d .notStandby []

/-- Replace a station entry (R44). -/
def Bank.setEntry (n : Nat) (e : StationEntry) (b : Bank) : Bank :=
  { b with stations := Table.set StationEntry.default b.stations n e }

/-- Replace the point records from `k` onward (R44). -/
def Bank.setPoints (k : Nat) (rs : List PointRecord) (b : Bank) : Bank :=
  match rs with
  | [] => b
  | r :: rest => Bank.setPoints (k + 1) rest { b with points := Table.set PointRecord.default b.points k r }

/-- WRITE_STATION (R43, R44). -/
def opWriteStation (s : State) (d : Nat) (ws : List Word) : State :=
  match bankArg (arg ws 1), stationArg (arg ws 2), StationEntry.ofWords (ws.drop 3) with
  | some b, some n, some e => s.writeBank d b (Bank.setEntry n e)
  | _, _, _ => s.answer d .badArgument []

/-- WRITE_POINTS (R43, R44). -/
def opWritePoints (s : State) (d : Nat) (ws : List Word) : State :=
  match bankArg (arg ws 1), pointRecordsArg (argNat ws 3) (ws.drop 4) with
  | some b, some rs =>
    if argNat ws 2 ≤ 1023 ∧ argNat ws 2 + argNat ws 3 ≤ Config.points then s.writeBank d b (Bank.setPoints (argNat ws 2) rs)
    else s.answer d .badArgument []
  | _, _ => s.answer d .badArgument []

/-- SET_LABEL (R45). -/
def opSetLabel (s : State) (d : Nat) (ws : List Word) : State :=
  match bankArg (arg ws 1) with
  | some b =>
    if arg ws 2 = labelIncomplete then s.answer d .badArgument []
    else s.writeBank d b fun k => { k with label := arg ws 2 }
  | none => s.answer d .badArgument []

/-- The image record a READ_IMAGE names (R170). -/
def State.imageNamed (s : State) (outbound : Bool) (n : Nat) : ImageRecord :=
  if outbound then s.outImage n else s.inImage n

/-- The words of a READ_IMAGE answer from first word `f` (R20, R140). -/
def ImageRecord.answerWords (r : ImageRecord) (f : Nat) : List Word :=
  [flagWord r.valid, BitVec.ofNat 16 r.count, r.cycle, flagWord r.faulted] ++ (r.words.drop f).take 28

/-- READ_IMAGE (R170). -/
def opReadImage (s : State) (d : Nat) (ws : List Word) : State :=
  match stationArg (arg ws 1), directionArg (arg ws 2) with
  | some n, some outbound =>
    if argNat ws 3 ≤ 31 then s.answer d .done ((s.imageNamed outbound n).answerWords (argNat ws 3))
    else s.answer d .badArgument []
  | _, _ => s.answer d .badArgument []

/-- Whether segment `g` has a transaction for station `n` (R83). -/
def State.inTransaction (s : State) (g : Segment) (n : Nat) : Bool :=
  match (s.seg g).slot with
  | .poll t => t.station.toNat = n
  | .empty => false
  | .sync _ => false

/-- The seven words of a READ_STATION_STATE answer (R171). -/
def State.stationStateWords (s : State) (n : Nat) : List Word :=
  [(s.station n).health.code, BitVec.ofNat 16 (s.station n).failCount, (s.station n).mode.code,
   flagWord (s.waitingPoll .a n).isSome, flagWord (s.waitingPoll .b n).isSome,
   flagWord (s.inTransaction .a n), flagWord (s.inTransaction .b n)]

/-- READ_STATION_STATE (R171). -/
def opReadStationState (s : State) (d : Nat) (ws : List Word) : State :=
  match stationArg (arg ws 1) with
  | some n => s.answer d .done (s.stationStateWords n)
  | none => s.answer d .badArgument []

/-- The words of a station's counters (section 1.7). -/
def StationCounters.words (c : StationCounters) : List Word :=
  [c.transmissions, c.retries, c.repliesOk, c.failures, c.substitutions, c.superseded, c.pointFaults, c.pointLimits,
   c.shortSkips]

/-- The words of port T's counters (section 1.7). -/
def TrunkCounters.words (c : TrunkCounters) : List Word :=
  [c.rxGood, c.rxCrc, c.rxFormat, c.rxAddress, c.rxUnexpected, c.rxNoroom, c.txDone].flatMap counterWords

/-- The words of a drop port's counters (section 1.7). -/
def DropCounters.words (c : DropCounters) : List Word :=
  [c.rxGood, c.rxCrc, c.rxFormat, c.rxAddress, c.rxStray, c.txDone].flatMap counterWords

/-- The words of a counter group (section 1.7, R195). -/
def State.groupWords (s : State) : Group → List Word
  | .trunk => s.counters.trunk.words
  | .dropA => s.counters.dropA.words
  | .dropB => s.counters.dropB.words
  | .memoryAgent =>
    [BitVec.ofNat 16 s.mem.minDescs, BitVec.ofNat 16 s.mem.minBlocks, s.counters.duplicates, s.counters.queueFull]
  | .station n => (s.stationCounters n).words

/-- READ_COUNTERS (R172, R195). -/
def opReadCounters (s : State) (d : Nat) (ws : List Word) : State :=
  match groupArg (arg ws 1) with
  | some g => s.answer d .done (s.groupWords g)
  | none => s.answer d .badArgument []

/-- Set each minimum to the present free count of its store (R34, R196). -/
def TelegramMemory.clearMinima (m : TelegramMemory) : TelegramMemory :=
  { m with minDescs := m.freeDescs.length, minBlocks := m.freeBlocks.length }

/-- Clear one counter group (R196). -/
def State.clearGroup (s : State) : Group → State
  | .trunk => s.setCounters { s.counters with trunk := TrunkCounters.zero }
  | .dropA => s.setCounters { s.counters with dropA := DropCounters.zero }
  | .dropB => s.setCounters { s.counters with dropB := DropCounters.zero }
  | .memoryAgent => (s.setMem s.mem.clearMinima).setCounters { s.counters with duplicates := 0, queueFull := 0 }
  | .station n => s.countStation n fun _ => StationCounters.zero

/-- Clear every counter group at one event (R196). -/
def State.clearAllGroups (s : State) : State := (s.setMem s.mem.clearMinima).setCounters CounterBank.reset

/-- CLEAR_COUNTERS (R172, R196). -/
def opClearCounters (s : State) (d : Nat) (ws : List Word) : State :=
  if arg ws 1 = 255 then s.clearAllGroups.answer d .done []
  else
    match groupArg (arg ws 1) with
    | some g => (s.clearGroup g).answer d .done []
    | none => s.answer d .badArgument []

/-- SET_MODE (R104, R173). -/
def opSetMode (s : State) (d : Nat) (ws : List Word) : State :=
  match stationArg (arg ws 1), modeArg (arg ws 2) with
  | some n, some m => (s.setStation n { s.station n with mode := m }).answer d .done []
  | _, _ => s.answer d .badArgument []

/-! ## Long operations (section 9.5) -/

/-- The refusal of a COPY or COMMIT, if there is one: ENGINE_BUSY, then NOT_STANDBY (R51, R53, R174). -/
def State.engineRefusal (s : State) : Option AnswerStatus :=
  if s.engineRunning then some .engineBusy
  else if s.standbyState ≠ .standby then some .notStandby
  else none

/-- Request `d` moves to the open slot (R174). -/
def State.openRequest (s : State) (d : Nat) : State := s.setAgent { s.agent with openSlot := some d }

/-- COPY (R51). -/
def opCopy (s : State) (d : Nat) (_ : List Word) : State :=
  match s.engineRefusal with
  | some st => s.answer d st []
  | none =>
    ((s.setBank s.standbyId { s.bank s.standbyId with state := .filling, label := labelIncomplete }).setCopyDone
      0).openRequest d

/-- COMMIT (R53). -/
def opCommit (s : State) (d : Nat) (_ : List Word) : State :=
  match s.engineRefusal with
  | some st => s.answer d st []
  | none => (s.setBankState s.standbyId .checking).openRequest d

/-- The open request is answered and the open slot empties (R175, R176). -/
def State.answerOpen (s : State) (st : AnswerStatus) (ws : List Word) : State :=
  match s.agent.openSlot with
  | none => s
  | some d => (s.setAgent { s.agent with openSlot := none }).answer d st ws

/-- The copy's completion: the target holds the source's contents and label and goes to STANDBY (R52). -/
def State.copyCompletes (s : State) : State :=
  if s.standbyState = .filling then
    let src := s.bank s.active
    ((s.setBank s.standbyId { s.bank s.standbyId with
        stations := src.stations, points := src.points, label := src.label, state := .standby }).setCopyDone
      0).answerOpen .done []
  else s

/-- The check's completion: PENDING with DONE, or STANDBY with CHECK_FAILED (R54). -/
def State.checkCompletes (s : State) : State :=
  if s.standbyState = .checking then
    match (s.bank s.standbyId).check with
    | none => (s.setBankState s.standbyId .pending).answerOpen .done []
    | some f => (s.setBankState s.standbyId .standby).answerOpen .checkFailed f.words
  else s

/-- A copy ended before its completion: the target keeps what the copy had reached and its label INCOMPLETE, and goes to
STANDBY (R52, R58, R64). -/
def State.endCopy (s : State) : State :=
  (s.copyAdvances.setCopyDone 0).setBankState s.standbyId .standby

/-- CANCEL (R58, R176). -/
def opCancel (s : State) (d : Nat) (_ : List Word) : State :=
  match s.standbyState with
  | .filling => (s.endCopy.answerOpen .cancelled []).answer d .done []
  | .checking => ((s.setBankState s.standbyId .standby).answerOpen .cancelled []).answer d .done []
  | .pending => (s.setBankState s.standbyId .standby).answer d .done []
  | .standby => s.answer d .nothingPending []
  | .retiring => s.answer d .nothingPending []
  | .active => s.answer d .nothingPending []

/-- A request that fails tests 1 to 3 (R166). -/
def opMalformed (s : State) (d : Nat) (ws : List Word) : State := s.answer d (classifyRequest ws).status []

end Sys2Proof.Machine
end

