-- ==== Sys2Proof/Machine/Resets.lean ====
section
/-! DEFINITION. RESTART (section 9.6 and the reset section of each chapter) and the power-on reset (R199). -/

namespace Sys2Proof.Machine

/-! ## RESTART -/

/-- A transmitter at a RESTART: SENDING stops and goes to SPACING, a held telegram is withdrawn (R12; log entry 11). -/
def Transmitter.withdraw : Transmitter → Transmitter
  | .idle => .idle
  | .sending _ => .spacing none
  | .spacing _ => .spacing none

/-- A line port at a RESTART: the receiver keeps its state and buffer (R12). -/
def LinePort.restart (p : LinePort) : LinePort := { p with tx := p.tx.withdraw }

/-- A bank at a RESTART: FILLING, CHECKING, PENDING and RETIRING go to STANDBY, the in-flight count to 0 (R64). -/
def Bank.restart (b : Bank) : Bank :=
  { b with inFlight := 0, state := if b.state = .active then .active else .standby }

/-- Every image record invalid, its contents kept (R142). -/
def invalidateImages (t : Table ImageRecord) : Table ImageRecord :=
  Table.mapValues ImageRecord.default (fun r => { r with valid := false }) t

/-- A copy in progress ends with what it had reached (R64, R52). -/
def State.restartCopy (s : State) : State :=
  if s.standbyState = .filling then s.copyAdvances.setCopyDone 0 else s

/-- The effects of RESTART on every block, ahead of its answer (R179, R180): everything held is discarded but request
`d`, the configuration, the cycle register and the counters are kept. -/
def State.restartEffects (s : State) (d : Nat) : State :=
  let s1 := s.restartCopy
  { s1 with
    portT := s1.portT.restart
    portA := s1.portA.restart
    portB := s1.portB.restart
    mem := s1.mem.releaseAllBut d
    bank0 := s1.bank0.restart
    bank1 := s1.bank1.restart
    segA := SegmentController.reset
    segB := SegmentController.reset
    runtime := []
    inImages := invalidateImages s1.inImages
    outImages := invalidateImages s1.outImages
    egress := { queue := [], handed := false, noticeCount := 0 }
    agent := { requests := [], openSlot := none, cache := [] }
    notices := { s1.notices with pendingSet := [] } }

/-- RESTART (R179, R180). -/
def opRestart (s : State) (d : Nat) (_ : List Word) : State := (s.restartEffects d).answer d .done []

/-! ## The reset pin -/

/-- The power-on reset: every piece of state takes its reset value; the block store is not cleared (R35; log entry 7),
and the model's own fields stay (R199). -/
def State.powerOn (s : State) : State :=
  { State.reset with
    mem := { TelegramMemory.reset with blocks := s.mem.blocks }
    freeTick := s.freeTick
    pending := s.pending }

end Sys2Proof.Machine
end

