-- ==== Sys2Proof/Machine/AgentEvents.lean ====
section
/-! DEFINITION. The meanings of the Management Agent's execution commands (chapter 9): each executes the head of the
request queue, when that request is of its kind (R166; log entry 1). -/

namespace Sys2Proof.Machine

/-- STATUS (R168). -/
def execStatus (s : State) : Host.Outcome State Fault Refusal := event (fun s => s.executeOp .status opStatus) s

/-- READ_STATION (R42, R169). -/
def execReadStation (s : State) : Host.Outcome State Fault Refusal := event (fun s => s.executeOp .readStation opReadStation) s

/-- READ_POINTS (R42, R169). -/
def execReadPoints (s : State) : Host.Outcome State Fault Refusal := event (fun s => s.executeOp .readPoints opReadPoints) s

/-- WRITE_STATION (R43, R44). -/
def execWriteStation (s : State) : Host.Outcome State Fault Refusal := event (fun s => s.executeOp .writeStation opWriteStation) s

/-- WRITE_POINTS (R43, R44). -/
def execWritePoints (s : State) : Host.Outcome State Fault Refusal := event (fun s => s.executeOp .writePoints opWritePoints) s

/-- SET_LABEL (R45). -/
def execSetLabel (s : State) : Host.Outcome State Fault Refusal := event (fun s => s.executeOp .setLabel opSetLabel) s

/-- READ_IMAGE (R170). -/
def execReadImage (s : State) : Host.Outcome State Fault Refusal := event (fun s => s.executeOp .readImage opReadImage) s

/-- READ_STATION_STATE (R171). -/
def execReadStationState (s : State) : Host.Outcome State Fault Refusal := event (fun s => s.executeOp .readStationState opReadStationState) s

/-- READ_COUNTERS (R172, R195). -/
def execReadCounters (s : State) : Host.Outcome State Fault Refusal := event (fun s => s.executeOp .readCounters opReadCounters) s

/-- CLEAR_COUNTERS (R172, R196). -/
def execClearCounters (s : State) : Host.Outcome State Fault Refusal := event (fun s => s.executeOp .clearCounters opClearCounters) s

/-- SET_MODE (R104, R173). -/
def execSetMode (s : State) : Host.Outcome State Fault Refusal := event (fun s => s.executeOp .setMode opSetMode) s

/-- COPY (R51, R174). -/
def execCopy (s : State) : Host.Outcome State Fault Refusal := event (fun s => s.executeOp .copy opCopy) s

/-- COMMIT (R53, R174). -/
def execCommit (s : State) : Host.Outcome State Fault Refusal := event (fun s => s.executeOp .commit opCommit) s

/-- CANCEL (R58, R176). -/
def execCancel (s : State) : Host.Outcome State Fault Refusal := event (fun s => s.executeOp .cancel opCancel) s

/-- RESTART (R179, R180). -/
def execRestart (s : State) : Host.Outcome State Fault Refusal := event (fun s => s.executeOp .restart opRestart) s

/-- MALFORMED_REQUEST (R166). -/
def execMalformedRequest (s : State) : Host.Outcome State Fault Refusal :=
  event (fun s => s.execute Request.isMalformed opMalformed) s

end Sys2Proof.Machine
end

