-- ==== Sys2Proof/Machine/BankEvents.lean ====
section
/-! DEFINITION. The meanings of the bank engine's completion commands (chapter 3). -/

namespace Sys2Proof.Machine

/-- COPY_COMPLETION (R52). -/
def execCopyCompletion (s : State) : Host.Outcome State Fault Refusal := event State.copyCompletes s

/-- CHECK_COMPLETION (R54). -/
def execCheckCompletion (s : State) : Host.Outcome State Fault Refusal := event State.checkCompletes s

end Sys2Proof.Machine
end

