-- ==== Sys2Proof/Machine/Reception.lean ====
section
/-! DEFINITION. The receivers (section 1.3) and the classification of what arrives (section 1.5). -/

namespace Sys2Proof.Machine

/-- Classification of a telegram arrived on port T (R13, R14). -/
def State.arriveTrunk (s : State) (a : Arrival) : State :=
  if a.src ≠ controllerAddr then s.countPort .t .rxAddress
  else
    match a.kind with
    | .reply => s.countPort .t .rxUnexpected
    | .mgmtAns => s.countPort .t .rxUnexpected
    | .notice => s.countPort .t .rxUnexpected
    | .poll =>
      if 1 ≤ a.dest.toNat ∧ a.dest.toNat ≤ Config.stations then (s.countPort .t .rxGood).admitPoll a
      else s.countPort .t .rxAddress
    | .sync =>
      if a.dest ≠ broadcastAddr then s.countPort .t .rxAddress
      else if a.words.length ≠ 1 then s.countPort .t .rxFormat
      else (s.countPort .t .rxGood).admitSync a
    | .mgmtReq =>
      if a.dest = partAddr then (s.countPort .t .rxGood).intake a else s.countPort .t .rxAddress

/-- Classification of a telegram arrived on the drop of segment `g` (R15). -/
def State.arriveDrop (s : State) (g : Segment) (a : Arrival) : State :=
  if a.kind ≠ .reply then s.countPort (dropPort g) .rxStray
  else if a.dest ≠ controllerAddr ∨ ¬(1 ≤ a.src.toNat ∧ a.src.toNat ≤ Config.stations) then
    s.countPort (dropPort g) .rxAddress
  else
    match (s.seg g).accepts a.src a.seq with
    | some t => (s.countPort (dropPort g) .rxGood).matchReply g t a.words
    | none => s.countPort (dropPort g) .rxStray

/-- The arrival on port `p` (R9). -/
def State.arrive (s : State) (p : Port) (a : Arrival) : State :=
  match p with
  | .t => s.arriveTrunk a
  | .a => s.arriveDrop .a a
  | .b => s.arriveDrop .b a

/-- The second CRC byte is in: the checks of R7 and R8, and the arrival; the receiver is in HUNT (R7 to R9). -/
def State.telegramEnds (s : State) (p : Port) (buf : List Byte) : State :=
  let s1 := s.setRx p .hunt
  match checkTelegram buf with
  | .crcMismatch => s1.countPort p .rxCrc
  | .unknownKind => s1.countPort p .rxFormat
  | .arrived a => s1.arrive p a

/-- The receiver of port `p` takes one byte (R4, R6, R7). -/
def State.receiveByte (s : State) (p : Port) (b : Byte) : State :=
  match (s.port p).rx with
  | .hunt => if b = leadByteValue then s.setRx p (.frame []) else s
  | .discard => s
  | .frame buf =>
    let buf1 := buf ++ [b]
    if buf1.length = 6 ∧ 32 < bufCount buf1 then (s.setRx p .discard).countPort p .rxFormat
    else if bufComplete buf1 then s.telegramEnds p buf1
    else s.setRx p (.frame buf1)

/-- The receiver of port `p` takes the bytes `bs`, one after another. -/
def State.receiveBytes (s : State) (p : Port) (bs : List Byte) : State :=
  bs.foldl (fun s b => s.receiveByte p b) s

/-- The receiver of port `p` takes serial bytes, each with the data bits as sampled (R1). -/
def State.receiveSerial (s : State) (p : Port) (fs : List SerialByte) : State := s.receiveBytes p (takenBytes fs)

/-- The silence limit passes in FRAME: RX_FORMAT is counted and the partial telegram discarded (R5). -/
def State.truncate (s : State) (p : Port) : State :=
  match (s.port p).rx with
  | .frame _ => (s.setRx p .hunt).countPort p .rxFormat
  | .hunt => s
  | .discard => s

/-- The silence limit passes in DISCARD: back to HUNT (R6). -/
def State.discardEnds (s : State) (p : Port) : State :=
  match (s.port p).rx with
  | .discard => s.setRx p .hunt
  | .hunt => s
  | .frame _ => s

end Sys2Proof.Machine
end

