-- ==== Sys2Proof/Machine/Transmission.lean ====
section
/-! DEFINITION. The transmitters' own events (R11) and Trunk Egress's response to a transmission complete (R154). -/

namespace Sys2Proof.Machine

/-- Trunk Egress's response to the transmission complete of its handed head: removal and release, the notice count, one
emission attempt, and the next head (R154). -/
def State.egressComplete (s : State) : State :=
  match s.egress.queue with
  | [] => s
  | d :: rest =>
    let count := if (s.desc d).kind = .notice then s.egress.noticeCount - 1 else s.egress.noticeCount
    (((s.setEgress { queue := rest, handed := false, noticeCount := count }).setMem
      (s.mem.dropRef d)).emissionAttempt).handHead

/-- The block that handed port `p` its telegram hears of the transmission complete (R11). -/
def State.completeReported (s : State) (p : Port) : State :=
  match p with
  | .t => s.egressComplete
  | .a => s.dropComplete .a
  | .b => s.dropComplete .b

/-- The transmission complete of port `p`: TX_DONE, SPACING, and the report (R11). -/
def State.transmissionDone (s : State) (p : Port) : State :=
  match (s.port p).tx with
  | .sending _ => ((s.setTx p (.spacing none)).countPort p .txDone).completeReported p
  | .idle => s
  | .spacing _ => s

/-- The end of SPACING: IDLE, or the start of the telegram held, copied now (R10, R11). -/
def State.spacingDone (s : State) (p : Port) : State :=
  match (s.port p).tx with
  | .spacing none => s.setTx p .idle
  | .spacing (some d) => s.setTx p (.sending (s.telegram d))
  | .idle => s
  | .sending _ => s

end Sys2Proof.Machine
end

