-- ==== Sys2Proof/Machine/LineEvents.lean ====
section
/-! DEFINITION. The meanings of the line ports' commands (chapter 1). -/

namespace Sys2Proof.Machine

/-- LEAD_BYTE: the receiver takes one serial byte (R1, R4; log entry 2). -/
def execLeadByte (p : Port) (b : SerialByte) (s : State) : Host.Outcome State Fault Refusal :=
  event (fun s => s.receiveSerial p [b]) s

/-- COUNT_ABOVE_32: the receiver takes the serial bytes up to the sixth header byte (R6; log entry 2). -/
def execCountAbove32 (p : Port) (bytes : List SerialByte) (s : State) : Host.Outcome State Fault Refusal :=
  event (fun s => s.receiveSerial p bytes) s

/-- RECEIVE_TELEGRAM: the receiver takes the serial bytes up to the second CRC byte (R7 to R9; log entry 2). -/
def execReceiveTelegram (p : Port) (bytes : List SerialByte) (s : State) : Host.Outcome State Fault Refusal :=
  event (fun s => s.receiveSerial p bytes) s

/-- TRUNCATION (R5). -/
def execTruncation (p : Port) (s : State) : Host.Outcome State Fault Refusal := event (fun s => s.truncate p) s

/-- DISCARD_SILENCE (R6). -/
def execDiscardSilence (p : Port) (s : State) : Host.Outcome State Fault Refusal := event (fun s => s.discardEnds p) s

/-- TRANSMISSION_COMPLETE (R11). -/
def execTransmissionComplete (p : Port) (s : State) : Host.Outcome State Fault Refusal :=
  event (fun s => s.transmissionDone p) s

/-- SPACING_ENDS (R11). -/
def execSpacingEnds (p : Port) (s : State) : Host.Outcome State Fault Refusal := event (fun s => s.spacingDone p) s

end Sys2Proof.Machine
end

