-- ==== Sys2Proof/Machine/ResetEvents.lean ====
section
/-! DEFINITION. The meanings of the reset pin's commands: RESET_ASSERTED and POWER_ON_RESET. -/

namespace Sys2Proof.Machine

/-- RESET_ASSERTED: every block is held from now on (R199). The transmit outputs go high and no event takes place, by
`State.transmitted` and `event`; nothing else changes until the release (log entry 8). -/
def execResetAsserted (s : State) : Host.Outcome State Fault Refusal := .next (s.setResetHeld true)

/-- POWER_ON_RESET: the release of the reset pin (R199). -/
def execPowerOnReset (s : State) : Host.Outcome State Fault Refusal := .next s.powerOn

end Sys2Proof.Machine
end

