-- ==== Sys2Proof/Machine/SegmentEvents.lean ====
section
/-! DEFINITION. The meanings of the Segment Controllers' commands (chapter 5). -/

namespace Sys2Proof.Machine

/-- TAKE (R85, R87). -/
def execTake (g : Segment) (s : State) : Host.Outcome State Fault Refusal := event (fun s => s.take g) s

/-- REPLY_WINDOW_EXPIRY (R93, R94). -/
def execReplyWindowExpiry (g : Segment) (s : State) : Host.Outcome State Fault Refusal :=
  event (fun s => s.windowExpiry g) s

end Sys2Proof.Machine
end

