-- ==== Sys2Proof/Machine/Dispatch.lean ====
section
/-! DEFINITION. The dispatch: one arm per command, in the opcode table's order. -/

namespace Sys2Proof.Machine

def exec (i : Instr) (s : State) : Host.Outcome State Fault Refusal :=
  match i with
  | .resetAsserted => Sys2Proof.Machine.execResetAsserted s
  | .powerOnReset => Sys2Proof.Machine.execPowerOnReset s
  | .countAbove32 p bytes => Sys2Proof.Machine.execCountAbove32 p bytes s
  | .truncation p => Sys2Proof.Machine.execTruncation p s
  | .discardSilence p => Sys2Proof.Machine.execDiscardSilence p s
  | .receiveTelegram p bytes => Sys2Proof.Machine.execReceiveTelegram p bytes s
  | .transmissionComplete p => Sys2Proof.Machine.execTransmissionComplete p s
  | .spacingEnds p => Sys2Proof.Machine.execSpacingEnds p s
  | .take g => Sys2Proof.Machine.execTake g s
  | .replyWindowExpiry g => Sys2Proof.Machine.execReplyWindowExpiry g s
  | .copyCompletion => Sys2Proof.Machine.execCopyCompletion s
  | .checkCompletion => Sys2Proof.Machine.execCheckCompletion s
  | .status => Sys2Proof.Machine.execStatus s
  | .readStation => Sys2Proof.Machine.execReadStation s
  | .readPoints => Sys2Proof.Machine.execReadPoints s
  | .writeStation => Sys2Proof.Machine.execWriteStation s
  | .writePoints => Sys2Proof.Machine.execWritePoints s
  | .setLabel => Sys2Proof.Machine.execSetLabel s
  | .readImage => Sys2Proof.Machine.execReadImage s
  | .readStationState => Sys2Proof.Machine.execReadStationState s
  | .readCounters => Sys2Proof.Machine.execReadCounters s
  | .clearCounters => Sys2Proof.Machine.execClearCounters s
  | .setMode => Sys2Proof.Machine.execSetMode s
  | .copy => Sys2Proof.Machine.execCopy s
  | .commit => Sys2Proof.Machine.execCommit s
  | .cancel => Sys2Proof.Machine.execCancel s
  | .restart => Sys2Proof.Machine.execRestart s
  | .malformedRequest => Sys2Proof.Machine.execMalformedRequest s
  | .leadByte p b => Sys2Proof.Machine.execLeadByte p b s

end Sys2Proof.Machine
end

