-- ==== Sys2Proof/Safety.lean ====
section
/-! DEFINITION. The laws of the part: what the data book says holds of it at every moment, each as a decidable
proposition over one state, and their conjunction; then the predicates over two states in which the statements say what an
event changes and what it leaves. -/

namespace Sys2Proof.Machine

/-! ## Canonical form -/

/-- Every table of the state is in canonical form. -/
abbrev TablesCanonical (s : State) : Prop :=
  Table.rising s.mem.descs = true ∧ Table.wf 0 s.mem.blocks = true ∧
  Table.wf StationEntry.default s.bank0.stations = true ∧ Table.wf StationEntry.default s.bank1.stations = true ∧
  Table.wf PointRecord.default s.bank0.points = true ∧ Table.wf PointRecord.default s.bank1.points = true ∧
  Table.wf StationRuntime.default s.runtime = true ∧ Table.wf ImageRecord.default s.inImages = true ∧
  Table.wf ImageRecord.default s.outImages = true ∧ Table.wf StationCounters.zero s.counters.stations = true

/-! ## Telegram Memory -/

/-- Every block is on the free block list or in one chain, exactly once (R22). -/
abbrev BlocksPartitioned (m : TelegramMemory) : Prop :=
  List.Perm (m.freeBlocks ++ m.descs.flatMap fun e => e.2.chain) (List.range Config.blocks)

/-- Every descriptor is on the free descriptor list or IN USE, exactly once (R23, R28). -/
abbrev DescriptorsPartitioned (m : TelegramMemory) : Prop :=
  List.Perm (m.freeDescs ++ m.inUse) (List.range Config.descriptors)

/-- An IN USE descriptor has at most 32 words, and a chain of ceil(count/8) blocks (R21, R22). -/
abbrev ChainsFit (m : TelegramMemory) : Prop :=
  ∀ e ∈ m.descs, e.2.count ≤ 32 ∧ e.2.chain.length = blocksFor e.2.count

/-- Telegram Memory's own laws. -/
abbrev MemoryLaw (m : TelegramMemory) : Prop :=
  Table.rising m.descs = true ∧ Table.wf 0 m.blocks = true ∧ BlocksPartitioned m ∧ DescriptorsPartitioned m ∧
  ChainsFit m

/-- The minima are no larger than the present free counts (R34). -/
abbrev MinimaLaw (m : TelegramMemory) : Prop :=
  m.minDescs ≤ m.freeDescs.length ∧ m.minBlocks ≤ m.freeBlocks.length

/-! ## Holders -/

/-- The reference a transaction slot holds. -/
def Slot.refs : Slot → List Nat
  | .empty => []
  | .sync d => [d]
  | .poll t => [t.desc]

/-- Every reference to a descriptor: the five kinds of holder (section 2.4). -/
def State.refs (s : State) : List Nat :=
  s.segA.queue ++ s.segB.queue ++ s.segA.slot.refs ++ s.segB.slot.refs ++ s.egress.queue ++ s.agent.requests ++
    s.agent.openSlot.toList

/-- An IN USE descriptor's holder count is the number of holders that name it, at least 1, and every holder names an IN
USE descriptor (R28). -/
abbrev HoldersLaw (s : State) : Prop :=
  (∀ e ∈ s.mem.descs, e.2.holders = s.refs.count e.1 ∧ 1 ≤ e.2.holders) ∧ ∀ d ∈ s.refs, d ∈ s.mem.inUse

/-! ## Banks -/

/-- Exactly one bank is ACTIVE (R41). -/
abbrev OneActive (s : State) : Prop := (s.bank0.state = .active) ≠ (s.bank1.state = .active)

/-- A bank that is neither ACTIVE nor RETIRING has no poll in flight, a RETIRING one has some (R48). -/
abbrev Bank.flightLaw (b : Bank) : Prop :=
  (b.state = .retiring → 0 < b.inFlight) ∧ (b.state ≠ .retiring → b.state ≠ .active → b.inFlight = 0)

/-- The in-flight law of both banks (R48). -/
abbrev FlightLaw (s : State) : Prop := s.bank0.flightLaw ∧ s.bank1.flightLaw

/-- The polls stamped with bank `b`. -/
def TelegramMemory.stamped (m : TelegramMemory) (b : BankId) : Nat :=
  m.descs.countP fun e => e.2.stamp = some b

/-- A bank's in-flight count is the number of polls stamped with it (R48). -/
abbrev StampLaw (s : State) : Prop :=
  s.bank0.inFlight = s.mem.stamped .bank0 ∧ s.bank1.inFlight = s.mem.stamped .bank1

/-- A bank whose runs the Point Engine may apply has passed the commit checks (R109). -/
abbrev Bank.checkedLaw (b : Bank) : Prop :=
  b.state = .active ∨ b.state = .pending ∨ b.state = .retiring → b.check = none

/-- Both banks that are in use have passed the commit checks (R109). -/
abbrev CheckedLaw (s : State) : Prop := s.bank0.checkedLaw ∧ s.bank1.checkedLaw

/-- The open slot is occupied exactly when the bank engine is running (R159). -/
abbrev OpenSlotLaw (s : State) : Prop := s.agent.openSlot.isSome = s.engineRunning

/-! ## Segments -/

/-- What a segment state allows of slot and timer (the table of section 5.1, R83). -/
def SegmentController.shape (c : SegmentController) : Bool :=
  match c.state, c.slot, c.timer with
  | .idle, .empty, none => true
  | .sending, .empty, none => true
  | .sending, .sync _, none => true
  | .sending, .poll _, none => true
  | .awaiting, .poll _, some _ => true
  | _, _, _ => false

/-- Both segments have the shape of section 5.1. -/
abbrev ShapeLaw (s : State) : Prop := s.segA.shape = true ∧ s.segB.shape = true

/-- Whether descriptor `d` is a stamped poll of station 1 to 61 (R75, R88). -/
def State.isStampedPoll (s : State) (d : Nat) : Bool :=
  (s.desc d).kind = .poll && (s.desc d).stamp.isSome && 1 ≤ s.stationOf d && s.stationOf d ≤ Config.stations

/-- Whether descriptor `d` is a SYNC as sync admission leaves it. -/
def State.isSync (s : State) (d : Nat) : Bool :=
  (s.desc d).kind = .sync && (s.desc d).stamp.isNone && (s.desc d).count = 1

/-- A segment queue holds stamped polls and SYNCs, at most one poll for a station and at most one SYNC, no descriptor
twice (R75). -/
abbrev QueueLaw (s : State) (g : Segment) : Prop :=
  (∀ d ∈ (s.seg g).queue, s.isStampedPoll d = true ∨ s.isSync d = true) ∧
  ((s.seg g).queue.map fun d => if (s.desc d).kind = .sync then 0 else s.stationOf d).Nodup

/-- The transaction slot holds a SYNC, or the poll its record describes (R83, R88). -/
def State.slotFits (s : State) (g : Segment) : Bool :=
  match (s.seg g).slot with
  | .empty => true
  | .sync d => s.isSync d
  | .poll t =>
    s.isStampedPoll t.desc && (s.desc t.desc).dest = t.station && (s.desc t.desc).seq = t.seq &&
      (s.desc t.desc).stamp = some t.bank && 1 ≤ t.triesMade && t.triesMade ≤ t.triesAllowed

/-- Queues and slots of both segments hold what they may. -/
abbrev SegmentsLaw (s : State) : Prop :=
  QueueLaw s .a ∧ QueueLaw s .b ∧ s.slotFits .a = true ∧ s.slotFits .b = true

/-! ## Trunk Egress, Agent, Notice Unit -/

/-- Whether descriptor `d` is a telegram for the controller: an unstamped REPLY, MGMT_ANS or NOTICE. -/
def State.isOutbound (s : State) (d : Nat) : Bool :=
  ((s.desc d).kind = .reply || (s.desc d).kind = .mgmtAns || (s.desc d).kind = .notice) && (s.desc d).stamp.isNone

/-- Trunk egress holds telegrams for the controller; its notice count is the number of NOTICEs, at most 2; its head is
handed whenever there is one (R152, R153, R155). -/
abbrev EgressLaw (s : State) : Prop :=
  (∀ d ∈ s.egress.queue, s.isOutbound d = true) ∧
  s.egress.noticeCount = s.egress.queue.countP (fun d => (s.desc d).kind = .notice) ∧ s.egress.noticeCount ≤ 2 ∧
  s.egress.handed = !s.egress.queue.isEmpty

/-- Whether descriptor `d` is an admitted management request (R164). -/
def State.isRequest (s : State) (d : Nat) : Bool := (s.desc d).kind = .mgmtReq && (s.desc d).stamp.isNone

/-- The request queue holds at most four requests; cache, queue and open slot have pairwise distinct sequences, and the
cache at most four entries (R159, R160, R165). -/
abbrev AgentLaw (s : State) : Prop :=
  s.agent.requests.length ≤ 4 ∧ s.agent.cache.length ≤ 4 ∧
  (∀ d ∈ s.agent.requests ++ s.agent.openSlot.toList, s.isRequest d = true) ∧
  (s.agent.cache.map (fun e => e.seq) ++ s.heldSeqs).Nodup

/-- The answer cache holds at most four answers with pairwise distinct sequences (R165). -/
abbrev CacheLaw (s : State) : Prop := s.agent.cache.length ≤ 4 ∧ (s.agent.cache.map fun e => e.seq).Nodup

/-- The subject of a pending entry: 0 for the bank, s for station s (R183). -/
def NoticeEntry.subject : NoticeEntry → Nat
  | .bank _ _ _ => 0
  | .station n _ => n

/-- A change count is 1 to 65535 (R183). -/
def NoticeEntry.fits : NoticeEntry → Bool
  | .bank _ _ _ => true
  | .station n changes => 1 ≤ n && n ≤ Config.stations && 1 ≤ changes && changes ≤ 65535

/-- The pending set holds at most one entry per subject, each with fields in range (R183). -/
abbrev PendingLaw (s : State) : Prop :=
  (s.notices.pendingSet.map NoticeEntry.subject).Nodup ∧ ∀ e ∈ s.notices.pendingSet, e.fits = true

/-- An entry waits only for the notice limit or for memory (R187, R190). -/
abbrev HeldBackLaw (s : State) : Prop :=
  s.notices.pendingSet = [] ∨ 2 ≤ s.egress.noticeCount ∨ s.mem.freeDescs = [] ∨ s.mem.freeBlocks = []

/-! ## Transmitters -/

/-- A drop's transmitter has a telegram in hand exactly when its segment is SENDING, and what it holds through SPACING is
what the segment handed (R84, R93, the table of section 5.1). -/
def State.dropTxFits (s : State) (g : Segment) : Bool :=
  match (s.port (dropPort g)).tx with
  | .idle => (s.seg g).state ≠ .sending
  | .sending t =>
    (s.seg g).state = .sending && (t.kind = .poll || t.kind = .sync) && t.words.length ≤ 32
  | .spacing none => (s.seg g).state ≠ .sending
  | .spacing (some d) =>
    (s.seg g).state = .sending &&
      match (s.seg g).slot with
      | .empty => false
      | .sync x => x = d
      | .poll t => t.desc = d && t.triesMade = 1

/-- Port T's transmitter has a telegram in hand exactly when trunk egress has handed its head (R153). -/
def State.trunkTxFits (s : State) : Bool :=
  match s.portT.tx with
  | .idle => !s.egress.handed
  | .sending t =>
    s.egress.handed && (t.kind = .reply || t.kind = .mgmtAns || t.kind = .notice) && t.words.length ≤ 32
  | .spacing none => !s.egress.handed
  | .spacing (some d) => s.egress.handed && s.egress.queue.head? = some d

/-- The transmitters of the three ports agree with the blocks that hand them telegrams. -/
abbrev TransmitterLaw (s : State) : Prop :=
  s.trunkTxFits = true ∧ s.dropTxFits .a = true ∧ s.dropTxFits .b = true

/-! ## Receivers -/

/-- A receive buffer holds a telegram in progress: not yet complete, its count, once in, at most 32 (R5, R6). -/
def Receiver.fits : Receiver → Bool
  | .hunt => true
  | .discard => true
  | .frame buf => buf.length < 6 || (bufCount buf ≤ 32 && buf.length < 8 + 2 * bufCount buf)

/-- The receive buffers of the three ports. -/
abbrev ReceiverLaw (s : State) : Prop := s.portT.rx.fits = true ∧ s.portA.rx.fits = true ∧ s.portB.rx.fits = true

/-! ## Stations -/

/-- A fail count is 0 to 15; a DOWN or FAILING station has failed, one that is UP or UNKNOWN has not (R101 to R103). -/
def StationRuntime.fits (r : StationRuntime) : Bool :=
  r.failCount ≤ 15 && (r.health = .down || r.health = .failing) = (1 ≤ r.failCount : Bool)

/-- The Station Runtime Table's law. -/
abbrev RuntimeLaw (s : State) : Prop := ∀ e ∈ s.runtime, e.2.fits = true

/-- An image holds at most 32 words (R130). -/
abbrev ImagesLaw (s : State) : Prop :=
  (∀ e ∈ s.inImages, e.2.count ≤ 32) ∧ ∀ e ∈ s.outImages, e.2.count ≤ 32

/-- A cached answer holds at most 32 words (R160). -/
abbrev CacheWordsLaw (s : State) : Prop := ∀ e ∈ s.agent.cache, e.words.length ≤ 32

/-! ## All of them -/

/-- The laws of the part. -/
structure Laws (s : State) : Prop where
  tables : TablesCanonical s
  memory : MemoryLaw s.mem
  minima : MinimaLaw s.mem
  holders : HoldersLaw s
  oneActive : OneActive s
  flight : FlightLaw s
  stamps : StampLaw s
  checked : CheckedLaw s
  openSlot : OpenSlotLaw s
  shape : ShapeLaw s
  segments : SegmentsLaw s
  egress : EgressLaw s
  agent : AgentLaw s
  pendingSet : PendingLaw s
  heldBack : HeldBackLaw s
  transmitters : TransmitterLaw s
  receivers : ReceiverLaw s
  runtime : RuntimeLaw s
  images : ImagesLaw s
  cacheWords : CacheWordsLaw s

/-! ## What an event changes: the predicates the statements are written in -/

/-- The part runs and telegram memory and the tables are lawful. -/
abbrev Running (s : State) : Prop := s.resetHeld = false ∧ MemoryLaw s.mem ∧ TablesCanonical s

/-- The agent is about to execute request `d`, whose data words are `ws`. -/
abbrev Executing (s : State) (d : Nat) (ws : List Word) : Prop :=
  Running s ∧ s.agent.requests.head? = some d ∧ d ∈ s.mem.inUse ∧ s.words d = ws

/-- The trunk receiver is ready for telegram `t`, which has at most 32 words. -/
abbrev HearsTrunk (s : State) (t : Telegram) : Prop :=
  Running s ∧ s.portT.rx = .hunt ∧ t.src = 0 ∧ t.words.length ≤ 32

/-- Free counts with which a traffic-class allocation for `n` words succeeds (R25). -/
abbrev HasRoom (s : State) (n : Nat) : Prop :=
  9 ≤ s.mem.freeDescs.length ∧ 16 + (n + 7) / 8 ≤ s.mem.freeBlocks.length

/-- Segment `g` as the segment field of a station entry names it. -/
def routeOf : Segment → Route
  | .a => .a
  | .b => .b

/-- From `s` to `t` nothing changes but Telegram Memory, trunk egress, the Notice Unit and port T's transmitter. -/
abbrev OnlyEgress (s t : State) : Prop :=
  t = { s with mem := t.mem, egress := t.egress, notices := t.notices, portT := { s.portT with tx := t.portT.tx } }

/-- Every descriptor in use in `s` other than those in `ds` has the same fields and data words in `t`. -/
abbrev OthersKept (s t : State) (ds : List Nat) : Prop :=
  ∀ k ∈ s.mem.inUse, k ∉ ds → t.desc k = s.desc k ∧ t.words k = s.words k

/-- The NOTICE that an emission makes of a pending entry under a notice number; a station's health is the one that `s`
holds (R188, the notices table of section 1.7). -/
def noticeTelegram (s : State) (number : Byte) (e : NoticeEntry) : Telegram :=
  { dest := 0, src := 62, kind := .notice, marks := Marks.clear, seq := number, status := 0
    words := match e with
      | .bank b label cycle => [1, b.code, label, cycle]
      | .station n changes => [2, BitVec.ofNat 16 n, (s.station n).health.code, BitVec.ofNat 16 changes] }

/-- The NOTICEs of pending entries, the oldest first, numbered on from `number` (R188, R191). -/
def noticeTelegrams (s : State) (number : Byte) : List NoticeEntry → List Telegram
  | [] => []
  | e :: rest => noticeTelegram s number e :: noticeTelegrams s (number + 1) rest

/-- A transmitter to which descriptor `d` is handed, whose telegram is `x`: in IDLE it takes its copy and starts, in SPACING
it holds the descriptor (R10). In SENDING it is never handed one (section 1.4; log entry 12). -/
def Transmitter.afterHanding (tx : Transmitter) (d : Nat) (x : Telegram) : Transmitter :=
  match tx with
  | .idle => .sending x
  | .spacing _ => .spacing (some d)
  | .sending y => .sending y

/-- From `s` to `t` the telegrams `joined` have joined trunk egress: a head that has been handed stays with port T, and the
first telegram to join the empty queue is handed to port T at once (R152, R153). -/
abbrev HandsTheHead (s t : State) (joined : List Nat) : Prop :=
  t.egress.handed = (s.egress.handed || !joined.isEmpty) ∧
  (s.egress.handed = true ∨ joined = [] → t.portT.tx = s.portT.tx) ∧
  ∀ h, joined.head? = some h → s.egress.handed = false → s.egress.queue = [] →
    t.portT.tx = s.portT.tx.afterHanding h (t.telegram h)

/-- From `s` to `t` trunk egress gains the notices `ns` that emission attempts make of the oldest pending entries, and
then the telegrams `tail` (R152, R153, R187, R188). -/
abbrev JoinsEgress (s t : State) (ns tail : List Nat) : Prop :=
  t.egress.queue = s.egress.queue ++ ns ++ tail ∧ ns.length ≤ 2 ∧ ns.length ≤ s.notices.pendingSet.length ∧
  t.notices.pendingSet = s.notices.pendingSet.drop ns.length ∧
  t.notices.number = s.notices.number + BitVec.ofNat 8 ns.length ∧
  t.egress.noticeCount = s.egress.noticeCount + ns.length ∧
  ns.map t.telegram = noticeTelegrams s s.notices.number (s.notices.pendingSet.take ns.length) ∧
  (∀ k ∈ ns, k ∉ s.mem.inUse ∧ k ∉ tail ∧ (t.desc k).kind = .notice ∧ (t.desc k).stamp = none ∧ (t.desc k).holders = 1) ∧
  HandsTheHead s t (ns ++ tail)

/-- From `s` to `t` the emissions of `ns` are the only allocations: each minimum above the last free count takes it (R34). -/
abbrev MinimaAfter (s t : State) (ns : List Nat) : Prop :=
  t.mem.minDescs = (if ns = [] then s.mem.minDescs else min s.mem.minDescs t.mem.freeDescs.length) ∧
  t.mem.minBlocks = (if ns = [] then s.mem.minBlocks else min s.mem.minBlocks t.mem.freeBlocks.length)

/-- The banks and the pending set as the switch check of a SYNC with cycle number `w` leaves them, ahead of the emission
attempt of its report (R60, R184). -/
def afterSwitch (s : State) (w : Word) : State :=
  if s.standbyState = .pending then
    ((s.setBank s.standbyId { s.bank s.standbyId with state := .active }).setBank s.active
      { s.bank s.active with state := if (s.bank s.active).inFlight = 0 then .standby else .retiring }).setNotices
      { s.notices with
        pendingSet := reportBankIn s.standbyId (s.bank s.standbyId).label w s.notices.pendingSet }
  else s

/-- A STATION_STATE report for station `n` turns the pending set `ps` into `ps'`: a new entry at the tail with change count 1,
or the entry there is with a change count one higher, which stays at 65535 (R183, R185). -/
abbrev ReportsStation (n : Nat) (ps ps' : List NoticeEntry) : Prop :=
  ((∀ e ∈ ps, e.isStation n = false) → ps' = ps ++ [.station n 1]) ∧
  ∀ pre post c, ps = pre ++ [.station n c] ++ post → (∀ e ∈ pre ++ post, e.isStation n = false) →
    ps' = pre ++ [.station n (min 65535 (c + 1))] ++ post

/-- The reply that descriptor `d`, a poll in `s`, has become in `t` (R143): addressed to the controller, from the poll's
station, with the poll's sequence, and no longer stamped. -/
abbrev RepliedWith (s t : State) (d : Nat) (st : ReplyStatus) (marks : Marks) (ws : List Word) : Prop :=
  t.telegram d = { dest := 0, src := (s.desc d).dest, kind := .reply, marks := marks, seq := (s.desc d).seq,
                   status := st.code, words := ws } ∧
  (t.desc d).stamp = none

/-- The answer that descriptor `d`, a request in `s`, has become in `t` (R167). -/
abbrev AnsweredWith (s t : State) (d : Nat) (st : AnswerStatus) (ws : List Word) : Prop :=
  t.telegram d = { dest := 0, src := 62, kind := .mgmtAns, marks := Marks.clear, seq := (s.desc d).seq,
                   status := st.code, words := ws }

/-- From `s` to `t` the agent executes the head request `d` as a short operation: the request leaves the queue, its
answer joins trunk egress and the cache, the open slot and every other telegram stay, and after the emission attempt of the
chain replacement no pending entry waits that could be emitted (R166, R167, R160, R187, R189). -/
abbrev Answered (s t : State) (d : Nat) (st : AnswerStatus) (ws : List Word) : Prop :=
  AnsweredWith s t d st ws ∧ OthersKept s t [d] ∧ HeldBackLaw t ∧
  t.agent = { requests := s.agent.requests.tail, openSlot := s.agent.openSlot,
              cache := cacheAdd s.agent.cache ⟨(s.desc d).seq, st, ws⟩ } ∧
  ∃ ns, JoinsEgress s t ns [d] ∧ t.mem.freeDescs = s.mem.freeDescs.drop ns.length

/-- Bank `k` after one stamp of bank `b` is released (R47). -/
def afterRelease (s : State) (b k : BankId) : Bank :=
  if k = b then
    { s.bank b with
      inFlight := (s.bank b).inFlight - 1
      state := if (s.bank b).state = .retiring ∧ (s.bank b).inFlight ≤ 1 then .standby else (s.bank b).state }
  else s.bank k

/-- Run `r` ends within the point table (R55). -/
abbrev RunRef.inTable (r : RunRef) : Prop := r.first + r.length ≤ 1024

/-- Record `k` is one of run `r`. -/
abbrev RunRef.has (r : RunRef) (k : Nat) : Prop := r.first ≤ k ∧ k < r.first + r.length

/-- Runs `r` and `e` name a record in common (R56). -/
abbrev RunRef.overlaps (r e : RunRef) : Prop := ∃ k, r.has k ∧ e.has k

/-- The reason code of the first test of R57 that record `k` of run `r` fails, or 0 when it passes all five. -/
def recordReason (b : Bank) (r : RunRef) (k : Nat) : Nat :=
  let p := b.point k
  if p.kind = .none then 5
  else if p.kind.isPair = true ∧ p.index = 31 then 6
  else if ∃ j ∈ List.range k, r.first ≤ j ∧ ∃ w ∈ p.covers, w ∈ (b.point j).covers then 7
  else if p.kind = .scale ∧ (p.b.toInt < 1 ∨ 32767 < p.b.toInt) then 8
  else if (p.kind = .clamp ∨ p.kind = .range) ∧ p.b.toInt < p.a.toInt then 9
  else 0

/-- The bytes that the receiver of port T takes from a command's serial bytes. -/
def trunkBytes : Instr → List Byte
  | .leadByte .t b => takenBytes [b]
  | .countAbove32 .t bytes => takenBytes bytes
  | .receiveTelegram .t bytes => takenBytes bytes
  | _ => []

/-- A SYNC as sync admission takes it up: from the controller, to 63, of one word (R14). -/
abbrev Arrival.isAdmittedSync (a : Arrival) : Prop :=
  a.src = 0 ∧ a.kind = .sync ∧ a.dest = 63 ∧ a.words.length = 1

/-- The poll `d` waits at the head of the queue of the IDLE segment `g`, with `rest` behind it (R75, R83). -/
abbrev AtHead (s : State) (g : Segment) (d : Nat) (rest : List Nat) : Prop :=
  Running s ∧ (s.seg g).state = .idle ∧ (s.seg g).queue = d :: rest ∧ d ∈ s.mem.inUse

/-- Segment `g` holds transaction `t`, whose poll carries the stamp, station and sequence of its record (R88). -/
abbrev HoldsTransaction (s : State) (g : Segment) (t : Transaction) : Prop :=
  Running s ∧ (s.seg g).slot = .poll t ∧ t.desc ∈ s.mem.inUse ∧ (s.desc t.desc).dest = t.station ∧
  (s.desc t.desc).seq = t.seq ∧ (s.desc t.desc).stamp = some t.bank

/-- A candidate reply with this source and sequence matches the transaction of segment `g` (R95). -/
abbrev Matches (s : State) (g : Segment) (t : Transaction) (src : Addr) (seq : Byte) : Prop :=
  (s.seg g).slot = .poll t ∧ t.station = src ∧ t.seq = seq ∧
  ((s.seg g).state = .awaiting ∨ (s.seg g).state = .sending ∧ 2 ≤ t.triesMade)

/-- What the substitution rule answers a poll of station `n` stamped with bank `b`, whose RETRIED mark is `retried`: status,
marks and data words (R136, R137). -/
def substitution (s : State) (n : Nat) (b : BankId) (retried : Bool) : ReplyStatus × Marks × List Word :=
  if (s.inImage n).valid = true ∧ 0 < ((s.bank b).entry n).ageLimit ∧
      (s.cycle.number.toNat + 65536 - (s.inImage n).cycle.toNat) % 65536 ≤ ((s.bank b).entry n).ageLimit then
    (.subst, ⟨false, (s.inImage n).faulted, false, retried⟩, (s.inImage n).words)
  else (.noreply, ⟨false, false, false, retried⟩, [])

/-- What the inbound or outbound run of a station makes of words, under bank `b`. -/
def runOf (s : State) (n : Nat) (b : BankId) (inbound : Bool) (ws : List Word) : Applied :=
  let e := (s.bank b).entry n
  if inbound then applyRun ((s.bank b).runRecords e.inFirst e.inLength) (s.inImage n) ws
  else applyRun ((s.bank b).runRecords e.outFirst e.outLength) (s.outImage n) ws

/-- The marks of a telegram after a run, with the given RETRIED mark (R125). -/
def Applied.marks (r : Applied) (retried : Bool) : Marks := ⟨r.transformed, r.faulted, r.limited, retried⟩

/-- No counter of `c` is below its counterpart in `d`. -/
abbrev StationCounters.le (c d : StationCounters) : Prop :=
  c.transmissions ≤ d.transmissions ∧ c.retries ≤ d.retries ∧ c.repliesOk ≤ d.repliesOk ∧ c.failures ≤ d.failures ∧
  c.substitutions ≤ d.substitutions ∧ c.superseded ≤ d.superseded ∧ c.pointFaults ≤ d.pointFaults ∧
  c.pointLimits ≤ d.pointLimits ∧ c.shortSkips ≤ d.shortSkips

/-- No counter of `c` is below its counterpart in `d`. -/
abbrev TrunkCounters.le (c d : TrunkCounters) : Prop :=
  c.rxGood ≤ d.rxGood ∧ c.rxCrc ≤ d.rxCrc ∧ c.rxFormat ≤ d.rxFormat ∧ c.rxAddress ≤ d.rxAddress ∧
  c.rxUnexpected ≤ d.rxUnexpected ∧ c.rxNoroom ≤ d.rxNoroom ∧ c.txDone ≤ d.txDone

/-- No counter of `c` is below its counterpart in `d`. -/
abbrev DropCounters.le (c d : DropCounters) : Prop :=
  c.rxGood ≤ d.rxGood ∧ c.rxCrc ≤ d.rxCrc ∧ c.rxFormat ≤ d.rxFormat ∧ c.rxAddress ≤ d.rxAddress ∧
  c.rxStray ≤ d.rxStray ∧ c.txDone ≤ d.txDone

end Sys2Proof.Machine
end

