-- ==== Sys2Proof/Certificates/Slice0/Obligations.lean ====
section
/-! DEFINITION. The statements for the provers, chapter by chapter of the data book. A statement about a command concludes
that `exec` answers a next state, and says what that state holds and what it leaves as it was. -/

open Sys2Proof Sys2Proof.Machine

/-! ## The machine and its resets -/

/-- A step executes the command at the front of the queue on the queue's rest; on an empty queue the part idles (the
idling is the model's choice, log entry 3). -/
def Obligations.StepRunsTheFrontCommand : Prop :=
  (∀ (c : Instr) (rest : List Instr) (s : State),
    step { s with pending := c :: rest } = exec c { s with pending := rest }) ∧
  ∀ s : State, s.pending = [] → step s = .next s

/-- Every command answers a next state and leaves the queue alone, and only the reset pin's commands move the reset; while it
is held no other event takes place and every transmit output rests high (R199, R203; that nothing else changes at the
assertion is log entry 8). -/
def Obligations.CommandsAnswerNextAndTheResetPinHolds : Prop :=
  (∀ (c : Instr) (s : State), ∃ t, exec c s = .next t ∧ t.pending = s.pending ∧
    t.resetHeld = match c with
      | .resetAsserted => true
      | .powerOnReset => false
      | _ => s.resetHeld) ∧
  ∀ s : State, exec .resetAsserted s = .next { s with resetHeld := true } ∧
    (s.resetHeld = true →
      (∀ c : Instr, c ≠ .powerOnReset → exec c s = .next s) ∧ ∀ p, s.transmitted p = none)

/-- POWER_ON_RESET gives every piece of state its power-on reset value, from any state; the block store is not cleared. -/
def Obligations.PowerOnResetValues : Prop :=
  (∀ s : State, ∃ t, exec .powerOnReset s = .next t ∧ t.resetHeld = false ∧
    (∀ p, t.port p = ⟨.hunt, .idle⟩) ∧
    t.mem.descs = [] ∧ t.mem.freeDescs = List.range 160 ∧ t.mem.freeBlocks = List.range 640 ∧
    t.mem.minDescs = 160 ∧ t.mem.minBlocks = 640 ∧ t.mem.blocks = s.mem.blocks ∧
    t.bank0.state = .active ∧ t.bank1.state = .standby ∧
    (∀ b, (t.bank b).label = 0 ∧ (t.bank b).inFlight = 0 ∧
      (∀ n, (t.bank b).entry n = ⟨.a, 20, 1, 3, 0, 0, 0, 0, 0⟩) ∧
      ∀ k, (t.bank b).point k = ⟨0, .none, .substitute, 0, 0, 0⟩) ∧
    t.engineRunning = false ∧ t.cycle = ⟨0, false⟩ ∧
    (∀ g, t.seg g = ⟨[], .empty, none, .idle⟩) ∧
    (∀ n, t.station n = ⟨.unknown, 0, .normal⟩) ∧
    (∀ n, t.inImage n = ⟨false, [], 0, false⟩ ∧ t.outImage n = ⟨false, [], 0, false⟩) ∧
    t.egress = ⟨[], false, 0⟩ ∧ t.agent = ⟨[], none, []⟩ ∧ t.notices = ⟨[], 0⟩ ∧
    t.counters.trunk = ⟨0, 0, 0, 0, 0, 0, 0⟩ ∧ t.counters.dropA = ⟨0, 0, 0, 0, 0, 0⟩ ∧
    t.counters.dropB = ⟨0, 0, 0, 0, 0, 0⟩ ∧ t.counters.duplicates = 0 ∧ t.counters.queueFull = 0 ∧
    (∀ n, t.stationCounters n = ⟨0, 0, 0, 0, 0, 0, 0, 0, 0⟩)) ∧
  exec .powerOnReset State.reset = .next State.reset

/-- The laws of the part hold at the reset state, and after a power-on reset from any state with a canonical block
store. -/
def Obligations.LawsHoldAtReset : Prop :=
  Laws State.reset ∧
  ∀ s : State, Table.wf 0 s.mem.blocks = true → ∃ t, exec .powerOnReset s = .next t ∧ Laws t

/-- Every step that answers a next state keeps the laws of the part. -/
def Obligations.LawsKeptByEveryStep : Prop :=
  ∀ s t : State, Laws s → step s = .next t → Laws t

/-- Every step keeps every table of the state in canonical form, whatever else holds. -/
def Obligations.TablesStayCanonical : Prop :=
  ∀ s t : State, TablesCanonical s → step s = .next t → TablesCanonical t

/-! ## Chapter 1: the line -/

/-- The CRC of R3: its starting value, the feeding of a byte most significant bit first, the order on the line, the
receiver's comparison, the check value, and the register's residue over the two CRC bytes. -/
def Obligations.CrcOfTheCheckBytesAndResidue : Prop :=
  crc16 [] = 0xFFFF ∧
  (∀ (body : List Byte) (b : Byte), crc16 (body ++ [b]) =
    [7, 6, 5, 4, 3, 2, 1, 0].foldl
      (fun (c : Word) (i : Nat) => if c.msb = b.getLsbD i then c <<< 1 else (c <<< 1) ^^^ 0x1021) (crc16 body)) ∧
  (∀ (p : Port) (t : Telegram), ∃ hi lo : Byte,
    lineBytes p t = 0x5A :: (bodyBytes p t ++ [hi, lo]) ∧ crc16 (bodyBytes p t) = hi ++ lo) ∧
  (∀ (body : List Byte) (hi lo : Byte), body.length = 6 + 2 * (body.getD 5 0).toNat →
    (checkTelegram (body ++ [hi, lo]) = .crcMismatch ↔ crc16 body ≠ hi ++ lo)) ∧
  crc16 [0x31, 0x32, 0x33, 0x34, 0x35, 0x36, 0x37, 0x38, 0x39] = 0x29B1 ∧
  ∀ (body : List Byte) (hi lo : Byte), crc16 (body ++ [hi, lo]) = 0 ↔ crc16 body = hi ++ lo

/-- LEAD_BYTE: what a receiver does with ten line bits, a low start bit, the bits of `b` from the least significant and a
stop bit found high or low, in HUNT, in DISCARD, and in FRAME short of a header's end or of the telegram's end. A line that
is high where the start bit would be rests: no byte is taken (log entry 1). -/
def Obligations.ReceiverTakesOneByte : Prop :=
  (∀ (s : State) (p : Port) (f : SerialByte) (b : Byte), s.resetHeld = false →
    f.getLsbD 0 = false → (∀ i, i < 8 → f.getLsbD (i + 1) = b.getLsbD i) →
    ((s.port p).rx = .hunt → exec (.leadByte p f) s = .next (if b = 0x5A then s.setRx p (.frame []) else s)) ∧
    ((s.port p).rx = .discard → exec (.leadByte p f) s = .next s) ∧
    (∀ buf, (s.port p).rx = .frame buf → buf.length < 5 →
      exec (.leadByte p f) s = .next (s.setRx p (.frame (buf ++ [b])))) ∧
    (∀ buf, (s.port p).rx = .frame buf → buf.length = 5 → b.toNat ≤ 32 →
      exec (.leadByte p f) s = .next (s.setRx p (.frame (buf ++ [b])))) ∧
    (∀ buf, (s.port p).rx = .frame buf → 6 ≤ buf.length → buf.length + 1 < 8 + 2 * (buf.getD 5 0).toNat →
      exec (.leadByte p f) s = .next (s.setRx p (.frame (buf ++ [b]))))) ∧
  ∀ (s : State) (p : Port) (f : SerialByte), s.resetHeld = false → f.getLsbD 0 = true →
    exec (.leadByte p f) s = .next s

/-- COUNT_ABOVE_32 counts one RX_FORMAT and sends the receiver to DISCARD; TRUNCATION ends a telegram in FRAME with one
RX_FORMAT and DISCARD_SILENCE ends a DISCARD without a count. In the other receiver states the silence is no event (log
entry 1). -/
def Obligations.OverlongAndTruncatedTelegrams : Prop :=
  (∀ (s : State) (p : Port) (header : List Byte) (fs : List SerialByte), s.resetHeld = false → header.length = 6 →
    32 < (header.getD 5 0).toNat →
    ((s.port p).rx = .hunt → takenBytes fs = 0x5A :: header →
      exec (.countAbove32 p fs) s = .next ((s.setRx p .discard).countPort p .rxFormat)) ∧
    ∀ k, k < 6 → (s.port p).rx = .frame (header.take k) → takenBytes fs = header.drop k →
      exec (.countAbove32 p fs) s = .next ((s.setRx p .discard).countPort p .rxFormat)) ∧
  ∀ (s : State) (p : Port), s.resetHeld = false →
    (∀ buf, (s.port p).rx = .frame buf →
      exec (.truncation p) s = .next ((s.setRx p .hunt).countPort p .rxFormat) ∧
      exec (.discardSilence p) s = .next s) ∧
    ((s.port p).rx = .discard →
      exec (.discardSilence p) s = .next (s.setRx p .hunt) ∧ exec (.truncation p) s = .next s) ∧
    ((s.port p).rx = .hunt → exec (.truncation p) s = .next s ∧ exec (.discardSilence p) s = .next s)

/-- A telegram whose CRC does not match counts one RX_CRC, whatever its kind; one whose CRC matches and whose kind is
unknown counts one RX_FORMAT. Nothing else changes. -/
def Obligations.DamagedTelegramsAreOnlyCounted : Prop :=
  ∀ (s : State) (p : Port) (body : List Byte) (hi lo : Byte) (fs : List SerialByte), s.resetHeld = false →
    (s.port p).rx = .hunt → (body.getD 5 0).toNat ≤ 32 → body.length = 6 + 2 * (body.getD 5 0).toNat →
    takenBytes fs = 0x5A :: (body ++ [hi, lo]) →
    (crc16 body ≠ hi ++ lo →
      exec (.receiveTelegram p fs) s = .next (s.countPort p .rxCrc)) ∧
    (crc16 body = hi ++ lo → ((body.getD 2 0).toNat % 16 = 0 ∨ 7 ≤ (body.getD 2 0).toNat % 16) →
      exec (.receiveTelegram p fs) s = .next (s.countPort p .rxFormat))

/-- What any port sends of a telegram of at most 32 words is received by any port as one arrival with the same
destination, source, kind, sequence and words: no bit of the line format is dropped. On the way are the ten bits of each
byte sent, the bytes a receiver takes from line bits, whatever level a stop bit is found at, and what a line held high or
low is received as. The codes that stand in a telegram's bytes and data words are those of the tables of section 1.7 and
section 6.2. -/
def Obligations.LineRoundTrip : Prop :=
  (∀ (s : State) (p q : Port) (t : Telegram), s.resetHeld = false → (s.port p).rx = .hunt → t.words.length ≤ 32 →
    exec (.receiveTelegram p (serialBytes (lineBits q t))) s =
      .next (s.arrive p { dest := t.dest, src := t.src, kind := t.kind, seq := t.seq, words := t.words })) ∧
  (∀ (p : Port) (t : Telegram), lineBits p t = (lineBytes p t).flatMap fun b =>
    [false, b.getLsbD 0, b.getLsbD 1, b.getLsbD 2, b.getLsbD 3, b.getLsbD 4, b.getLsbD 5, b.getLsbD 6, b.getLsbD 7,
      true]) ∧
  (∀ (p : Port) (t : Telegram), serialBytes (lineBits p t) = lineSerial p t ∧
    takenBytes (lineSerial p t) = lineBytes p t) ∧
  (takenBytes [] = [] ∧ ∀ (f : SerialByte) (fs : List SerialByte),
    (f.getLsbD 0 = true → takenBytes (f :: fs) = takenBytes fs) ∧
    (f.getLsbD 0 = false → ∃ b : Byte, takenBytes (f :: fs) = b :: takenBytes fs ∧
      ∀ i, i < 8 → b.getLsbD i = f.getLsbD (i + 1))) ∧
  (∀ (s : State) (p : Port) (fs gs : List SerialByte), takenBytes fs = takenBytes gs →
    exec (.receiveTelegram p fs) s = exec (.receiveTelegram p gs) s ∧
    exec (.countAbove32 p fs) s = exec (.countAbove32 p gs) s) ∧
  (∀ (n : Nat) (bits : List Bool), serialBytes (List.replicate n true ++ bits) = serialBytes bits) ∧
  (∀ (f : SerialByte) (bits : List Bool), f.getLsbD 0 = false →
    serialBytes ((List.range 10).map (fun i => f.getLsbD i) ++ bits) = f :: serialBytes bits) ∧
  (∀ n : Nat, takenBytes (serialBytes (List.replicate (10 * n) false)) = List.replicate n 0) ∧
  [Kind.poll, .reply, .sync, .mgmtReq, .mgmtAns, .notice].map Kind.code = [1, 2, 3, 4, 5, 6] ∧
  [ReplyStatus.ok, .subst, .noreply, .refused, .unrouted, .superseded, .echo, .overrun].map ReplyStatus.code =
    [0, 1, 2, 3, 4, 5, 6, 7] ∧
  [AnswerStatus.done, .badOperation, .badArgument, .format, .notStandby, .engineBusy, .checkFailed, .cancelled,
    .nothingPending, .noRoom].map AnswerStatus.code = [0, 1, 2, 3, 4, 5, 6, 7, 8, 9] ∧
  [BankId.bank0, .bank1].map BankId.code = [0, 1] ∧
  [BankState.active, .standby, .filling, .checking, .pending, .retiring].map BankState.code = [0, 1, 2, 3, 4, 5] ∧
  [Route.none, .a, .b].map Route.code = [0, 1, 2] ∧
  [SegState.idle, .sending, .awaiting].map SegState.code = [0, 1, 2] ∧
  [Health.unknown, .up, .failing, .down].map Health.code = [0, 1, 2, 3] ∧
  [Mode.normal, .isolated, .echo].map Mode.code = [0, 1, 2] ∧
  [Policy.substitute, .hold].map Policy.code = [0, 1] ∧
  [PointKind.none, .fixed, .complement, .bcdToBin, .binToBcd, .bcd8ToBin32, .bin32ToBcd8, .scale, .clamp, .bits,
    .range].map PointKind.code = [0, 1, 2, 3, 4, 5, 6, 7, 8, 9, 10]

/-- A telegram that port T discards, and one that a drop port does not accept as its transaction's reply, leaves one count and
nothing else. -/
def Obligations.DiscardedTelegramsAreOnlyCounted : Prop :=
  (∀ (s : State) (q : Port) (t : Telegram), s.resetHeld = false → s.portT.rx = .hunt → t.words.length ≤ 32 →
    (t.src ≠ 0 → exec (.receiveTelegram .t (lineSerial q t)) s = .next (s.countPort .t .rxAddress)) ∧
    (t.src = 0 →
      (t.kind = .reply ∨ t.kind = .mgmtAns ∨ t.kind = .notice →
        exec (.receiveTelegram .t (lineSerial q t)) s = .next (s.countPort .t .rxUnexpected)) ∧
      (t.kind = .poll → t.dest = 0 ∨ 62 ≤ t.dest.toNat →
        exec (.receiveTelegram .t (lineSerial q t)) s = .next (s.countPort .t .rxAddress)) ∧
      (t.kind = .sync → t.dest ≠ 63 →
        exec (.receiveTelegram .t (lineSerial q t)) s = .next (s.countPort .t .rxAddress)) ∧
      (t.kind = .sync → t.dest = 63 → t.words.length ≠ 1 →
        exec (.receiveTelegram .t (lineSerial q t)) s = .next (s.countPort .t .rxFormat)) ∧
      (t.kind = .mgmtReq → t.dest ≠ 62 →
        exec (.receiveTelegram .t (lineSerial q t)) s = .next (s.countPort .t .rxAddress)))) ∧
  ∀ (s : State) (g : Segment) (q : Port) (t : Telegram), s.resetHeld = false → (s.port (dropPort g)).rx = .hunt →
    t.words.length ≤ 32 →
    (t.kind ≠ .reply →
      exec (.receiveTelegram (dropPort g) (lineSerial q t)) s = .next (s.countPort (dropPort g) .rxStray)) ∧
    (t.kind = .reply →
      (t.dest ≠ 0 ∨ t.src = 0 ∨ 62 ≤ t.src.toNat →
        exec (.receiveTelegram (dropPort g) (lineSerial q t)) s = .next (s.countPort (dropPort g) .rxAddress)) ∧
      (t.dest = 0 → 1 ≤ t.src.toNat → t.src.toNat ≤ 61 → (¬∃ x, Matches s g x t.src t.seq) →
        exec (.receiveTelegram (dropPort g) (lineSerial q t)) s = .next (s.countPort (dropPort g) .rxStray)))

/-- TRANSMISSION_COMPLETE on a drop: TX_DONE and SPACING. A SYNC leaves its slot and gives up its reference: with another
holder left nothing else changes, with none it is released, which makes one emission attempt. A try whose transaction still
exists starts the reply window of the stamped bank, one whose transaction has ended leaves the segment IDLE. -/
def Obligations.DropTransmissionComplete : Prop :=
  ∀ (s : State) (g : Segment) (x : Telegram), Running s → (s.port (dropPort g)).tx = .sending x →
    let sent := (s.countPort (dropPort g) .txDone).setTx (dropPort g) (.spacing none)
    (∀ d, (s.seg g).slot = .sync d → d ∈ s.mem.inUse →
      let idle := sent.setSeg g { s.seg g with slot := .empty, timer := none, state := .idle }
      (2 ≤ (s.desc d).holders → exec (.transmissionComplete (dropPort g)) s =
        .next (idle.setMem (s.mem.setDesc d { s.desc d with holders := (s.desc d).holders - 1 }))) ∧
      ((s.desc d).holders ≤ 1 → ∃ t ns, exec (.transmissionComplete (dropPort g)) s = .next t ∧
        JoinsEgress (s.setMem (s.mem.release d)) t ns [] ∧ HeldBackLaw t ∧ OthersKept s t [d] ∧
        (d ∉ ns → d ∉ t.mem.inUse) ∧
        t.mem.freeDescs = (s.mem.freeDescs ++ [d]).drop ns.length ∧
        t.mem.freeBlocks = (s.mem.freeBlocks ++ (s.desc d).chain).drop ns.length ∧
        MinimaAfter s t ns ∧ OnlyEgress idle t)) ∧
    (∀ y, (s.seg g).slot = .poll y → exec (.transmissionComplete (dropPort g)) s =
      .next (sent.setSeg g
        { s.seg g with
          timer := some (((s.bank y.bank).entry y.station.toNat).window * 2000), state := .awaiting })) ∧
    ((s.seg g).slot = .empty → exec (.transmissionComplete (dropPort g)) s =
      .next (sent.setSeg g { s.seg g with timer := none, state := .idle }))

/-- TRANSMISSION_COMPLETE on port T: TX_DONE, the head leaves trunk egress and is released, a NOTICE lowers the notice count,
one emission attempt emits every pending entry it can, and the next head is handed to the transmitter, which is in SPACING. -/
def Obligations.TrunkTransmissionComplete : Prop :=
  ∀ (s : State) (x : Telegram) (d : Nat) (rest : List Nat), Running s → s.portT.tx = .sending x →
    s.egress.queue = d :: rest → d ∈ s.mem.inUse → (s.desc d).holders = 1 →
    let count := if (s.desc d).kind = .notice then s.egress.noticeCount - 1 else s.egress.noticeCount
    let removed := ((s.setMem (s.mem.release d)).setEgress ⟨rest, !rest.isEmpty, count⟩).setTx .t (.spacing rest.head?)
    ∃ t ns, exec (.transmissionComplete .t) s = .next t ∧
      t.egress = ⟨rest ++ ns, !(rest ++ ns).isEmpty, count + ns.length⟩ ∧
      t.portT.tx = .spacing (rest ++ ns).head? ∧
      JoinsEgress removed t ns [] ∧ HeldBackLaw t ∧ OthersKept s t [d] ∧ (d ∉ ns → d ∉ t.mem.inUse) ∧
      t.mem.freeDescs = (s.mem.freeDescs ++ [d]).drop ns.length ∧
      t.mem.freeBlocks = (s.mem.freeBlocks ++ (s.desc d).chain).drop ns.length ∧
      MinimaAfter s t ns ∧ OnlyEgress (s.countPort .t .txDone) t

/-- SPACING_ENDS: a transmitter with nothing in hand goes to IDLE, one that holds a telegram starts it, copying it now; in
IDLE and SENDING the event does not take place (log entry 1). -/
def Obligations.SpacingEndsFreesOrStarts : Prop :=
  ∀ (s : State) (p : Port), s.resetHeld = false →
    ((s.port p).tx = .spacing none → exec (.spacingEnds p) s = .next (s.setTx p .idle)) ∧
    (∀ d, (s.port p).tx = .spacing (some d) → exec (.spacingEnds p) s = .next (s.setTx p (.sending (s.telegram d)))) ∧
    ((s.port p).tx = .idle → exec (.spacingEnds p) s = .next s) ∧
    ∀ x, (s.port p).tx = .sending x → exec (.spacingEnds p) s = .next s

/-! ## Chapter 2: Telegram Memory -/

/-- A traffic-class allocation succeeds exactly when it leaves 8 descriptors and 16 blocks free; a part-originated one
whenever there are enough. A successful allocation lowers each minimum that is above the new free count to it; a failed one,
a release and a return of blocks leave the minima. -/
def Obligations.TrafficLeavesTheReserve : Prop :=
  ∀ (m : TelegramMemory) (h : Header) (ws : List Word),
    ((m.allocate .traffic h ws).isSome = true ↔
      9 ≤ m.freeDescs.length ∧ 16 + (ws.length + 7) / 8 ≤ m.freeBlocks.length) ∧
    ((m.allocate .part h ws).isSome = true ↔
      1 ≤ m.freeDescs.length ∧ (ws.length + 7) / 8 ≤ m.freeBlocks.length) ∧
    (∀ d m', m.allocate .traffic h ws = some (d, m') → 8 ≤ m'.freeDescs.length ∧ 16 ≤ m'.freeBlocks.length) ∧
    (∀ cls d m', m.allocate cls h ws = some (d, m') →
      m'.freeDescs.length + 1 = m.freeDescs.length ∧
      m'.freeBlocks.length + (ws.length + 7) / 8 = m.freeBlocks.length ∧
      m'.minDescs = min m.minDescs m'.freeDescs.length ∧ m'.minBlocks = min m.minBlocks m'.freeBlocks.length) ∧
    (∀ d, (m.release d).minDescs = m.minDescs ∧ (m.release d).minBlocks = m.minBlocks) ∧
    ∀ d,
      let r := m.replaceChain d ws
      (ws = [] ∨ r.1 = false → r.2.minDescs = m.minDescs ∧ r.2.minBlocks = m.minBlocks) ∧
      (ws ≠ [] → r.1 = true →
        r.2.minDescs = min m.minDescs r.2.freeDescs.length ∧ r.2.minBlocks = min m.minBlocks r.2.freeBlocks.length)

/-- In a lawful Telegram Memory the blocks never run short before the descriptors do: four blocks are free for every free
descriptor, and a chain replacement of at most 32 words always finds its blocks. -/
def Obligations.ReplacementAlwaysFindsBlocks : Prop :=
  ∀ m : TelegramMemory, MemoryLaw m →
    4 * m.freeDescs.length ≤ m.freeBlocks.length ∧
    ∀ d ∈ m.inUse, ∀ ws : List Word, ws.length ≤ 32 → (m.replaceChain d ws).1 = true

/-! ## Chapter 3: configuration banks -/

/-- Exactly one bank is ACTIVE, the in-flight counts fit the bank states, a bank in use has passed its check, and the open
slot is occupied exactly while the bank engine runs: every step keeps these together. -/
def Obligations.BankLawsKept : Prop :=
  ∀ s t : State, OneActive s ∧ FlightLaw s ∧ CheckedLaw s ∧ OpenSlotLaw s → step s = .next t →
    OneActive t ∧ FlightLaw t ∧ CheckedLaw t ∧ OpenSlotLaw t

/-- The ACTIVE bank changes only at a power-on reset, or at a byte taken on port T that completes a SYNC which is admitted
while the other bank is PENDING; the PENDING bank is then the ACTIVE one. -/
def Obligations.ActiveBankChangesOnlyAtSync : Prop :=
  (∀ (c : Instr) (s t : State), OneActive s → exec c s = .next t → t.active ≠ s.active →
    c = .powerOnReset ∨
    (s.standbyState = .pending ∧ t.cycle.seen = true ∧
      ((∃ b, c = .leadByte .t b) ∨ (∃ bs, c = .countAbove32 .t bs) ∨ ∃ bs, c = .receiveTelegram .t bs) ∧
      ∃ pre b post buf a, trunkBytes c = pre ++ b :: post ∧
        let u := s.receiveBytes .t pre
        u.portT.rx = .frame buf ∧ checkTelegram (buf ++ [b]) = .arrived a ∧ a.isAdmittedSync ∧
        u.active = s.active ∧ u.standbyState = .pending ∧ (u.receiveByte .t b).active = s.standbyId)) ∧
  ∀ (s : State) (a : Arrival), OneActive s → (s.arriveTrunk a).active ≠ s.active →
    a.isAdmittedSync ∧ s.standbyState = .pending ∧ (s.arriveTrunk a).active = s.standbyId

/-- A bank's station entries, point records and label change only while it is STANDBY or FILLING. -/
def Obligations.BankContentsChangeOnlyInStandbyOrFilling : Prop :=
  ∀ (c : Instr) (s t : State) (b : BankId), OneActive s → exec c s = .next t → c ≠ .powerOnReset →
    (s.bank b).state ≠ .standby → (s.bank b).state ≠ .filling →
    (t.bank b).stations = (s.bank b).stations ∧ (t.bank b).points = (s.bank b).points ∧
    (t.bank b).label = (s.bank b).label

/-- SET_LABEL. -/
def Obligations.SetLabelSetsAStandbyLabel : Prop :=
  ∀ (s : State) (d : Nat) (b label : Word), Executing s d [6, b, label] →
    ∃ t, exec .setLabel s = .next t ∧
      (1 < b.toNat ∨ label = 65535 → Answered s t d .badArgument [] ∧ OnlyEgress (s.setAgent t.agent) t) ∧
      ∀ k : BankId, b = k.code → label ≠ 65535 →
        ((s.bank k).state = .standby → Answered s t d .done [] ∧
          OnlyEgress ((s.setAgent t.agent).setBank k { s.bank k with label := label }) t) ∧
        ((s.bank k).state ≠ .standby → Answered s t d .notStandby [] ∧ OnlyEgress (s.setAgent t.agent) t)

/-- WRITE_STATION and WRITE_POINTS: what is in range is written whole to a STANDBY bank and to no other; out of range nothing
is written. -/
def Obligations.WritesReachAStandbyBank : Prop :=
  (∀ (s : State) (d : Nat) (b n w0 w1 w2 w3 w4 w5 w6 w7 w8 : Word),
    Executing s d [3, b, n, w0, w1, w2, w3, w4, w5, w6, w7, w8] →
    ∃ t, exec .writeStation s = .next t ∧
      if b.toNat ≤ 1 ∧ 1 ≤ n.toNat ∧ n.toNat ≤ 61 ∧ w0.toNat ≤ 2 ∧ (1 ≤ w1.toNat ∧ w1.toNat ≤ 255) ∧ w2.toNat ≤ 3 ∧
          (1 ≤ w3.toNat ∧ w3.toNat ≤ 15) ∧ w4.toNat ≤ 255 ∧ w5.toNat ≤ 1023 ∧ w6.toNat ≤ 32 ∧ w7.toNat ≤ 1023 ∧
          w8.toNat ≤ 32 then
        ∀ k : BankId, b = k.code →
          ((s.bank k).state = .standby → Answered s t d .done [] ∧
            ((t.bank k).entry n.toNat).toWords = [w0, w1, w2, w3, w4, w5, w6, w7, w8] ∧
            (∀ i, i ≠ n.toNat → (t.bank k).entry i = (s.bank k).entry i) ∧
            OnlyEgress ((s.setAgent t.agent).setBank k { s.bank k with stations := (t.bank k).stations }) t) ∧
          ((s.bank k).state ≠ .standby → Answered s t d .notStandby [] ∧ OnlyEgress (s.setAgent t.agent) t)
      else Answered s t d .badArgument [] ∧ OnlyEgress (s.setAgent t.agent) t) ∧
  ∀ (s : State) (d : Nat) (b f c : Word) (rs : List (List Word)), (∀ r ∈ rs, r.length = 6) → 1 ≤ rs.length →
    rs.length ≤ 4 → c.toNat = rs.length → Executing s d ([5, b, f, c] ++ rs.flatten) →
    ∃ t, exec .writePoints s = .next t ∧
      if b.toNat ≤ 1 ∧ f.toNat + rs.length ≤ 1024 ∧
          ∀ r ∈ rs, (r.getD 0 0).toNat ≤ 31 ∧ (r.getD 1 0).toNat ≤ 10 ∧ (r.getD 2 0).toNat ≤ 1 then
        ∀ k : BankId, b = k.code →
          ((s.bank k).state = .standby → Answered s t d .done [] ∧
            (∀ i, i < rs.length → ((t.bank k).point (f.toNat + i)).toWords = rs.getD i []) ∧
            (∀ i, i < f.toNat ∨ f.toNat + rs.length ≤ i → (t.bank k).point i = (s.bank k).point i) ∧
            OnlyEgress ((s.setAgent t.agent).setBank k { s.bank k with points := (t.bank k).points }) t) ∧
          ((s.bank k).state ≠ .standby → Answered s t d .notStandby [] ∧ OnlyEgress (s.setAgent t.agent) t)
      else Answered s t d .badArgument [] ∧ OnlyEgress (s.setAgent t.agent) t

/-- READ_STATION and READ_POINTS: the words of the entry or records as the bank holds them. Of a bank in FILLING the read
finds the source's entries and records in a leading part of the copy order, no shorter than at an earlier read, and the
bank's own in the rest (how long that part is is a free value, log entry 5); nothing else changes. Out of range
BAD_ARGUMENT. -/
def Obligations.BankReadsAnswerTheContents : Prop :=
  let copyHasReached := fun (s t : State) (k : BankId) =>
    (∀ i, (t.bank k).entry i = if i ≤ min t.copyDone 61 then (s.bank s.active).entry i else (s.bank k).entry i) ∧
    (∀ i, (t.bank k).point i = if i < t.copyDone - 61 then (s.bank s.active).point i else (s.bank k).point i) ∧
    min s.copyDone 1085 ≤ t.copyDone ∧ t.copyDone ≤ 1085 ∧
    OnlyEgress ((((s.setAgent t.agent).setBank k
      { s.bank k with stations := (t.bank k).stations, points := (t.bank k).points }).setCopyDone t.copyDone).tickFree) t
  (∀ (s : State) (d : Nat) (b n : Word), OneActive s → Executing s d [2, b, n] →
    ∃ t, exec .readStation s = .next t ∧
      if b.toNat ≤ 1 ∧ 1 ≤ n.toNat ∧ n.toNat ≤ 61 then
        ∀ k : BankId, b = k.code →
          ((s.bank k).state ≠ .filling →
            Answered s t d .done ((s.bank k).entry n.toNat).toWords ∧ OnlyEgress (s.setAgent t.agent) t) ∧
          ((s.bank k).state = .filling →
            Answered s t d .done ((t.bank k).entry n.toNat).toWords ∧ copyHasReached s t k)
      else Answered s t d .badArgument [] ∧ OnlyEgress (s.setAgent t.agent) t) ∧
  ∀ (s : State) (d : Nat) (b f c : Word), OneActive s → Executing s d [4, b, f, c] →
    ∃ t, exec .readPoints s = .next t ∧
      if b.toNat ≤ 1 ∧ 1 ≤ c.toNat ∧ c.toNat ≤ 4 ∧ f.toNat + c.toNat ≤ 1024 then
        ∀ k : BankId, b = k.code →
          ((s.bank k).state ≠ .filling →
            Answered s t d .done ((List.range c.toNat).flatMap fun i => ((s.bank k).point (f.toNat + i)).toWords) ∧
            OnlyEgress (s.setAgent t.agent) t) ∧
          ((s.bank k).state = .filling →
            Answered s t d .done ((List.range c.toNat).flatMap fun i => ((t.bank k).point (f.toNat + i)).toWords) ∧
            copyHasReached s t k)
      else Answered s t d .badArgument [] ∧ OnlyEgress (s.setAgent t.agent) t

/-- COPY and COMMIT: ENGINE_BUSY while the engine runs, NOT_STANDBY while the non-active bank is PENDING or RETIRING, and
otherwise accepted: the request moves to the open slot and the bank to FILLING with label INCOMPLETE, or to CHECKING. -/
def Obligations.CopyAndCommitOpenTheOperation : Prop :=
  ∀ (s : State) (d : Nat), OneActive s →
    (Executing s d [12] → ∃ t, exec .copy s = .next t ∧
      (s.standbyState = .filling ∨ s.standbyState = .checking →
        Answered s t d .engineBusy [] ∧ OnlyEgress (s.setAgent t.agent) t) ∧
      (s.standbyState = .pending ∨ s.standbyState = .retiring →
        Answered s t d .notStandby [] ∧ OnlyEgress (s.setAgent t.agent) t) ∧
      (s.standbyState = .standby →
        t = ((s.setAgent { s.agent with requests := s.agent.requests.tail, openSlot := some d }).setBank s.standbyId
          { s.bank s.standbyId with state := .filling, label := 65535 }).setCopyDone 0)) ∧
    (Executing s d [13] → ∃ t, exec .commit s = .next t ∧
      (s.standbyState = .filling ∨ s.standbyState = .checking →
        Answered s t d .engineBusy [] ∧ OnlyEgress (s.setAgent t.agent) t) ∧
      (s.standbyState = .pending ∨ s.standbyState = .retiring →
        Answered s t d .notStandby [] ∧ OnlyEgress (s.setAgent t.agent) t) ∧
      (s.standbyState = .standby →
        t = (s.setAgent { s.agent with requests := s.agent.requests.tail, openSlot := some d }).setBank s.standbyId
          { s.bank s.standbyId with state := .checking }))

/-- COPY_COMPLETION: the target holds the source's contents and label, is STANDBY, and the open COPY is answered DONE.
CHECK_COMPLETION: PENDING and DONE when the check finds no failure, STANDBY and CHECK_FAILED with table, index and reason of
the first failure otherwise. With no copy or check running the event does not take place, whatever the open slot holds (log
entry 1). -/
def Obligations.CompletionsAnswerTheOpenRequest : Prop :=
  (∀ s : State, s.resetHeld = false →
    (s.standbyState ≠ .filling → exec .copyCompletion s = .next s) ∧
    (s.standbyState ≠ .checking → exec .checkCompletion s = .next s)) ∧
  (∀ (s : State) (d : Nat), Running s → s.agent.openSlot = some d → d ∈ s.mem.inUse →
    (s.standbyState = .filling → ∃ t ns, exec .copyCompletion s = .next t ∧
      AnsweredWith s t d .done [] ∧ OthersKept s t [d] ∧ JoinsEgress s t ns [d] ∧
      t.agent = { s.agent with openSlot := none, cache := cacheAdd s.agent.cache ⟨(s.desc d).seq, .done, []⟩ } ∧
      OnlyEgress (((s.setAgent t.agent).setBank s.standbyId
        { s.bank s.standbyId with
          stations := (s.bank s.active).stations, points := (s.bank s.active).points,
          label := (s.bank s.active).label, state := .standby }).setCopyDone 0) t)) ∧
  ∀ (s : State) (d : Nat), Running s → s.agent.openSlot = some d → d ∈ s.mem.inUse →
    (s.standbyState = .checking → ∃ t ns st ws, exec .checkCompletion s = .next t ∧
      AnsweredWith s t d st ws ∧ OthersKept s t [d] ∧ JoinsEgress s t ns [d] ∧
      t.agent = { s.agent with openSlot := none, cache := cacheAdd s.agent.cache ⟨(s.desc d).seq, st, ws⟩ } ∧
      ((s.bank s.standbyId).check = none → st = .done ∧ ws = [] ∧
        OnlyEgress ((s.setAgent t.agent).setBank s.standbyId { s.bank s.standbyId with state := .pending }) t) ∧
      ∀ f, (s.bank s.standbyId).check = some f →
        st = .checkFailed ∧ ws = [f.table, BitVec.ofNat 16 f.index, f.reason] ∧
        OnlyEgress ((s.setAgent t.agent).setBank s.standbyId { s.bank s.standbyId with state := .standby }) t)

/-- A bank passes the check exactly when its non-empty runs are within the table and record-disjoint and no record of a run
fails a test of R57; a passed bank's records are of a kind other than NONE, cover words no other record of their run covers,
and have a SCALE divisor of 1 to 32767 and ordered limits. The check lists the runs by station, outbound first, and reports
the first failure: a run beyond the table before any sharing, sharing before any record, each with its table, index and
reason code. -/
def Obligations.PassedCheckMeansSoundRuns : Prop :=
  (∀ b : Bank, b.check = none →
    (∀ r ∈ b.runs, r.first + r.length ≤ 1024) ∧
    (∀ i j : Nat, i < j → j < b.runs.length → ∀ r e : RunRef, b.runs[i]? = some r → b.runs[j]? = some e →
      ∀ k, ¬(r.first ≤ k ∧ k < r.first + r.length ∧ e.first ≤ k ∧ k < e.first + e.length)) ∧
    ∀ r ∈ b.runs, ∀ k, r.first ≤ k → k < r.first + r.length →
      (b.point k).kind ≠ .none ∧ ((b.point k).kind.isPair = true → (b.point k).index ≠ 31) ∧
      ((b.point k).kind = .scale → 1 ≤ (b.point k).b.toInt) ∧
      ((b.point k).kind = .clamp ∨ (b.point k).kind = .range → (b.point k).a.toInt ≤ (b.point k).b.toInt) ∧
      ∀ j, r.first ≤ j → j < k → ∀ w ∈ (b.point k).covers, w ∉ (b.point j).covers) ∧
  ∀ b : Bank,
    (∀ r : RunRef, r ∈ b.runs ↔ 1 ≤ r.station ∧ r.station ≤ 61 ∧ r.length ≠ 0 ∧
      (r.first, r.length) = if r.inbound then ((b.entry r.station).inFirst, (b.entry r.station).inLength)
        else ((b.entry r.station).outFirst, (b.entry r.station).outLength)) ∧
    b.runs.Pairwise (fun e r => e.station < r.station ∨ e.station = r.station ∧ e.inbound = false ∧ r.inbound = true) ∧
    let allInTable := ∀ r ∈ b.runs, r.inTable
    let noneShared := b.runs.Pairwise fun e r => ¬r.overlaps e
    let clean := fun r : RunRef => ∀ k, r.has k → recordReason b r k = 0
    (allInTable → noneShared → (∀ r ∈ b.runs, clean r) → b.check = none) ∧
    ∀ (before after : List RunRef) (r : RunRef), b.runs = before ++ r :: after →
      ((∀ e ∈ before, e.inTable) → ¬r.inTable → b.check = some ⟨0, r.station, if r.inbound then 2 else 1⟩) ∧
      (allInTable → before.Pairwise (fun e r => ¬r.overlaps e) → (∃ e ∈ before, r.overlaps e) →
        b.check = some ⟨0, r.station, if r.inbound then 4 else 3⟩) ∧
      (allInTable → noneShared → (∀ e ∈ before, clean e) → ∀ k, r.has k →
        (∀ j, r.first ≤ j → j < k → recordReason b r j = 0) → recordReason b r k ≠ 0 →
        b.check = some ⟨1, k, BitVec.ofNat 16 (recordReason b r k)⟩)

/-- CANCEL by the state of the non-active bank: it ends a copy or a check, whose request is answered CANCELLED first, or a
commit, and is answered DONE; in STANDBY and RETIRING it is answered NOTHING_PENDING and changes nothing. -/
def Obligations.CancelEndsTheOperation : Prop :=
  ∀ (s : State) (d : Nat), OneActive s → Executing s d [14] → ∃ t, exec .cancel s = .next t ∧
    (s.standbyState = .standby ∨ s.standbyState = .retiring →
      Answered s t d .nothingPending [] ∧ OnlyEgress (s.setAgent t.agent) t) ∧
    (s.standbyState = .pending → Answered s t d .done [] ∧
      OnlyEgress ((s.setAgent t.agent).setBank s.standbyId { s.bank s.standbyId with state := .standby }) t) ∧
    ∀ o, s.agent.openSlot = some o → o ∈ s.mem.inUse → o ≠ d →
      s.standbyState = .filling ∨ s.standbyState = .checking →
      AnsweredWith s t o .cancelled [] ∧ AnsweredWith s t d .done [] ∧ OthersKept s t [o, d] ∧
      (∃ ns ms, t.egress.queue = s.egress.queue ++ ns ++ [o] ++ ms ++ [d]) ∧
      t.agent = { requests := s.agent.requests.tail, openSlot := none,
                  cache := cacheAdd (cacheAdd s.agent.cache ⟨(s.desc o).seq, .cancelled, []⟩) ⟨(s.desc d).seq, .done, []⟩ } ∧
      (t.bank s.standbyId).state = .standby ∧ (t.bank s.standbyId).label = (s.bank s.standbyId).label ∧
      (t.bank s.standbyId).inFlight = (s.bank s.standbyId).inFlight ∧
      (s.standbyState = .checking →
        OnlyEgress ((s.setAgent t.agent).setBank s.standbyId { s.bank s.standbyId with state := .standby }) t) ∧
      (s.standbyState = .filling →
        (∀ n, (t.bank s.standbyId).entry n = (s.bank s.standbyId).entry n ∨
          (t.bank s.standbyId).entry n = (s.bank s.active).entry n) ∧
        (∀ k, (t.bank s.standbyId).point k = (s.bank s.standbyId).point k ∨
          (t.bank s.standbyId).point k = (s.bank s.active).point k) ∧
        OnlyEgress ((((s.setAgent t.agent).setBank s.standbyId (t.bank s.standbyId)).setCopyDone 0).tickFree) t)

/-! ## Chapter 4: admission -/

/-- A poll refused memory counts RX_GOOD and RX_NOROOM, and is answered REFUSED if a descriptor can be had, lost otherwise. A
poll for a station that the ACTIVE bank does not route is answered UNROUTED in its own descriptor, without stamp, run or
station count. -/
def Obligations.PollsAnsweredAtAdmission : Prop :=
  (∀ (s : State) (q : Port) (t : Telegram), HearsTrunk s t → t.kind = .poll → 1 ≤ t.dest.toNat → t.dest.toNat ≤ 61 →
    ¬HasRoom s t.words.length → ∃ u, exec (.receiveTelegram .t (lineSerial q t)) s = .next u ∧
      (s.mem.freeDescs = [] → u = (s.countPort .t .rxGood).countPort .t .rxNoroom) ∧
      ∀ d rest, s.mem.freeDescs = d :: rest →
        u.telegram d = { dest := 0, src := t.dest, kind := .reply, marks := Marks.clear, seq := t.seq,
                         status := 3, words := [] } ∧
        (u.desc d).stamp = none ∧ (u.desc d).holders = 1 ∧ OthersKept s u [] ∧ JoinsEgress s u [] [d] ∧
        u.mem.freeDescs = rest ∧ u.mem.freeBlocks = s.mem.freeBlocks ∧
        OnlyEgress ((s.countPort .t .rxGood).countPort .t .rxNoroom) u) ∧
  ∀ (s : State) (q : Port) (t : Telegram), HearsTrunk s t → t.kind = .poll → 1 ≤ t.dest.toNat → t.dest.toNat ≤ 61 →
    HasRoom s t.words.length → ((s.bank s.active).entry t.dest.toNat).route = .none →
    ∀ d, s.mem.freeDescs.head? = some d →
      ∃ u ns, exec (.receiveTelegram .t (lineSerial q t)) s = .next u ∧
        u.telegram d = { dest := 0, src := t.dest, kind := .reply, marks := Marks.clear, seq := t.seq,
                         status := 4, words := [] } ∧
        (u.desc d).stamp = none ∧ (u.desc d).holders = 1 ∧ OthersKept s u [] ∧ JoinsEgress s u ns [d] ∧
        u.mem.freeDescs = s.mem.freeDescs.drop (1 + ns.length) ∧ OnlyEgress (s.countPort .t .rxGood) u

/-- A routed poll with no waiting poll for its station joins the tail of its segment's queue, stamped with the ACTIVE bank,
its words and marks as the outbound run leaves them. -/
def Obligations.PollJoinsItsQueue : Prop :=
  ∀ (s : State) (q : Port) (t : Telegram) (g : Segment), HearsTrunk s t → t.kind = .poll → 1 ≤ t.dest.toNat →
    t.dest.toNat ≤ 61 → HasRoom s t.words.length →
    ((s.bank s.active).entry t.dest.toNat).route = routeOf g →
    (∀ k ∈ (s.seg g).queue, k ∈ s.mem.inUse ∧ ¬((s.desc k).kind = .poll ∧ (s.desc k).dest = t.dest)) →
    ∀ d, s.mem.freeDescs.head? = some d →
      let r := runOf s t.dest.toNat s.active false t.words
      ∃ u, exec (.receiveTelegram .t (lineSerial q t)) s = .next u ∧
        u.telegram d = { dest := t.dest, src := 0, kind := .poll, marks := r.marks false, seq := t.seq, status := 0,
                         words := r.words } ∧
        (u.desc d).stamp = some s.active ∧ (u.desc d).holders = 1 ∧ OthersKept s u [] ∧
        u.mem.freeDescs = s.mem.freeDescs.drop 1 ∧
        u.mem.freeBlocks = s.mem.freeBlocks.drop ((t.words.length + 7) / 8) ∧
        u.mem.minDescs = min s.mem.minDescs u.mem.freeDescs.length ∧
        u.mem.minBlocks = min s.mem.minBlocks u.mem.freeBlocks.length ∧
        u.stationCounters t.dest.toNat = (s.stationCounters t.dest.toNat).addPoints r.faults r.limits r.skips ∧
        (∀ n, n ≠ t.dest.toNat → u.stationCounters n = s.stationCounters n) ∧
        u = ((((s.countPort .t .rxGood).setBank s.active
            { s.bank s.active with inFlight := (s.bank s.active).inFlight + 1 }).setSeg g
            { s.seg g with queue := (s.seg g).queue ++ [d] }).setMem u.mem).setCounters
            { (s.countPort .t .rxGood).counters with stations := u.counters.stations }

/-- A routed poll takes the queue position of the waiting poll for its station, which is answered SUPERSEDED, counted, and
gives up its stamp. -/
def Obligations.PollSupersedesTheWaitingPoll : Prop :=
  ∀ (s : State) (q : Port) (t : Telegram) (g : Segment) (pre post : List Nat) (old : Nat) (b : BankId),
    OneActive s → HearsTrunk s t → t.kind = .poll → 1 ≤ t.dest.toNat → t.dest.toNat ≤ 61 → HasRoom s t.words.length →
    ((s.bank s.active).entry t.dest.toNat).route = routeOf g →
    (s.seg g).queue = pre ++ [old] ++ post → (∀ k ∈ (s.seg g).queue, k ∈ s.mem.inUse) → old ∉ pre → old ∉ post →
    (∀ k ∈ pre, ¬((s.desc k).kind = .poll ∧ (s.desc k).dest = t.dest)) →
    (s.desc old).kind = .poll → (s.desc old).dest = t.dest → (s.desc old).stamp = some b →
    ∀ d, s.mem.freeDescs.head? = some d →
      let r := runOf s t.dest.toNat s.active false t.words
      ∃ u ns, exec (.receiveTelegram .t (lineSerial q t)) s = .next u ∧
        u.seg g = { s.seg g with queue := pre ++ [d] ++ post } ∧ (∀ j, j ≠ g → u.seg j = s.seg j) ∧
        u.telegram d = { dest := t.dest, src := 0, kind := .poll, marks := r.marks false, seq := t.seq, status := 0,
                         words := r.words } ∧
        (u.desc d).stamp = some s.active ∧ RepliedWith s u old .superseded Marks.clear [] ∧
        OthersKept s u [old] ∧ JoinsEgress s u ns [old] ∧
        (b = s.active → ∀ k, u.bank k = s.bank k) ∧
        (b ≠ s.active →
          u.bank s.active = { s.bank s.active with inFlight := (s.bank s.active).inFlight + 1 } ∧
          u.bank b = afterRelease s b b) ∧
        u.stationCounters t.dest.toNat =
          ((s.stationCounters t.dest.toNat).addPoints r.faults r.limits r.skips).bumpSuperseded ∧
        (∀ n, n ≠ t.dest.toNat → u.stationCounters n = s.stationCounters n)

/-- An admitted SYNC, whatever state the other bank is in: the cycle register takes its word whatever memory does. Refused
memory it counts RX_NOROOM and reaches no queue. With memory it joins a queue that holds no SYNC, and rewrites the word of the
one that waits in the other; coalesced in both it is released, which makes one emission attempt. No other telegram changes,
and without a switch or a release nothing joins trunk egress. A switch (`SyncSwitchesAPendingBank`) comes before the
distribution and does not change it. -/
def Obligations.SyncAdvancesTheCycleAndIsDistributed : Prop :=
  ∀ (s : State) (q : Port) (t : Telegram) (w : Word), HearsTrunk s t → t.kind = .sync → t.dest = 63 → t.words = [w] →
    (∀ g, ∀ k ∈ (s.seg g).queue, k ∈ s.mem.inUse) →
    let heard := s.countPort .t .rxGood
    let waits := fun g => ∃ k ∈ (s.seg g).queue, (s.desc k).kind = .sync
    ∃ u ns, exec (.receiveTelegram .t (lineSerial q t)) s = .next u ∧ u.cycle = ⟨w, true⟩ ∧
      JoinsEgress (afterSwitch s w) u ns [] ∧ (s.standbyState = .pending → HeldBackLaw u) ∧
      (¬HasRoom s 1 → OthersKept s u [] ∧
        (s.standbyState ≠ .pending → u = (heard.setCycle ⟨w, true⟩).countPort .t .rxNoroom) ∧
        OnlyEgress ((((afterSwitch s w).countPort .t .rxGood).setCycle ⟨w, true⟩).countPort .t .rxNoroom) u) ∧
      ∀ d, HasRoom s 1 → s.mem.freeDescs.head? = some d →
        (∀ g, ¬waits g → u.seg g = { s.seg g with queue := (s.seg g).queue ++ [d] }) ∧
        (∀ g, waits g → u.seg g = s.seg g) ∧
        (∀ g pre old post, (s.seg g).queue = pre ++ [old] ++ post → (∀ k ∈ pre, (s.desc k).kind ≠ .sync) →
          (s.desc old).kind = .sync → (s.desc old).count = 1 → u.words old = [w]) ∧
        (∀ k ∈ s.mem.inUse, u.desc k = s.desc k) ∧
        OthersKept s u ((s.waitingSync .a).toList ++ (s.waitingSync .b).toList) ∧
        (¬(waits .a ∧ waits .b) →
          u.telegram d = { dest := 63, src := 0, kind := .sync, marks := Marks.clear, seq := t.seq, status := 0,
                           words := [w] } ∧
          (u.desc d).stamp = none ∧ ((u.desc d).holders = 2 ↔ ¬waits .a ∧ ¬waits .b) ∧
          (u.desc d).holders ≤ 2 ∧ 1 ≤ (u.desc d).holders ∧
          u.mem.freeDescs = s.mem.freeDescs.drop (1 + ns.length) ∧
          u.mem.freeBlocks = s.mem.freeBlocks.drop (1 + ns.length) ∧
          u.mem.minDescs = min s.mem.minDescs u.mem.freeDescs.length ∧
          u.mem.minBlocks = min s.mem.minBlocks u.mem.freeBlocks.length ∧
          (s.standbyState ≠ .pending → ns = [] ∧
            u = (((heard.setCycle ⟨w, true⟩).setSeg .a (u.seg .a)).setSeg .b (u.seg .b)).setMem u.mem)) ∧
        (waits .a ∧ waits .b → HeldBackLaw u ∧ d ∉ u.mem.inUse ∧
          u.mem.freeDescs = (s.mem.freeDescs.drop 1 ++ [d]).drop ns.length ∧
          u.mem.freeBlocks = (s.mem.freeBlocks.drop 1 ++ s.mem.freeBlocks.take 1).drop ns.length) ∧
        OnlyEgress (((((afterSwitch s w).countPort .t .rxGood).setCycle ⟨w, true⟩).setSeg .a (u.seg .a)).setSeg .b
          (u.seg .b)) u

/-- A SYNC admitted while the other bank is PENDING switches the banks, with memory or without, and reports the switch. -/
def Obligations.SyncSwitchesAPendingBank : Prop :=
  ∀ (s : State) (q : Port) (t : Telegram) (w : Word), OneActive s → HearsTrunk s t → t.kind = .sync → t.dest = 63 →
    t.words = [w] → s.standbyState = .pending →
    ∃ u, exec (.receiveTelegram .t (lineSerial q t)) s = .next u ∧ u.cycle = ⟨w, true⟩ ∧ u.active = s.standbyId ∧
      u.bank s.standbyId = { s.bank s.standbyId with state := .active } ∧
      u.bank s.active =
        { s.bank s.active with state := if (s.bank s.active).inFlight = 0 then .standby else .retiring } ∧
      (2 ≤ s.egress.noticeCount → u.notices.number = s.notices.number ∧
        ((∀ e ∈ s.notices.pendingSet, e.isBank = false) → u.notices.pendingSet =
          s.notices.pendingSet ++ [.bank s.standbyId (s.bank s.standbyId).label w]) ∧
        ∀ pre post b l c, s.notices.pendingSet = pre ++ [.bank b l c] ++ post →
          (∀ e ∈ pre ++ post, e.isBank = false) →
          u.notices.pendingSet = pre ++ [.bank s.standbyId (s.bank s.standbyId).label w] ++ post) ∧
      (s.egress.noticeCount < 2 → s.notices.pendingSet = [] → 2 ≤ s.mem.freeDescs.length →
        u.notices = ⟨[], s.notices.number + 1⟩ ∧ ∃ k, u.egress.queue = s.egress.queue ++ [k] ∧
          u.telegram k = { dest := 0, src := 62, kind := .notice, marks := Marks.clear, seq := s.notices.number,
                           status := 0, words := [1, s.standbyId.code, (s.bank s.standbyId).label, w] })

/-! ## Chapter 5: drop segment transactions -/

/-- The take of a SYNC moves it from the queue to the slot and hands it to the drop's transmitter. The take of a poll for a
station in NORMAL mode starts its transaction: the record, try 1, TRANSMISSIONS, and the outbound image. -/
def Obligations.TakesThatUseTheDrop : Prop :=
  (∀ (s : State) (g : Segment) (d : Nat) (rest : List Nat), AtHead s g d rest → (s.desc d).kind = .sync →
    let held := s.setSeg g { queue := rest, slot := .sync d, timer := none, state := .sending }
    ((s.port (dropPort g)).tx = .idle →
      exec (.take g) s = .next (held.setTx (dropPort g) (.sending (s.telegram d)))) ∧
    ∀ h, (s.port (dropPort g)).tx = .spacing h →
      exec (.take g) s = .next (held.setTx (dropPort g) (.spacing (some d)))) ∧
  ∀ (s : State) (g : Segment) (d : Nat) (rest : List Nat) (b : BankId), AtHead s g d rest →
    (s.desc d).kind = .poll → (s.desc d).stamp = some b → (s.station (s.desc d).dest.toNat).mode = .normal →
    ∃ t, exec (.take g) s = .next t ∧
      t.seg g = {
        queue := rest, timer := none, state := .sending
        slot := .poll {
          station := (s.desc d).dest, seq := (s.desc d).seq, desc := d, bank := b, triesMade := 1, retried := false
          triesAllowed := if (s.station (s.desc d).dest.toNat).health = .down then 1
            else 1 + ((s.bank b).entry (s.desc d).dest.toNat).retryLimit } } ∧
      ((s.port (dropPort g)).tx = .idle → (t.port (dropPort g)).tx = .sending (s.telegram d)) ∧
      (∀ h, (s.port (dropPort g)).tx = .spacing h → (t.port (dropPort g)).tx = .spacing (some d)) ∧
      t.outImage (s.desc d).dest.toNat = ⟨true, s.words d, s.cycle.number, (s.desc d).marks.faulted⟩ ∧
      (∀ n, n ≠ (s.desc d).dest.toNat → t.outImage n = s.outImage n ∧ t.stationCounters n = s.stationCounters n) ∧
      t.stationCounters (s.desc d).dest.toNat = (s.stationCounters (s.desc d).dest.toNat).bumpTransmissions ∧
      t = (((s.setSeg g (t.seg g)).setTx (dropPort g) (t.port (dropPort g)).tx).setOutImages t.outImages).setCounters
        { s.counters with stations := t.counters.stations }

/-- The take of a poll for a station in ECHO mode answers it ECHO with its own words and marks; in ISOLATED mode it is
answered by the substitution rule. The drop is not used, no image and no health changes. -/
def Obligations.TakeInEchoOrIsolatedModeAnswers : Prop :=
  ∀ (s : State) (g : Segment) (d : Nat) (rest : List Nat) (b : BankId), AtHead s g d rest →
    (s.desc d).kind = .poll → (s.desc d).stamp = some b → ImagesLaw s →
    ((s.station (s.desc d).dest.toNat).mode = .echo → ∃ t, exec (.take g) s = .next t ∧
      RepliedWith s t d .echo (s.desc d).marks (s.words d) ∧ OthersKept s t [d] ∧ JoinsEgress s t [] [d] ∧
      (∀ k, t.bank k = afterRelease s b k) ∧
      OnlyEgress (((s.setSeg g { s.seg g with queue := rest }).setBank b (t.bank b))) t) ∧
    ((s.station (s.desc d).dest.toNat).mode = .isolated →
      let a := substitution s (s.desc d).dest.toNat b (s.desc d).marks.retried
      ∃ t ns, exec (.take g) s = .next t ∧
        RepliedWith s t d a.1 a.2.1 a.2.2 ∧ OthersKept s t [d] ∧ JoinsEgress s t ns [d] ∧
        (∀ k, t.bank k = afterRelease s b k) ∧
        (∀ n, t.stationCounters n =
          if n = (s.desc d).dest.toNat ∧ a.1 = .subst then (s.stationCounters n).bumpSubstitutions
          else s.stationCounters n) ∧
        OnlyEgress (((s.setSeg g { s.seg g with queue := rest }).setBank b (t.bank b)).setCounters
          { s.counters with stations := t.counters.stations }) t)

/-- REPLY_WINDOW_EXPIRY with tries left: the next try is handed at once, RETRIES and TRANSMISSIONS counted, the record
marked retried. -/
def Obligations.WindowExpiryRetransmits : Prop :=
  ∀ (s : State) (g : Segment) (x : Transaction), HoldsTransaction s g x → (s.seg g).state = .awaiting →
    (s.port (dropPort g)).tx = .idle → x.triesMade < x.triesAllowed →
    ∃ t, exec (.replyWindowExpiry g) s = .next t ∧
      t.stationCounters x.station.toNat = (s.stationCounters x.station.toNat).bumpRetries.bumpTransmissions ∧
      (∀ n, n ≠ x.station.toNat → t.stationCounters n = s.stationCounters n) ∧
      t = ((s.setSeg g { s.seg g with
            slot := .poll { x with triesMade := x.triesMade + 1, retried := true }, timer := none, state := .sending }).setTx
          (dropPort g) (.sending (s.telegram x.desc))).setCounters { s.counters with stations := t.counters.stations }

/-- REPLY_WINDOW_EXPIRY with no tries left: the transaction fails, its poll is answered by the substitution rule, FAILURES
is counted and the station's health told, after the reply has joined trunk egress. -/
def Obligations.LastWindowExpiryFailsTheTransaction : Prop :=
  ∀ (s : State) (g : Segment) (x : Transaction), HoldsTransaction s g x → ImagesLaw s → (s.seg g).state = .awaiting →
    (s.port (dropPort g)).tx = .idle → x.triesAllowed ≤ x.triesMade →
    let n := x.station.toNat
    let a := substitution s n x.bank ((s.desc x.desc).marks.retried || x.retried)
    let fails := min 15 ((s.station n).failCount + 1)
    ∃ t, exec (.replyWindowExpiry g) s = .next t ∧
      RepliedWith s t x.desc a.1 a.2.1 a.2.2 ∧ OthersKept s t [x.desc] ∧
      (∃ ns ms, t.egress.queue = s.egress.queue ++ ns ++ [x.desc] ++ ms) ∧
      t.seg g = { s.seg g with slot := .empty, timer := none, state := .idle } ∧ (∀ j, j ≠ g → t.seg j = s.seg j) ∧
      (∀ k, t.bank k = afterRelease s x.bank k) ∧
      t.station n = { s.station n with
        failCount := fails
        health := if (s.station n).health = .down ∨ ((s.bank x.bank).entry n).downThreshold ≤ fails then .down
          else .failing } ∧
      (∀ k, k ≠ n → t.station k = s.station k ∧ t.stationCounters k = s.stationCounters k) ∧
      t.stationCounters n =
        (if a.1 = .subst then (s.stationCounters n).bumpSubstitutions else s.stationCounters n).bumpFailures ∧
      t.inImages = s.inImages ∧ t.outImages = s.outImages

/-- A matched reply ends the transaction: the station's words through the inbound run, captured as its inbound image and
built OK, REPLIES_OK counted, the station UP. -/
def Obligations.MatchedReplyIsBuiltOk : Prop :=
  ∀ (s : State) (g : Segment) (q : Port) (x : Transaction) (t : Telegram), HoldsTransaction s g x →
    (s.port (dropPort g)).rx = .hunt → t.kind = .reply → t.dest = 0 → 1 ≤ t.src.toNat → t.src.toNat ≤ 61 →
    t.words.length ≤ 32 → Matches s g x t.src t.seq →
    let n := x.station.toNat
    let r := runOf s n x.bank true t.words
    ∃ u, exec (.receiveTelegram (dropPort g) (lineSerial q t)) s = .next u ∧
      RepliedWith s u x.desc .ok (r.marks ((s.desc x.desc).marks.retried || x.retried)) r.words ∧
      OthersKept s u [x.desc] ∧ (∃ ns ms, u.egress.queue = s.egress.queue ++ ns ++ [x.desc] ++ ms) ∧
      u.inImage n = ⟨true, r.words, s.cycle.number, r.faulted⟩ ∧ (∀ k, k ≠ n → u.inImage k = s.inImage k) ∧
      u.outImages = s.outImages ∧
      u.seg g = { s.seg g with
        slot := .empty, timer := none, state := if (s.seg g).state = .awaiting then .idle else (s.seg g).state } ∧
      (∀ j, j ≠ g → u.seg j = s.seg j) ∧ (∀ k, u.bank k = afterRelease s x.bank k) ∧
      u.station n = ⟨.up, 0, (s.station n).mode⟩ ∧ (∀ k, k ≠ n → u.station k = s.station k) ∧
      u.stationCounters n = ((s.stationCounters n).addPoints r.faults r.limits r.skips).bumpRepliesOk ∧
      (∀ k, k ≠ n → u.stationCounters k = s.stationCounters k) ∧
      { u.counters with stations := s.counters.stations } = (s.countPort (dropPort g) .rxGood).counters

/-- A matched reply that finds too few blocks is built OVERRUN: no data, no run, no image, no REPLIES_OK, and the station is
UP all the same. (No lawful state is this short of blocks: `ReplacementAlwaysFindsBlocks`.) -/
def Obligations.MatchedReplyWithoutBlocksIsOverrun : Prop :=
  ∀ (s : State) (g : Segment) (q : Port) (x : Transaction) (t : Telegram), s.resetHeld = false →
    TablesCanonical s → s.notices.pendingSet = [] → (s.port (dropPort g)).rx = .hunt → t.kind = .reply → t.dest = 0 →
    1 ≤ t.src.toNat → t.src.toNat ≤ 61 → t.words.length ≤ 32 → Matches s g x t.src t.seq →
    x.desc ∈ s.mem.inUse → (s.desc x.desc).dest = x.station → (s.desc x.desc).stamp = some x.bank →
    (s.station x.station.toNat).health ≠ .down →
    s.mem.freeBlocks.length + (s.desc x.desc).chain.length < (t.words.length + 7) / 8 →
    let n := x.station.toNat
    ∃ u, exec (.receiveTelegram (dropPort g) (lineSerial q t)) s = .next u ∧
      RepliedWith s u x.desc .overrun ⟨false, false, false, (s.desc x.desc).marks.retried || x.retried⟩ [] ∧
      JoinsEgress s u [] [x.desc] ∧ u.inImages = s.inImages ∧ u.outImages = s.outImages ∧
      (∀ k, u.bank k = afterRelease s x.bank k) ∧
      u.station n = ⟨.up, 0, (s.station n).mode⟩ ∧ (∀ k, k ≠ n → u.station k = s.station k) ∧
      u.counters = (s.countPort (dropPort g) .rxGood).counters

/-- The health machine. A success takes a station UP with fail count 0; a failure raises its fail count, to 15 at most, and
takes it DOWN at the threshold, FAILING below it. A report is made exactly when the station leaves or enters DOWN: it makes
the station's pending entry or raises its change count, which stays at 65535, and the emission attempt that follows emits
every entry it can, with the health the outcome has left. -/
def Obligations.HealthFollowsTheOutcomes : Prop :=
  let reported := fun (s t : State) (n : Nat) =>
    ∃ ps ns, ReportsStation n s.notices.pendingSet ps ∧
      JoinsEgress ((s.setRuntime t.runtime).setNotices { s.notices with pendingSet := ps }) t ns [] ∧ HeldBackLaw t ∧
      OthersKept s t [] ∧ OnlyEgress (s.setRuntime t.runtime) t ∧
      (2 ≤ s.egress.noticeCount → t = (s.setRuntime t.runtime).setNotices { s.notices with pendingSet := ps })
  (∀ (s : State) (n : Nat), Table.rising s.runtime = true → MemoryLaw s.mem →
    (s.success n).station n = { s.station n with health := .up, failCount := 0 } ∧
    (∀ k, k ≠ n → (s.success n).station k = s.station k) ∧
    ((s.station n).health ≠ .down → s.success n = s.setRuntime (s.success n).runtime) ∧
    ((s.station n).health = .down → reported s (s.success n) n)) ∧
  ∀ (s : State) (n thr : Nat), Table.rising s.runtime = true → MemoryLaw s.mem →
    let fails := min 15 ((s.station n).failCount + 1)
    (s.failure n thr).station n = { s.station n with
      failCount := fails, health := if (s.station n).health = .down ∨ thr ≤ fails then .down else .failing } ∧
    (∀ k, k ≠ n → (s.failure n thr).station k = s.station k) ∧
    ((s.station n).health = .down ∨ fails < thr → s.failure n thr = s.setRuntime (s.failure n thr).runtime) ∧
    ((s.station n).health ≠ .down → thr ≤ fails → reported s (s.failure n thr) n)

/-! ## Chapter 6: the Point Engine -/

/-- FIXED, COMPLEMENT and BITS on a word that exists: the new word, TRANSFORMED, and nothing else. -/
def Obligations.FixedComplementAndBits : Prop :=
  ∀ (r : PointRecord) (img : ImageRecord) (ws : List Word), r.index < ws.length →
    (r.kind = .fixed → applyRun [r] img ws = ⟨ws.set r.index r.a, true, false, false, 0, 0, 0⟩) ∧
    (r.kind = .complement →
      applyRun [r] img ws = ⟨ws.set r.index (~~~ws.getD r.index 0), true, false, false, 0, 0, 0⟩) ∧
    (r.kind = .bits →
      applyRun [r] img ws = ⟨ws.set r.index ((ws.getD r.index 0 &&& r.a) ||| r.b), true, false, false, 0, 0, 0⟩)

/-- Inert records and records beyond the telegram: NONE changes and counts nothing; a single kind at or beyond the count,
and a pair kind whose second word is at or beyond it, changes no word, sets no mark and counts one SHORT_SKIPS. -/
def Obligations.InertAndSkippedRecords : Prop :=
  ∀ (r : PointRecord) (img : ImageRecord) (ws : List Word),
    (r.kind = .none → applyRun [r] img ws = ⟨ws, false, false, false, 0, 0, 0⟩) ∧
    (r.kind ≠ .none → (r.kind ≠ .bcd8ToBin32 ∧ r.kind ≠ .bin32ToBcd8 → ws.length ≤ r.index) →
      (r.kind = .bcd8ToBin32 ∨ r.kind = .bin32ToBcd8 → ws.length ≤ r.index + 1) →
      applyRun [r] img ws = ⟨ws, false, false, false, 0, 0, 1⟩)

/-- BCD_TO_BIN and BIN_TO_BCD: four decimal digits and their value; a digit above 9, or a value outside 0 to 9999, faults,
and the word is replaced under the record's policy. -/
def Obligations.FourDigitTransforms : Prop :=
  ∀ (r : PointRecord) (img : ImageRecord) (ws : List Word) (x : Word), r.index < ws.length →
    ws.getD r.index 0 = x →
    let d := fun i => x.toNat / 16 ^ i % 16
    let fault : Applied := ⟨ws.set r.index (replaceWord r img), true, true, false, 1, 0, 0⟩
    (r.kind = .bcdToBin →
      if d 3 ≤ 9 ∧ d 2 ≤ 9 ∧ d 1 ≤ 9 ∧ d 0 ≤ 9 then
        applyRun [r] img ws =
          ⟨ws.set r.index (BitVec.ofNat 16 (d 3 * 1000 + d 2 * 100 + d 1 * 10 + d 0)), true, false, false, 0, 0, 0⟩
      else applyRun [r] img ws = fault) ∧
    (r.kind = .binToBcd →
      if x.toNat ≤ 9999 then ∃ y : Word,
        y.toNat = x.toNat / 1000 * 4096 + x.toNat / 100 % 10 * 256 + x.toNat / 10 % 10 * 16 + x.toNat % 10 ∧
        applyRun [r] img ws = ⟨ws.set r.index y, true, false, false, 0, 0, 0⟩
      else applyRun [r] img ws = fault)

/-- BCD8_TO_BIN32 gives H × 10000 + L as a 32-bit value, BIN32_TO_BCD8 is its inverse on 0 to 99 999 999; any other pair
faults, and both words are replaced under the record's policy. -/
def Obligations.EightDigitTransforms : Prop :=
  ∀ lo hi : Word,
    let dec := fun w : Word =>
      w.toNat / 4096 * 1000 + w.toNat / 256 % 16 * 100 + w.toNat / 16 % 16 * 10 + w.toNat % 16
    (transformPair .bcd8ToBin32 lo hi = none ↔ ∃ i, i < 4 ∧ (9 < lo.toNat / 16 ^ i % 16 ∨ 9 < hi.toNat / 16 ^ i % 16)) ∧
    (transformPair .bin32ToBcd8 lo hi = none ↔ 99999999 < hi.toNat * 65536 + lo.toNat) ∧
    (∀ lo' hi', transformPair .bcd8ToBin32 lo hi = some (lo', hi') →
      hi'.toNat * 65536 + lo'.toNat = dec hi * 10000 + dec lo) ∧
    (∀ lo' hi', transformPair .bcd8ToBin32 lo hi = some (lo', hi') →
      transformPair .bin32ToBcd8 lo' hi' = some (lo, hi)) ∧
    (∀ lo' hi', transformPair .bin32ToBcd8 lo hi = some (lo', hi') →
      transformPair .bcd8ToBin32 lo' hi' = some (lo, hi)) ∧
    ∀ (r : PointRecord) (img : ImageRecord) (ws : List Word), r.kind = .bcd8ToBin32 ∨ r.kind = .bin32ToBcd8 →
      r.index + 1 < ws.length → ws.getD r.index 0 = lo → ws.getD (r.index + 1) 0 = hi →
      (∀ lo' hi', transformPair r.kind lo hi = some (lo', hi') →
        applyRun [r] img ws = ⟨(ws.set r.index lo').set (r.index + 1) hi', true, false, false, 0, 0, 0⟩) ∧
      (transformPair r.kind lo hi = none →
        applyRun [r] img ws =
          ⟨(ws.set r.index (replacePair r img).1).set (r.index + 1) (replacePair r img).2, true, true, false, 1, 0, 0⟩)

/-- SCALE, CLAMP and RANGE on a word that exists, with parameters that pass the commit checks. -/
def Obligations.SignedTransforms : Prop :=
  ∀ (r : PointRecord) (img : ImageRecord) (ws : List Word), r.index < ws.length →
    let x := (ws.getD r.index 0).toInt
    let a := r.a.toInt
    let b := r.b.toInt
    let kept : Applied := ⟨ws, true, false, false, 0, 0, 0⟩
    let becomes := fun (y : Int) (limited : Bool) (n : Nat) =>
      ∃ w : Word, w.toInt = y ∧ applyRun [r] img ws = ⟨ws.set r.index w, true, false, limited, 0, n, 0⟩
    (r.kind = .scale → 1 ≤ b →
      let q := Int.tdiv (x * a) b
      (32767 < q → becomes 32767 true 1) ∧ (q < -32768 → becomes (-32768) true 1) ∧
      (-32768 ≤ q → q ≤ 32767 → becomes q false 0)) ∧
    (r.kind = .clamp → a ≤ b →
      (x < a → becomes a true 1) ∧ (b < x → becomes b true 1) ∧ (a ≤ x → x ≤ b → applyRun [r] img ws = kept)) ∧
    (r.kind = .range →
      (a ≤ x → x ≤ b → applyRun [r] img ws = kept) ∧
      (x < a ∨ b < x →
        applyRun [r] img ws = ⟨ws.set r.index (replaceWord r img), true, true, false, 1, 0, 0⟩))

/-- The fault policies: SUBSTITUTE gives the substitute value, HOLD the image's words of the same indices when the image is
valid and reaches them, the substitute value otherwise. -/
def Obligations.FaultPoliciesReplaceTheWords : Prop :=
  ∀ (r : PointRecord) (img : ImageRecord),
    (r.policy = .substitute → replaceWord r img = r.subst ∧ replacePair r img = (r.subst, r.subst)) ∧
    (r.policy = .hold →
      (∀ w, img.valid = true → img.words[r.index]? = some w → replaceWord r img = w) ∧
      (∀ w v, img.valid = true → img.words[r.index]? = some w → img.words[r.index + 1]? = some v →
        replacePair r img = (w, v)) ∧
      (img.valid = false ∨ img.words.length ≤ r.index → replaceWord r img = r.subst) ∧
      (img.valid = false ∨ img.words.length ≤ r.index + 1 → replacePair r img = (r.subst, r.subst)))

/-- A run keeps the number of words and every word that none of its records covers; its marks and counts agree. -/
def Obligations.RunsKeepWhatTheyDoNotCover : Prop :=
  ∀ (rs : List PointRecord) (img : ImageRecord) (ws : List Word),
    let a := applyRun rs img ws
    a.words.length = ws.length ∧
    (∀ i, (∀ r ∈ rs, i ∉ r.covers) → a.words[i]? = ws[i]?) ∧
    (a.faulted = true ↔ 0 < a.faults) ∧ (a.limited = true ↔ 0 < a.limits) ∧
    (a.faulted = true ∨ a.limited = true → a.transformed = true) ∧
    a.faults + a.limits + a.skips ≤ rs.length ∧
    (a.transformed = false → a.words = ws)

/-! ## Chapter 7: images -/

/-- The age of an image modulo 65536, and the substitution decision. -/
def Obligations.ImageAgeDecidesSubstitution : Prop :=
  ∀ (s : State) (d : Nat) (r : ImageRecord),
    s.imageAge r = (s.cycle.number.toNat + 65536 - r.cycle.toNat) % 65536 ∧
    (s.substitutable d = true ↔
      (s.inImage (s.stationOf d)).valid = true ∧ 0 < (s.stampedEntry d).ageLimit ∧
      s.imageAge (s.inImage (s.stationOf d)) ≤ (s.stampedEntry d).ageLimit)

/-! ## Chapters 8 to 10: trunk egress, agent, notices, counters -/

/-- Every step keeps the notice limit, the queue limits of the agent, the distinctness of cached sequences and of pending
subjects, and the head of a non-empty trunk egress queue handed. -/
def Obligations.QueueLimitsKept : Prop :=
  ∀ s t : State,
    let limits := fun x : State => x.egress.noticeCount ≤ 2 ∧ x.agent.requests.length ≤ 4 ∧ CacheLaw x ∧
      (x.notices.pendingSet.map NoticeEntry.subject).Nodup ∧ (∀ e ∈ x.notices.pendingSet, e.subject = 0 → e.isBank = true) ∧
      x.egress.handed = !x.egress.queue.isEmpty
    limits s → (∀ g y, (s.seg g).slot = .poll y → 1 ≤ y.station.toNat) → step s = .next t → limits t

/-- A request whose sequence is held by the queue or the open slot counts one DUPLICATES, one that finds four requests
queued counts one QUEUE_FULL; neither takes memory or changes anything else. -/
def Obligations.IntakeTurnsRequestsAway : Prop :=
  ∀ (s : State) (q : Port) (t : Telegram), HearsTrunk s t → t.kind = .mgmtReq → t.dest = 62 →
    (∀ e ∈ s.agent.cache, e.seq ≠ t.seq) →
    let heard := s.countPort .t .rxGood
    ((∃ d ∈ s.agent.requests ++ s.agent.openSlot.toList, (s.desc d).seq = t.seq) →
      exec (.receiveTelegram .t (lineSerial q t)) s =
        .next (heard.setCounters { heard.counters with
          duplicates := if s.counters.duplicates = 65535 then 65535 else s.counters.duplicates + 1 })) ∧
    ((∀ d ∈ s.agent.requests ++ s.agent.openSlot.toList, (s.desc d).seq ≠ t.seq) → 4 ≤ s.agent.requests.length →
      exec (.receiveTelegram .t (lineSerial q t)) s =
        .next (heard.setCounters { heard.counters with
          queueFull := if s.counters.queueFull = 65535 then 65535 else s.counters.queueFull + 1 }))

/-- A request that passes intake joins the request queue with memory of its own; refused memory it counts RX_NOROOM. -/
def Obligations.IntakeAdmitsARequest : Prop :=
  ∀ (s : State) (q : Port) (t : Telegram), HearsTrunk s t → t.kind = .mgmtReq → t.dest = 62 →
    (∀ e ∈ s.agent.cache, e.seq ≠ t.seq) →
    (∀ d ∈ s.agent.requests ++ s.agent.openSlot.toList, (s.desc d).seq ≠ t.seq) → s.agent.requests.length ≤ 3 →
    ∃ u, exec (.receiveTelegram .t (lineSerial q t)) s = .next u ∧
      (¬HasRoom s t.words.length → u = (s.countPort .t .rxGood).countPort .t .rxNoroom) ∧
      ∀ d, HasRoom s t.words.length → s.mem.freeDescs.head? = some d →
        u = ((s.countPort .t .rxGood).setMem u.mem).setAgent
          { s.agent with requests := s.agent.requests ++ [d] } ∧
        u.telegram d = { dest := 62, src := 0, kind := .mgmtReq, marks := Marks.clear, seq := t.seq, status := 0,
                         words := t.words } ∧
        (u.desc d).holders = 1 ∧ (u.desc d).stamp = none ∧ OthersKept s u [] ∧
        u.mem.freeDescs = s.mem.freeDescs.drop 1 ∧
        u.mem.freeBlocks = s.mem.freeBlocks.drop ((t.words.length + 7) / 8)

/-- A request whose sequence is cached is not executed: a copy of the cached answer joins trunk egress and the agent does
not change; refused memory it counts RX_NOROOM. -/
def Obligations.CachedAnswersAreRepeated : Prop :=
  ∀ (s : State) (q : Port) (t : Telegram) (e : CacheEntry), HearsTrunk s t → t.kind = .mgmtReq → t.dest = 62 →
    CacheLaw s → e ∈ s.agent.cache → e.seq = t.seq → e.words.length ≤ 32 →
    ∃ u, exec (.receiveTelegram .t (lineSerial q t)) s = .next u ∧
      (¬HasRoom s t.words.length → u = (s.countPort .t .rxGood).countPort .t .rxNoroom) ∧
      ∀ d, HasRoom s t.words.length → s.mem.freeDescs.head? = some d →
        u.telegram d = { dest := 0, src := 62, kind := .mgmtAns, marks := Marks.clear, seq := t.seq,
                         status := e.status.code, words := e.words } ∧
        OthersKept s u [] ∧ (∃ ns, JoinsEgress s u ns [d]) ∧ OnlyEgress (s.countPort .t .rxGood) u

/-- MALFORMED_REQUEST: count 0 or a count that does not fit is answered FORMAT, an operation code outside 1 to 15
BAD_OPERATION, and nothing else changes. -/
def Obligations.MalformedRequestsAreAnswered : Prop :=
  ∀ (s : State) (d : Nat) (ws : List Word), Executing s d ws →
    (ws = [] → ∃ t, exec .malformedRequest s = .next t ∧ Answered s t d .format [] ∧ OnlyEgress (s.setAgent t.agent) t) ∧
    (∀ w rest, ws = w :: rest →
      (w = 0 ∨ 15 < w.toNat → ∃ t, exec .malformedRequest s = .next t ∧ Answered s t d .badOperation [] ∧
        OnlyEgress (s.setAgent t.agent) t) ∧
      (∀ o n, (o, n) ∈ [(1, 1), (2, 3), (3, 12), (4, 4), (6, 3), (7, 4), (8, 2), (9, 2), (10, 2), (11, 3), (12, 1),
          (13, 1), (14, 1), (15, 1)] → w.toNat = o → ws.length ≠ n →
        ∃ t, exec .malformedRequest s = .next t ∧ Answered s t d .format [] ∧ OnlyEgress (s.setAgent t.agent) t) ∧
      (w.toNat = 5 →
        ws.length < 4 ∨ ws.getD 3 0 = 0 ∨ 4 < (ws.getD 3 0).toNat ∨ ws.length ≠ 4 + 6 * (ws.getD 3 0).toNat →
        ∃ t, exec .malformedRequest s = .next t ∧ Answered s t d .format [] ∧ OnlyEgress (s.setAgent t.agent) t))

/-- STATUS: sixteen words, each as its block holds it with the request's own descriptor and block in use. -/
def Obligations.StatusAnswersSixteenWords : Prop :=
  ∀ (s : State) (d : Nat), Executing s d [1] → ∃ t, exec .status s = .next t ∧
    Answered s t d .done
      [s.active.code, s.bank0.state.code, s.bank0.label, BitVec.ofNat 16 s.bank0.inFlight,
       s.bank1.state.code, s.bank1.label, BitVec.ofNat 16 s.bank1.inFlight, s.cycle.number,
       (if s.cycle.seen then 1 else 0), BitVec.ofNat 16 s.mem.freeDescs.length, BitVec.ofNat 16 s.mem.freeBlocks.length,
       BitVec.ofNat 16 s.mem.minDescs, BitVec.ofNat 16 s.mem.minBlocks, s.segA.state.code, s.segB.state.code,
       (match s.agent.openSlot with
        | none => 0xFFFF
        | some o => BitVec.ofNat 16 (s.desc o).seq.toNat)] ∧
    OnlyEgress (s.setAgent t.agent) t

/-- READ_IMAGE: the record's fields and at most 28 of its words from the first word asked for, whether or not it is valid.
READ_STATION_STATE: health, fail count, mode, and whether a poll for the station waits or is in transaction on each segment. -/
def Obligations.StationReadsAnswerTheState : Prop :=
  (∀ (s : State) (d : Nat) (n dir f : Word), Executing s d [7, n, dir, f] →
    ∃ t, exec .readImage s = .next t ∧ OnlyEgress (s.setAgent t.agent) t ∧
      if 1 ≤ n.toNat ∧ n.toNat ≤ 61 ∧ dir.toNat ≤ 1 ∧ f.toNat ≤ 31 then
        ∀ r, r = (if dir = 0 then s.inImage n.toNat else s.outImage n.toNat) →
          Answered s t d .done
            ([(if r.valid then 1 else 0), BitVec.ofNat 16 r.words.length, r.cycle, (if r.faulted then 1 else 0)] ++
              (List.range (min r.words.length (f.toNat + 28) - f.toNat)).map fun i => r.words.getD (f.toNat + i) 0)
      else Answered s t d .badArgument []) ∧
  ∀ (s : State) (d : Nat) (n : Word), Executing s d [8, n] →
    ∃ t, exec .readStationState s = .next t ∧ OnlyEgress (s.setAgent t.agent) t ∧
      if 1 ≤ n.toNat ∧ n.toNat ≤ 61 then
        ∃ a b c e : Word,
          Answered s t d .done
            [(s.station n.toNat).health.code, BitVec.ofNat 16 (s.station n.toNat).failCount,
             (s.station n.toNat).mode.code, a, b, c, e] ∧
          (∀ w ∈ [a, b, c, e], w = 0 ∨ w = 1) ∧
          (a = 1 ↔ ∃ k ∈ s.segA.queue, (s.desc k).kind = .poll ∧ (s.desc k).dest.toNat = n.toNat) ∧
          (b = 1 ↔ ∃ k ∈ s.segB.queue, (s.desc k).kind = .poll ∧ (s.desc k).dest.toNat = n.toNat) ∧
          (c = 1 ↔ ∃ x, s.segA.slot = .poll x ∧ x.station.toNat = n.toNat) ∧
          (e = 1 ↔ ∃ x, s.segB.slot = .poll x ∧ x.station.toNat = n.toNat)
      else Answered s t d .badArgument []

/-- READ_COUNTERS: the counters of the group named, 32-bit counters low word first; a group outside 0 to 3 and 17 to 77 is
out of range. CLEAR_COUNTERS takes any of these groups or 255, is answered DONE, and out of range BAD_ARGUMENT. -/
def Obligations.ReadCountersAnswersTheGroup : Prop :=
  (∀ (s : State) (d : Nat) (g : Word), Executing s d [9, g] →
    ∃ t, exec .readCounters s = .next t ∧ OnlyEgress (s.setAgent t.agent) t ∧
      let wide := fun c : BitVec 32 => [BitVec.ofNat 16 c.toNat, BitVec.ofNat 16 (c.toNat / 65536)]
      let drop := fun c : DropCounters =>
        wide c.rxGood ++ wide c.rxCrc ++ wide c.rxFormat ++ wide c.rxAddress ++ wide c.rxStray ++ wide c.txDone
      (g = 0 → Answered s t d .done
        (wide s.counters.trunk.rxGood ++ wide s.counters.trunk.rxCrc ++ wide s.counters.trunk.rxFormat ++
          wide s.counters.trunk.rxAddress ++ wide s.counters.trunk.rxUnexpected ++ wide s.counters.trunk.rxNoroom ++
          wide s.counters.trunk.txDone)) ∧
      (g = 1 → Answered s t d .done (drop s.counters.dropA)) ∧
      (g = 2 → Answered s t d .done (drop s.counters.dropB)) ∧
      (g = 3 → Answered s t d .done
        [BitVec.ofNat 16 s.mem.minDescs, BitVec.ofNat 16 s.mem.minBlocks, s.counters.duplicates,
         s.counters.queueFull]) ∧
      (∀ n c, g.toNat = 16 + n → 1 ≤ n → n ≤ 61 → s.stationCounters n = c → Answered s t d .done
        [c.transmissions, c.retries, c.repliesOk, c.failures, c.substitutions, c.superseded, c.pointFaults, c.pointLimits,
         c.shortSkips]) ∧
      (3 < g.toNat → (g.toNat < 17 ∨ 77 < g.toNat) → Answered s t d .badArgument [])) ∧
  ∀ (s : State) (d : Nat) (g : Word), Executing s d [10, g] →
    ∃ t, exec .clearCounters s = .next t ∧
      if g.toNat ≤ 3 ∨ (17 ≤ g.toNat ∧ g.toNat ≤ 77) ∨ g.toNat = 255 then Answered s t d .done []
      else Answered s t d .badArgument [] ∧ OnlyEgress (s.setAgent t.agent) t

/-- CLEAR_COUNTERS: the group named, or with 255 every group, and the minima of group 3 to the present free counts; nothing
else. A clear of another group leaves the minima to the allocations of the notices that the answer's emission attempt emits
(R34). -/
def Obligations.ClearCountersClearsTheGroup : Prop :=
  ∀ (s : State) (d : Nat) (g : Word), Executing s d [10, g] →
    ∃ t, exec .clearCounters s = .next t ∧
      let cleared := fun c : CounterBank => Answered s t d .done [] ∧ OnlyEgress ((s.setAgent t.agent).setCounters c) t
      (g = 0 → cleared { s.counters with trunk := ⟨0, 0, 0, 0, 0, 0, 0⟩ }) ∧
      (g = 1 → cleared { s.counters with dropA := ⟨0, 0, 0, 0, 0, 0⟩ }) ∧
      (g = 2 → cleared { s.counters with dropB := ⟨0, 0, 0, 0, 0, 0⟩ }) ∧
      (g = 3 → cleared { s.counters with duplicates := 0, queueFull := 0 }) ∧
      (g = 255 → t.stationCounters = (fun _ => ⟨0, 0, 0, 0, 0, 0, 0, 0, 0⟩) ∧
        cleared ⟨⟨0, 0, 0, 0, 0, 0, 0⟩, ⟨0, 0, 0, 0, 0, 0⟩, ⟨0, 0, 0, 0, 0, 0⟩, 0, 0, t.counters.stations⟩) ∧
      (g = 3 ∨ g = 255 →
        (s.notices.pendingSet = [] →
          t.mem.minDescs = s.mem.freeDescs.length ∧ t.mem.minBlocks = s.mem.freeBlocks.length) ∧
        t.mem.minDescs = t.mem.freeDescs.length ∧
        t.mem.minBlocks = min s.mem.freeBlocks.length t.mem.freeBlocks.length) ∧
      (g ≠ 3 → g ≠ 255 →
        (s.notices.pendingSet = [] → t.mem.minDescs = s.mem.minDescs ∧ t.mem.minBlocks = s.mem.minBlocks) ∧
        (MinimaLaw s.mem → t.mem.minDescs = min s.mem.minDescs t.mem.freeDescs.length ∧
          t.mem.minBlocks = min s.mem.minBlocks t.mem.freeBlocks.length)) ∧
      (∀ n, g.toNat = 16 + n → 1 ≤ n → n ≤ 61 →
        t.stationCounters n = ⟨0, 0, 0, 0, 0, 0, 0, 0, 0⟩ ∧
        (∀ k, k ≠ n → t.stationCounters k = s.stationCounters k) ∧
        cleared { s.counters with stations := t.counters.stations }) ∧
      (3 < g.toNat → (g.toNat < 17 ∨ 77 < g.toNat) → g ≠ 255 →
        Answered s t d .badArgument [] ∧ OnlyEgress (s.setAgent t.agent) t)

/-- SET_MODE: the mode of the station, and nothing else of it or of any other. -/
def Obligations.SetModeWritesTheMode : Prop :=
  ∀ (s : State) (d : Nat) (n m : Word), Executing s d [11, n, m] →
    ∃ t, exec .setMode s = .next t ∧
      if 1 ≤ n.toNat ∧ n.toNat ≤ 61 ∧ m.toNat ≤ 2 then
        Answered s t d .done [] ∧ (t.station n.toNat).mode.code = m ∧
        (t.station n.toNat).health = (s.station n.toNat).health ∧
        (t.station n.toNat).failCount = (s.station n.toNat).failCount ∧
        (∀ k, k ≠ n.toNat → t.station k = s.station k) ∧
        OnlyEgress ((s.setAgent t.agent).setRuntime t.runtime) t
      else Answered s t d .badArgument [] ∧ OnlyEgress (s.setAgent t.agent) t

/-- RESTART: everything held is discarded but the request itself, which becomes the one answer; configuration, cycle
register, counters, minima, notice number and receivers are kept. That a transmitter in SENDING is in SPACING at the RESTART
itself is the model's choice (log entry 11): R12 lets it finish its byte first. -/
def Obligations.RestartLeavesOneAnswer : Prop :=
  ∀ (s : State) (d : Nat), OneActive s → Executing s d [15] →
    ∃ t, exec .restart s = .next t ∧
      AnsweredWith s t d .done [] ∧ t.mem.inUse = [d] ∧
      t.mem.freeDescs.length = 159 ∧ t.mem.freeBlocks.length = 640 ∧
      t.mem.minDescs = s.mem.minDescs ∧ t.mem.minBlocks = s.mem.minBlocks ∧
      t.egress = ⟨[d], true, 0⟩ ∧ t.agent = ⟨[], none, [⟨(s.desc d).seq, .done, []⟩]⟩ ∧
      t.notices = ⟨[], s.notices.number⟩ ∧
      (∀ g, t.seg g = ⟨[], .empty, none, .idle⟩) ∧
      (∀ p, (t.port p).rx = (s.port p).rx) ∧
      (∀ p, p ≠ .t → (s.port p).tx = .idle → (t.port p).tx = .idle) ∧
      (∀ p, p ≠ .t → (s.port p).tx ≠ .idle → (t.port p).tx = .spacing none) ∧
      (s.portT.tx = .idle → t.portT.tx = .sending (t.telegram d)) ∧
      (s.portT.tx ≠ .idle → t.portT.tx = .spacing (some d)) ∧
      t.active = s.active ∧ t.bank s.active = { s.bank s.active with inFlight := 0 } ∧
      (t.bank s.standbyId).state = .standby ∧ (t.bank s.standbyId).inFlight = 0 ∧
      (t.bank s.standbyId).label = (s.bank s.standbyId).label ∧
      (s.standbyState ≠ .filling → (t.bank s.standbyId).stations = (s.bank s.standbyId).stations ∧
        (t.bank s.standbyId).points = (s.bank s.standbyId).points) ∧
      t.cycle = s.cycle ∧ t.counters = s.counters ∧ (∀ n, t.station n = ⟨.unknown, 0, .normal⟩) ∧
      (∀ n, t.inImage n = { s.inImage n with valid := false } ∧ t.outImage n = { s.outImage n with valid := false })

/-- No counter falls and no free-count minimum rises, but at CLEAR_COUNTERS and at a power-on reset. -/
def Obligations.CountersNeverFall : Prop :=
  ∀ (c : Instr) (s t : State), Table.wf StationCounters.zero s.counters.stations = true → exec c s = .next t →
    c ≠ .clearCounters → c ≠ .powerOnReset →
    s.counters.trunk.le t.counters.trunk ∧ s.counters.dropA.le t.counters.dropA ∧ s.counters.dropB.le t.counters.dropB ∧
    s.counters.duplicates ≤ t.counters.duplicates ∧ s.counters.queueFull ≤ t.counters.queueFull ∧
    (∀ n, (s.stationCounters n).le (t.stationCounters n)) ∧
    t.mem.minDescs ≤ s.mem.minDescs ∧ t.mem.minBlocks ≤ s.mem.minBlocks

/-! ## Events that do not take place -/

/-- A command whose event does not take place changes nothing: a transmission complete while nothing is sent, a take while the
segment is not IDLE or its queue is empty, an expiry of a window that does not run out, a completion with no copy or check
running or with an empty open slot, an execution while no request waits, an operation's execution while the head request names
another operation or does not fit its own, and a malformed request's execution while the head request fits the operation it
names (the model's choice, log entry 1). -/
def Obligations.EventsWithoutTheirConditionDoNothing : Prop :=
  ∀ s : State, s.resetHeld = false →
    (∀ p, (∀ x, (s.port p).tx ≠ .sending x) → exec (.transmissionComplete p) s = .next s) ∧
    (∀ g, (s.seg g).state ≠ .idle ∨ (s.seg g).queue = [] → exec (.take g) s = .next s) ∧
    (∀ g, (s.seg g).state ≠ .awaiting ∨ (s.port (dropPort g)).tx ≠ .idle ∨ (∀ x, (s.seg g).slot ≠ .poll x) →
      exec (.replyWindowExpiry g) s = .next s) ∧
    (s.standbyState ≠ .filling ∨ OpenSlotLaw s ∧ s.agent.openSlot = none → exec .copyCompletion s = .next s) ∧
    (s.standbyState ≠ .checking ∨ OpenSlotLaw s ∧ s.agent.openSlot = none → exec .checkCompletion s = .next s) ∧
    let fits := fun ws : List Word =>
      ((ws.getD 0 0).toNat, ws.length) ∈ [(1, 1), (2, 3), (3, 12), (4, 4), (6, 3), (7, 4), (8, 2), (9, 2), (10, 2), (11, 3),
        (12, 1), (13, 1), (14, 1), (15, 1)] ∨
      (ws.getD 0 0).toNat = 5 ∧ 1 ≤ (ws.getD 3 0).toNat ∧ (ws.getD 3 0).toNat ≤ 4 ∧
        ws.length = 4 + 6 * (ws.getD 3 0).toNat
    (∀ d, s.agent.requests.head? = some d → fits (s.words d) → exec .malformedRequest s = .next s) ∧
    ∀ (c : Instr) (o : Nat), (c, o) ∈ [(.status, 1), (.readStation, 2), (.writeStation, 3), (.readPoints, 4), (.writePoints, 5),
        (.setLabel, 6), (.readImage, 7), (.readStationState, 8), (.readCounters, 9), (.clearCounters, 10), (.setMode, 11),
        (.copy, 12), (.commit, 13), (.cancel, 14), (.restart, 15)] →
      (s.agent.requests = [] → exec c s = .next s ∧ exec .malformedRequest s = .next s) ∧
      ∀ d, s.agent.requests.head? = some d → ((s.words d).getD 0 0).toNat ≠ o ∨ ¬fits (s.words d) → exec c s = .next s
end

