-- ==== Sys2Proof/Laws/State.lean ====
section
/-! SUPPORT. The state's record lemmas: for every setter, what each field and each part reads afterwards. All are true by
computation and are simp lemmas, so that no later proof unfolds a record update. -/

namespace Sys2Proof.Machine

namespace State

/-! ## Setters of one field -/

@[simp] theorem setMem_mem (s : State) (m : TelegramMemory) : (s.setMem m).mem = m := rfl
@[simp] theorem setMem_copyDone (s : State) (m : TelegramMemory) : (s.setMem m).copyDone = s.copyDone := rfl
@[simp] theorem setMem_cycle (s : State) (m : TelegramMemory) : (s.setMem m).cycle = s.cycle := rfl
@[simp] theorem setMem_runtime (s : State) (m : TelegramMemory) : (s.setMem m).runtime = s.runtime := rfl
@[simp] theorem setMem_inImages (s : State) (m : TelegramMemory) : (s.setMem m).inImages = s.inImages := rfl
@[simp] theorem setMem_outImages (s : State) (m : TelegramMemory) : (s.setMem m).outImages = s.outImages := rfl
@[simp] theorem setMem_egress (s : State) (m : TelegramMemory) : (s.setMem m).egress = s.egress := rfl
@[simp] theorem setMem_agent (s : State) (m : TelegramMemory) : (s.setMem m).agent = s.agent := rfl
@[simp] theorem setMem_notices (s : State) (m : TelegramMemory) : (s.setMem m).notices = s.notices := rfl
@[simp] theorem setMem_counters (s : State) (m : TelegramMemory) : (s.setMem m).counters = s.counters := rfl
@[simp] theorem setMem_resetHeld (s : State) (m : TelegramMemory) : (s.setMem m).resetHeld = s.resetHeld := rfl
@[simp] theorem setMem_freeTick (s : State) (m : TelegramMemory) : (s.setMem m).freeTick = s.freeTick := rfl
@[simp] theorem setMem_pending (s : State) (m : TelegramMemory) : (s.setMem m).pending = s.pending := rfl
@[simp] theorem setMem_port (s : State) (m : TelegramMemory) (p : Port) : (s.setMem m).port p = s.port p := rfl
@[simp] theorem setMem_bank (s : State) (m : TelegramMemory) (b : BankId) : (s.setMem m).bank b = s.bank b := rfl
@[simp] theorem setMem_seg (s : State) (m : TelegramMemory) (g : Segment) : (s.setMem m).seg g = s.seg g := rfl

@[simp] theorem setCycle_mem (s : State) (c : CycleRegister) : (s.setCycle c).mem = s.mem := rfl
@[simp] theorem setCycle_copyDone (s : State) (c : CycleRegister) : (s.setCycle c).copyDone = s.copyDone := rfl
@[simp] theorem setCycle_cycle (s : State) (c : CycleRegister) : (s.setCycle c).cycle = c := rfl
@[simp] theorem setCycle_runtime (s : State) (c : CycleRegister) : (s.setCycle c).runtime = s.runtime := rfl
@[simp] theorem setCycle_inImages (s : State) (c : CycleRegister) : (s.setCycle c).inImages = s.inImages := rfl
@[simp] theorem setCycle_outImages (s : State) (c : CycleRegister) : (s.setCycle c).outImages = s.outImages := rfl
@[simp] theorem setCycle_egress (s : State) (c : CycleRegister) : (s.setCycle c).egress = s.egress := rfl
@[simp] theorem setCycle_agent (s : State) (c : CycleRegister) : (s.setCycle c).agent = s.agent := rfl
@[simp] theorem setCycle_notices (s : State) (c : CycleRegister) : (s.setCycle c).notices = s.notices := rfl
@[simp] theorem setCycle_counters (s : State) (c : CycleRegister) : (s.setCycle c).counters = s.counters := rfl
@[simp] theorem setCycle_resetHeld (s : State) (c : CycleRegister) : (s.setCycle c).resetHeld = s.resetHeld := rfl
@[simp] theorem setCycle_freeTick (s : State) (c : CycleRegister) : (s.setCycle c).freeTick = s.freeTick := rfl
@[simp] theorem setCycle_pending (s : State) (c : CycleRegister) : (s.setCycle c).pending = s.pending := rfl
@[simp] theorem setCycle_port (s : State) (c : CycleRegister) (p : Port) : (s.setCycle c).port p = s.port p := rfl
@[simp] theorem setCycle_bank (s : State) (c : CycleRegister) (b : BankId) : (s.setCycle c).bank b = s.bank b := rfl
@[simp] theorem setCycle_seg (s : State) (c : CycleRegister) (g : Segment) : (s.setCycle c).seg g = s.seg g := rfl

@[simp] theorem setCopyDone_mem (s : State) (n : Nat) : (s.setCopyDone n).mem = s.mem := rfl
@[simp] theorem setCopyDone_copyDone (s : State) (n : Nat) : (s.setCopyDone n).copyDone = n := rfl
@[simp] theorem setCopyDone_cycle (s : State) (n : Nat) : (s.setCopyDone n).cycle = s.cycle := rfl
@[simp] theorem setCopyDone_runtime (s : State) (n : Nat) : (s.setCopyDone n).runtime = s.runtime := rfl
@[simp] theorem setCopyDone_inImages (s : State) (n : Nat) : (s.setCopyDone n).inImages = s.inImages := rfl
@[simp] theorem setCopyDone_outImages (s : State) (n : Nat) : (s.setCopyDone n).outImages = s.outImages := rfl
@[simp] theorem setCopyDone_egress (s : State) (n : Nat) : (s.setCopyDone n).egress = s.egress := rfl
@[simp] theorem setCopyDone_agent (s : State) (n : Nat) : (s.setCopyDone n).agent = s.agent := rfl
@[simp] theorem setCopyDone_notices (s : State) (n : Nat) : (s.setCopyDone n).notices = s.notices := rfl
@[simp] theorem setCopyDone_counters (s : State) (n : Nat) : (s.setCopyDone n).counters = s.counters := rfl
@[simp] theorem setCopyDone_resetHeld (s : State) (n : Nat) : (s.setCopyDone n).resetHeld = s.resetHeld := rfl
@[simp] theorem setCopyDone_freeTick (s : State) (n : Nat) : (s.setCopyDone n).freeTick = s.freeTick := rfl
@[simp] theorem setCopyDone_pending (s : State) (n : Nat) : (s.setCopyDone n).pending = s.pending := rfl
@[simp] theorem setCopyDone_port (s : State) (n : Nat) (p : Port) : (s.setCopyDone n).port p = s.port p := rfl
@[simp] theorem setCopyDone_bank (s : State) (n : Nat) (b : BankId) : (s.setCopyDone n).bank b = s.bank b := rfl
@[simp] theorem setCopyDone_seg (s : State) (n : Nat) (g : Segment) : (s.setCopyDone n).seg g = s.seg g := rfl

@[simp] theorem setRuntime_mem (s : State) (t : Table StationRuntime) : (s.setRuntime t).mem = s.mem := rfl
@[simp] theorem setRuntime_copyDone (s : State) (t : Table StationRuntime) : (s.setRuntime t).copyDone = s.copyDone := rfl
@[simp] theorem setRuntime_cycle (s : State) (t : Table StationRuntime) : (s.setRuntime t).cycle = s.cycle := rfl
@[simp] theorem setRuntime_runtime (s : State) (t : Table StationRuntime) : (s.setRuntime t).runtime = t := rfl
@[simp] theorem setRuntime_inImages (s : State) (t : Table StationRuntime) : (s.setRuntime t).inImages = s.inImages := rfl
@[simp] theorem setRuntime_outImages (s : State) (t : Table StationRuntime) : (s.setRuntime t).outImages = s.outImages := rfl
@[simp] theorem setRuntime_egress (s : State) (t : Table StationRuntime) : (s.setRuntime t).egress = s.egress := rfl
@[simp] theorem setRuntime_agent (s : State) (t : Table StationRuntime) : (s.setRuntime t).agent = s.agent := rfl
@[simp] theorem setRuntime_notices (s : State) (t : Table StationRuntime) : (s.setRuntime t).notices = s.notices := rfl
@[simp] theorem setRuntime_counters (s : State) (t : Table StationRuntime) : (s.setRuntime t).counters = s.counters := rfl
@[simp] theorem setRuntime_resetHeld (s : State) (t : Table StationRuntime) : (s.setRuntime t).resetHeld = s.resetHeld := rfl
@[simp] theorem setRuntime_freeTick (s : State) (t : Table StationRuntime) : (s.setRuntime t).freeTick = s.freeTick := rfl
@[simp] theorem setRuntime_pending (s : State) (t : Table StationRuntime) : (s.setRuntime t).pending = s.pending := rfl
@[simp] theorem setRuntime_port (s : State) (t : Table StationRuntime) (p : Port) : (s.setRuntime t).port p = s.port p := rfl
@[simp] theorem setRuntime_bank (s : State) (t : Table StationRuntime) (b : BankId) : (s.setRuntime t).bank b = s.bank b := rfl
@[simp] theorem setRuntime_seg (s : State) (t : Table StationRuntime) (g : Segment) : (s.setRuntime t).seg g = s.seg g := rfl

@[simp] theorem setInImages_mem (s : State) (t : Table ImageRecord) : (s.setInImages t).mem = s.mem := rfl
@[simp] theorem setInImages_copyDone (s : State) (t : Table ImageRecord) : (s.setInImages t).copyDone = s.copyDone := rfl
@[simp] theorem setInImages_cycle (s : State) (t : Table ImageRecord) : (s.setInImages t).cycle = s.cycle := rfl
@[simp] theorem setInImages_runtime (s : State) (t : Table ImageRecord) : (s.setInImages t).runtime = s.runtime := rfl
@[simp] theorem setInImages_inImages (s : State) (t : Table ImageRecord) : (s.setInImages t).inImages = t := rfl
@[simp] theorem setInImages_outImages (s : State) (t : Table ImageRecord) : (s.setInImages t).outImages = s.outImages := rfl
@[simp] theorem setInImages_egress (s : State) (t : Table ImageRecord) : (s.setInImages t).egress = s.egress := rfl
@[simp] theorem setInImages_agent (s : State) (t : Table ImageRecord) : (s.setInImages t).agent = s.agent := rfl
@[simp] theorem setInImages_notices (s : State) (t : Table ImageRecord) : (s.setInImages t).notices = s.notices := rfl
@[simp] theorem setInImages_counters (s : State) (t : Table ImageRecord) : (s.setInImages t).counters = s.counters := rfl
@[simp] theorem setInImages_resetHeld (s : State) (t : Table ImageRecord) : (s.setInImages t).resetHeld = s.resetHeld := rfl
@[simp] theorem setInImages_freeTick (s : State) (t : Table ImageRecord) : (s.setInImages t).freeTick = s.freeTick := rfl
@[simp] theorem setInImages_pending (s : State) (t : Table ImageRecord) : (s.setInImages t).pending = s.pending := rfl
@[simp] theorem setInImages_port (s : State) (t : Table ImageRecord) (p : Port) : (s.setInImages t).port p = s.port p := rfl
@[simp] theorem setInImages_bank (s : State) (t : Table ImageRecord) (b : BankId) : (s.setInImages t).bank b = s.bank b := rfl
@[simp] theorem setInImages_seg (s : State) (t : Table ImageRecord) (g : Segment) : (s.setInImages t).seg g = s.seg g := rfl

@[simp] theorem setOutImages_mem (s : State) (t : Table ImageRecord) : (s.setOutImages t).mem = s.mem := rfl
@[simp] theorem setOutImages_copyDone (s : State) (t : Table ImageRecord) : (s.setOutImages t).copyDone = s.copyDone := rfl
@[simp] theorem setOutImages_cycle (s : State) (t : Table ImageRecord) : (s.setOutImages t).cycle = s.cycle := rfl
@[simp] theorem setOutImages_runtime (s : State) (t : Table ImageRecord) : (s.setOutImages t).runtime = s.runtime := rfl
@[simp] theorem setOutImages_inImages (s : State) (t : Table ImageRecord) : (s.setOutImages t).inImages = s.inImages := rfl
@[simp] theorem setOutImages_outImages (s : State) (t : Table ImageRecord) : (s.setOutImages t).outImages = t := rfl
@[simp] theorem setOutImages_egress (s : State) (t : Table ImageRecord) : (s.setOutImages t).egress = s.egress := rfl
@[simp] theorem setOutImages_agent (s : State) (t : Table ImageRecord) : (s.setOutImages t).agent = s.agent := rfl
@[simp] theorem setOutImages_notices (s : State) (t : Table ImageRecord) : (s.setOutImages t).notices = s.notices := rfl
@[simp] theorem setOutImages_counters (s : State) (t : Table ImageRecord) : (s.setOutImages t).counters = s.counters := rfl
@[simp] theorem setOutImages_resetHeld (s : State) (t : Table ImageRecord) : (s.setOutImages t).resetHeld = s.resetHeld := rfl
@[simp] theorem setOutImages_freeTick (s : State) (t : Table ImageRecord) : (s.setOutImages t).freeTick = s.freeTick := rfl
@[simp] theorem setOutImages_pending (s : State) (t : Table ImageRecord) : (s.setOutImages t).pending = s.pending := rfl
@[simp] theorem setOutImages_port (s : State) (t : Table ImageRecord) (p : Port) : (s.setOutImages t).port p = s.port p := rfl
@[simp] theorem setOutImages_bank (s : State) (t : Table ImageRecord) (b : BankId) : (s.setOutImages t).bank b = s.bank b := rfl
@[simp] theorem setOutImages_seg (s : State) (t : Table ImageRecord) (g : Segment) : (s.setOutImages t).seg g = s.seg g := rfl

@[simp] theorem setEgress_mem (s : State) (e : TrunkEgress) : (s.setEgress e).mem = s.mem := rfl
@[simp] theorem setEgress_copyDone (s : State) (e : TrunkEgress) : (s.setEgress e).copyDone = s.copyDone := rfl
@[simp] theorem setEgress_cycle (s : State) (e : TrunkEgress) : (s.setEgress e).cycle = s.cycle := rfl
@[simp] theorem setEgress_runtime (s : State) (e : TrunkEgress) : (s.setEgress e).runtime = s.runtime := rfl
@[simp] theorem setEgress_inImages (s : State) (e : TrunkEgress) : (s.setEgress e).inImages = s.inImages := rfl
@[simp] theorem setEgress_outImages (s : State) (e : TrunkEgress) : (s.setEgress e).outImages = s.outImages := rfl
@[simp] theorem setEgress_egress (s : State) (e : TrunkEgress) : (s.setEgress e).egress = e := rfl
@[simp] theorem setEgress_agent (s : State) (e : TrunkEgress) : (s.setEgress e).agent = s.agent := rfl
@[simp] theorem setEgress_notices (s : State) (e : TrunkEgress) : (s.setEgress e).notices = s.notices := rfl
@[simp] theorem setEgress_counters (s : State) (e : TrunkEgress) : (s.setEgress e).counters = s.counters := rfl
@[simp] theorem setEgress_resetHeld (s : State) (e : TrunkEgress) : (s.setEgress e).resetHeld = s.resetHeld := rfl
@[simp] theorem setEgress_freeTick (s : State) (e : TrunkEgress) : (s.setEgress e).freeTick = s.freeTick := rfl
@[simp] theorem setEgress_pending (s : State) (e : TrunkEgress) : (s.setEgress e).pending = s.pending := rfl
@[simp] theorem setEgress_port (s : State) (e : TrunkEgress) (p : Port) : (s.setEgress e).port p = s.port p := rfl
@[simp] theorem setEgress_bank (s : State) (e : TrunkEgress) (b : BankId) : (s.setEgress e).bank b = s.bank b := rfl
@[simp] theorem setEgress_seg (s : State) (e : TrunkEgress) (g : Segment) : (s.setEgress e).seg g = s.seg g := rfl

@[simp] theorem setAgent_mem (s : State) (a : Agent) : (s.setAgent a).mem = s.mem := rfl
@[simp] theorem setAgent_copyDone (s : State) (a : Agent) : (s.setAgent a).copyDone = s.copyDone := rfl
@[simp] theorem setAgent_cycle (s : State) (a : Agent) : (s.setAgent a).cycle = s.cycle := rfl
@[simp] theorem setAgent_runtime (s : State) (a : Agent) : (s.setAgent a).runtime = s.runtime := rfl
@[simp] theorem setAgent_inImages (s : State) (a : Agent) : (s.setAgent a).inImages = s.inImages := rfl
@[simp] theorem setAgent_outImages (s : State) (a : Agent) : (s.setAgent a).outImages = s.outImages := rfl
@[simp] theorem setAgent_egress (s : State) (a : Agent) : (s.setAgent a).egress = s.egress := rfl
@[simp] theorem setAgent_agent (s : State) (a : Agent) : (s.setAgent a).agent = a := rfl
@[simp] theorem setAgent_notices (s : State) (a : Agent) : (s.setAgent a).notices = s.notices := rfl
@[simp] theorem setAgent_counters (s : State) (a : Agent) : (s.setAgent a).counters = s.counters := rfl
@[simp] theorem setAgent_resetHeld (s : State) (a : Agent) : (s.setAgent a).resetHeld = s.resetHeld := rfl
@[simp] theorem setAgent_freeTick (s : State) (a : Agent) : (s.setAgent a).freeTick = s.freeTick := rfl
@[simp] theorem setAgent_pending (s : State) (a : Agent) : (s.setAgent a).pending = s.pending := rfl
@[simp] theorem setAgent_port (s : State) (a : Agent) (p : Port) : (s.setAgent a).port p = s.port p := rfl
@[simp] theorem setAgent_bank (s : State) (a : Agent) (b : BankId) : (s.setAgent a).bank b = s.bank b := rfl
@[simp] theorem setAgent_seg (s : State) (a : Agent) (g : Segment) : (s.setAgent a).seg g = s.seg g := rfl

@[simp] theorem setNotices_mem (s : State) (n : NoticeUnit) : (s.setNotices n).mem = s.mem := rfl
@[simp] theorem setNotices_copyDone (s : State) (n : NoticeUnit) : (s.setNotices n).copyDone = s.copyDone := rfl
@[simp] theorem setNotices_cycle (s : State) (n : NoticeUnit) : (s.setNotices n).cycle = s.cycle := rfl
@[simp] theorem setNotices_runtime (s : State) (n : NoticeUnit) : (s.setNotices n).runtime = s.runtime := rfl
@[simp] theorem setNotices_inImages (s : State) (n : NoticeUnit) : (s.setNotices n).inImages = s.inImages := rfl
@[simp] theorem setNotices_outImages (s : State) (n : NoticeUnit) : (s.setNotices n).outImages = s.outImages := rfl
@[simp] theorem setNotices_egress (s : State) (n : NoticeUnit) : (s.setNotices n).egress = s.egress := rfl
@[simp] theorem setNotices_agent (s : State) (n : NoticeUnit) : (s.setNotices n).agent = s.agent := rfl
@[simp] theorem setNotices_notices (s : State) (n : NoticeUnit) : (s.setNotices n).notices = n := rfl
@[simp] theorem setNotices_counters (s : State) (n : NoticeUnit) : (s.setNotices n).counters = s.counters := rfl
@[simp] theorem setNotices_resetHeld (s : State) (n : NoticeUnit) : (s.setNotices n).resetHeld = s.resetHeld := rfl
@[simp] theorem setNotices_freeTick (s : State) (n : NoticeUnit) : (s.setNotices n).freeTick = s.freeTick := rfl
@[simp] theorem setNotices_pending (s : State) (n : NoticeUnit) : (s.setNotices n).pending = s.pending := rfl
@[simp] theorem setNotices_port (s : State) (n : NoticeUnit) (p : Port) : (s.setNotices n).port p = s.port p := rfl
@[simp] theorem setNotices_bank (s : State) (n : NoticeUnit) (b : BankId) : (s.setNotices n).bank b = s.bank b := rfl
@[simp] theorem setNotices_seg (s : State) (n : NoticeUnit) (g : Segment) : (s.setNotices n).seg g = s.seg g := rfl

@[simp] theorem setCounters_mem (s : State) (c : CounterBank) : (s.setCounters c).mem = s.mem := rfl
@[simp] theorem setCounters_copyDone (s : State) (c : CounterBank) : (s.setCounters c).copyDone = s.copyDone := rfl
@[simp] theorem setCounters_cycle (s : State) (c : CounterBank) : (s.setCounters c).cycle = s.cycle := rfl
@[simp] theorem setCounters_runtime (s : State) (c : CounterBank) : (s.setCounters c).runtime = s.runtime := rfl
@[simp] theorem setCounters_inImages (s : State) (c : CounterBank) : (s.setCounters c).inImages = s.inImages := rfl
@[simp] theorem setCounters_outImages (s : State) (c : CounterBank) : (s.setCounters c).outImages = s.outImages := rfl
@[simp] theorem setCounters_egress (s : State) (c : CounterBank) : (s.setCounters c).egress = s.egress := rfl
@[simp] theorem setCounters_agent (s : State) (c : CounterBank) : (s.setCounters c).agent = s.agent := rfl
@[simp] theorem setCounters_notices (s : State) (c : CounterBank) : (s.setCounters c).notices = s.notices := rfl
@[simp] theorem setCounters_counters (s : State) (c : CounterBank) : (s.setCounters c).counters = c := rfl
@[simp] theorem setCounters_resetHeld (s : State) (c : CounterBank) : (s.setCounters c).resetHeld = s.resetHeld := rfl
@[simp] theorem setCounters_freeTick (s : State) (c : CounterBank) : (s.setCounters c).freeTick = s.freeTick := rfl
@[simp] theorem setCounters_pending (s : State) (c : CounterBank) : (s.setCounters c).pending = s.pending := rfl
@[simp] theorem setCounters_port (s : State) (c : CounterBank) (p : Port) : (s.setCounters c).port p = s.port p := rfl
@[simp] theorem setCounters_bank (s : State) (c : CounterBank) (b : BankId) : (s.setCounters c).bank b = s.bank b := rfl
@[simp] theorem setCounters_seg (s : State) (c : CounterBank) (g : Segment) : (s.setCounters c).seg g = s.seg g := rfl

@[simp] theorem setResetHeld_mem (s : State) (b : Bool) : (s.setResetHeld b).mem = s.mem := rfl
@[simp] theorem setResetHeld_copyDone (s : State) (b : Bool) : (s.setResetHeld b).copyDone = s.copyDone := rfl
@[simp] theorem setResetHeld_cycle (s : State) (b : Bool) : (s.setResetHeld b).cycle = s.cycle := rfl
@[simp] theorem setResetHeld_runtime (s : State) (b : Bool) : (s.setResetHeld b).runtime = s.runtime := rfl
@[simp] theorem setResetHeld_inImages (s : State) (b : Bool) : (s.setResetHeld b).inImages = s.inImages := rfl
@[simp] theorem setResetHeld_outImages (s : State) (b : Bool) : (s.setResetHeld b).outImages = s.outImages := rfl
@[simp] theorem setResetHeld_egress (s : State) (b : Bool) : (s.setResetHeld b).egress = s.egress := rfl
@[simp] theorem setResetHeld_agent (s : State) (b : Bool) : (s.setResetHeld b).agent = s.agent := rfl
@[simp] theorem setResetHeld_notices (s : State) (b : Bool) : (s.setResetHeld b).notices = s.notices := rfl
@[simp] theorem setResetHeld_counters (s : State) (b : Bool) : (s.setResetHeld b).counters = s.counters := rfl
@[simp] theorem setResetHeld_resetHeld (s : State) (b : Bool) : (s.setResetHeld b).resetHeld = b := rfl
@[simp] theorem setResetHeld_freeTick (s : State) (b : Bool) : (s.setResetHeld b).freeTick = s.freeTick := rfl
@[simp] theorem setResetHeld_pending (s : State) (b : Bool) : (s.setResetHeld b).pending = s.pending := rfl
@[simp] theorem setResetHeld_port (s : State) (b : Bool) (p : Port) : (s.setResetHeld b).port p = s.port p := rfl
@[simp] theorem setResetHeld_bank (s : State) (b : Bool) (k : BankId) : (s.setResetHeld b).bank k = s.bank k := rfl
@[simp] theorem setResetHeld_seg (s : State) (b : Bool) (g : Segment) : (s.setResetHeld b).seg g = s.seg g := rfl

/-! ## tickFree -/

@[simp] theorem tickFree_mem (s : State) : s.tickFree.mem = s.mem := rfl
@[simp] theorem tickFree_copyDone (s : State) : s.tickFree.copyDone = s.copyDone := rfl
@[simp] theorem tickFree_cycle (s : State) : s.tickFree.cycle = s.cycle := rfl
@[simp] theorem tickFree_runtime (s : State) : s.tickFree.runtime = s.runtime := rfl
@[simp] theorem tickFree_inImages (s : State) : s.tickFree.inImages = s.inImages := rfl
@[simp] theorem tickFree_outImages (s : State) : s.tickFree.outImages = s.outImages := rfl
@[simp] theorem tickFree_egress (s : State) : s.tickFree.egress = s.egress := rfl
@[simp] theorem tickFree_agent (s : State) : s.tickFree.agent = s.agent := rfl
@[simp] theorem tickFree_notices (s : State) : s.tickFree.notices = s.notices := rfl
@[simp] theorem tickFree_counters (s : State) : s.tickFree.counters = s.counters := rfl
@[simp] theorem tickFree_resetHeld (s : State) : s.tickFree.resetHeld = s.resetHeld := rfl
@[simp] theorem tickFree_freeTick (s : State) : s.tickFree.freeTick = s.freeTick + 1 := rfl
@[simp] theorem tickFree_pending (s : State) : s.tickFree.pending = s.pending := rfl
@[simp] theorem tickFree_port (s : State) (p : Port) : s.tickFree.port p = s.port p := rfl
@[simp] theorem tickFree_bank (s : State) (b : BankId) : s.tickFree.bank b = s.bank b := rfl
@[simp] theorem tickFree_seg (s : State) (g : Segment) : s.tickFree.seg g = s.seg g := rfl

/-! ## Setters of a port, a bank, a segment -/

@[simp] theorem setPort_mem (s : State) (p : Port) (v : LinePort) : (s.setPort p v).mem = s.mem := by cases p <;> rfl
@[simp] theorem setPort_copyDone (s : State) (p : Port) (v : LinePort) : (s.setPort p v).copyDone = s.copyDone := by cases p <;> rfl
@[simp] theorem setPort_cycle (s : State) (p : Port) (v : LinePort) : (s.setPort p v).cycle = s.cycle := by cases p <;> rfl
@[simp] theorem setPort_runtime (s : State) (p : Port) (v : LinePort) : (s.setPort p v).runtime = s.runtime := by cases p <;> rfl
@[simp] theorem setPort_inImages (s : State) (p : Port) (v : LinePort) : (s.setPort p v).inImages = s.inImages := by cases p <;> rfl
@[simp] theorem setPort_outImages (s : State) (p : Port) (v : LinePort) : (s.setPort p v).outImages = s.outImages := by cases p <;> rfl
@[simp] theorem setPort_egress (s : State) (p : Port) (v : LinePort) : (s.setPort p v).egress = s.egress := by cases p <;> rfl
@[simp] theorem setPort_agent (s : State) (p : Port) (v : LinePort) : (s.setPort p v).agent = s.agent := by cases p <;> rfl
@[simp] theorem setPort_notices (s : State) (p : Port) (v : LinePort) : (s.setPort p v).notices = s.notices := by cases p <;> rfl
@[simp] theorem setPort_counters (s : State) (p : Port) (v : LinePort) : (s.setPort p v).counters = s.counters := by cases p <;> rfl
@[simp] theorem setPort_resetHeld (s : State) (p : Port) (v : LinePort) : (s.setPort p v).resetHeld = s.resetHeld := by cases p <;> rfl
@[simp] theorem setPort_freeTick (s : State) (p : Port) (v : LinePort) : (s.setPort p v).freeTick = s.freeTick := by cases p <;> rfl
@[simp] theorem setPort_pending (s : State) (p : Port) (v : LinePort) : (s.setPort p v).pending = s.pending := by cases p <;> rfl
@[simp] theorem setPort_bank (s : State) (p : Port) (v : LinePort) (b : BankId) : (s.setPort p v).bank b = s.bank b := by cases p <;> rfl
@[simp] theorem setPort_seg (s : State) (p : Port) (v : LinePort) (g : Segment) : (s.setPort p v).seg g = s.seg g := by cases p <;> rfl
theorem setPort_port (s : State) (p k : Port) (v : LinePort) : (s.setPort p v).port k = if k = p then v else s.port k := by cases p <;> cases k <;> rfl
@[simp] theorem setPort_port_same (s : State) (p : Port) (v : LinePort) : (s.setPort p v).port p = v := by cases p <;> rfl
@[simp] theorem setPort_port_other (s : State) (p k : Port) (v : LinePort) (h : k ≠ p) : (s.setPort p v).port k = s.port k := by simp [setPort_port, h]
@[simp] theorem setPort_self (s : State) (p : Port) : s.setPort p (s.port p) = s := by cases p <;> rfl
@[simp] theorem setPort_setPort (s : State) (p : Port) (v w : LinePort) : (s.setPort p v).setPort p w = s.setPort p w := by cases p <;> rfl

@[simp] theorem setBank_mem (s : State) (b : BankId) (v : Bank) : (s.setBank b v).mem = s.mem := by cases b <;> rfl
@[simp] theorem setBank_copyDone (s : State) (b : BankId) (v : Bank) : (s.setBank b v).copyDone = s.copyDone := by cases b <;> rfl
@[simp] theorem setBank_cycle (s : State) (b : BankId) (v : Bank) : (s.setBank b v).cycle = s.cycle := by cases b <;> rfl
@[simp] theorem setBank_runtime (s : State) (b : BankId) (v : Bank) : (s.setBank b v).runtime = s.runtime := by cases b <;> rfl
@[simp] theorem setBank_inImages (s : State) (b : BankId) (v : Bank) : (s.setBank b v).inImages = s.inImages := by cases b <;> rfl
@[simp] theorem setBank_outImages (s : State) (b : BankId) (v : Bank) : (s.setBank b v).outImages = s.outImages := by cases b <;> rfl
@[simp] theorem setBank_egress (s : State) (b : BankId) (v : Bank) : (s.setBank b v).egress = s.egress := by cases b <;> rfl
@[simp] theorem setBank_agent (s : State) (b : BankId) (v : Bank) : (s.setBank b v).agent = s.agent := by cases b <;> rfl
@[simp] theorem setBank_notices (s : State) (b : BankId) (v : Bank) : (s.setBank b v).notices = s.notices := by cases b <;> rfl
@[simp] theorem setBank_counters (s : State) (b : BankId) (v : Bank) : (s.setBank b v).counters = s.counters := by cases b <;> rfl
@[simp] theorem setBank_resetHeld (s : State) (b : BankId) (v : Bank) : (s.setBank b v).resetHeld = s.resetHeld := by cases b <;> rfl
@[simp] theorem setBank_freeTick (s : State) (b : BankId) (v : Bank) : (s.setBank b v).freeTick = s.freeTick := by cases b <;> rfl
@[simp] theorem setBank_pending (s : State) (b : BankId) (v : Bank) : (s.setBank b v).pending = s.pending := by cases b <;> rfl
@[simp] theorem setBank_port (s : State) (b : BankId) (v : Bank) (p : Port) : (s.setBank b v).port p = s.port p := by cases b <;> rfl
@[simp] theorem setBank_seg (s : State) (b : BankId) (v : Bank) (g : Segment) : (s.setBank b v).seg g = s.seg g := by cases b <;> rfl
theorem setBank_bank (s : State) (b k : BankId) (v : Bank) : (s.setBank b v).bank k = if k = b then v else s.bank k := by cases b <;> cases k <;> rfl
@[simp] theorem setBank_bank_same (s : State) (b : BankId) (v : Bank) : (s.setBank b v).bank b = v := by cases b <;> rfl
@[simp] theorem setBank_bank_other (s : State) (b k : BankId) (v : Bank) (h : k ≠ b) : (s.setBank b v).bank k = s.bank k := by simp [setBank_bank, h]
@[simp] theorem setBank_self (s : State) (b : BankId) : s.setBank b (s.bank b) = s := by cases b <;> rfl
@[simp] theorem setBank_setBank (s : State) (b : BankId) (v w : Bank) : (s.setBank b v).setBank b w = s.setBank b w := by cases b <;> rfl

@[simp] theorem setSeg_mem (s : State) (g : Segment) (v : SegmentController) : (s.setSeg g v).mem = s.mem := by cases g <;> rfl
@[simp] theorem setSeg_copyDone (s : State) (g : Segment) (v : SegmentController) : (s.setSeg g v).copyDone = s.copyDone := by cases g <;> rfl
@[simp] theorem setSeg_cycle (s : State) (g : Segment) (v : SegmentController) : (s.setSeg g v).cycle = s.cycle := by cases g <;> rfl
@[simp] theorem setSeg_runtime (s : State) (g : Segment) (v : SegmentController) : (s.setSeg g v).runtime = s.runtime := by cases g <;> rfl
@[simp] theorem setSeg_inImages (s : State) (g : Segment) (v : SegmentController) : (s.setSeg g v).inImages = s.inImages := by cases g <;> rfl
@[simp] theorem setSeg_outImages (s : State) (g : Segment) (v : SegmentController) : (s.setSeg g v).outImages = s.outImages := by cases g <;> rfl
@[simp] theorem setSeg_egress (s : State) (g : Segment) (v : SegmentController) : (s.setSeg g v).egress = s.egress := by cases g <;> rfl
@[simp] theorem setSeg_agent (s : State) (g : Segment) (v : SegmentController) : (s.setSeg g v).agent = s.agent := by cases g <;> rfl
@[simp] theorem setSeg_notices (s : State) (g : Segment) (v : SegmentController) : (s.setSeg g v).notices = s.notices := by cases g <;> rfl
@[simp] theorem setSeg_counters (s : State) (g : Segment) (v : SegmentController) : (s.setSeg g v).counters = s.counters := by cases g <;> rfl
@[simp] theorem setSeg_resetHeld (s : State) (g : Segment) (v : SegmentController) : (s.setSeg g v).resetHeld = s.resetHeld := by cases g <;> rfl
@[simp] theorem setSeg_freeTick (s : State) (g : Segment) (v : SegmentController) : (s.setSeg g v).freeTick = s.freeTick := by cases g <;> rfl
@[simp] theorem setSeg_pending (s : State) (g : Segment) (v : SegmentController) : (s.setSeg g v).pending = s.pending := by cases g <;> rfl
@[simp] theorem setSeg_port (s : State) (g : Segment) (v : SegmentController) (p : Port) : (s.setSeg g v).port p = s.port p := by cases g <;> rfl
@[simp] theorem setSeg_bank (s : State) (g : Segment) (v : SegmentController) (b : BankId) : (s.setSeg g v).bank b = s.bank b := by cases g <;> rfl
theorem setSeg_seg (s : State) (g k : Segment) (v : SegmentController) : (s.setSeg g v).seg k = if k = g then v else s.seg k := by cases g <;> cases k <;> rfl
@[simp] theorem setSeg_seg_same (s : State) (g : Segment) (v : SegmentController) : (s.setSeg g v).seg g = v := by cases g <;> rfl
@[simp] theorem setSeg_seg_other (s : State) (g k : Segment) (v : SegmentController) (h : k ≠ g) : (s.setSeg g v).seg k = s.seg k := by simp [setSeg_seg, h]
@[simp] theorem setSeg_self (s : State) (g : Segment) : s.setSeg g (s.seg g) = s := by cases g <;> rfl
@[simp] theorem setSeg_setSeg (s : State) (g : Segment) (v w : SegmentController) : (s.setSeg g v).setSeg g w = s.setSeg g w := by cases g <;> rfl

@[simp] theorem setRx_mem (s : State) (p : Port) (r : Receiver) : (s.setRx p r).mem = s.mem := by cases p <;> rfl
@[simp] theorem setRx_copyDone (s : State) (p : Port) (r : Receiver) : (s.setRx p r).copyDone = s.copyDone := by cases p <;> rfl
@[simp] theorem setRx_cycle (s : State) (p : Port) (r : Receiver) : (s.setRx p r).cycle = s.cycle := by cases p <;> rfl
@[simp] theorem setRx_runtime (s : State) (p : Port) (r : Receiver) : (s.setRx p r).runtime = s.runtime := by cases p <;> rfl
@[simp] theorem setRx_inImages (s : State) (p : Port) (r : Receiver) : (s.setRx p r).inImages = s.inImages := by cases p <;> rfl
@[simp] theorem setRx_outImages (s : State) (p : Port) (r : Receiver) : (s.setRx p r).outImages = s.outImages := by cases p <;> rfl
@[simp] theorem setRx_egress (s : State) (p : Port) (r : Receiver) : (s.setRx p r).egress = s.egress := by cases p <;> rfl
@[simp] theorem setRx_agent (s : State) (p : Port) (r : Receiver) : (s.setRx p r).agent = s.agent := by cases p <;> rfl
@[simp] theorem setRx_notices (s : State) (p : Port) (r : Receiver) : (s.setRx p r).notices = s.notices := by cases p <;> rfl
@[simp] theorem setRx_counters (s : State) (p : Port) (r : Receiver) : (s.setRx p r).counters = s.counters := by cases p <;> rfl
@[simp] theorem setRx_resetHeld (s : State) (p : Port) (r : Receiver) : (s.setRx p r).resetHeld = s.resetHeld := by cases p <;> rfl
@[simp] theorem setRx_freeTick (s : State) (p : Port) (r : Receiver) : (s.setRx p r).freeTick = s.freeTick := by cases p <;> rfl
@[simp] theorem setRx_pending (s : State) (p : Port) (r : Receiver) : (s.setRx p r).pending = s.pending := by cases p <;> rfl
@[simp] theorem setRx_bank (s : State) (p : Port) (r : Receiver) (b : BankId) : (s.setRx p r).bank b = s.bank b := by cases p <;> rfl
@[simp] theorem setRx_seg (s : State) (p : Port) (r : Receiver) (g : Segment) : (s.setRx p r).seg g = s.seg g := by cases p <;> rfl
theorem setRx_port (s : State) (p k : Port) (r : Receiver) : (s.setRx p r).port k = if k = p then { s.port p with rx := r } else s.port k := by cases p <;> cases k <;> rfl
@[simp] theorem setRx_port_same (s : State) (p : Port) (r : Receiver) : (s.setRx p r).port p = { s.port p with rx := r } := by cases p <;> rfl
@[simp] theorem setRx_port_other (s : State) (p k : Port) (r : Receiver) (h : k ≠ p) : (s.setRx p r).port k = s.port k := by simp [setRx_port, h]
@[simp] theorem setRx_setRx (s : State) (p : Port) (r w : Receiver) : (s.setRx p r).setRx p w = s.setRx p w := by cases p <;> rfl

@[simp] theorem setTx_mem (s : State) (p : Port) (x : Transmitter) : (s.setTx p x).mem = s.mem := by cases p <;> rfl
@[simp] theorem setTx_copyDone (s : State) (p : Port) (x : Transmitter) : (s.setTx p x).copyDone = s.copyDone := by cases p <;> rfl
@[simp] theorem setTx_cycle (s : State) (p : Port) (x : Transmitter) : (s.setTx p x).cycle = s.cycle := by cases p <;> rfl
@[simp] theorem setTx_runtime (s : State) (p : Port) (x : Transmitter) : (s.setTx p x).runtime = s.runtime := by cases p <;> rfl
@[simp] theorem setTx_inImages (s : State) (p : Port) (x : Transmitter) : (s.setTx p x).inImages = s.inImages := by cases p <;> rfl
@[simp] theorem setTx_outImages (s : State) (p : Port) (x : Transmitter) : (s.setTx p x).outImages = s.outImages := by cases p <;> rfl
@[simp] theorem setTx_egress (s : State) (p : Port) (x : Transmitter) : (s.setTx p x).egress = s.egress := by cases p <;> rfl
@[simp] theorem setTx_agent (s : State) (p : Port) (x : Transmitter) : (s.setTx p x).agent = s.agent := by cases p <;> rfl
@[simp] theorem setTx_notices (s : State) (p : Port) (x : Transmitter) : (s.setTx p x).notices = s.notices := by cases p <;> rfl
@[simp] theorem setTx_counters (s : State) (p : Port) (x : Transmitter) : (s.setTx p x).counters = s.counters := by cases p <;> rfl
@[simp] theorem setTx_resetHeld (s : State) (p : Port) (x : Transmitter) : (s.setTx p x).resetHeld = s.resetHeld := by cases p <;> rfl
@[simp] theorem setTx_freeTick (s : State) (p : Port) (x : Transmitter) : (s.setTx p x).freeTick = s.freeTick := by cases p <;> rfl
@[simp] theorem setTx_pending (s : State) (p : Port) (x : Transmitter) : (s.setTx p x).pending = s.pending := by cases p <;> rfl
@[simp] theorem setTx_bank (s : State) (p : Port) (x : Transmitter) (b : BankId) : (s.setTx p x).bank b = s.bank b := by cases p <;> rfl
@[simp] theorem setTx_seg (s : State) (p : Port) (x : Transmitter) (g : Segment) : (s.setTx p x).seg g = s.seg g := by cases p <;> rfl
theorem setTx_port (s : State) (p k : Port) (x : Transmitter) : (s.setTx p x).port k = if k = p then { s.port p with tx := x } else s.port k := by cases p <;> cases k <;> rfl
@[simp] theorem setTx_port_same (s : State) (p : Port) (x : Transmitter) : (s.setTx p x).port p = { s.port p with tx := x } := by cases p <;> rfl
@[simp] theorem setTx_port_other (s : State) (p k : Port) (x : Transmitter) (h : k ≠ p) : (s.setTx p x).port k = s.port k := by simp [setTx_port, h]
@[simp] theorem setTx_setTx (s : State) (p : Port) (x w : Transmitter) : (s.setTx p x).setTx p w = s.setTx p w := by cases p <;> rfl

/-! ## The views of concrete parts -/

@[simp] theorem port_portT (s : State) : s.port .t = s.portT := rfl
@[simp] theorem port_portA (s : State) : s.port .a = s.portA := rfl
@[simp] theorem port_portB (s : State) : s.port .b = s.portB := rfl
@[simp] theorem bank_bank0 (s : State) : s.bank .bank0 = s.bank0 := rfl
@[simp] theorem bank_bank1 (s : State) : s.bank .bank1 = s.bank1 := rfl
@[simp] theorem seg_segA (s : State) : s.seg .a = s.segA := rfl
@[simp] theorem seg_segB (s : State) : s.seg .b = s.segB := rfl

/-- Two states are equal when every field is. -/
theorem ext_fields {s t : State} (hp : ∀ p, s.port p = t.port p) (hb : ∀ b, s.bank b = t.bank b)
    (hg : ∀ g, s.seg g = t.seg g) (hm : s.mem = t.mem) (hd : s.copyDone = t.copyDone) (hc : s.cycle = t.cycle)
    (hr : s.runtime = t.runtime) (hi : s.inImages = t.inImages) (ho : s.outImages = t.outImages)
    (he : s.egress = t.egress) (ha : s.agent = t.agent) (hn : s.notices = t.notices) (hk : s.counters = t.counters)
    (hh : s.resetHeld = t.resetHeld) (hf : s.freeTick = t.freeTick) (hq : s.pending = t.pending) : s = t := by
  have h1 := hp .t
  have h2 := hp .a
  have h3 := hp .b
  have h4 := hb .bank0
  have h5 := hb .bank1
  have h6 := hg .a
  have h7 := hg .b
  cases s
  cases t
  simp_all [State.port, State.bank, State.seg]

end State

/-! ## Events -/

/-- Out of reset an event takes place. -/
theorem event_running (f : State → State) (s : State) (h : s.resetHeld = false) : event f s = .next (f s) := by
  simp [event, h]

/-- Under reset no event takes place (R199). -/
theorem event_held (f : State → State) (s : State) (h : s.resetHeld = true) : event f s = .next s := by
  simp [event, h]

/-- An event always answers a next state. -/
theorem event_next (f : State → State) (s : State) : event f s = .next (if s.resetHeld then s else f s) := by
  unfold event
  split <;> rfl

end Sys2Proof.Machine
end

