-- ==== Sys2Proof/Laws/Frames.lean ====
section
/-! SUPPORT. The frames of the shared operations: for each operation, what every part of the state it does not change reads
afterwards. Later proofs cite these and never unfold an operation to see what it left alone. -/

namespace Sys2Proof.Machine

namespace State

/-! ## Counts -/

@[simp] theorem countPort_mem (s : State) (p : Port) (c : PortCounter) : (s.countPort p c).mem = s.mem := by cases p <;> rfl
@[simp] theorem countPort_copyDone (s : State) (p : Port) (c : PortCounter) : (s.countPort p c).copyDone = s.copyDone := by cases p <;> rfl
@[simp] theorem countPort_cycle (s : State) (p : Port) (c : PortCounter) : (s.countPort p c).cycle = s.cycle := by cases p <;> rfl
@[simp] theorem countPort_runtime (s : State) (p : Port) (c : PortCounter) : (s.countPort p c).runtime = s.runtime := by cases p <;> rfl
@[simp] theorem countPort_inImages (s : State) (p : Port) (c : PortCounter) : (s.countPort p c).inImages = s.inImages := by cases p <;> rfl
@[simp] theorem countPort_outImages (s : State) (p : Port) (c : PortCounter) : (s.countPort p c).outImages = s.outImages := by cases p <;> rfl
@[simp] theorem countPort_egress (s : State) (p : Port) (c : PortCounter) : (s.countPort p c).egress = s.egress := by cases p <;> rfl
@[simp] theorem countPort_agent (s : State) (p : Port) (c : PortCounter) : (s.countPort p c).agent = s.agent := by cases p <;> rfl
@[simp] theorem countPort_notices (s : State) (p : Port) (c : PortCounter) : (s.countPort p c).notices = s.notices := by cases p <;> rfl
@[simp] theorem countPort_resetHeld (s : State) (p : Port) (c : PortCounter) : (s.countPort p c).resetHeld = s.resetHeld := by cases p <;> rfl
@[simp] theorem countPort_freeTick (s : State) (p : Port) (c : PortCounter) : (s.countPort p c).freeTick = s.freeTick := by cases p <;> rfl
@[simp] theorem countPort_pending (s : State) (p : Port) (c : PortCounter) : (s.countPort p c).pending = s.pending := by cases p <;> rfl
@[simp] theorem countPort_port (s : State) (p : Port) (c : PortCounter) (q : Port) : (s.countPort p c).port q = s.port q := by cases p <;> rfl
@[simp] theorem countPort_bank (s : State) (p : Port) (c : PortCounter) (k : BankId) : (s.countPort p c).bank k = s.bank k := by cases p <;> rfl
@[simp] theorem countPort_seg (s : State) (p : Port) (c : PortCounter) (j : Segment) : (s.countPort p c).seg j = s.seg j := by cases p <;> rfl

@[simp] theorem countStation_mem (s : State) (n : Nat) (f : StationCounters → StationCounters) : (s.countStation n f).mem = s.mem := rfl
@[simp] theorem countStation_copyDone (s : State) (n : Nat) (f : StationCounters → StationCounters) : (s.countStation n f).copyDone = s.copyDone := rfl
@[simp] theorem countStation_cycle (s : State) (n : Nat) (f : StationCounters → StationCounters) : (s.countStation n f).cycle = s.cycle := rfl
@[simp] theorem countStation_runtime (s : State) (n : Nat) (f : StationCounters → StationCounters) : (s.countStation n f).runtime = s.runtime := rfl
@[simp] theorem countStation_inImages (s : State) (n : Nat) (f : StationCounters → StationCounters) : (s.countStation n f).inImages = s.inImages := rfl
@[simp] theorem countStation_outImages (s : State) (n : Nat) (f : StationCounters → StationCounters) : (s.countStation n f).outImages = s.outImages := rfl
@[simp] theorem countStation_egress (s : State) (n : Nat) (f : StationCounters → StationCounters) : (s.countStation n f).egress = s.egress := rfl
@[simp] theorem countStation_agent (s : State) (n : Nat) (f : StationCounters → StationCounters) : (s.countStation n f).agent = s.agent := rfl
@[simp] theorem countStation_notices (s : State) (n : Nat) (f : StationCounters → StationCounters) : (s.countStation n f).notices = s.notices := rfl
@[simp] theorem countStation_resetHeld (s : State) (n : Nat) (f : StationCounters → StationCounters) : (s.countStation n f).resetHeld = s.resetHeld := rfl
@[simp] theorem countStation_freeTick (s : State) (n : Nat) (f : StationCounters → StationCounters) : (s.countStation n f).freeTick = s.freeTick := rfl
@[simp] theorem countStation_pending (s : State) (n : Nat) (f : StationCounters → StationCounters) : (s.countStation n f).pending = s.pending := rfl
@[simp] theorem countStation_port (s : State) (n : Nat) (f : StationCounters → StationCounters) (q : Port) : (s.countStation n f).port q = s.port q := rfl
@[simp] theorem countStation_bank (s : State) (n : Nat) (f : StationCounters → StationCounters) (k : BankId) : (s.countStation n f).bank k = s.bank k := rfl
@[simp] theorem countStation_seg (s : State) (n : Nat) (f : StationCounters → StationCounters) (j : Segment) : (s.countStation n f).seg j = s.seg j := rfl

@[simp] theorem countDuplicate_mem (s : State) : s.countDuplicate.mem = s.mem := rfl
@[simp] theorem countDuplicate_copyDone (s : State) : s.countDuplicate.copyDone = s.copyDone := rfl
@[simp] theorem countDuplicate_cycle (s : State) : s.countDuplicate.cycle = s.cycle := rfl
@[simp] theorem countDuplicate_runtime (s : State) : s.countDuplicate.runtime = s.runtime := rfl
@[simp] theorem countDuplicate_inImages (s : State) : s.countDuplicate.inImages = s.inImages := rfl
@[simp] theorem countDuplicate_outImages (s : State) : s.countDuplicate.outImages = s.outImages := rfl
@[simp] theorem countDuplicate_egress (s : State) : s.countDuplicate.egress = s.egress := rfl
@[simp] theorem countDuplicate_agent (s : State) : s.countDuplicate.agent = s.agent := rfl
@[simp] theorem countDuplicate_notices (s : State) : s.countDuplicate.notices = s.notices := rfl
@[simp] theorem countDuplicate_resetHeld (s : State) : s.countDuplicate.resetHeld = s.resetHeld := rfl
@[simp] theorem countDuplicate_freeTick (s : State) : s.countDuplicate.freeTick = s.freeTick := rfl
@[simp] theorem countDuplicate_pending (s : State) : s.countDuplicate.pending = s.pending := rfl
@[simp] theorem countDuplicate_port (s : State) (q : Port) : s.countDuplicate.port q = s.port q := rfl
@[simp] theorem countDuplicate_bank (s : State) (k : BankId) : s.countDuplicate.bank k = s.bank k := rfl
@[simp] theorem countDuplicate_seg (s : State) (j : Segment) : s.countDuplicate.seg j = s.seg j := rfl

@[simp] theorem countQueueFull_mem (s : State) : s.countQueueFull.mem = s.mem := rfl
@[simp] theorem countQueueFull_copyDone (s : State) : s.countQueueFull.copyDone = s.copyDone := rfl
@[simp] theorem countQueueFull_cycle (s : State) : s.countQueueFull.cycle = s.cycle := rfl
@[simp] theorem countQueueFull_runtime (s : State) : s.countQueueFull.runtime = s.runtime := rfl
@[simp] theorem countQueueFull_inImages (s : State) : s.countQueueFull.inImages = s.inImages := rfl
@[simp] theorem countQueueFull_outImages (s : State) : s.countQueueFull.outImages = s.outImages := rfl
@[simp] theorem countQueueFull_egress (s : State) : s.countQueueFull.egress = s.egress := rfl
@[simp] theorem countQueueFull_agent (s : State) : s.countQueueFull.agent = s.agent := rfl
@[simp] theorem countQueueFull_notices (s : State) : s.countQueueFull.notices = s.notices := rfl
@[simp] theorem countQueueFull_resetHeld (s : State) : s.countQueueFull.resetHeld = s.resetHeld := rfl
@[simp] theorem countQueueFull_freeTick (s : State) : s.countQueueFull.freeTick = s.freeTick := rfl
@[simp] theorem countQueueFull_pending (s : State) : s.countQueueFull.pending = s.pending := rfl
@[simp] theorem countQueueFull_port (s : State) (q : Port) : s.countQueueFull.port q = s.port q := rfl
@[simp] theorem countQueueFull_bank (s : State) (k : BankId) : s.countQueueFull.bank k = s.bank k := rfl
@[simp] theorem countQueueFull_seg (s : State) (j : Segment) : s.countQueueFull.seg j = s.seg j := rfl

/-! ## Descriptors -/

@[simp] theorem modDesc_copyDone (s : State) (d : Nat) (f : Descriptor → Descriptor) : (s.modDesc d f).copyDone = s.copyDone := rfl
@[simp] theorem modDesc_cycle (s : State) (d : Nat) (f : Descriptor → Descriptor) : (s.modDesc d f).cycle = s.cycle := rfl
@[simp] theorem modDesc_runtime (s : State) (d : Nat) (f : Descriptor → Descriptor) : (s.modDesc d f).runtime = s.runtime := rfl
@[simp] theorem modDesc_inImages (s : State) (d : Nat) (f : Descriptor → Descriptor) : (s.modDesc d f).inImages = s.inImages := rfl
@[simp] theorem modDesc_outImages (s : State) (d : Nat) (f : Descriptor → Descriptor) : (s.modDesc d f).outImages = s.outImages := rfl
@[simp] theorem modDesc_egress (s : State) (d : Nat) (f : Descriptor → Descriptor) : (s.modDesc d f).egress = s.egress := rfl
@[simp] theorem modDesc_agent (s : State) (d : Nat) (f : Descriptor → Descriptor) : (s.modDesc d f).agent = s.agent := rfl
@[simp] theorem modDesc_notices (s : State) (d : Nat) (f : Descriptor → Descriptor) : (s.modDesc d f).notices = s.notices := rfl
@[simp] theorem modDesc_counters (s : State) (d : Nat) (f : Descriptor → Descriptor) : (s.modDesc d f).counters = s.counters := rfl
@[simp] theorem modDesc_resetHeld (s : State) (d : Nat) (f : Descriptor → Descriptor) : (s.modDesc d f).resetHeld = s.resetHeld := rfl
@[simp] theorem modDesc_freeTick (s : State) (d : Nat) (f : Descriptor → Descriptor) : (s.modDesc d f).freeTick = s.freeTick := rfl
@[simp] theorem modDesc_pending (s : State) (d : Nat) (f : Descriptor → Descriptor) : (s.modDesc d f).pending = s.pending := rfl
@[simp] theorem modDesc_port (s : State) (d : Nat) (f : Descriptor → Descriptor) (q : Port) : (s.modDesc d f).port q = s.port q := rfl
@[simp] theorem modDesc_bank (s : State) (d : Nat) (f : Descriptor → Descriptor) (k : BankId) : (s.modDesc d f).bank k = s.bank k := rfl
@[simp] theorem modDesc_seg (s : State) (d : Nat) (f : Descriptor → Descriptor) (j : Segment) : (s.modDesc d f).seg j = s.seg j := rfl

@[simp] theorem hold_copyDone (s : State) (d : Nat) : (s.hold d).copyDone = s.copyDone := rfl
@[simp] theorem hold_cycle (s : State) (d : Nat) : (s.hold d).cycle = s.cycle := rfl
@[simp] theorem hold_runtime (s : State) (d : Nat) : (s.hold d).runtime = s.runtime := rfl
@[simp] theorem hold_inImages (s : State) (d : Nat) : (s.hold d).inImages = s.inImages := rfl
@[simp] theorem hold_outImages (s : State) (d : Nat) : (s.hold d).outImages = s.outImages := rfl
@[simp] theorem hold_egress (s : State) (d : Nat) : (s.hold d).egress = s.egress := rfl
@[simp] theorem hold_agent (s : State) (d : Nat) : (s.hold d).agent = s.agent := rfl
@[simp] theorem hold_notices (s : State) (d : Nat) : (s.hold d).notices = s.notices := rfl
@[simp] theorem hold_counters (s : State) (d : Nat) : (s.hold d).counters = s.counters := rfl
@[simp] theorem hold_resetHeld (s : State) (d : Nat) : (s.hold d).resetHeld = s.resetHeld := rfl
@[simp] theorem hold_freeTick (s : State) (d : Nat) : (s.hold d).freeTick = s.freeTick := rfl
@[simp] theorem hold_pending (s : State) (d : Nat) : (s.hold d).pending = s.pending := rfl
@[simp] theorem hold_port (s : State) (d : Nat) (q : Port) : (s.hold d).port q = s.port q := rfl
@[simp] theorem hold_bank (s : State) (d : Nat) (k : BankId) : (s.hold d).bank k = s.bank k := rfl
@[simp] theorem hold_seg (s : State) (d : Nat) (j : Segment) : (s.hold d).seg j = s.seg j := rfl

@[simp] theorem setStation_mem (s : State) (n : Nat) (r : StationRuntime) : (s.setStation n r).mem = s.mem := rfl
@[simp] theorem setStation_copyDone (s : State) (n : Nat) (r : StationRuntime) : (s.setStation n r).copyDone = s.copyDone := rfl
@[simp] theorem setStation_cycle (s : State) (n : Nat) (r : StationRuntime) : (s.setStation n r).cycle = s.cycle := rfl
@[simp] theorem setStation_inImages (s : State) (n : Nat) (r : StationRuntime) : (s.setStation n r).inImages = s.inImages := rfl
@[simp] theorem setStation_outImages (s : State) (n : Nat) (r : StationRuntime) : (s.setStation n r).outImages = s.outImages := rfl
@[simp] theorem setStation_egress (s : State) (n : Nat) (r : StationRuntime) : (s.setStation n r).egress = s.egress := rfl
@[simp] theorem setStation_agent (s : State) (n : Nat) (r : StationRuntime) : (s.setStation n r).agent = s.agent := rfl
@[simp] theorem setStation_notices (s : State) (n : Nat) (r : StationRuntime) : (s.setStation n r).notices = s.notices := rfl
@[simp] theorem setStation_counters (s : State) (n : Nat) (r : StationRuntime) : (s.setStation n r).counters = s.counters := rfl
@[simp] theorem setStation_resetHeld (s : State) (n : Nat) (r : StationRuntime) : (s.setStation n r).resetHeld = s.resetHeld := rfl
@[simp] theorem setStation_freeTick (s : State) (n : Nat) (r : StationRuntime) : (s.setStation n r).freeTick = s.freeTick := rfl
@[simp] theorem setStation_pending (s : State) (n : Nat) (r : StationRuntime) : (s.setStation n r).pending = s.pending := rfl
@[simp] theorem setStation_port (s : State) (n : Nat) (r : StationRuntime) (q : Port) : (s.setStation n r).port q = s.port q := rfl
@[simp] theorem setStation_bank (s : State) (n : Nat) (r : StationRuntime) (k : BankId) : (s.setStation n r).bank k = s.bank k := rfl
@[simp] theorem setStation_seg (s : State) (n : Nat) (r : StationRuntime) (j : Segment) : (s.setStation n r).seg j = s.seg j := rfl

@[simp] theorem setBankState_mem (s : State) (b : BankId) (st : BankState) : (s.setBankState b st).mem = s.mem := by simp [State.setBankState]
@[simp] theorem setBankState_copyDone (s : State) (b : BankId) (st : BankState) : (s.setBankState b st).copyDone = s.copyDone := by simp [State.setBankState]
@[simp] theorem setBankState_cycle (s : State) (b : BankId) (st : BankState) : (s.setBankState b st).cycle = s.cycle := by simp [State.setBankState]
@[simp] theorem setBankState_runtime (s : State) (b : BankId) (st : BankState) : (s.setBankState b st).runtime = s.runtime := by simp [State.setBankState]
@[simp] theorem setBankState_inImages (s : State) (b : BankId) (st : BankState) : (s.setBankState b st).inImages = s.inImages := by simp [State.setBankState]
@[simp] theorem setBankState_outImages (s : State) (b : BankId) (st : BankState) : (s.setBankState b st).outImages = s.outImages := by simp [State.setBankState]
@[simp] theorem setBankState_egress (s : State) (b : BankId) (st : BankState) : (s.setBankState b st).egress = s.egress := by simp [State.setBankState]
@[simp] theorem setBankState_agent (s : State) (b : BankId) (st : BankState) : (s.setBankState b st).agent = s.agent := by simp [State.setBankState]
@[simp] theorem setBankState_notices (s : State) (b : BankId) (st : BankState) : (s.setBankState b st).notices = s.notices := by simp [State.setBankState]
@[simp] theorem setBankState_counters (s : State) (b : BankId) (st : BankState) : (s.setBankState b st).counters = s.counters := by simp [State.setBankState]
@[simp] theorem setBankState_resetHeld (s : State) (b : BankId) (st : BankState) : (s.setBankState b st).resetHeld = s.resetHeld := by simp [State.setBankState]
@[simp] theorem setBankState_freeTick (s : State) (b : BankId) (st : BankState) : (s.setBankState b st).freeTick = s.freeTick := by simp [State.setBankState]
@[simp] theorem setBankState_pending (s : State) (b : BankId) (st : BankState) : (s.setBankState b st).pending = s.pending := by simp [State.setBankState]
@[simp] theorem setBankState_port (s : State) (b : BankId) (st : BankState) (q : Port) : (s.setBankState b st).port q = s.port q := by simp [State.setBankState]
@[simp] theorem setBankState_bank_other (s : State) (b : BankId) (st : BankState) (k : BankId) (hk : k ≠ b) : (s.setBankState b st).bank k = s.bank k := by simp [State.setBankState, hk]
@[simp] theorem setBankState_seg (s : State) (b : BankId) (st : BankState) (j : Segment) : (s.setBankState b st).seg j = s.seg j := by simp [State.setBankState]

/-! ## Handing and trunk egress -/

@[simp] theorem handTx_mem (s : State) (p : Port) (d : Nat) : (s.handTx p d).mem = s.mem := by unfold handTx; split <;> simp [*]
@[simp] theorem handTx_copyDone (s : State) (p : Port) (d : Nat) : (s.handTx p d).copyDone = s.copyDone := by unfold handTx; split <;> simp [*]
@[simp] theorem handTx_cycle (s : State) (p : Port) (d : Nat) : (s.handTx p d).cycle = s.cycle := by unfold handTx; split <;> simp [*]
@[simp] theorem handTx_runtime (s : State) (p : Port) (d : Nat) : (s.handTx p d).runtime = s.runtime := by unfold handTx; split <;> simp [*]
@[simp] theorem handTx_inImages (s : State) (p : Port) (d : Nat) : (s.handTx p d).inImages = s.inImages := by unfold handTx; split <;> simp [*]
@[simp] theorem handTx_outImages (s : State) (p : Port) (d : Nat) : (s.handTx p d).outImages = s.outImages := by unfold handTx; split <;> simp [*]
@[simp] theorem handTx_egress (s : State) (p : Port) (d : Nat) : (s.handTx p d).egress = s.egress := by unfold handTx; split <;> simp [*]
@[simp] theorem handTx_agent (s : State) (p : Port) (d : Nat) : (s.handTx p d).agent = s.agent := by unfold handTx; split <;> simp [*]
@[simp] theorem handTx_notices (s : State) (p : Port) (d : Nat) : (s.handTx p d).notices = s.notices := by unfold handTx; split <;> simp [*]
@[simp] theorem handTx_counters (s : State) (p : Port) (d : Nat) : (s.handTx p d).counters = s.counters := by unfold handTx; split <;> simp [*]
@[simp] theorem handTx_resetHeld (s : State) (p : Port) (d : Nat) : (s.handTx p d).resetHeld = s.resetHeld := by unfold handTx; split <;> simp [*]
@[simp] theorem handTx_freeTick (s : State) (p : Port) (d : Nat) : (s.handTx p d).freeTick = s.freeTick := by unfold handTx; split <;> simp [*]
@[simp] theorem handTx_pending (s : State) (p : Port) (d : Nat) : (s.handTx p d).pending = s.pending := by unfold handTx; split <;> simp [*]
@[simp] theorem handTx_port_other (s : State) (p : Port) (d : Nat) (q : Port) (hq : q ≠ p) : (s.handTx p d).port q = s.port q := by unfold handTx; split <;> simp [*]
@[simp] theorem handTx_bank (s : State) (p : Port) (d : Nat) (k : BankId) : (s.handTx p d).bank k = s.bank k := by unfold handTx; split <;> simp [*]
@[simp] theorem handTx_seg (s : State) (p : Port) (d : Nat) (j : Segment) : (s.handTx p d).seg j = s.seg j := by unfold handTx; split <;> simp [*]

@[simp] theorem handHead_mem (s : State) : s.handHead.mem = s.mem := by unfold handHead; split <;> simp [*]
@[simp] theorem handHead_copyDone (s : State) : s.handHead.copyDone = s.copyDone := by unfold handHead; split <;> simp [*]
@[simp] theorem handHead_cycle (s : State) : s.handHead.cycle = s.cycle := by unfold handHead; split <;> simp [*]
@[simp] theorem handHead_runtime (s : State) : s.handHead.runtime = s.runtime := by unfold handHead; split <;> simp [*]
@[simp] theorem handHead_inImages (s : State) : s.handHead.inImages = s.inImages := by unfold handHead; split <;> simp [*]
@[simp] theorem handHead_outImages (s : State) : s.handHead.outImages = s.outImages := by unfold handHead; split <;> simp [*]
@[simp] theorem handHead_agent (s : State) : s.handHead.agent = s.agent := by unfold handHead; split <;> simp [*]
@[simp] theorem handHead_notices (s : State) : s.handHead.notices = s.notices := by unfold handHead; split <;> simp [*]
@[simp] theorem handHead_counters (s : State) : s.handHead.counters = s.counters := by unfold handHead; split <;> simp [*]
@[simp] theorem handHead_resetHeld (s : State) : s.handHead.resetHeld = s.resetHeld := by unfold handHead; split <;> simp [*]
@[simp] theorem handHead_freeTick (s : State) : s.handHead.freeTick = s.freeTick := by unfold handHead; split <;> simp [*]
@[simp] theorem handHead_pending (s : State) : s.handHead.pending = s.pending := by unfold handHead; split <;> simp [*]
@[simp] theorem handHead_port_other (s : State) (q : Port) (hq : q ≠ .t) : s.handHead.port q = s.port q := by unfold handHead; split <;> simp [*]
@[simp] theorem handHead_bank (s : State) (k : BankId) : s.handHead.bank k = s.bank k := by unfold handHead; split <;> simp [*]
@[simp] theorem handHead_seg (s : State) (j : Segment) : s.handHead.seg j = s.seg j := by unfold handHead; split <;> simp [*]

@[simp] theorem joinEgress_mem (s : State) (d : Nat) : (s.joinEgress d).mem = s.mem := by simp [joinEgress]
@[simp] theorem joinEgress_copyDone (s : State) (d : Nat) : (s.joinEgress d).copyDone = s.copyDone := by simp [joinEgress]
@[simp] theorem joinEgress_cycle (s : State) (d : Nat) : (s.joinEgress d).cycle = s.cycle := by simp [joinEgress]
@[simp] theorem joinEgress_runtime (s : State) (d : Nat) : (s.joinEgress d).runtime = s.runtime := by simp [joinEgress]
@[simp] theorem joinEgress_inImages (s : State) (d : Nat) : (s.joinEgress d).inImages = s.inImages := by simp [joinEgress]
@[simp] theorem joinEgress_outImages (s : State) (d : Nat) : (s.joinEgress d).outImages = s.outImages := by simp [joinEgress]
@[simp] theorem joinEgress_agent (s : State) (d : Nat) : (s.joinEgress d).agent = s.agent := by simp [joinEgress]
@[simp] theorem joinEgress_notices (s : State) (d : Nat) : (s.joinEgress d).notices = s.notices := by simp [joinEgress]
@[simp] theorem joinEgress_counters (s : State) (d : Nat) : (s.joinEgress d).counters = s.counters := by simp [joinEgress]
@[simp] theorem joinEgress_resetHeld (s : State) (d : Nat) : (s.joinEgress d).resetHeld = s.resetHeld := by simp [joinEgress]
@[simp] theorem joinEgress_freeTick (s : State) (d : Nat) : (s.joinEgress d).freeTick = s.freeTick := by simp [joinEgress]
@[simp] theorem joinEgress_pending (s : State) (d : Nat) : (s.joinEgress d).pending = s.pending := by simp [joinEgress]
@[simp] theorem joinEgress_port_other (s : State) (d : Nat) (q : Port) (hq : q ≠ .t) : (s.joinEgress d).port q = s.port q := by simp [joinEgress, hq]
@[simp] theorem joinEgress_bank (s : State) (d : Nat) (k : BankId) : (s.joinEgress d).bank k = s.bank k := by simp [joinEgress]
@[simp] theorem joinEgress_seg (s : State) (d : Nat) (j : Segment) : (s.joinEgress d).seg j = s.seg j := by simp [joinEgress]

/-! ## Emission attempts -/

theorem emitOne_copyDone (s : State) {t : State} (h : s.emitOne = some t) : t.copyDone = s.copyDone := by
  unfold emitOne at h
  split at h
  · cases h
  · split at h
    · split at h
      · cases h
      · cases h
        simp [*]
    · cases h
theorem emitOne_cycle (s : State) {t : State} (h : s.emitOne = some t) : t.cycle = s.cycle := by
  unfold emitOne at h
  split at h
  · cases h
  · split at h
    · split at h
      · cases h
      · cases h
        simp [*]
    · cases h
theorem emitOne_runtime (s : State) {t : State} (h : s.emitOne = some t) : t.runtime = s.runtime := by
  unfold emitOne at h
  split at h
  · cases h
  · split at h
    · split at h
      · cases h
      · cases h
        simp [*]
    · cases h
theorem emitOne_inImages (s : State) {t : State} (h : s.emitOne = some t) : t.inImages = s.inImages := by
  unfold emitOne at h
  split at h
  · cases h
  · split at h
    · split at h
      · cases h
      · cases h
        simp [*]
    · cases h
theorem emitOne_outImages (s : State) {t : State} (h : s.emitOne = some t) : t.outImages = s.outImages := by
  unfold emitOne at h
  split at h
  · cases h
  · split at h
    · split at h
      · cases h
      · cases h
        simp [*]
    · cases h
theorem emitOne_agent (s : State) {t : State} (h : s.emitOne = some t) : t.agent = s.agent := by
  unfold emitOne at h
  split at h
  · cases h
  · split at h
    · split at h
      · cases h
      · cases h
        simp [*]
    · cases h
theorem emitOne_counters (s : State) {t : State} (h : s.emitOne = some t) : t.counters = s.counters := by
  unfold emitOne at h
  split at h
  · cases h
  · split at h
    · split at h
      · cases h
      · cases h
        simp [*]
    · cases h
theorem emitOne_resetHeld (s : State) {t : State} (h : s.emitOne = some t) : t.resetHeld = s.resetHeld := by
  unfold emitOne at h
  split at h
  · cases h
  · split at h
    · split at h
      · cases h
      · cases h
        simp [*]
    · cases h
theorem emitOne_freeTick (s : State) {t : State} (h : s.emitOne = some t) : t.freeTick = s.freeTick := by
  unfold emitOne at h
  split at h
  · cases h
  · split at h
    · split at h
      · cases h
      · cases h
        simp [*]
    · cases h
theorem emitOne_pending (s : State) {t : State} (h : s.emitOne = some t) : t.pending = s.pending := by
  unfold emitOne at h
  split at h
  · cases h
  · split at h
    · split at h
      · cases h
      · cases h
        simp [*]
    · cases h
theorem emitOne_port_other (s : State) {t : State} (q : Port) (hq : q ≠ .t) (h : s.emitOne = some t) : t.port q = s.port q := by
  unfold emitOne at h
  split at h
  · cases h
  · split at h
    · split at h
      · cases h
      · cases h
        simp [*]
    · cases h
theorem emitOne_bank (s : State) {t : State} (k : BankId) (h : s.emitOne = some t) : t.bank k = s.bank k := by
  unfold emitOne at h
  split at h
  · cases h
  · split at h
    · split at h
      · cases h
      · cases h
        simp [*]
    · cases h
theorem emitOne_seg (s : State) {t : State} (j : Segment) (h : s.emitOne = some t) : t.seg j = s.seg j := by
  unfold emitOne at h
  split at h
  · cases h
  · split at h
    · split at h
      · cases h
      · cases h
        simp [*]
    · cases h

@[simp] theorem emissionAttempt_copyDone (s : State) : s.emissionAttempt.copyDone = s.copyDone := by
  unfold emissionAttempt
  split
  · rfl
  · next s1 h1 =>
    split
    · exact emitOne_copyDone s h1
    · next s2 h2 => exact (emitOne_copyDone s1 h2).trans (emitOne_copyDone s h1)
@[simp] theorem emissionAttempt_cycle (s : State) : s.emissionAttempt.cycle = s.cycle := by
  unfold emissionAttempt
  split
  · rfl
  · next s1 h1 =>
    split
    · exact emitOne_cycle s h1
    · next s2 h2 => exact (emitOne_cycle s1 h2).trans (emitOne_cycle s h1)
@[simp] theorem emissionAttempt_runtime (s : State) : s.emissionAttempt.runtime = s.runtime := by
  unfold emissionAttempt
  split
  · rfl
  · next s1 h1 =>
    split
    · exact emitOne_runtime s h1
    · next s2 h2 => exact (emitOne_runtime s1 h2).trans (emitOne_runtime s h1)
@[simp] theorem emissionAttempt_inImages (s : State) : s.emissionAttempt.inImages = s.inImages := by
  unfold emissionAttempt
  split
  · rfl
  · next s1 h1 =>
    split
    · exact emitOne_inImages s h1
    · next s2 h2 => exact (emitOne_inImages s1 h2).trans (emitOne_inImages s h1)
@[simp] theorem emissionAttempt_outImages (s : State) : s.emissionAttempt.outImages = s.outImages := by
  unfold emissionAttempt
  split
  · rfl
  · next s1 h1 =>
    split
    · exact emitOne_outImages s h1
    · next s2 h2 => exact (emitOne_outImages s1 h2).trans (emitOne_outImages s h1)
@[simp] theorem emissionAttempt_agent (s : State) : s.emissionAttempt.agent = s.agent := by
  unfold emissionAttempt
  split
  · rfl
  · next s1 h1 =>
    split
    · exact emitOne_agent s h1
    · next s2 h2 => exact (emitOne_agent s1 h2).trans (emitOne_agent s h1)
@[simp] theorem emissionAttempt_counters (s : State) : s.emissionAttempt.counters = s.counters := by
  unfold emissionAttempt
  split
  · rfl
  · next s1 h1 =>
    split
    · exact emitOne_counters s h1
    · next s2 h2 => exact (emitOne_counters s1 h2).trans (emitOne_counters s h1)
@[simp] theorem emissionAttempt_resetHeld (s : State) : s.emissionAttempt.resetHeld = s.resetHeld := by
  unfold emissionAttempt
  split
  · rfl
  · next s1 h1 =>
    split
    · exact emitOne_resetHeld s h1
    · next s2 h2 => exact (emitOne_resetHeld s1 h2).trans (emitOne_resetHeld s h1)
@[simp] theorem emissionAttempt_freeTick (s : State) : s.emissionAttempt.freeTick = s.freeTick := by
  unfold emissionAttempt
  split
  · rfl
  · next s1 h1 =>
    split
    · exact emitOne_freeTick s h1
    · next s2 h2 => exact (emitOne_freeTick s1 h2).trans (emitOne_freeTick s h1)
@[simp] theorem emissionAttempt_pending (s : State) : s.emissionAttempt.pending = s.pending := by
  unfold emissionAttempt
  split
  · rfl
  · next s1 h1 =>
    split
    · exact emitOne_pending s h1
    · next s2 h2 => exact (emitOne_pending s1 h2).trans (emitOne_pending s h1)
@[simp] theorem emissionAttempt_port_other (s : State) (q : Port) (hq : q ≠ .t) : s.emissionAttempt.port q = s.port q := by
  unfold emissionAttempt
  split
  · rfl
  · next s1 h1 =>
    split
    · exact emitOne_port_other s q hq h1
    · next s2 h2 => exact (emitOne_port_other s1 q hq h2).trans (emitOne_port_other s q hq h1)
@[simp] theorem emissionAttempt_bank (s : State) (k : BankId) : s.emissionAttempt.bank k = s.bank k := by
  unfold emissionAttempt
  split
  · rfl
  · next s1 h1 =>
    split
    · exact emitOne_bank s k h1
    · next s2 h2 => exact (emitOne_bank s1 k h2).trans (emitOne_bank s k h1)
@[simp] theorem emissionAttempt_seg (s : State) (j : Segment) : s.emissionAttempt.seg j = s.seg j := by
  unfold emissionAttempt
  split
  · rfl
  · next s1 h1 =>
    split
    · exact emitOne_seg s j h1
    · next s2 h2 => exact (emitOne_seg s1 j h2).trans (emitOne_seg s j h1)

@[simp] theorem reportBank_copyDone (s : State) (b : BankId) (label cycle : Word) : (s.reportBank b label cycle).copyDone = s.copyDone := by simp [reportBank]
@[simp] theorem reportBank_cycle (s : State) (b : BankId) (label cycle : Word) : (s.reportBank b label cycle).cycle = s.cycle := by simp [reportBank]
@[simp] theorem reportBank_runtime (s : State) (b : BankId) (label cycle : Word) : (s.reportBank b label cycle).runtime = s.runtime := by simp [reportBank]
@[simp] theorem reportBank_inImages (s : State) (b : BankId) (label cycle : Word) : (s.reportBank b label cycle).inImages = s.inImages := by simp [reportBank]
@[simp] theorem reportBank_outImages (s : State) (b : BankId) (label cycle : Word) : (s.reportBank b label cycle).outImages = s.outImages := by simp [reportBank]
@[simp] theorem reportBank_agent (s : State) (b : BankId) (label cycle : Word) : (s.reportBank b label cycle).agent = s.agent := by simp [reportBank]
@[simp] theorem reportBank_counters (s : State) (b : BankId) (label cycle : Word) : (s.reportBank b label cycle).counters = s.counters := by simp [reportBank]
@[simp] theorem reportBank_resetHeld (s : State) (b : BankId) (label cycle : Word) : (s.reportBank b label cycle).resetHeld = s.resetHeld := by simp [reportBank]
@[simp] theorem reportBank_freeTick (s : State) (b : BankId) (label cycle : Word) : (s.reportBank b label cycle).freeTick = s.freeTick := by simp [reportBank]
@[simp] theorem reportBank_pending (s : State) (b : BankId) (label cycle : Word) : (s.reportBank b label cycle).pending = s.pending := by simp [reportBank]
@[simp] theorem reportBank_port_other (s : State) (b : BankId) (label cycle : Word) (q : Port) (hq : q ≠ .t) : (s.reportBank b label cycle).port q = s.port q := by simp [reportBank, hq]
@[simp] theorem reportBank_bank (s : State) (b : BankId) (label cycle : Word) (k : BankId) : (s.reportBank b label cycle).bank k = s.bank k := by simp [reportBank]
@[simp] theorem reportBank_seg (s : State) (b : BankId) (label cycle : Word) (j : Segment) : (s.reportBank b label cycle).seg j = s.seg j := by simp [reportBank]

@[simp] theorem reportStation_copyDone (s : State) (n : Nat) : (s.reportStation n).copyDone = s.copyDone := by simp [reportStation]
@[simp] theorem reportStation_cycle (s : State) (n : Nat) : (s.reportStation n).cycle = s.cycle := by simp [reportStation]
@[simp] theorem reportStation_runtime (s : State) (n : Nat) : (s.reportStation n).runtime = s.runtime := by simp [reportStation]
@[simp] theorem reportStation_inImages (s : State) (n : Nat) : (s.reportStation n).inImages = s.inImages := by simp [reportStation]
@[simp] theorem reportStation_outImages (s : State) (n : Nat) : (s.reportStation n).outImages = s.outImages := by simp [reportStation]
@[simp] theorem reportStation_agent (s : State) (n : Nat) : (s.reportStation n).agent = s.agent := by simp [reportStation]
@[simp] theorem reportStation_counters (s : State) (n : Nat) : (s.reportStation n).counters = s.counters := by simp [reportStation]
@[simp] theorem reportStation_resetHeld (s : State) (n : Nat) : (s.reportStation n).resetHeld = s.resetHeld := by simp [reportStation]
@[simp] theorem reportStation_freeTick (s : State) (n : Nat) : (s.reportStation n).freeTick = s.freeTick := by simp [reportStation]
@[simp] theorem reportStation_pending (s : State) (n : Nat) : (s.reportStation n).pending = s.pending := by simp [reportStation]
@[simp] theorem reportStation_port_other (s : State) (n : Nat) (q : Port) (hq : q ≠ .t) : (s.reportStation n).port q = s.port q := by simp [reportStation, hq]
@[simp] theorem reportStation_bank (s : State) (n : Nat) (k : BankId) : (s.reportStation n).bank k = s.bank k := by simp [reportStation]
@[simp] theorem reportStation_seg (s : State) (n : Nat) (j : Segment) : (s.reportStation n).seg j = s.seg j := by simp [reportStation]

@[simp] theorem replaceChain_copyDone (s : State) (d : Nat) (ws : List Word) : (s.replaceChain d ws).2.copyDone = s.copyDone := by simp [replaceChain]
@[simp] theorem replaceChain_cycle (s : State) (d : Nat) (ws : List Word) : (s.replaceChain d ws).2.cycle = s.cycle := by simp [replaceChain]
@[simp] theorem replaceChain_runtime (s : State) (d : Nat) (ws : List Word) : (s.replaceChain d ws).2.runtime = s.runtime := by simp [replaceChain]
@[simp] theorem replaceChain_inImages (s : State) (d : Nat) (ws : List Word) : (s.replaceChain d ws).2.inImages = s.inImages := by simp [replaceChain]
@[simp] theorem replaceChain_outImages (s : State) (d : Nat) (ws : List Word) : (s.replaceChain d ws).2.outImages = s.outImages := by simp [replaceChain]
@[simp] theorem replaceChain_agent (s : State) (d : Nat) (ws : List Word) : (s.replaceChain d ws).2.agent = s.agent := by simp [replaceChain]
@[simp] theorem replaceChain_counters (s : State) (d : Nat) (ws : List Word) : (s.replaceChain d ws).2.counters = s.counters := by simp [replaceChain]
@[simp] theorem replaceChain_resetHeld (s : State) (d : Nat) (ws : List Word) : (s.replaceChain d ws).2.resetHeld = s.resetHeld := by simp [replaceChain]
@[simp] theorem replaceChain_freeTick (s : State) (d : Nat) (ws : List Word) : (s.replaceChain d ws).2.freeTick = s.freeTick := by simp [replaceChain]
@[simp] theorem replaceChain_pending (s : State) (d : Nat) (ws : List Word) : (s.replaceChain d ws).2.pending = s.pending := by simp [replaceChain]
@[simp] theorem replaceChain_port_other (s : State) (d : Nat) (ws : List Word) (q : Port) (hq : q ≠ .t) : (s.replaceChain d ws).2.port q = s.port q := by simp [replaceChain, hq]
@[simp] theorem replaceChain_bank (s : State) (d : Nat) (ws : List Word) (k : BankId) : (s.replaceChain d ws).2.bank k = s.bank k := by simp [replaceChain]
@[simp] theorem replaceChain_seg (s : State) (d : Nat) (ws : List Word) (j : Segment) : (s.replaceChain d ws).2.seg j = s.seg j := by simp [replaceChain]

@[simp] theorem unhold_copyDone (s : State) (d : Nat) : (s.unhold d).copyDone = s.copyDone := by unfold unhold; split <;> simp [*]
@[simp] theorem unhold_cycle (s : State) (d : Nat) : (s.unhold d).cycle = s.cycle := by unfold unhold; split <;> simp [*]
@[simp] theorem unhold_runtime (s : State) (d : Nat) : (s.unhold d).runtime = s.runtime := by unfold unhold; split <;> simp [*]
@[simp] theorem unhold_inImages (s : State) (d : Nat) : (s.unhold d).inImages = s.inImages := by unfold unhold; split <;> simp [*]
@[simp] theorem unhold_outImages (s : State) (d : Nat) : (s.unhold d).outImages = s.outImages := by unfold unhold; split <;> simp [*]
@[simp] theorem unhold_agent (s : State) (d : Nat) : (s.unhold d).agent = s.agent := by unfold unhold; split <;> simp [*]
@[simp] theorem unhold_counters (s : State) (d : Nat) : (s.unhold d).counters = s.counters := by unfold unhold; split <;> simp [*]
@[simp] theorem unhold_resetHeld (s : State) (d : Nat) : (s.unhold d).resetHeld = s.resetHeld := by unfold unhold; split <;> simp [*]
@[simp] theorem unhold_freeTick (s : State) (d : Nat) : (s.unhold d).freeTick = s.freeTick := by unfold unhold; split <;> simp [*]
@[simp] theorem unhold_pending (s : State) (d : Nat) : (s.unhold d).pending = s.pending := by unfold unhold; split <;> simp [*]
@[simp] theorem unhold_port_other (s : State) (d : Nat) (q : Port) (hq : q ≠ .t) : (s.unhold d).port q = s.port q := by unfold unhold; split <;> simp [*]
@[simp] theorem unhold_bank (s : State) (d : Nat) (k : BankId) : (s.unhold d).bank k = s.bank k := by unfold unhold; split <;> simp [*]
@[simp] theorem unhold_seg (s : State) (d : Nat) (j : Segment) : (s.unhold d).seg j = s.seg j := by unfold unhold; split <;> simp [*]

@[simp] theorem releaseUnheld_copyDone (s : State) (d : Nat) : (s.releaseUnheld d).copyDone = s.copyDone := by unfold releaseUnheld; split <;> simp [*]
@[simp] theorem releaseUnheld_cycle (s : State) (d : Nat) : (s.releaseUnheld d).cycle = s.cycle := by unfold releaseUnheld; split <;> simp [*]
@[simp] theorem releaseUnheld_runtime (s : State) (d : Nat) : (s.releaseUnheld d).runtime = s.runtime := by unfold releaseUnheld; split <;> simp [*]
@[simp] theorem releaseUnheld_inImages (s : State) (d : Nat) : (s.releaseUnheld d).inImages = s.inImages := by unfold releaseUnheld; split <;> simp [*]
@[simp] theorem releaseUnheld_outImages (s : State) (d : Nat) : (s.releaseUnheld d).outImages = s.outImages := by unfold releaseUnheld; split <;> simp [*]
@[simp] theorem releaseUnheld_agent (s : State) (d : Nat) : (s.releaseUnheld d).agent = s.agent := by unfold releaseUnheld; split <;> simp [*]
@[simp] theorem releaseUnheld_counters (s : State) (d : Nat) : (s.releaseUnheld d).counters = s.counters := by unfold releaseUnheld; split <;> simp [*]
@[simp] theorem releaseUnheld_resetHeld (s : State) (d : Nat) : (s.releaseUnheld d).resetHeld = s.resetHeld := by unfold releaseUnheld; split <;> simp [*]
@[simp] theorem releaseUnheld_freeTick (s : State) (d : Nat) : (s.releaseUnheld d).freeTick = s.freeTick := by unfold releaseUnheld; split <;> simp [*]
@[simp] theorem releaseUnheld_pending (s : State) (d : Nat) : (s.releaseUnheld d).pending = s.pending := by unfold releaseUnheld; split <;> simp [*]
@[simp] theorem releaseUnheld_port_other (s : State) (d : Nat) (q : Port) (hq : q ≠ .t) : (s.releaseUnheld d).port q = s.port q := by unfold releaseUnheld; split <;> simp [*]
@[simp] theorem releaseUnheld_bank (s : State) (d : Nat) (k : BankId) : (s.releaseUnheld d).bank k = s.bank k := by unfold releaseUnheld; split <;> simp [*]
@[simp] theorem releaseUnheld_seg (s : State) (d : Nat) (j : Segment) : (s.releaseUnheld d).seg j = s.seg j := by unfold releaseUnheld; split <;> simp [*]

/-! ## Banks -/

@[simp] theorem stamp_copyDone (s : State) (d : Nat) : (s.stamp d).copyDone = s.copyDone := by simp [stamp]
@[simp] theorem stamp_cycle (s : State) (d : Nat) : (s.stamp d).cycle = s.cycle := by simp [stamp]
@[simp] theorem stamp_runtime (s : State) (d : Nat) : (s.stamp d).runtime = s.runtime := by simp [stamp]
@[simp] theorem stamp_inImages (s : State) (d : Nat) : (s.stamp d).inImages = s.inImages := by simp [stamp]
@[simp] theorem stamp_outImages (s : State) (d : Nat) : (s.stamp d).outImages = s.outImages := by simp [stamp]
@[simp] theorem stamp_egress (s : State) (d : Nat) : (s.stamp d).egress = s.egress := by simp [stamp]
@[simp] theorem stamp_agent (s : State) (d : Nat) : (s.stamp d).agent = s.agent := by simp [stamp]
@[simp] theorem stamp_notices (s : State) (d : Nat) : (s.stamp d).notices = s.notices := by simp [stamp]
@[simp] theorem stamp_counters (s : State) (d : Nat) : (s.stamp d).counters = s.counters := by simp [stamp]
@[simp] theorem stamp_resetHeld (s : State) (d : Nat) : (s.stamp d).resetHeld = s.resetHeld := by simp [stamp]
@[simp] theorem stamp_freeTick (s : State) (d : Nat) : (s.stamp d).freeTick = s.freeTick := by simp [stamp]
@[simp] theorem stamp_pending (s : State) (d : Nat) : (s.stamp d).pending = s.pending := by simp [stamp]
@[simp] theorem stamp_port (s : State) (d : Nat) (q : Port) : (s.stamp d).port q = s.port q := by simp [stamp]
@[simp] theorem stamp_bank_other (s : State) (d : Nat) (k : BankId) (hk : k ≠ s.active) : (s.stamp d).bank k = s.bank k := by simp [stamp, hk]
@[simp] theorem stamp_seg (s : State) (d : Nat) (j : Segment) : (s.stamp d).seg j = s.seg j := by simp [stamp]

@[simp] theorem releaseStamp_copyDone (s : State) (d : Nat) : (s.releaseStamp d).copyDone = s.copyDone := by unfold releaseStamp; split <;> simp [*]
@[simp] theorem releaseStamp_cycle (s : State) (d : Nat) : (s.releaseStamp d).cycle = s.cycle := by unfold releaseStamp; split <;> simp [*]
@[simp] theorem releaseStamp_runtime (s : State) (d : Nat) : (s.releaseStamp d).runtime = s.runtime := by unfold releaseStamp; split <;> simp [*]
@[simp] theorem releaseStamp_inImages (s : State) (d : Nat) : (s.releaseStamp d).inImages = s.inImages := by unfold releaseStamp; split <;> simp [*]
@[simp] theorem releaseStamp_outImages (s : State) (d : Nat) : (s.releaseStamp d).outImages = s.outImages := by unfold releaseStamp; split <;> simp [*]
@[simp] theorem releaseStamp_egress (s : State) (d : Nat) : (s.releaseStamp d).egress = s.egress := by unfold releaseStamp; split <;> simp [*]
@[simp] theorem releaseStamp_agent (s : State) (d : Nat) : (s.releaseStamp d).agent = s.agent := by unfold releaseStamp; split <;> simp [*]
@[simp] theorem releaseStamp_notices (s : State) (d : Nat) : (s.releaseStamp d).notices = s.notices := by unfold releaseStamp; split <;> simp [*]
@[simp] theorem releaseStamp_counters (s : State) (d : Nat) : (s.releaseStamp d).counters = s.counters := by unfold releaseStamp; split <;> simp [*]
@[simp] theorem releaseStamp_resetHeld (s : State) (d : Nat) : (s.releaseStamp d).resetHeld = s.resetHeld := by unfold releaseStamp; split <;> simp [*]
@[simp] theorem releaseStamp_freeTick (s : State) (d : Nat) : (s.releaseStamp d).freeTick = s.freeTick := by unfold releaseStamp; split <;> simp [*]
@[simp] theorem releaseStamp_pending (s : State) (d : Nat) : (s.releaseStamp d).pending = s.pending := by unfold releaseStamp; split <;> simp [*]
@[simp] theorem releaseStamp_port (s : State) (d : Nat) (q : Port) : (s.releaseStamp d).port q = s.port q := by unfold releaseStamp; split <;> simp [*]
@[simp] theorem releaseStamp_seg (s : State) (d : Nat) (j : Segment) : (s.releaseStamp d).seg j = s.seg j := by unfold releaseStamp; split <;> simp [*]

@[simp] theorem switchCheck_copyDone (s : State) : s.switchCheck.copyDone = s.copyDone := by unfold switchCheck; simp only; split <;> simp [*]
@[simp] theorem switchCheck_cycle (s : State) : s.switchCheck.cycle = s.cycle := by unfold switchCheck; simp only; split <;> simp [*]
@[simp] theorem switchCheck_runtime (s : State) : s.switchCheck.runtime = s.runtime := by unfold switchCheck; simp only; split <;> simp [*]
@[simp] theorem switchCheck_inImages (s : State) : s.switchCheck.inImages = s.inImages := by unfold switchCheck; simp only; split <;> simp [*]
@[simp] theorem switchCheck_outImages (s : State) : s.switchCheck.outImages = s.outImages := by unfold switchCheck; simp only; split <;> simp [*]
@[simp] theorem switchCheck_agent (s : State) : s.switchCheck.agent = s.agent := by unfold switchCheck; simp only; split <;> simp [*]
@[simp] theorem switchCheck_counters (s : State) : s.switchCheck.counters = s.counters := by unfold switchCheck; simp only; split <;> simp [*]
@[simp] theorem switchCheck_resetHeld (s : State) : s.switchCheck.resetHeld = s.resetHeld := by unfold switchCheck; simp only; split <;> simp [*]
@[simp] theorem switchCheck_freeTick (s : State) : s.switchCheck.freeTick = s.freeTick := by unfold switchCheck; simp only; split <;> simp [*]
@[simp] theorem switchCheck_pending (s : State) : s.switchCheck.pending = s.pending := by unfold switchCheck; simp only; split <;> simp [*]
@[simp] theorem switchCheck_port_other (s : State) (q : Port) (hq : q ≠ .t) : s.switchCheck.port q = s.port q := by unfold switchCheck; simp only; split <;> simp [*]
@[simp] theorem switchCheck_seg (s : State) (j : Segment) : s.switchCheck.seg j = s.seg j := by unfold switchCheck; simp only; split <;> simp [*]

@[simp] theorem copyAdvances_mem (s : State) : s.copyAdvances.mem = s.mem := by simp [copyAdvances]
@[simp] theorem copyAdvances_cycle (s : State) : s.copyAdvances.cycle = s.cycle := by simp [copyAdvances]
@[simp] theorem copyAdvances_runtime (s : State) : s.copyAdvances.runtime = s.runtime := by simp [copyAdvances]
@[simp] theorem copyAdvances_inImages (s : State) : s.copyAdvances.inImages = s.inImages := by simp [copyAdvances]
@[simp] theorem copyAdvances_outImages (s : State) : s.copyAdvances.outImages = s.outImages := by simp [copyAdvances]
@[simp] theorem copyAdvances_egress (s : State) : s.copyAdvances.egress = s.egress := by simp [copyAdvances]
@[simp] theorem copyAdvances_agent (s : State) : s.copyAdvances.agent = s.agent := by simp [copyAdvances]
@[simp] theorem copyAdvances_notices (s : State) : s.copyAdvances.notices = s.notices := by simp [copyAdvances]
@[simp] theorem copyAdvances_counters (s : State) : s.copyAdvances.counters = s.counters := by simp [copyAdvances]
@[simp] theorem copyAdvances_resetHeld (s : State) : s.copyAdvances.resetHeld = s.resetHeld := by simp [copyAdvances]
@[simp] theorem copyAdvances_pending (s : State) : s.copyAdvances.pending = s.pending := by simp [copyAdvances]
@[simp] theorem copyAdvances_port (s : State) (q : Port) : s.copyAdvances.port q = s.port q := by simp [copyAdvances]
@[simp] theorem copyAdvances_bank_other (s : State) (k : BankId) (hk : k ≠ s.standbyId) : s.copyAdvances.bank k = s.bank k := by simp [copyAdvances, hk]
@[simp] theorem copyAdvances_seg (s : State) (j : Segment) : s.copyAdvances.seg j = s.seg j := by simp [copyAdvances]

@[simp] theorem observeCopy_mem (s : State) (b : BankId) : (s.observeCopy b).mem = s.mem := by unfold observeCopy; split <;> simp [*]
@[simp] theorem observeCopy_cycle (s : State) (b : BankId) : (s.observeCopy b).cycle = s.cycle := by unfold observeCopy; split <;> simp [*]
@[simp] theorem observeCopy_runtime (s : State) (b : BankId) : (s.observeCopy b).runtime = s.runtime := by unfold observeCopy; split <;> simp [*]
@[simp] theorem observeCopy_inImages (s : State) (b : BankId) : (s.observeCopy b).inImages = s.inImages := by unfold observeCopy; split <;> simp [*]
@[simp] theorem observeCopy_outImages (s : State) (b : BankId) : (s.observeCopy b).outImages = s.outImages := by unfold observeCopy; split <;> simp [*]
@[simp] theorem observeCopy_egress (s : State) (b : BankId) : (s.observeCopy b).egress = s.egress := by unfold observeCopy; split <;> simp [*]
@[simp] theorem observeCopy_agent (s : State) (b : BankId) : (s.observeCopy b).agent = s.agent := by unfold observeCopy; split <;> simp [*]
@[simp] theorem observeCopy_notices (s : State) (b : BankId) : (s.observeCopy b).notices = s.notices := by unfold observeCopy; split <;> simp [*]
@[simp] theorem observeCopy_counters (s : State) (b : BankId) : (s.observeCopy b).counters = s.counters := by unfold observeCopy; split <;> simp [*]
@[simp] theorem observeCopy_resetHeld (s : State) (b : BankId) : (s.observeCopy b).resetHeld = s.resetHeld := by unfold observeCopy; split <;> simp [*]
@[simp] theorem observeCopy_pending (s : State) (b : BankId) : (s.observeCopy b).pending = s.pending := by unfold observeCopy; split <;> simp [*]
@[simp] theorem observeCopy_port (s : State) (b : BankId) (q : Port) : (s.observeCopy b).port q = s.port q := by unfold observeCopy; split <;> simp [*]
@[simp] theorem observeCopy_bank_other (s : State) (b : BankId) (k : BankId) (hk : k ≠ s.standbyId) : (s.observeCopy b).bank k = s.bank k := by unfold observeCopy; split <;> simp [*]
@[simp] theorem observeCopy_seg (s : State) (b : BankId) (j : Segment) : (s.observeCopy b).seg j = s.seg j := by unfold observeCopy; split <;> simp [*]

@[simp] theorem endCopy_mem (s : State) : s.endCopy.mem = s.mem := by simp [endCopy]
@[simp] theorem endCopy_cycle (s : State) : s.endCopy.cycle = s.cycle := by simp [endCopy]
@[simp] theorem endCopy_runtime (s : State) : s.endCopy.runtime = s.runtime := by simp [endCopy]
@[simp] theorem endCopy_inImages (s : State) : s.endCopy.inImages = s.inImages := by simp [endCopy]
@[simp] theorem endCopy_outImages (s : State) : s.endCopy.outImages = s.outImages := by simp [endCopy]
@[simp] theorem endCopy_egress (s : State) : s.endCopy.egress = s.egress := by simp [endCopy]
@[simp] theorem endCopy_agent (s : State) : s.endCopy.agent = s.agent := by simp [endCopy]
@[simp] theorem endCopy_notices (s : State) : s.endCopy.notices = s.notices := by simp [endCopy]
@[simp] theorem endCopy_counters (s : State) : s.endCopy.counters = s.counters := by simp [endCopy]
@[simp] theorem endCopy_resetHeld (s : State) : s.endCopy.resetHeld = s.resetHeld := by simp [endCopy]
@[simp] theorem endCopy_pending (s : State) : s.endCopy.pending = s.pending := by simp [endCopy]
@[simp] theorem endCopy_port (s : State) (q : Port) : s.endCopy.port q = s.port q := by simp [endCopy]
@[simp] theorem endCopy_seg (s : State) (j : Segment) : s.endCopy.seg j = s.seg j := by simp [endCopy]

/-! ## The Point Engine and images -/

@[simp] theorem putApplied_copyDone (s : State) (d n : Nat) (r : Applied) : (s.putApplied d n r).copyDone = s.copyDone := by simp [putApplied]
@[simp] theorem putApplied_cycle (s : State) (d n : Nat) (r : Applied) : (s.putApplied d n r).cycle = s.cycle := by simp [putApplied]
@[simp] theorem putApplied_runtime (s : State) (d n : Nat) (r : Applied) : (s.putApplied d n r).runtime = s.runtime := by simp [putApplied]
@[simp] theorem putApplied_inImages (s : State) (d n : Nat) (r : Applied) : (s.putApplied d n r).inImages = s.inImages := by simp [putApplied]
@[simp] theorem putApplied_outImages (s : State) (d n : Nat) (r : Applied) : (s.putApplied d n r).outImages = s.outImages := by simp [putApplied]
@[simp] theorem putApplied_egress (s : State) (d n : Nat) (r : Applied) : (s.putApplied d n r).egress = s.egress := by simp [putApplied]
@[simp] theorem putApplied_agent (s : State) (d n : Nat) (r : Applied) : (s.putApplied d n r).agent = s.agent := by simp [putApplied]
@[simp] theorem putApplied_notices (s : State) (d n : Nat) (r : Applied) : (s.putApplied d n r).notices = s.notices := by simp [putApplied]
@[simp] theorem putApplied_resetHeld (s : State) (d n : Nat) (r : Applied) : (s.putApplied d n r).resetHeld = s.resetHeld := by simp [putApplied]
@[simp] theorem putApplied_freeTick (s : State) (d n : Nat) (r : Applied) : (s.putApplied d n r).freeTick = s.freeTick := by simp [putApplied]
@[simp] theorem putApplied_pending (s : State) (d n : Nat) (r : Applied) : (s.putApplied d n r).pending = s.pending := by simp [putApplied]
@[simp] theorem putApplied_port (s : State) (d n : Nat) (r : Applied) (q : Port) : (s.putApplied d n r).port q = s.port q := by simp [putApplied]
@[simp] theorem putApplied_bank (s : State) (d n : Nat) (r : Applied) (k : BankId) : (s.putApplied d n r).bank k = s.bank k := by simp [putApplied]
@[simp] theorem putApplied_seg (s : State) (d n : Nat) (r : Applied) (j : Segment) : (s.putApplied d n r).seg j = s.seg j := by simp [putApplied]

@[simp] theorem applyOutbound_copyDone (s : State) (d : Nat) : (s.applyOutbound d).copyDone = s.copyDone := by simp [applyOutbound]
@[simp] theorem applyOutbound_cycle (s : State) (d : Nat) : (s.applyOutbound d).cycle = s.cycle := by simp [applyOutbound]
@[simp] theorem applyOutbound_runtime (s : State) (d : Nat) : (s.applyOutbound d).runtime = s.runtime := by simp [applyOutbound]
@[simp] theorem applyOutbound_inImages (s : State) (d : Nat) : (s.applyOutbound d).inImages = s.inImages := by simp [applyOutbound]
@[simp] theorem applyOutbound_outImages (s : State) (d : Nat) : (s.applyOutbound d).outImages = s.outImages := by simp [applyOutbound]
@[simp] theorem applyOutbound_egress (s : State) (d : Nat) : (s.applyOutbound d).egress = s.egress := by simp [applyOutbound]
@[simp] theorem applyOutbound_agent (s : State) (d : Nat) : (s.applyOutbound d).agent = s.agent := by simp [applyOutbound]
@[simp] theorem applyOutbound_notices (s : State) (d : Nat) : (s.applyOutbound d).notices = s.notices := by simp [applyOutbound]
@[simp] theorem applyOutbound_resetHeld (s : State) (d : Nat) : (s.applyOutbound d).resetHeld = s.resetHeld := by simp [applyOutbound]
@[simp] theorem applyOutbound_freeTick (s : State) (d : Nat) : (s.applyOutbound d).freeTick = s.freeTick := by simp [applyOutbound]
@[simp] theorem applyOutbound_pending (s : State) (d : Nat) : (s.applyOutbound d).pending = s.pending := by simp [applyOutbound]
@[simp] theorem applyOutbound_port (s : State) (d : Nat) (q : Port) : (s.applyOutbound d).port q = s.port q := by simp [applyOutbound]
@[simp] theorem applyOutbound_bank (s : State) (d : Nat) (k : BankId) : (s.applyOutbound d).bank k = s.bank k := by simp [applyOutbound]
@[simp] theorem applyOutbound_seg (s : State) (d : Nat) (j : Segment) : (s.applyOutbound d).seg j = s.seg j := by simp [applyOutbound]

@[simp] theorem applyInbound_copyDone (s : State) (d n : Nat) (b : BankId) : (s.applyInbound d n b).copyDone = s.copyDone := by simp [applyInbound]
@[simp] theorem applyInbound_cycle (s : State) (d n : Nat) (b : BankId) : (s.applyInbound d n b).cycle = s.cycle := by simp [applyInbound]
@[simp] theorem applyInbound_runtime (s : State) (d n : Nat) (b : BankId) : (s.applyInbound d n b).runtime = s.runtime := by simp [applyInbound]
@[simp] theorem applyInbound_inImages (s : State) (d n : Nat) (b : BankId) : (s.applyInbound d n b).inImages = s.inImages := by simp [applyInbound]
@[simp] theorem applyInbound_outImages (s : State) (d n : Nat) (b : BankId) : (s.applyInbound d n b).outImages = s.outImages := by simp [applyInbound]
@[simp] theorem applyInbound_egress (s : State) (d n : Nat) (b : BankId) : (s.applyInbound d n b).egress = s.egress := by simp [applyInbound]
@[simp] theorem applyInbound_agent (s : State) (d n : Nat) (b : BankId) : (s.applyInbound d n b).agent = s.agent := by simp [applyInbound]
@[simp] theorem applyInbound_notices (s : State) (d n : Nat) (b : BankId) : (s.applyInbound d n b).notices = s.notices := by simp [applyInbound]
@[simp] theorem applyInbound_resetHeld (s : State) (d n : Nat) (b : BankId) : (s.applyInbound d n b).resetHeld = s.resetHeld := by simp [applyInbound]
@[simp] theorem applyInbound_freeTick (s : State) (d n : Nat) (b : BankId) : (s.applyInbound d n b).freeTick = s.freeTick := by simp [applyInbound]
@[simp] theorem applyInbound_pending (s : State) (d n : Nat) (b : BankId) : (s.applyInbound d n b).pending = s.pending := by simp [applyInbound]
@[simp] theorem applyInbound_port (s : State) (d n : Nat) (b : BankId) (q : Port) : (s.applyInbound d n b).port q = s.port q := by simp [applyInbound]
@[simp] theorem applyInbound_bank (s : State) (d n : Nat) (b : BankId) (k : BankId) : (s.applyInbound d n b).bank k = s.bank k := by simp [applyInbound]
@[simp] theorem applyInbound_seg (s : State) (d n : Nat) (b : BankId) (j : Segment) : (s.applyInbound d n b).seg j = s.seg j := by simp [applyInbound]

@[simp] theorem captureOut_mem (s : State) (n d : Nat) : (s.captureOut n d).mem = s.mem := rfl
@[simp] theorem captureOut_copyDone (s : State) (n d : Nat) : (s.captureOut n d).copyDone = s.copyDone := rfl
@[simp] theorem captureOut_cycle (s : State) (n d : Nat) : (s.captureOut n d).cycle = s.cycle := rfl
@[simp] theorem captureOut_runtime (s : State) (n d : Nat) : (s.captureOut n d).runtime = s.runtime := rfl
@[simp] theorem captureOut_inImages (s : State) (n d : Nat) : (s.captureOut n d).inImages = s.inImages := rfl
@[simp] theorem captureOut_egress (s : State) (n d : Nat) : (s.captureOut n d).egress = s.egress := rfl
@[simp] theorem captureOut_agent (s : State) (n d : Nat) : (s.captureOut n d).agent = s.agent := rfl
@[simp] theorem captureOut_notices (s : State) (n d : Nat) : (s.captureOut n d).notices = s.notices := rfl
@[simp] theorem captureOut_counters (s : State) (n d : Nat) : (s.captureOut n d).counters = s.counters := rfl
@[simp] theorem captureOut_resetHeld (s : State) (n d : Nat) : (s.captureOut n d).resetHeld = s.resetHeld := rfl
@[simp] theorem captureOut_freeTick (s : State) (n d : Nat) : (s.captureOut n d).freeTick = s.freeTick := rfl
@[simp] theorem captureOut_pending (s : State) (n d : Nat) : (s.captureOut n d).pending = s.pending := rfl
@[simp] theorem captureOut_port (s : State) (n d : Nat) (q : Port) : (s.captureOut n d).port q = s.port q := rfl
@[simp] theorem captureOut_bank (s : State) (n d : Nat) (k : BankId) : (s.captureOut n d).bank k = s.bank k := rfl
@[simp] theorem captureOut_seg (s : State) (n d : Nat) (j : Segment) : (s.captureOut n d).seg j = s.seg j := rfl

@[simp] theorem captureIn_mem (s : State) (n d : Nat) : (s.captureIn n d).mem = s.mem := rfl
@[simp] theorem captureIn_copyDone (s : State) (n d : Nat) : (s.captureIn n d).copyDone = s.copyDone := rfl
@[simp] theorem captureIn_cycle (s : State) (n d : Nat) : (s.captureIn n d).cycle = s.cycle := rfl
@[simp] theorem captureIn_runtime (s : State) (n d : Nat) : (s.captureIn n d).runtime = s.runtime := rfl
@[simp] theorem captureIn_outImages (s : State) (n d : Nat) : (s.captureIn n d).outImages = s.outImages := rfl
@[simp] theorem captureIn_egress (s : State) (n d : Nat) : (s.captureIn n d).egress = s.egress := rfl
@[simp] theorem captureIn_agent (s : State) (n d : Nat) : (s.captureIn n d).agent = s.agent := rfl
@[simp] theorem captureIn_notices (s : State) (n d : Nat) : (s.captureIn n d).notices = s.notices := rfl
@[simp] theorem captureIn_counters (s : State) (n d : Nat) : (s.captureIn n d).counters = s.counters := rfl
@[simp] theorem captureIn_resetHeld (s : State) (n d : Nat) : (s.captureIn n d).resetHeld = s.resetHeld := rfl
@[simp] theorem captureIn_freeTick (s : State) (n d : Nat) : (s.captureIn n d).freeTick = s.freeTick := rfl
@[simp] theorem captureIn_pending (s : State) (n d : Nat) : (s.captureIn n d).pending = s.pending := rfl
@[simp] theorem captureIn_port (s : State) (n d : Nat) (q : Port) : (s.captureIn n d).port q = s.port q := rfl
@[simp] theorem captureIn_bank (s : State) (n d : Nat) (k : BankId) : (s.captureIn n d).bank k = s.bank k := rfl
@[simp] theorem captureIn_seg (s : State) (n d : Nat) (j : Segment) : (s.captureIn n d).seg j = s.seg j := rfl

@[simp] theorem transactionMarks_copyDone (s : State) (d : Nat) (r : Bool) : (s.transactionMarks d r).copyDone = s.copyDone := rfl
@[simp] theorem transactionMarks_cycle (s : State) (d : Nat) (r : Bool) : (s.transactionMarks d r).cycle = s.cycle := rfl
@[simp] theorem transactionMarks_runtime (s : State) (d : Nat) (r : Bool) : (s.transactionMarks d r).runtime = s.runtime := rfl
@[simp] theorem transactionMarks_inImages (s : State) (d : Nat) (r : Bool) : (s.transactionMarks d r).inImages = s.inImages := rfl
@[simp] theorem transactionMarks_outImages (s : State) (d : Nat) (r : Bool) : (s.transactionMarks d r).outImages = s.outImages := rfl
@[simp] theorem transactionMarks_egress (s : State) (d : Nat) (r : Bool) : (s.transactionMarks d r).egress = s.egress := rfl
@[simp] theorem transactionMarks_agent (s : State) (d : Nat) (r : Bool) : (s.transactionMarks d r).agent = s.agent := rfl
@[simp] theorem transactionMarks_notices (s : State) (d : Nat) (r : Bool) : (s.transactionMarks d r).notices = s.notices := rfl
@[simp] theorem transactionMarks_counters (s : State) (d : Nat) (r : Bool) : (s.transactionMarks d r).counters = s.counters := rfl
@[simp] theorem transactionMarks_resetHeld (s : State) (d : Nat) (r : Bool) : (s.transactionMarks d r).resetHeld = s.resetHeld := rfl
@[simp] theorem transactionMarks_freeTick (s : State) (d : Nat) (r : Bool) : (s.transactionMarks d r).freeTick = s.freeTick := rfl
@[simp] theorem transactionMarks_pending (s : State) (d : Nat) (r : Bool) : (s.transactionMarks d r).pending = s.pending := rfl
@[simp] theorem transactionMarks_port (s : State) (d : Nat) (r : Bool) (q : Port) : (s.transactionMarks d r).port q = s.port q := rfl
@[simp] theorem transactionMarks_bank (s : State) (d : Nat) (r : Bool) (k : BankId) : (s.transactionMarks d r).bank k = s.bank k := rfl
@[simp] theorem transactionMarks_seg (s : State) (d : Nat) (r : Bool) (j : Segment) : (s.transactionMarks d r).seg j = s.seg j := rfl

/-! ## Replies -/

@[simp] theorem buildReply_copyDone (s : State) (d : Nat) (st : ReplyStatus) : (s.buildReply d st).copyDone = s.copyDone := by simp [buildReply]
@[simp] theorem buildReply_cycle (s : State) (d : Nat) (st : ReplyStatus) : (s.buildReply d st).cycle = s.cycle := by simp [buildReply]
@[simp] theorem buildReply_runtime (s : State) (d : Nat) (st : ReplyStatus) : (s.buildReply d st).runtime = s.runtime := by simp [buildReply]
@[simp] theorem buildReply_inImages (s : State) (d : Nat) (st : ReplyStatus) : (s.buildReply d st).inImages = s.inImages := by simp [buildReply]
@[simp] theorem buildReply_outImages (s : State) (d : Nat) (st : ReplyStatus) : (s.buildReply d st).outImages = s.outImages := by simp [buildReply]
@[simp] theorem buildReply_egress (s : State) (d : Nat) (st : ReplyStatus) : (s.buildReply d st).egress = s.egress := by simp [buildReply]
@[simp] theorem buildReply_agent (s : State) (d : Nat) (st : ReplyStatus) : (s.buildReply d st).agent = s.agent := by simp [buildReply]
@[simp] theorem buildReply_notices (s : State) (d : Nat) (st : ReplyStatus) : (s.buildReply d st).notices = s.notices := by simp [buildReply]
@[simp] theorem buildReply_counters (s : State) (d : Nat) (st : ReplyStatus) : (s.buildReply d st).counters = s.counters := by simp [buildReply]
@[simp] theorem buildReply_resetHeld (s : State) (d : Nat) (st : ReplyStatus) : (s.buildReply d st).resetHeld = s.resetHeld := by simp [buildReply]
@[simp] theorem buildReply_freeTick (s : State) (d : Nat) (st : ReplyStatus) : (s.buildReply d st).freeTick = s.freeTick := by simp [buildReply]
@[simp] theorem buildReply_pending (s : State) (d : Nat) (st : ReplyStatus) : (s.buildReply d st).pending = s.pending := by simp [buildReply]
@[simp] theorem buildReply_port (s : State) (d : Nat) (st : ReplyStatus) (q : Port) : (s.buildReply d st).port q = s.port q := by simp [buildReply]
@[simp] theorem buildReply_seg (s : State) (d : Nat) (st : ReplyStatus) (j : Segment) : (s.buildReply d st).seg j = s.seg j := by simp [buildReply]

@[simp] theorem buildEmptyReply_copyDone (s : State) (d : Nat) (st : ReplyStatus) : (s.buildEmptyReply d st).copyDone = s.copyDone := by simp [buildEmptyReply]
@[simp] theorem buildEmptyReply_cycle (s : State) (d : Nat) (st : ReplyStatus) : (s.buildEmptyReply d st).cycle = s.cycle := by simp [buildEmptyReply]
@[simp] theorem buildEmptyReply_runtime (s : State) (d : Nat) (st : ReplyStatus) : (s.buildEmptyReply d st).runtime = s.runtime := by simp [buildEmptyReply]
@[simp] theorem buildEmptyReply_inImages (s : State) (d : Nat) (st : ReplyStatus) : (s.buildEmptyReply d st).inImages = s.inImages := by simp [buildEmptyReply]
@[simp] theorem buildEmptyReply_outImages (s : State) (d : Nat) (st : ReplyStatus) : (s.buildEmptyReply d st).outImages = s.outImages := by simp [buildEmptyReply]
@[simp] theorem buildEmptyReply_agent (s : State) (d : Nat) (st : ReplyStatus) : (s.buildEmptyReply d st).agent = s.agent := by simp [buildEmptyReply]
@[simp] theorem buildEmptyReply_counters (s : State) (d : Nat) (st : ReplyStatus) : (s.buildEmptyReply d st).counters = s.counters := by simp [buildEmptyReply]
@[simp] theorem buildEmptyReply_resetHeld (s : State) (d : Nat) (st : ReplyStatus) : (s.buildEmptyReply d st).resetHeld = s.resetHeld := by simp [buildEmptyReply]
@[simp] theorem buildEmptyReply_freeTick (s : State) (d : Nat) (st : ReplyStatus) : (s.buildEmptyReply d st).freeTick = s.freeTick := by simp [buildEmptyReply]
@[simp] theorem buildEmptyReply_pending (s : State) (d : Nat) (st : ReplyStatus) : (s.buildEmptyReply d st).pending = s.pending := by simp [buildEmptyReply]
@[simp] theorem buildEmptyReply_port_other (s : State) (d : Nat) (st : ReplyStatus) (q : Port) (hq : q ≠ .t) : (s.buildEmptyReply d st).port q = s.port q := by simp [buildEmptyReply, hq]
@[simp] theorem buildEmptyReply_seg (s : State) (d : Nat) (st : ReplyStatus) (j : Segment) : (s.buildEmptyReply d st).seg j = s.seg j := by simp [buildEmptyReply]

@[simp] theorem substitute_copyDone (s : State) (d : Nat) : (s.substitute d).copyDone = s.copyDone := by
  unfold substitute
  simp only
  split
  · rcases hr : s.replaceChain d (s.inImage (s.stationOf d)).words with ⟨b, s1⟩
    have h1 := replaceChain_copyDone s d (s.inImage (s.stationOf d)).words
    rw [hr] at h1
    cases b <;> simpa using h1
  · simp
@[simp] theorem substitute_cycle (s : State) (d : Nat) : (s.substitute d).cycle = s.cycle := by
  unfold substitute
  simp only
  split
  · rcases hr : s.replaceChain d (s.inImage (s.stationOf d)).words with ⟨b, s1⟩
    have h1 := replaceChain_cycle s d (s.inImage (s.stationOf d)).words
    rw [hr] at h1
    cases b <;> simpa using h1
  · simp
@[simp] theorem substitute_runtime (s : State) (d : Nat) : (s.substitute d).runtime = s.runtime := by
  unfold substitute
  simp only
  split
  · rcases hr : s.replaceChain d (s.inImage (s.stationOf d)).words with ⟨b, s1⟩
    have h1 := replaceChain_runtime s d (s.inImage (s.stationOf d)).words
    rw [hr] at h1
    cases b <;> simpa using h1
  · simp
@[simp] theorem substitute_inImages (s : State) (d : Nat) : (s.substitute d).inImages = s.inImages := by
  unfold substitute
  simp only
  split
  · rcases hr : s.replaceChain d (s.inImage (s.stationOf d)).words with ⟨b, s1⟩
    have h1 := replaceChain_inImages s d (s.inImage (s.stationOf d)).words
    rw [hr] at h1
    cases b <;> simpa using h1
  · simp
@[simp] theorem substitute_outImages (s : State) (d : Nat) : (s.substitute d).outImages = s.outImages := by
  unfold substitute
  simp only
  split
  · rcases hr : s.replaceChain d (s.inImage (s.stationOf d)).words with ⟨b, s1⟩
    have h1 := replaceChain_outImages s d (s.inImage (s.stationOf d)).words
    rw [hr] at h1
    cases b <;> simpa using h1
  · simp
@[simp] theorem substitute_agent (s : State) (d : Nat) : (s.substitute d).agent = s.agent := by
  unfold substitute
  simp only
  split
  · rcases hr : s.replaceChain d (s.inImage (s.stationOf d)).words with ⟨b, s1⟩
    have h1 := replaceChain_agent s d (s.inImage (s.stationOf d)).words
    rw [hr] at h1
    cases b <;> simpa using h1
  · simp
@[simp] theorem substitute_resetHeld (s : State) (d : Nat) : (s.substitute d).resetHeld = s.resetHeld := by
  unfold substitute
  simp only
  split
  · rcases hr : s.replaceChain d (s.inImage (s.stationOf d)).words with ⟨b, s1⟩
    have h1 := replaceChain_resetHeld s d (s.inImage (s.stationOf d)).words
    rw [hr] at h1
    cases b <;> simpa using h1
  · simp
@[simp] theorem substitute_freeTick (s : State) (d : Nat) : (s.substitute d).freeTick = s.freeTick := by
  unfold substitute
  simp only
  split
  · rcases hr : s.replaceChain d (s.inImage (s.stationOf d)).words with ⟨b, s1⟩
    have h1 := replaceChain_freeTick s d (s.inImage (s.stationOf d)).words
    rw [hr] at h1
    cases b <;> simpa using h1
  · simp
@[simp] theorem substitute_pending (s : State) (d : Nat) : (s.substitute d).pending = s.pending := by
  unfold substitute
  simp only
  split
  · rcases hr : s.replaceChain d (s.inImage (s.stationOf d)).words with ⟨b, s1⟩
    have h1 := replaceChain_pending s d (s.inImage (s.stationOf d)).words
    rw [hr] at h1
    cases b <;> simpa using h1
  · simp
@[simp] theorem substitute_port_other (s : State) (d : Nat) (q : Port) (hq : q ≠ .t) : (s.substitute d).port q = s.port q := by
  unfold substitute
  simp only
  split
  · rcases hr : s.replaceChain d (s.inImage (s.stationOf d)).words with ⟨b, s1⟩
    have h1 := replaceChain_port_other s d (s.inImage (s.stationOf d)).words q hq
    rw [hr] at h1
    cases b <;> simpa [hq] using h1
  · simp [hq]
@[simp] theorem substitute_seg (s : State) (d : Nat) (j : Segment) : (s.substitute d).seg j = s.seg j := by
  unfold substitute
  simp only
  split
  · rcases hr : s.replaceChain d (s.inImage (s.stationOf d)).words with ⟨b, s1⟩
    have h1 := replaceChain_seg s d (s.inImage (s.stationOf d)).words j
    rw [hr] at h1
    cases b <;> simpa using h1
  · simp

/-! ## Transactions -/

@[simp] theorem success_copyDone (s : State) (n : Nat) : (s.success n).copyDone = s.copyDone := by unfold success; simp only; split <;> simp [*]
@[simp] theorem success_cycle (s : State) (n : Nat) : (s.success n).cycle = s.cycle := by unfold success; simp only; split <;> simp [*]
@[simp] theorem success_inImages (s : State) (n : Nat) : (s.success n).inImages = s.inImages := by unfold success; simp only; split <;> simp [*]
@[simp] theorem success_outImages (s : State) (n : Nat) : (s.success n).outImages = s.outImages := by unfold success; simp only; split <;> simp [*]
@[simp] theorem success_agent (s : State) (n : Nat) : (s.success n).agent = s.agent := by unfold success; simp only; split <;> simp [*]
@[simp] theorem success_counters (s : State) (n : Nat) : (s.success n).counters = s.counters := by unfold success; simp only; split <;> simp [*]
@[simp] theorem success_resetHeld (s : State) (n : Nat) : (s.success n).resetHeld = s.resetHeld := by unfold success; simp only; split <;> simp [*]
@[simp] theorem success_freeTick (s : State) (n : Nat) : (s.success n).freeTick = s.freeTick := by unfold success; simp only; split <;> simp [*]
@[simp] theorem success_pending (s : State) (n : Nat) : (s.success n).pending = s.pending := by unfold success; simp only; split <;> simp [*]
@[simp] theorem success_port_other (s : State) (n : Nat) (q : Port) (hq : q ≠ .t) : (s.success n).port q = s.port q := by unfold success; simp only; split <;> simp [*]
@[simp] theorem success_bank (s : State) (n : Nat) (k : BankId) : (s.success n).bank k = s.bank k := by unfold success; simp only; split <;> simp [*]
@[simp] theorem success_seg (s : State) (n : Nat) (j : Segment) : (s.success n).seg j = s.seg j := by unfold success; simp only; split <;> simp [*]

@[simp] theorem failure_copyDone (s : State) (n t : Nat) : (s.failure n t).copyDone = s.copyDone := by unfold failure; simp only; split <;> simp [*]
@[simp] theorem failure_cycle (s : State) (n t : Nat) : (s.failure n t).cycle = s.cycle := by unfold failure; simp only; split <;> simp [*]
@[simp] theorem failure_inImages (s : State) (n t : Nat) : (s.failure n t).inImages = s.inImages := by unfold failure; simp only; split <;> simp [*]
@[simp] theorem failure_outImages (s : State) (n t : Nat) : (s.failure n t).outImages = s.outImages := by unfold failure; simp only; split <;> simp [*]
@[simp] theorem failure_agent (s : State) (n t : Nat) : (s.failure n t).agent = s.agent := by unfold failure; simp only; split <;> simp [*]
@[simp] theorem failure_counters (s : State) (n t : Nat) : (s.failure n t).counters = s.counters := by unfold failure; simp only; split <;> simp [*]
@[simp] theorem failure_resetHeld (s : State) (n t : Nat) : (s.failure n t).resetHeld = s.resetHeld := by unfold failure; simp only; split <;> simp [*]
@[simp] theorem failure_freeTick (s : State) (n t : Nat) : (s.failure n t).freeTick = s.freeTick := by unfold failure; simp only; split <;> simp [*]
@[simp] theorem failure_pending (s : State) (n t : Nat) : (s.failure n t).pending = s.pending := by unfold failure; simp only; split <;> simp [*]
@[simp] theorem failure_port_other (s : State) (n t : Nat) (q : Port) (hq : q ≠ .t) : (s.failure n t).port q = s.port q := by unfold failure; simp only; split <;> simp [*]
@[simp] theorem failure_bank (s : State) (n t : Nat) (k : BankId) : (s.failure n t).bank k = s.bank k := by unfold failure; simp only; split <;> simp [*]
@[simp] theorem failure_seg (s : State) (n t : Nat) (j : Segment) : (s.failure n t).seg j = s.seg j := by unfold failure; simp only; split <;> simp [*]

@[simp] theorem handTry_mem (s : State) (g : Segment) (t : Transaction) : (s.handTry g t).mem = s.mem := by simp [handTry]
@[simp] theorem handTry_copyDone (s : State) (g : Segment) (t : Transaction) : (s.handTry g t).copyDone = s.copyDone := by simp [handTry]
@[simp] theorem handTry_cycle (s : State) (g : Segment) (t : Transaction) : (s.handTry g t).cycle = s.cycle := by simp [handTry]
@[simp] theorem handTry_runtime (s : State) (g : Segment) (t : Transaction) : (s.handTry g t).runtime = s.runtime := by simp [handTry]
@[simp] theorem handTry_inImages (s : State) (g : Segment) (t : Transaction) : (s.handTry g t).inImages = s.inImages := by simp [handTry]
@[simp] theorem handTry_outImages (s : State) (g : Segment) (t : Transaction) : (s.handTry g t).outImages = s.outImages := by simp [handTry]
@[simp] theorem handTry_egress (s : State) (g : Segment) (t : Transaction) : (s.handTry g t).egress = s.egress := by simp [handTry]
@[simp] theorem handTry_agent (s : State) (g : Segment) (t : Transaction) : (s.handTry g t).agent = s.agent := by simp [handTry]
@[simp] theorem handTry_notices (s : State) (g : Segment) (t : Transaction) : (s.handTry g t).notices = s.notices := by simp [handTry]
@[simp] theorem handTry_resetHeld (s : State) (g : Segment) (t : Transaction) : (s.handTry g t).resetHeld = s.resetHeld := by simp [handTry]
@[simp] theorem handTry_freeTick (s : State) (g : Segment) (t : Transaction) : (s.handTry g t).freeTick = s.freeTick := by simp [handTry]
@[simp] theorem handTry_pending (s : State) (g : Segment) (t : Transaction) : (s.handTry g t).pending = s.pending := by simp [handTry]
@[simp] theorem handTry_port_other (s : State) (g : Segment) (t : Transaction) (q : Port) (hq : q ≠ dropPort g) : (s.handTry g t).port q = s.port q := by simp [handTry, hq]
@[simp] theorem handTry_bank (s : State) (g : Segment) (t : Transaction) (k : BankId) : (s.handTry g t).bank k = s.bank k := by simp [handTry]
@[simp] theorem handTry_seg_other (s : State) (g : Segment) (t : Transaction) (j : Segment) (hj : j ≠ g) : (s.handTry g t).seg j = s.seg j := by simp [handTry, hj]

@[simp] theorem startTransaction_mem (s : State) (g : Segment) (d : Nat) : (s.startTransaction g d).mem = s.mem := by simp [startTransaction]
@[simp] theorem startTransaction_copyDone (s : State) (g : Segment) (d : Nat) : (s.startTransaction g d).copyDone = s.copyDone := by simp [startTransaction]
@[simp] theorem startTransaction_cycle (s : State) (g : Segment) (d : Nat) : (s.startTransaction g d).cycle = s.cycle := by simp [startTransaction]
@[simp] theorem startTransaction_runtime (s : State) (g : Segment) (d : Nat) : (s.startTransaction g d).runtime = s.runtime := by simp [startTransaction]
@[simp] theorem startTransaction_inImages (s : State) (g : Segment) (d : Nat) : (s.startTransaction g d).inImages = s.inImages := by simp [startTransaction]
@[simp] theorem startTransaction_egress (s : State) (g : Segment) (d : Nat) : (s.startTransaction g d).egress = s.egress := by simp [startTransaction]
@[simp] theorem startTransaction_agent (s : State) (g : Segment) (d : Nat) : (s.startTransaction g d).agent = s.agent := by simp [startTransaction]
@[simp] theorem startTransaction_notices (s : State) (g : Segment) (d : Nat) : (s.startTransaction g d).notices = s.notices := by simp [startTransaction]
@[simp] theorem startTransaction_resetHeld (s : State) (g : Segment) (d : Nat) : (s.startTransaction g d).resetHeld = s.resetHeld := by simp [startTransaction]
@[simp] theorem startTransaction_freeTick (s : State) (g : Segment) (d : Nat) : (s.startTransaction g d).freeTick = s.freeTick := by simp [startTransaction]
@[simp] theorem startTransaction_pending (s : State) (g : Segment) (d : Nat) : (s.startTransaction g d).pending = s.pending := by simp [startTransaction]
@[simp] theorem startTransaction_port_other (s : State) (g : Segment) (d : Nat) (q : Port) (hq : q ≠ dropPort g) : (s.startTransaction g d).port q = s.port q := by simp [startTransaction, hq]
@[simp] theorem startTransaction_bank (s : State) (g : Segment) (d : Nat) (k : BankId) : (s.startTransaction g d).bank k = s.bank k := by simp [startTransaction]
@[simp] theorem startTransaction_seg_other (s : State) (g : Segment) (d : Nat) (j : Segment) (hj : j ≠ g) : (s.startTransaction g d).seg j = s.seg j := by simp [startTransaction, hj]

@[simp] theorem answerIsolated_copyDone (s : State) (d : Nat) : (s.answerIsolated d).copyDone = s.copyDone := by simp [answerIsolated]
@[simp] theorem answerIsolated_cycle (s : State) (d : Nat) : (s.answerIsolated d).cycle = s.cycle := by simp [answerIsolated]
@[simp] theorem answerIsolated_runtime (s : State) (d : Nat) : (s.answerIsolated d).runtime = s.runtime := by simp [answerIsolated]
@[simp] theorem answerIsolated_inImages (s : State) (d : Nat) : (s.answerIsolated d).inImages = s.inImages := by simp [answerIsolated]
@[simp] theorem answerIsolated_outImages (s : State) (d : Nat) : (s.answerIsolated d).outImages = s.outImages := by simp [answerIsolated]
@[simp] theorem answerIsolated_agent (s : State) (d : Nat) : (s.answerIsolated d).agent = s.agent := by simp [answerIsolated]
@[simp] theorem answerIsolated_resetHeld (s : State) (d : Nat) : (s.answerIsolated d).resetHeld = s.resetHeld := by simp [answerIsolated]
@[simp] theorem answerIsolated_freeTick (s : State) (d : Nat) : (s.answerIsolated d).freeTick = s.freeTick := by simp [answerIsolated]
@[simp] theorem answerIsolated_pending (s : State) (d : Nat) : (s.answerIsolated d).pending = s.pending := by simp [answerIsolated]
@[simp] theorem answerIsolated_port_other (s : State) (d : Nat) (q : Port) (hq : q ≠ .t) : (s.answerIsolated d).port q = s.port q := by simp [answerIsolated, hq]
@[simp] theorem answerIsolated_seg (s : State) (d : Nat) (j : Segment) : (s.answerIsolated d).seg j = s.seg j := by simp [answerIsolated]

@[simp] theorem answerEcho_copyDone (s : State) (d : Nat) : (s.answerEcho d).copyDone = s.copyDone := by simp [answerEcho]
@[simp] theorem answerEcho_cycle (s : State) (d : Nat) : (s.answerEcho d).cycle = s.cycle := by simp [answerEcho]
@[simp] theorem answerEcho_runtime (s : State) (d : Nat) : (s.answerEcho d).runtime = s.runtime := by simp [answerEcho]
@[simp] theorem answerEcho_inImages (s : State) (d : Nat) : (s.answerEcho d).inImages = s.inImages := by simp [answerEcho]
@[simp] theorem answerEcho_outImages (s : State) (d : Nat) : (s.answerEcho d).outImages = s.outImages := by simp [answerEcho]
@[simp] theorem answerEcho_agent (s : State) (d : Nat) : (s.answerEcho d).agent = s.agent := by simp [answerEcho]
@[simp] theorem answerEcho_notices (s : State) (d : Nat) : (s.answerEcho d).notices = s.notices := by simp [answerEcho]
@[simp] theorem answerEcho_counters (s : State) (d : Nat) : (s.answerEcho d).counters = s.counters := by simp [answerEcho]
@[simp] theorem answerEcho_resetHeld (s : State) (d : Nat) : (s.answerEcho d).resetHeld = s.resetHeld := by simp [answerEcho]
@[simp] theorem answerEcho_freeTick (s : State) (d : Nat) : (s.answerEcho d).freeTick = s.freeTick := by simp [answerEcho]
@[simp] theorem answerEcho_pending (s : State) (d : Nat) : (s.answerEcho d).pending = s.pending := by simp [answerEcho]
@[simp] theorem answerEcho_port_other (s : State) (d : Nat) (q : Port) (hq : q ≠ .t) : (s.answerEcho d).port q = s.port q := by simp [answerEcho, hq]
@[simp] theorem answerEcho_seg (s : State) (d : Nat) (j : Segment) : (s.answerEcho d).seg j = s.seg j := by simp [answerEcho]

@[simp] theorem takeSync_mem (s : State) (g : Segment) (d : Nat) : (s.takeSync g d).mem = s.mem := by simp [takeSync]
@[simp] theorem takeSync_copyDone (s : State) (g : Segment) (d : Nat) : (s.takeSync g d).copyDone = s.copyDone := by simp [takeSync]
@[simp] theorem takeSync_cycle (s : State) (g : Segment) (d : Nat) : (s.takeSync g d).cycle = s.cycle := by simp [takeSync]
@[simp] theorem takeSync_runtime (s : State) (g : Segment) (d : Nat) : (s.takeSync g d).runtime = s.runtime := by simp [takeSync]
@[simp] theorem takeSync_inImages (s : State) (g : Segment) (d : Nat) : (s.takeSync g d).inImages = s.inImages := by simp [takeSync]
@[simp] theorem takeSync_outImages (s : State) (g : Segment) (d : Nat) : (s.takeSync g d).outImages = s.outImages := by simp [takeSync]
@[simp] theorem takeSync_egress (s : State) (g : Segment) (d : Nat) : (s.takeSync g d).egress = s.egress := by simp [takeSync]
@[simp] theorem takeSync_agent (s : State) (g : Segment) (d : Nat) : (s.takeSync g d).agent = s.agent := by simp [takeSync]
@[simp] theorem takeSync_notices (s : State) (g : Segment) (d : Nat) : (s.takeSync g d).notices = s.notices := by simp [takeSync]
@[simp] theorem takeSync_counters (s : State) (g : Segment) (d : Nat) : (s.takeSync g d).counters = s.counters := by simp [takeSync]
@[simp] theorem takeSync_resetHeld (s : State) (g : Segment) (d : Nat) : (s.takeSync g d).resetHeld = s.resetHeld := by simp [takeSync]
@[simp] theorem takeSync_freeTick (s : State) (g : Segment) (d : Nat) : (s.takeSync g d).freeTick = s.freeTick := by simp [takeSync]
@[simp] theorem takeSync_pending (s : State) (g : Segment) (d : Nat) : (s.takeSync g d).pending = s.pending := by simp [takeSync]
@[simp] theorem takeSync_port_other (s : State) (g : Segment) (d : Nat) (q : Port) (hq : q ≠ dropPort g) : (s.takeSync g d).port q = s.port q := by simp [takeSync, hq]
@[simp] theorem takeSync_bank (s : State) (g : Segment) (d : Nat) (k : BankId) : (s.takeSync g d).bank k = s.bank k := by simp [takeSync]
@[simp] theorem takeSync_seg_other (s : State) (g : Segment) (d : Nat) (j : Segment) (hj : j ≠ g) : (s.takeSync g d).seg j = s.seg j := by simp [takeSync, hj]

@[simp] theorem retransmit_mem (s : State) (g : Segment) (t : Transaction) : (s.retransmit g t).mem = s.mem := by simp [retransmit]
@[simp] theorem retransmit_copyDone (s : State) (g : Segment) (t : Transaction) : (s.retransmit g t).copyDone = s.copyDone := by simp [retransmit]
@[simp] theorem retransmit_cycle (s : State) (g : Segment) (t : Transaction) : (s.retransmit g t).cycle = s.cycle := by simp [retransmit]
@[simp] theorem retransmit_runtime (s : State) (g : Segment) (t : Transaction) : (s.retransmit g t).runtime = s.runtime := by simp [retransmit]
@[simp] theorem retransmit_inImages (s : State) (g : Segment) (t : Transaction) : (s.retransmit g t).inImages = s.inImages := by simp [retransmit]
@[simp] theorem retransmit_outImages (s : State) (g : Segment) (t : Transaction) : (s.retransmit g t).outImages = s.outImages := by simp [retransmit]
@[simp] theorem retransmit_egress (s : State) (g : Segment) (t : Transaction) : (s.retransmit g t).egress = s.egress := by simp [retransmit]
@[simp] theorem retransmit_agent (s : State) (g : Segment) (t : Transaction) : (s.retransmit g t).agent = s.agent := by simp [retransmit]
@[simp] theorem retransmit_notices (s : State) (g : Segment) (t : Transaction) : (s.retransmit g t).notices = s.notices := by simp [retransmit]
@[simp] theorem retransmit_resetHeld (s : State) (g : Segment) (t : Transaction) : (s.retransmit g t).resetHeld = s.resetHeld := by simp [retransmit]
@[simp] theorem retransmit_freeTick (s : State) (g : Segment) (t : Transaction) : (s.retransmit g t).freeTick = s.freeTick := by simp [retransmit]
@[simp] theorem retransmit_pending (s : State) (g : Segment) (t : Transaction) : (s.retransmit g t).pending = s.pending := by simp [retransmit]
@[simp] theorem retransmit_port_other (s : State) (g : Segment) (t : Transaction) (q : Port) (hq : q ≠ dropPort g) : (s.retransmit g t).port q = s.port q := by simp [retransmit, hq]
@[simp] theorem retransmit_bank (s : State) (g : Segment) (t : Transaction) (k : BankId) : (s.retransmit g t).bank k = s.bank k := by simp [retransmit]
@[simp] theorem retransmit_seg_other (s : State) (g : Segment) (t : Transaction) (j : Segment) (hj : j ≠ g) : (s.retransmit g t).seg j = s.seg j := by simp [retransmit, hj]

@[simp] theorem failTransaction_copyDone (s : State) (g : Segment) (t : Transaction) : (s.failTransaction g t).copyDone = s.copyDone := by simp [failTransaction]
@[simp] theorem failTransaction_cycle (s : State) (g : Segment) (t : Transaction) : (s.failTransaction g t).cycle = s.cycle := by simp [failTransaction]
@[simp] theorem failTransaction_inImages (s : State) (g : Segment) (t : Transaction) : (s.failTransaction g t).inImages = s.inImages := by simp [failTransaction]
@[simp] theorem failTransaction_outImages (s : State) (g : Segment) (t : Transaction) : (s.failTransaction g t).outImages = s.outImages := by simp [failTransaction]
@[simp] theorem failTransaction_agent (s : State) (g : Segment) (t : Transaction) : (s.failTransaction g t).agent = s.agent := by simp [failTransaction]
@[simp] theorem failTransaction_resetHeld (s : State) (g : Segment) (t : Transaction) : (s.failTransaction g t).resetHeld = s.resetHeld := by simp [failTransaction]
@[simp] theorem failTransaction_freeTick (s : State) (g : Segment) (t : Transaction) : (s.failTransaction g t).freeTick = s.freeTick := by simp [failTransaction]
@[simp] theorem failTransaction_pending (s : State) (g : Segment) (t : Transaction) : (s.failTransaction g t).pending = s.pending := by simp [failTransaction]
@[simp] theorem failTransaction_port_other (s : State) (g : Segment) (t : Transaction) (q : Port) (hq : q ≠ .t) : (s.failTransaction g t).port q = s.port q := by simp [failTransaction, hq]
@[simp] theorem failTransaction_seg_other (s : State) (g : Segment) (t : Transaction) (j : Segment) (hj : j ≠ g) : (s.failTransaction g t).seg j = s.seg j := by simp [failTransaction, hj]

@[simp] theorem buildOk_copyDone (s : State) (t : Transaction) : (s.buildOk t).copyDone = s.copyDone := by simp [buildOk]
@[simp] theorem buildOk_cycle (s : State) (t : Transaction) : (s.buildOk t).cycle = s.cycle := by simp [buildOk]
@[simp] theorem buildOk_runtime (s : State) (t : Transaction) : (s.buildOk t).runtime = s.runtime := by simp [buildOk]
@[simp] theorem buildOk_outImages (s : State) (t : Transaction) : (s.buildOk t).outImages = s.outImages := by simp [buildOk]
@[simp] theorem buildOk_agent (s : State) (t : Transaction) : (s.buildOk t).agent = s.agent := by simp [buildOk]
@[simp] theorem buildOk_notices (s : State) (t : Transaction) : (s.buildOk t).notices = s.notices := by simp [buildOk]
@[simp] theorem buildOk_resetHeld (s : State) (t : Transaction) : (s.buildOk t).resetHeld = s.resetHeld := by simp [buildOk]
@[simp] theorem buildOk_freeTick (s : State) (t : Transaction) : (s.buildOk t).freeTick = s.freeTick := by simp [buildOk]
@[simp] theorem buildOk_pending (s : State) (t : Transaction) : (s.buildOk t).pending = s.pending := by simp [buildOk]
@[simp] theorem buildOk_port_other (s : State) (t : Transaction) (q : Port) (hq : q ≠ .t) : (s.buildOk t).port q = s.port q := by simp [buildOk, hq]
@[simp] theorem buildOk_seg (s : State) (t : Transaction) (j : Segment) : (s.buildOk t).seg j = s.seg j := by simp [buildOk]

@[simp] theorem matchReply_copyDone (s : State) (g : Segment) (t : Transaction) (ws : List Word) : (s.matchReply g t ws).copyDone = s.copyDone := by
  unfold matchReply
  simp only
  rcases hr : ((s.setSeg g (s.seg g).matched).transactionMarks t.desc t.retried).replaceChain t.desc ws with ⟨b, s1⟩
  have h1 := replaceChain_copyDone ((s.setSeg g (s.seg g).matched).transactionMarks t.desc t.retried) t.desc ws
  rw [hr] at h1
  cases b <;> simpa using h1
@[simp] theorem matchReply_cycle (s : State) (g : Segment) (t : Transaction) (ws : List Word) : (s.matchReply g t ws).cycle = s.cycle := by
  unfold matchReply
  simp only
  rcases hr : ((s.setSeg g (s.seg g).matched).transactionMarks t.desc t.retried).replaceChain t.desc ws with ⟨b, s1⟩
  have h1 := replaceChain_cycle ((s.setSeg g (s.seg g).matched).transactionMarks t.desc t.retried) t.desc ws
  rw [hr] at h1
  cases b <;> simpa using h1
@[simp] theorem matchReply_outImages (s : State) (g : Segment) (t : Transaction) (ws : List Word) : (s.matchReply g t ws).outImages = s.outImages := by
  unfold matchReply
  simp only
  rcases hr : ((s.setSeg g (s.seg g).matched).transactionMarks t.desc t.retried).replaceChain t.desc ws with ⟨b, s1⟩
  have h1 := replaceChain_outImages ((s.setSeg g (s.seg g).matched).transactionMarks t.desc t.retried) t.desc ws
  rw [hr] at h1
  cases b <;> simpa using h1
@[simp] theorem matchReply_agent (s : State) (g : Segment) (t : Transaction) (ws : List Word) : (s.matchReply g t ws).agent = s.agent := by
  unfold matchReply
  simp only
  rcases hr : ((s.setSeg g (s.seg g).matched).transactionMarks t.desc t.retried).replaceChain t.desc ws with ⟨b, s1⟩
  have h1 := replaceChain_agent ((s.setSeg g (s.seg g).matched).transactionMarks t.desc t.retried) t.desc ws
  rw [hr] at h1
  cases b <;> simpa using h1
@[simp] theorem matchReply_resetHeld (s : State) (g : Segment) (t : Transaction) (ws : List Word) : (s.matchReply g t ws).resetHeld = s.resetHeld := by
  unfold matchReply
  simp only
  rcases hr : ((s.setSeg g (s.seg g).matched).transactionMarks t.desc t.retried).replaceChain t.desc ws with ⟨b, s1⟩
  have h1 := replaceChain_resetHeld ((s.setSeg g (s.seg g).matched).transactionMarks t.desc t.retried) t.desc ws
  rw [hr] at h1
  cases b <;> simpa using h1
@[simp] theorem matchReply_freeTick (s : State) (g : Segment) (t : Transaction) (ws : List Word) : (s.matchReply g t ws).freeTick = s.freeTick := by
  unfold matchReply
  simp only
  rcases hr : ((s.setSeg g (s.seg g).matched).transactionMarks t.desc t.retried).replaceChain t.desc ws with ⟨b, s1⟩
  have h1 := replaceChain_freeTick ((s.setSeg g (s.seg g).matched).transactionMarks t.desc t.retried) t.desc ws
  rw [hr] at h1
  cases b <;> simpa using h1
@[simp] theorem matchReply_pending (s : State) (g : Segment) (t : Transaction) (ws : List Word) : (s.matchReply g t ws).pending = s.pending := by
  unfold matchReply
  simp only
  rcases hr : ((s.setSeg g (s.seg g).matched).transactionMarks t.desc t.retried).replaceChain t.desc ws with ⟨b, s1⟩
  have h1 := replaceChain_pending ((s.setSeg g (s.seg g).matched).transactionMarks t.desc t.retried) t.desc ws
  rw [hr] at h1
  cases b <;> simpa using h1
@[simp] theorem matchReply_port_other (s : State) (g : Segment) (t : Transaction) (ws : List Word) (q : Port) (hq : q ≠ .t) : (s.matchReply g t ws).port q = s.port q := by
  unfold matchReply
  simp only
  rcases hr : ((s.setSeg g (s.seg g).matched).transactionMarks t.desc t.retried).replaceChain t.desc ws with ⟨b, s1⟩
  have h1 := replaceChain_port_other ((s.setSeg g (s.seg g).matched).transactionMarks t.desc t.retried) t.desc ws q hq
  rw [hr] at h1
  cases b <;> simpa [hq] using h1
@[simp] theorem matchReply_seg_other (s : State) (g : Segment) (t : Transaction) (ws : List Word) (j : Segment) (hj : j ≠ g) : (s.matchReply g t ws).seg j = s.seg j := by
  unfold matchReply
  simp only
  rcases hr : ((s.setSeg g (s.seg g).matched).transactionMarks t.desc t.retried).replaceChain t.desc ws with ⟨b, s1⟩
  have h1 := replaceChain_seg ((s.setSeg g (s.seg g).matched).transactionMarks t.desc t.retried) t.desc ws j
  rw [hr] at h1
  cases b <;> simpa [hj] using h1

/-! ## Admission -/

@[simp] theorem joinQueue_copyDone (s : State) (g : Segment) (d : Nat) : (s.joinQueue g d).copyDone = s.copyDone := by simp [joinQueue]
@[simp] theorem joinQueue_cycle (s : State) (g : Segment) (d : Nat) : (s.joinQueue g d).cycle = s.cycle := by simp [joinQueue]
@[simp] theorem joinQueue_runtime (s : State) (g : Segment) (d : Nat) : (s.joinQueue g d).runtime = s.runtime := by simp [joinQueue]
@[simp] theorem joinQueue_inImages (s : State) (g : Segment) (d : Nat) : (s.joinQueue g d).inImages = s.inImages := by simp [joinQueue]
@[simp] theorem joinQueue_outImages (s : State) (g : Segment) (d : Nat) : (s.joinQueue g d).outImages = s.outImages := by simp [joinQueue]
@[simp] theorem joinQueue_egress (s : State) (g : Segment) (d : Nat) : (s.joinQueue g d).egress = s.egress := by simp [joinQueue]
@[simp] theorem joinQueue_agent (s : State) (g : Segment) (d : Nat) : (s.joinQueue g d).agent = s.agent := by simp [joinQueue]
@[simp] theorem joinQueue_notices (s : State) (g : Segment) (d : Nat) : (s.joinQueue g d).notices = s.notices := by simp [joinQueue]
@[simp] theorem joinQueue_counters (s : State) (g : Segment) (d : Nat) : (s.joinQueue g d).counters = s.counters := by simp [joinQueue]
@[simp] theorem joinQueue_resetHeld (s : State) (g : Segment) (d : Nat) : (s.joinQueue g d).resetHeld = s.resetHeld := by simp [joinQueue]
@[simp] theorem joinQueue_freeTick (s : State) (g : Segment) (d : Nat) : (s.joinQueue g d).freeTick = s.freeTick := by simp [joinQueue]
@[simp] theorem joinQueue_pending (s : State) (g : Segment) (d : Nat) : (s.joinQueue g d).pending = s.pending := by simp [joinQueue]
@[simp] theorem joinQueue_port (s : State) (g : Segment) (d : Nat) (q : Port) : (s.joinQueue g d).port q = s.port q := by simp [joinQueue]
@[simp] theorem joinQueue_bank (s : State) (g : Segment) (d : Nat) (k : BankId) : (s.joinQueue g d).bank k = s.bank k := by simp [joinQueue]
@[simp] theorem joinQueue_seg_other (s : State) (g : Segment) (d : Nat) (j : Segment) (hj : j ≠ g) : (s.joinQueue g d).seg j = s.seg j := by simp [joinQueue, hj]

@[simp] theorem takePlace_copyDone (s : State) (g : Segment) (old new : Nat) : (s.takePlace g old new).copyDone = s.copyDone := by simp [takePlace]
@[simp] theorem takePlace_cycle (s : State) (g : Segment) (old new : Nat) : (s.takePlace g old new).cycle = s.cycle := by simp [takePlace]
@[simp] theorem takePlace_runtime (s : State) (g : Segment) (old new : Nat) : (s.takePlace g old new).runtime = s.runtime := by simp [takePlace]
@[simp] theorem takePlace_inImages (s : State) (g : Segment) (old new : Nat) : (s.takePlace g old new).inImages = s.inImages := by simp [takePlace]
@[simp] theorem takePlace_outImages (s : State) (g : Segment) (old new : Nat) : (s.takePlace g old new).outImages = s.outImages := by simp [takePlace]
@[simp] theorem takePlace_egress (s : State) (g : Segment) (old new : Nat) : (s.takePlace g old new).egress = s.egress := by simp [takePlace]
@[simp] theorem takePlace_agent (s : State) (g : Segment) (old new : Nat) : (s.takePlace g old new).agent = s.agent := by simp [takePlace]
@[simp] theorem takePlace_notices (s : State) (g : Segment) (old new : Nat) : (s.takePlace g old new).notices = s.notices := by simp [takePlace]
@[simp] theorem takePlace_counters (s : State) (g : Segment) (old new : Nat) : (s.takePlace g old new).counters = s.counters := by simp [takePlace]
@[simp] theorem takePlace_resetHeld (s : State) (g : Segment) (old new : Nat) : (s.takePlace g old new).resetHeld = s.resetHeld := by simp [takePlace]
@[simp] theorem takePlace_freeTick (s : State) (g : Segment) (old new : Nat) : (s.takePlace g old new).freeTick = s.freeTick := by simp [takePlace]
@[simp] theorem takePlace_pending (s : State) (g : Segment) (old new : Nat) : (s.takePlace g old new).pending = s.pending := by simp [takePlace]
@[simp] theorem takePlace_port (s : State) (g : Segment) (old new : Nat) (q : Port) : (s.takePlace g old new).port q = s.port q := by simp [takePlace]
@[simp] theorem takePlace_bank (s : State) (g : Segment) (old new : Nat) (k : BankId) : (s.takePlace g old new).bank k = s.bank k := by simp [takePlace]
@[simp] theorem takePlace_seg_other (s : State) (g : Segment) (old new : Nat) (j : Segment) (hj : j ≠ g) : (s.takePlace g old new).seg j = s.seg j := by simp [takePlace, hj]

@[simp] theorem refusePoll_copyDone (s : State) (a : Arrival) : (s.refusePoll a).copyDone = s.copyDone := by unfold refusePoll; simp only; split <;> simp [*]
@[simp] theorem refusePoll_cycle (s : State) (a : Arrival) : (s.refusePoll a).cycle = s.cycle := by unfold refusePoll; simp only; split <;> simp [*]
@[simp] theorem refusePoll_runtime (s : State) (a : Arrival) : (s.refusePoll a).runtime = s.runtime := by unfold refusePoll; simp only; split <;> simp [*]
@[simp] theorem refusePoll_inImages (s : State) (a : Arrival) : (s.refusePoll a).inImages = s.inImages := by unfold refusePoll; simp only; split <;> simp [*]
@[simp] theorem refusePoll_outImages (s : State) (a : Arrival) : (s.refusePoll a).outImages = s.outImages := by unfold refusePoll; simp only; split <;> simp [*]
@[simp] theorem refusePoll_agent (s : State) (a : Arrival) : (s.refusePoll a).agent = s.agent := by unfold refusePoll; simp only; split <;> simp [*]
@[simp] theorem refusePoll_notices (s : State) (a : Arrival) : (s.refusePoll a).notices = s.notices := by unfold refusePoll; simp only; split <;> simp [*]
@[simp] theorem refusePoll_resetHeld (s : State) (a : Arrival) : (s.refusePoll a).resetHeld = s.resetHeld := by unfold refusePoll; simp only; split <;> simp [*]
@[simp] theorem refusePoll_freeTick (s : State) (a : Arrival) : (s.refusePoll a).freeTick = s.freeTick := by unfold refusePoll; simp only; split <;> simp [*]
@[simp] theorem refusePoll_pending (s : State) (a : Arrival) : (s.refusePoll a).pending = s.pending := by unfold refusePoll; simp only; split <;> simp [*]
@[simp] theorem refusePoll_port_other (s : State) (a : Arrival) (q : Port) (hq : q ≠ .t) : (s.refusePoll a).port q = s.port q := by unfold refusePoll; simp only; split <;> simp [*]
@[simp] theorem refusePoll_bank (s : State) (a : Arrival) (k : BankId) : (s.refusePoll a).bank k = s.bank k := by unfold refusePoll; simp only; split <;> simp [*]
@[simp] theorem refusePoll_seg (s : State) (a : Arrival) (j : Segment) : (s.refusePoll a).seg j = s.seg j := by unfold refusePoll; simp only; split <;> simp [*]

@[simp] theorem answerUnrouted_copyDone (s : State) (d : Nat) : (s.answerUnrouted d).copyDone = s.copyDone := by simp [answerUnrouted]
@[simp] theorem answerUnrouted_cycle (s : State) (d : Nat) : (s.answerUnrouted d).cycle = s.cycle := by simp [answerUnrouted]
@[simp] theorem answerUnrouted_runtime (s : State) (d : Nat) : (s.answerUnrouted d).runtime = s.runtime := by simp [answerUnrouted]
@[simp] theorem answerUnrouted_inImages (s : State) (d : Nat) : (s.answerUnrouted d).inImages = s.inImages := by simp [answerUnrouted]
@[simp] theorem answerUnrouted_outImages (s : State) (d : Nat) : (s.answerUnrouted d).outImages = s.outImages := by simp [answerUnrouted]
@[simp] theorem answerUnrouted_agent (s : State) (d : Nat) : (s.answerUnrouted d).agent = s.agent := by simp [answerUnrouted]
@[simp] theorem answerUnrouted_counters (s : State) (d : Nat) : (s.answerUnrouted d).counters = s.counters := by simp [answerUnrouted]
@[simp] theorem answerUnrouted_resetHeld (s : State) (d : Nat) : (s.answerUnrouted d).resetHeld = s.resetHeld := by simp [answerUnrouted]
@[simp] theorem answerUnrouted_freeTick (s : State) (d : Nat) : (s.answerUnrouted d).freeTick = s.freeTick := by simp [answerUnrouted]
@[simp] theorem answerUnrouted_pending (s : State) (d : Nat) : (s.answerUnrouted d).pending = s.pending := by simp [answerUnrouted]
@[simp] theorem answerUnrouted_port_other (s : State) (d : Nat) (q : Port) (hq : q ≠ .t) : (s.answerUnrouted d).port q = s.port q := by simp [answerUnrouted, hq]
@[simp] theorem answerUnrouted_seg (s : State) (d : Nat) (j : Segment) : (s.answerUnrouted d).seg j = s.seg j := by simp [answerUnrouted]

@[simp] theorem answerSuperseded_copyDone (s : State) (n old : Nat) : (s.answerSuperseded n old).copyDone = s.copyDone := by simp [answerSuperseded]
@[simp] theorem answerSuperseded_cycle (s : State) (n old : Nat) : (s.answerSuperseded n old).cycle = s.cycle := by simp [answerSuperseded]
@[simp] theorem answerSuperseded_runtime (s : State) (n old : Nat) : (s.answerSuperseded n old).runtime = s.runtime := by simp [answerSuperseded]
@[simp] theorem answerSuperseded_inImages (s : State) (n old : Nat) : (s.answerSuperseded n old).inImages = s.inImages := by simp [answerSuperseded]
@[simp] theorem answerSuperseded_outImages (s : State) (n old : Nat) : (s.answerSuperseded n old).outImages = s.outImages := by simp [answerSuperseded]
@[simp] theorem answerSuperseded_agent (s : State) (n old : Nat) : (s.answerSuperseded n old).agent = s.agent := by simp [answerSuperseded]
@[simp] theorem answerSuperseded_resetHeld (s : State) (n old : Nat) : (s.answerSuperseded n old).resetHeld = s.resetHeld := by simp [answerSuperseded]
@[simp] theorem answerSuperseded_freeTick (s : State) (n old : Nat) : (s.answerSuperseded n old).freeTick = s.freeTick := by simp [answerSuperseded]
@[simp] theorem answerSuperseded_pending (s : State) (n old : Nat) : (s.answerSuperseded n old).pending = s.pending := by simp [answerSuperseded]
@[simp] theorem answerSuperseded_port_other (s : State) (n old : Nat) (q : Port) (hq : q ≠ .t) : (s.answerSuperseded n old).port q = s.port q := by simp [answerSuperseded, hq]
@[simp] theorem answerSuperseded_seg (s : State) (n old : Nat) (j : Segment) : (s.answerSuperseded n old).seg j = s.seg j := by simp [answerSuperseded]

@[simp] theorem place_copyDone (s : State) (g : Segment) (n d : Nat) : (s.place g n d).copyDone = s.copyDone := by unfold place; split <;> simp [*]
@[simp] theorem place_cycle (s : State) (g : Segment) (n d : Nat) : (s.place g n d).cycle = s.cycle := by unfold place; split <;> simp [*]
@[simp] theorem place_runtime (s : State) (g : Segment) (n d : Nat) : (s.place g n d).runtime = s.runtime := by unfold place; split <;> simp [*]
@[simp] theorem place_inImages (s : State) (g : Segment) (n d : Nat) : (s.place g n d).inImages = s.inImages := by unfold place; split <;> simp [*]
@[simp] theorem place_outImages (s : State) (g : Segment) (n d : Nat) : (s.place g n d).outImages = s.outImages := by unfold place; split <;> simp [*]
@[simp] theorem place_agent (s : State) (g : Segment) (n d : Nat) : (s.place g n d).agent = s.agent := by unfold place; split <;> simp [*]
@[simp] theorem place_resetHeld (s : State) (g : Segment) (n d : Nat) : (s.place g n d).resetHeld = s.resetHeld := by unfold place; split <;> simp [*]
@[simp] theorem place_freeTick (s : State) (g : Segment) (n d : Nat) : (s.place g n d).freeTick = s.freeTick := by unfold place; split <;> simp [*]
@[simp] theorem place_pending (s : State) (g : Segment) (n d : Nat) : (s.place g n d).pending = s.pending := by unfold place; split <;> simp [*]
@[simp] theorem place_port_other (s : State) (g : Segment) (n d : Nat) (q : Port) (hq : q ≠ .t) : (s.place g n d).port q = s.port q := by unfold place; split <;> simp [*]
@[simp] theorem place_seg_other (s : State) (g : Segment) (n d : Nat) (j : Segment) (hj : j ≠ g) : (s.place g n d).seg j = s.seg j := by unfold place; split <;> simp [*]

@[simp] theorem admitRouted_copyDone (s : State) (g : Segment) (d : Nat) : (s.admitRouted g d).copyDone = s.copyDone := by simp [admitRouted]
@[simp] theorem admitRouted_cycle (s : State) (g : Segment) (d : Nat) : (s.admitRouted g d).cycle = s.cycle := by simp [admitRouted]
@[simp] theorem admitRouted_runtime (s : State) (g : Segment) (d : Nat) : (s.admitRouted g d).runtime = s.runtime := by simp [admitRouted]
@[simp] theorem admitRouted_inImages (s : State) (g : Segment) (d : Nat) : (s.admitRouted g d).inImages = s.inImages := by simp [admitRouted]
@[simp] theorem admitRouted_outImages (s : State) (g : Segment) (d : Nat) : (s.admitRouted g d).outImages = s.outImages := by simp [admitRouted]
@[simp] theorem admitRouted_agent (s : State) (g : Segment) (d : Nat) : (s.admitRouted g d).agent = s.agent := by simp [admitRouted]
@[simp] theorem admitRouted_resetHeld (s : State) (g : Segment) (d : Nat) : (s.admitRouted g d).resetHeld = s.resetHeld := by simp [admitRouted]
@[simp] theorem admitRouted_freeTick (s : State) (g : Segment) (d : Nat) : (s.admitRouted g d).freeTick = s.freeTick := by simp [admitRouted]
@[simp] theorem admitRouted_pending (s : State) (g : Segment) (d : Nat) : (s.admitRouted g d).pending = s.pending := by simp [admitRouted]
@[simp] theorem admitRouted_port_other (s : State) (g : Segment) (d : Nat) (q : Port) (hq : q ≠ .t) : (s.admitRouted g d).port q = s.port q := by simp [admitRouted, hq]
@[simp] theorem admitRouted_seg_other (s : State) (g : Segment) (d : Nat) (j : Segment) (hj : j ≠ g) : (s.admitRouted g d).seg j = s.seg j := by simp [admitRouted, hj]

@[simp] theorem admitPoll_copyDone (s : State) (a : Arrival) : (s.admitPoll a).copyDone = s.copyDone := by unfold admitPoll; (repeat' split) <;> simp [*]
@[simp] theorem admitPoll_cycle (s : State) (a : Arrival) : (s.admitPoll a).cycle = s.cycle := by unfold admitPoll; (repeat' split) <;> simp [*]
@[simp] theorem admitPoll_runtime (s : State) (a : Arrival) : (s.admitPoll a).runtime = s.runtime := by unfold admitPoll; (repeat' split) <;> simp [*]
@[simp] theorem admitPoll_inImages (s : State) (a : Arrival) : (s.admitPoll a).inImages = s.inImages := by unfold admitPoll; (repeat' split) <;> simp [*]
@[simp] theorem admitPoll_outImages (s : State) (a : Arrival) : (s.admitPoll a).outImages = s.outImages := by unfold admitPoll; (repeat' split) <;> simp [*]
@[simp] theorem admitPoll_agent (s : State) (a : Arrival) : (s.admitPoll a).agent = s.agent := by unfold admitPoll; (repeat' split) <;> simp [*]
@[simp] theorem admitPoll_resetHeld (s : State) (a : Arrival) : (s.admitPoll a).resetHeld = s.resetHeld := by unfold admitPoll; (repeat' split) <;> simp [*]
@[simp] theorem admitPoll_freeTick (s : State) (a : Arrival) : (s.admitPoll a).freeTick = s.freeTick := by unfold admitPoll; (repeat' split) <;> simp [*]
@[simp] theorem admitPoll_pending (s : State) (a : Arrival) : (s.admitPoll a).pending = s.pending := by unfold admitPoll; (repeat' split) <;> simp [*]
@[simp] theorem admitPoll_port_other (s : State) (a : Arrival) (q : Port) (hq : q ≠ .t) : (s.admitPoll a).port q = s.port q := by unfold admitPoll; (repeat' split) <;> simp [*]

@[simp] theorem distribute_copyDone (s : State) (g : Segment) (d : Nat) (w : Word) : (s.distribute g d w).copyDone = s.copyDone := by unfold distribute; split <;> simp [*]
@[simp] theorem distribute_cycle (s : State) (g : Segment) (d : Nat) (w : Word) : (s.distribute g d w).cycle = s.cycle := by unfold distribute; split <;> simp [*]
@[simp] theorem distribute_runtime (s : State) (g : Segment) (d : Nat) (w : Word) : (s.distribute g d w).runtime = s.runtime := by unfold distribute; split <;> simp [*]
@[simp] theorem distribute_inImages (s : State) (g : Segment) (d : Nat) (w : Word) : (s.distribute g d w).inImages = s.inImages := by unfold distribute; split <;> simp [*]
@[simp] theorem distribute_outImages (s : State) (g : Segment) (d : Nat) (w : Word) : (s.distribute g d w).outImages = s.outImages := by unfold distribute; split <;> simp [*]
@[simp] theorem distribute_egress (s : State) (g : Segment) (d : Nat) (w : Word) : (s.distribute g d w).egress = s.egress := by unfold distribute; split <;> simp [*]
@[simp] theorem distribute_agent (s : State) (g : Segment) (d : Nat) (w : Word) : (s.distribute g d w).agent = s.agent := by unfold distribute; split <;> simp [*]
@[simp] theorem distribute_notices (s : State) (g : Segment) (d : Nat) (w : Word) : (s.distribute g d w).notices = s.notices := by unfold distribute; split <;> simp [*]
@[simp] theorem distribute_counters (s : State) (g : Segment) (d : Nat) (w : Word) : (s.distribute g d w).counters = s.counters := by unfold distribute; split <;> simp [*]
@[simp] theorem distribute_resetHeld (s : State) (g : Segment) (d : Nat) (w : Word) : (s.distribute g d w).resetHeld = s.resetHeld := by unfold distribute; split <;> simp [*]
@[simp] theorem distribute_freeTick (s : State) (g : Segment) (d : Nat) (w : Word) : (s.distribute g d w).freeTick = s.freeTick := by unfold distribute; split <;> simp [*]
@[simp] theorem distribute_pending (s : State) (g : Segment) (d : Nat) (w : Word) : (s.distribute g d w).pending = s.pending := by unfold distribute; split <;> simp [*]
@[simp] theorem distribute_port (s : State) (g : Segment) (d : Nat) (w : Word) (q : Port) : (s.distribute g d w).port q = s.port q := by unfold distribute; split <;> simp [*]
@[simp] theorem distribute_bank (s : State) (g : Segment) (d : Nat) (w : Word) (k : BankId) : (s.distribute g d w).bank k = s.bank k := by unfold distribute; split <;> simp [*]
@[simp] theorem distribute_seg_other (s : State) (g : Segment) (d : Nat) (w : Word) (j : Segment) (hj : j ≠ g) : (s.distribute g d w).seg j = s.seg j := by unfold distribute; split <;> simp [*]

@[simp] theorem newCycle_copyDone (s : State) (w : Word) : (s.newCycle w).copyDone = s.copyDone := by simp [newCycle]
@[simp] theorem newCycle_runtime (s : State) (w : Word) : (s.newCycle w).runtime = s.runtime := by simp [newCycle]
@[simp] theorem newCycle_inImages (s : State) (w : Word) : (s.newCycle w).inImages = s.inImages := by simp [newCycle]
@[simp] theorem newCycle_outImages (s : State) (w : Word) : (s.newCycle w).outImages = s.outImages := by simp [newCycle]
@[simp] theorem newCycle_agent (s : State) (w : Word) : (s.newCycle w).agent = s.agent := by simp [newCycle]
@[simp] theorem newCycle_counters (s : State) (w : Word) : (s.newCycle w).counters = s.counters := by simp [newCycle]
@[simp] theorem newCycle_resetHeld (s : State) (w : Word) : (s.newCycle w).resetHeld = s.resetHeld := by simp [newCycle]
@[simp] theorem newCycle_freeTick (s : State) (w : Word) : (s.newCycle w).freeTick = s.freeTick := by simp [newCycle]
@[simp] theorem newCycle_pending (s : State) (w : Word) : (s.newCycle w).pending = s.pending := by simp [newCycle]
@[simp] theorem newCycle_port_other (s : State) (w : Word) (q : Port) (hq : q ≠ .t) : (s.newCycle w).port q = s.port q := by simp [newCycle, hq]
@[simp] theorem newCycle_seg (s : State) (w : Word) (j : Segment) : (s.newCycle w).seg j = s.seg j := by simp [newCycle]

@[simp] theorem admitSync_copyDone (s : State) (a : Arrival) : (s.admitSync a).copyDone = s.copyDone := by unfold admitSync; simp only; split <;> simp [*]
@[simp] theorem admitSync_runtime (s : State) (a : Arrival) : (s.admitSync a).runtime = s.runtime := by unfold admitSync; simp only; split <;> simp [*]
@[simp] theorem admitSync_inImages (s : State) (a : Arrival) : (s.admitSync a).inImages = s.inImages := by unfold admitSync; simp only; split <;> simp [*]
@[simp] theorem admitSync_outImages (s : State) (a : Arrival) : (s.admitSync a).outImages = s.outImages := by unfold admitSync; simp only; split <;> simp [*]
@[simp] theorem admitSync_agent (s : State) (a : Arrival) : (s.admitSync a).agent = s.agent := by unfold admitSync; simp only; split <;> simp [*]
@[simp] theorem admitSync_resetHeld (s : State) (a : Arrival) : (s.admitSync a).resetHeld = s.resetHeld := by unfold admitSync; simp only; split <;> simp [*]
@[simp] theorem admitSync_freeTick (s : State) (a : Arrival) : (s.admitSync a).freeTick = s.freeTick := by unfold admitSync; simp only; split <;> simp [*]
@[simp] theorem admitSync_pending (s : State) (a : Arrival) : (s.admitSync a).pending = s.pending := by unfold admitSync; simp only; split <;> simp [*]
@[simp] theorem admitSync_port_other (s : State) (a : Arrival) (q : Port) (hq : q ≠ .t) : (s.admitSync a).port q = s.port q := by unfold admitSync; simp only; split <;> simp [*]

/-! ## The Management Agent -/

@[simp] theorem cacheAnswer_mem (s : State) (e : CacheEntry) : (s.cacheAnswer e).mem = s.mem := rfl
@[simp] theorem cacheAnswer_copyDone (s : State) (e : CacheEntry) : (s.cacheAnswer e).copyDone = s.copyDone := rfl
@[simp] theorem cacheAnswer_cycle (s : State) (e : CacheEntry) : (s.cacheAnswer e).cycle = s.cycle := rfl
@[simp] theorem cacheAnswer_runtime (s : State) (e : CacheEntry) : (s.cacheAnswer e).runtime = s.runtime := rfl
@[simp] theorem cacheAnswer_inImages (s : State) (e : CacheEntry) : (s.cacheAnswer e).inImages = s.inImages := rfl
@[simp] theorem cacheAnswer_outImages (s : State) (e : CacheEntry) : (s.cacheAnswer e).outImages = s.outImages := rfl
@[simp] theorem cacheAnswer_egress (s : State) (e : CacheEntry) : (s.cacheAnswer e).egress = s.egress := rfl
@[simp] theorem cacheAnswer_notices (s : State) (e : CacheEntry) : (s.cacheAnswer e).notices = s.notices := rfl
@[simp] theorem cacheAnswer_counters (s : State) (e : CacheEntry) : (s.cacheAnswer e).counters = s.counters := rfl
@[simp] theorem cacheAnswer_resetHeld (s : State) (e : CacheEntry) : (s.cacheAnswer e).resetHeld = s.resetHeld := rfl
@[simp] theorem cacheAnswer_freeTick (s : State) (e : CacheEntry) : (s.cacheAnswer e).freeTick = s.freeTick := rfl
@[simp] theorem cacheAnswer_pending (s : State) (e : CacheEntry) : (s.cacheAnswer e).pending = s.pending := rfl
@[simp] theorem cacheAnswer_port (s : State) (e : CacheEntry) (q : Port) : (s.cacheAnswer e).port q = s.port q := rfl
@[simp] theorem cacheAnswer_bank (s : State) (e : CacheEntry) (k : BankId) : (s.cacheAnswer e).bank k = s.bank k := rfl
@[simp] theorem cacheAnswer_seg (s : State) (e : CacheEntry) (j : Segment) : (s.cacheAnswer e).seg j = s.seg j := rfl

@[simp] theorem buildAnswer_copyDone (s : State) (d : Nat) (st : AnswerStatus) (ws : List Word) : (s.buildAnswer d st ws).2.copyDone = s.copyDone := by
  unfold buildAnswer
  rcases hr : s.replaceChain d ws with ⟨b, s1⟩
  have h1 := replaceChain_copyDone s d ws
  rw [hr] at h1
  cases b <;> simpa using h1
@[simp] theorem buildAnswer_cycle (s : State) (d : Nat) (st : AnswerStatus) (ws : List Word) : (s.buildAnswer d st ws).2.cycle = s.cycle := by
  unfold buildAnswer
  rcases hr : s.replaceChain d ws with ⟨b, s1⟩
  have h1 := replaceChain_cycle s d ws
  rw [hr] at h1
  cases b <;> simpa using h1
@[simp] theorem buildAnswer_runtime (s : State) (d : Nat) (st : AnswerStatus) (ws : List Word) : (s.buildAnswer d st ws).2.runtime = s.runtime := by
  unfold buildAnswer
  rcases hr : s.replaceChain d ws with ⟨b, s1⟩
  have h1 := replaceChain_runtime s d ws
  rw [hr] at h1
  cases b <;> simpa using h1
@[simp] theorem buildAnswer_inImages (s : State) (d : Nat) (st : AnswerStatus) (ws : List Word) : (s.buildAnswer d st ws).2.inImages = s.inImages := by
  unfold buildAnswer
  rcases hr : s.replaceChain d ws with ⟨b, s1⟩
  have h1 := replaceChain_inImages s d ws
  rw [hr] at h1
  cases b <;> simpa using h1
@[simp] theorem buildAnswer_outImages (s : State) (d : Nat) (st : AnswerStatus) (ws : List Word) : (s.buildAnswer d st ws).2.outImages = s.outImages := by
  unfold buildAnswer
  rcases hr : s.replaceChain d ws with ⟨b, s1⟩
  have h1 := replaceChain_outImages s d ws
  rw [hr] at h1
  cases b <;> simpa using h1
@[simp] theorem buildAnswer_agent (s : State) (d : Nat) (st : AnswerStatus) (ws : List Word) : (s.buildAnswer d st ws).2.agent = s.agent := by
  unfold buildAnswer
  rcases hr : s.replaceChain d ws with ⟨b, s1⟩
  have h1 := replaceChain_agent s d ws
  rw [hr] at h1
  cases b <;> simpa using h1
@[simp] theorem buildAnswer_counters (s : State) (d : Nat) (st : AnswerStatus) (ws : List Word) : (s.buildAnswer d st ws).2.counters = s.counters := by
  unfold buildAnswer
  rcases hr : s.replaceChain d ws with ⟨b, s1⟩
  have h1 := replaceChain_counters s d ws
  rw [hr] at h1
  cases b <;> simpa using h1
@[simp] theorem buildAnswer_resetHeld (s : State) (d : Nat) (st : AnswerStatus) (ws : List Word) : (s.buildAnswer d st ws).2.resetHeld = s.resetHeld := by
  unfold buildAnswer
  rcases hr : s.replaceChain d ws with ⟨b, s1⟩
  have h1 := replaceChain_resetHeld s d ws
  rw [hr] at h1
  cases b <;> simpa using h1
@[simp] theorem buildAnswer_freeTick (s : State) (d : Nat) (st : AnswerStatus) (ws : List Word) : (s.buildAnswer d st ws).2.freeTick = s.freeTick := by
  unfold buildAnswer
  rcases hr : s.replaceChain d ws with ⟨b, s1⟩
  have h1 := replaceChain_freeTick s d ws
  rw [hr] at h1
  cases b <;> simpa using h1
@[simp] theorem buildAnswer_pending (s : State) (d : Nat) (st : AnswerStatus) (ws : List Word) : (s.buildAnswer d st ws).2.pending = s.pending := by
  unfold buildAnswer
  rcases hr : s.replaceChain d ws with ⟨b, s1⟩
  have h1 := replaceChain_pending s d ws
  rw [hr] at h1
  cases b <;> simpa using h1
@[simp] theorem buildAnswer_port_other (s : State) (d : Nat) (st : AnswerStatus) (ws : List Word) (q : Port) (hq : q ≠ .t) : (s.buildAnswer d st ws).2.port q = s.port q := by
  unfold buildAnswer
  rcases hr : s.replaceChain d ws with ⟨b, s1⟩
  have h1 := replaceChain_port_other s d ws q hq
  rw [hr] at h1
  cases b <;> simpa [hq] using h1
@[simp] theorem buildAnswer_bank (s : State) (d : Nat) (st : AnswerStatus) (ws : List Word) (k : BankId) : (s.buildAnswer d st ws).2.bank k = s.bank k := by
  unfold buildAnswer
  rcases hr : s.replaceChain d ws with ⟨b, s1⟩
  have h1 := replaceChain_bank s d ws k
  rw [hr] at h1
  cases b <;> simpa using h1
@[simp] theorem buildAnswer_seg (s : State) (d : Nat) (st : AnswerStatus) (ws : List Word) (j : Segment) : (s.buildAnswer d st ws).2.seg j = s.seg j := by
  unfold buildAnswer
  rcases hr : s.replaceChain d ws with ⟨b, s1⟩
  have h1 := replaceChain_seg s d ws j
  rw [hr] at h1
  cases b <;> simpa using h1

@[simp] theorem answer_copyDone (s : State) (d : Nat) (st : AnswerStatus) (ws : List Word) : (s.answer d st ws).copyDone = s.copyDone := by simp [answer]
@[simp] theorem answer_cycle (s : State) (d : Nat) (st : AnswerStatus) (ws : List Word) : (s.answer d st ws).cycle = s.cycle := by simp [answer]
@[simp] theorem answer_runtime (s : State) (d : Nat) (st : AnswerStatus) (ws : List Word) : (s.answer d st ws).runtime = s.runtime := by simp [answer]
@[simp] theorem answer_inImages (s : State) (d : Nat) (st : AnswerStatus) (ws : List Word) : (s.answer d st ws).inImages = s.inImages := by simp [answer]
@[simp] theorem answer_outImages (s : State) (d : Nat) (st : AnswerStatus) (ws : List Word) : (s.answer d st ws).outImages = s.outImages := by simp [answer]
@[simp] theorem answer_counters (s : State) (d : Nat) (st : AnswerStatus) (ws : List Word) : (s.answer d st ws).counters = s.counters := by simp [answer]
@[simp] theorem answer_resetHeld (s : State) (d : Nat) (st : AnswerStatus) (ws : List Word) : (s.answer d st ws).resetHeld = s.resetHeld := by simp [answer]
@[simp] theorem answer_freeTick (s : State) (d : Nat) (st : AnswerStatus) (ws : List Word) : (s.answer d st ws).freeTick = s.freeTick := by simp [answer]
@[simp] theorem answer_pending (s : State) (d : Nat) (st : AnswerStatus) (ws : List Word) : (s.answer d st ws).pending = s.pending := by simp [answer]
@[simp] theorem answer_port_other (s : State) (d : Nat) (st : AnswerStatus) (ws : List Word) (q : Port) (hq : q ≠ .t) : (s.answer d st ws).port q = s.port q := by simp [answer, hq]
@[simp] theorem answer_bank (s : State) (d : Nat) (st : AnswerStatus) (ws : List Word) (k : BankId) : (s.answer d st ws).bank k = s.bank k := by simp [answer]
@[simp] theorem answer_seg (s : State) (d : Nat) (st : AnswerStatus) (ws : List Word) (j : Segment) : (s.answer d st ws).seg j = s.seg j := by simp [answer]

@[simp] theorem answerFromCache_copyDone (s : State) (a : Arrival) (e : CacheEntry) : (s.answerFromCache a e).copyDone = s.copyDone := by unfold answerFromCache; split <;> simp [*]
@[simp] theorem answerFromCache_cycle (s : State) (a : Arrival) (e : CacheEntry) : (s.answerFromCache a e).cycle = s.cycle := by unfold answerFromCache; split <;> simp [*]
@[simp] theorem answerFromCache_runtime (s : State) (a : Arrival) (e : CacheEntry) : (s.answerFromCache a e).runtime = s.runtime := by unfold answerFromCache; split <;> simp [*]
@[simp] theorem answerFromCache_inImages (s : State) (a : Arrival) (e : CacheEntry) : (s.answerFromCache a e).inImages = s.inImages := by unfold answerFromCache; split <;> simp [*]
@[simp] theorem answerFromCache_outImages (s : State) (a : Arrival) (e : CacheEntry) : (s.answerFromCache a e).outImages = s.outImages := by unfold answerFromCache; split <;> simp [*]
@[simp] theorem answerFromCache_agent (s : State) (a : Arrival) (e : CacheEntry) : (s.answerFromCache a e).agent = s.agent := by unfold answerFromCache; split <;> simp [*]
@[simp] theorem answerFromCache_resetHeld (s : State) (a : Arrival) (e : CacheEntry) : (s.answerFromCache a e).resetHeld = s.resetHeld := by unfold answerFromCache; split <;> simp [*]
@[simp] theorem answerFromCache_freeTick (s : State) (a : Arrival) (e : CacheEntry) : (s.answerFromCache a e).freeTick = s.freeTick := by unfold answerFromCache; split <;> simp [*]
@[simp] theorem answerFromCache_pending (s : State) (a : Arrival) (e : CacheEntry) : (s.answerFromCache a e).pending = s.pending := by unfold answerFromCache; split <;> simp [*]
@[simp] theorem answerFromCache_port_other (s : State) (a : Arrival) (e : CacheEntry) (q : Port) (hq : q ≠ .t) : (s.answerFromCache a e).port q = s.port q := by unfold answerFromCache; split <;> simp [*]
@[simp] theorem answerFromCache_bank (s : State) (a : Arrival) (e : CacheEntry) (k : BankId) : (s.answerFromCache a e).bank k = s.bank k := by unfold answerFromCache; split <;> simp [*]
@[simp] theorem answerFromCache_seg (s : State) (a : Arrival) (e : CacheEntry) (j : Segment) : (s.answerFromCache a e).seg j = s.seg j := by unfold answerFromCache; split <;> simp [*]

@[simp] theorem admitRequest_copyDone (s : State) (a : Arrival) : (s.admitRequest a).copyDone = s.copyDone := by unfold admitRequest; split <;> simp [*]
@[simp] theorem admitRequest_cycle (s : State) (a : Arrival) : (s.admitRequest a).cycle = s.cycle := by unfold admitRequest; split <;> simp [*]
@[simp] theorem admitRequest_runtime (s : State) (a : Arrival) : (s.admitRequest a).runtime = s.runtime := by unfold admitRequest; split <;> simp [*]
@[simp] theorem admitRequest_inImages (s : State) (a : Arrival) : (s.admitRequest a).inImages = s.inImages := by unfold admitRequest; split <;> simp [*]
@[simp] theorem admitRequest_outImages (s : State) (a : Arrival) : (s.admitRequest a).outImages = s.outImages := by unfold admitRequest; split <;> simp [*]
@[simp] theorem admitRequest_egress (s : State) (a : Arrival) : (s.admitRequest a).egress = s.egress := by unfold admitRequest; split <;> simp [*]
@[simp] theorem admitRequest_notices (s : State) (a : Arrival) : (s.admitRequest a).notices = s.notices := by unfold admitRequest; split <;> simp [*]
@[simp] theorem admitRequest_resetHeld (s : State) (a : Arrival) : (s.admitRequest a).resetHeld = s.resetHeld := by unfold admitRequest; split <;> simp [*]
@[simp] theorem admitRequest_freeTick (s : State) (a : Arrival) : (s.admitRequest a).freeTick = s.freeTick := by unfold admitRequest; split <;> simp [*]
@[simp] theorem admitRequest_pending (s : State) (a : Arrival) : (s.admitRequest a).pending = s.pending := by unfold admitRequest; split <;> simp [*]
@[simp] theorem admitRequest_port (s : State) (a : Arrival) (q : Port) : (s.admitRequest a).port q = s.port q := by unfold admitRequest; split <;> simp [*]
@[simp] theorem admitRequest_bank (s : State) (a : Arrival) (k : BankId) : (s.admitRequest a).bank k = s.bank k := by unfold admitRequest; split <;> simp [*]
@[simp] theorem admitRequest_seg (s : State) (a : Arrival) (j : Segment) : (s.admitRequest a).seg j = s.seg j := by unfold admitRequest; split <;> simp [*]

@[simp] theorem intake_copyDone (s : State) (a : Arrival) : (s.intake a).copyDone = s.copyDone := by unfold intake; (repeat' split) <;> simp [*]
@[simp] theorem intake_cycle (s : State) (a : Arrival) : (s.intake a).cycle = s.cycle := by unfold intake; (repeat' split) <;> simp [*]
@[simp] theorem intake_runtime (s : State) (a : Arrival) : (s.intake a).runtime = s.runtime := by unfold intake; (repeat' split) <;> simp [*]
@[simp] theorem intake_inImages (s : State) (a : Arrival) : (s.intake a).inImages = s.inImages := by unfold intake; (repeat' split) <;> simp [*]
@[simp] theorem intake_outImages (s : State) (a : Arrival) : (s.intake a).outImages = s.outImages := by unfold intake; (repeat' split) <;> simp [*]
@[simp] theorem intake_resetHeld (s : State) (a : Arrival) : (s.intake a).resetHeld = s.resetHeld := by unfold intake; (repeat' split) <;> simp [*]
@[simp] theorem intake_freeTick (s : State) (a : Arrival) : (s.intake a).freeTick = s.freeTick := by unfold intake; (repeat' split) <;> simp [*]
@[simp] theorem intake_pending (s : State) (a : Arrival) : (s.intake a).pending = s.pending := by unfold intake; (repeat' split) <;> simp [*]
@[simp] theorem intake_port_other (s : State) (a : Arrival) (q : Port) (hq : q ≠ .t) : (s.intake a).port q = s.port q := by unfold intake; (repeat' split) <;> simp [*]
@[simp] theorem intake_bank (s : State) (a : Arrival) (k : BankId) : (s.intake a).bank k = s.bank k := by unfold intake; (repeat' split) <;> simp [*]
@[simp] theorem intake_seg (s : State) (a : Arrival) (j : Segment) : (s.intake a).seg j = s.seg j := by unfold intake; (repeat' split) <;> simp [*]

@[simp] theorem answerOpen_copyDone (s : State) (st : AnswerStatus) (ws : List Word) : (s.answerOpen st ws).copyDone = s.copyDone := by unfold answerOpen; split <;> simp [*]
@[simp] theorem answerOpen_cycle (s : State) (st : AnswerStatus) (ws : List Word) : (s.answerOpen st ws).cycle = s.cycle := by unfold answerOpen; split <;> simp [*]
@[simp] theorem answerOpen_runtime (s : State) (st : AnswerStatus) (ws : List Word) : (s.answerOpen st ws).runtime = s.runtime := by unfold answerOpen; split <;> simp [*]
@[simp] theorem answerOpen_inImages (s : State) (st : AnswerStatus) (ws : List Word) : (s.answerOpen st ws).inImages = s.inImages := by unfold answerOpen; split <;> simp [*]
@[simp] theorem answerOpen_outImages (s : State) (st : AnswerStatus) (ws : List Word) : (s.answerOpen st ws).outImages = s.outImages := by unfold answerOpen; split <;> simp [*]
@[simp] theorem answerOpen_counters (s : State) (st : AnswerStatus) (ws : List Word) : (s.answerOpen st ws).counters = s.counters := by unfold answerOpen; split <;> simp [*]
@[simp] theorem answerOpen_resetHeld (s : State) (st : AnswerStatus) (ws : List Word) : (s.answerOpen st ws).resetHeld = s.resetHeld := by unfold answerOpen; split <;> simp [*]
@[simp] theorem answerOpen_freeTick (s : State) (st : AnswerStatus) (ws : List Word) : (s.answerOpen st ws).freeTick = s.freeTick := by unfold answerOpen; split <;> simp [*]
@[simp] theorem answerOpen_pending (s : State) (st : AnswerStatus) (ws : List Word) : (s.answerOpen st ws).pending = s.pending := by unfold answerOpen; split <;> simp [*]
@[simp] theorem answerOpen_port_other (s : State) (st : AnswerStatus) (ws : List Word) (q : Port) (hq : q ≠ .t) : (s.answerOpen st ws).port q = s.port q := by unfold answerOpen; split <;> simp [*]
@[simp] theorem answerOpen_bank (s : State) (st : AnswerStatus) (ws : List Word) (k : BankId) : (s.answerOpen st ws).bank k = s.bank k := by unfold answerOpen; split <;> simp [*]
@[simp] theorem answerOpen_seg (s : State) (st : AnswerStatus) (ws : List Word) (j : Segment) : (s.answerOpen st ws).seg j = s.seg j := by unfold answerOpen; split <;> simp [*]

/-! ## Arrivals and transmission complete -/

@[simp] theorem arriveTrunk_copyDone (s : State) (a : Arrival) : (s.arriveTrunk a).copyDone = s.copyDone := by unfold arriveTrunk; (repeat' split) <;> simp [*]
@[simp] theorem arriveTrunk_runtime (s : State) (a : Arrival) : (s.arriveTrunk a).runtime = s.runtime := by unfold arriveTrunk; (repeat' split) <;> simp [*]
@[simp] theorem arriveTrunk_inImages (s : State) (a : Arrival) : (s.arriveTrunk a).inImages = s.inImages := by unfold arriveTrunk; (repeat' split) <;> simp [*]
@[simp] theorem arriveTrunk_outImages (s : State) (a : Arrival) : (s.arriveTrunk a).outImages = s.outImages := by unfold arriveTrunk; (repeat' split) <;> simp [*]
@[simp] theorem arriveTrunk_resetHeld (s : State) (a : Arrival) : (s.arriveTrunk a).resetHeld = s.resetHeld := by unfold arriveTrunk; (repeat' split) <;> simp [*]
@[simp] theorem arriveTrunk_freeTick (s : State) (a : Arrival) : (s.arriveTrunk a).freeTick = s.freeTick := by unfold arriveTrunk; (repeat' split) <;> simp [*]
@[simp] theorem arriveTrunk_pending (s : State) (a : Arrival) : (s.arriveTrunk a).pending = s.pending := by unfold arriveTrunk; (repeat' split) <;> simp [*]
@[simp] theorem arriveTrunk_port_other (s : State) (a : Arrival) (q : Port) (hq : q ≠ .t) : (s.arriveTrunk a).port q = s.port q := by unfold arriveTrunk; (repeat' split) <;> simp [*]

@[simp] theorem arriveDrop_copyDone (s : State) (g : Segment) (a : Arrival) : (s.arriveDrop g a).copyDone = s.copyDone := by unfold arriveDrop; (repeat' split) <;> simp [*]
@[simp] theorem arriveDrop_cycle (s : State) (g : Segment) (a : Arrival) : (s.arriveDrop g a).cycle = s.cycle := by unfold arriveDrop; (repeat' split) <;> simp [*]
@[simp] theorem arriveDrop_outImages (s : State) (g : Segment) (a : Arrival) : (s.arriveDrop g a).outImages = s.outImages := by unfold arriveDrop; (repeat' split) <;> simp [*]
@[simp] theorem arriveDrop_agent (s : State) (g : Segment) (a : Arrival) : (s.arriveDrop g a).agent = s.agent := by unfold arriveDrop; (repeat' split) <;> simp [*]
@[simp] theorem arriveDrop_resetHeld (s : State) (g : Segment) (a : Arrival) : (s.arriveDrop g a).resetHeld = s.resetHeld := by unfold arriveDrop; (repeat' split) <;> simp [*]
@[simp] theorem arriveDrop_freeTick (s : State) (g : Segment) (a : Arrival) : (s.arriveDrop g a).freeTick = s.freeTick := by unfold arriveDrop; (repeat' split) <;> simp [*]
@[simp] theorem arriveDrop_pending (s : State) (g : Segment) (a : Arrival) : (s.arriveDrop g a).pending = s.pending := by unfold arriveDrop; (repeat' split) <;> simp [*]
@[simp] theorem arriveDrop_port_other (s : State) (g : Segment) (a : Arrival) (q : Port) (hq : q ≠ .t) : (s.arriveDrop g a).port q = s.port q := by unfold arriveDrop; (repeat' split) <;> simp [*]
@[simp] theorem arriveDrop_seg_other (s : State) (g : Segment) (a : Arrival) (j : Segment) (hj : j ≠ g) : (s.arriveDrop g a).seg j = s.seg j := by unfold arriveDrop; (repeat' split) <;> simp [*]

@[simp] theorem egressComplete_copyDone (s : State) : s.egressComplete.copyDone = s.copyDone := by unfold egressComplete; split <;> simp [*]
@[simp] theorem egressComplete_cycle (s : State) : s.egressComplete.cycle = s.cycle := by unfold egressComplete; split <;> simp [*]
@[simp] theorem egressComplete_runtime (s : State) : s.egressComplete.runtime = s.runtime := by unfold egressComplete; split <;> simp [*]
@[simp] theorem egressComplete_inImages (s : State) : s.egressComplete.inImages = s.inImages := by unfold egressComplete; split <;> simp [*]
@[simp] theorem egressComplete_outImages (s : State) : s.egressComplete.outImages = s.outImages := by unfold egressComplete; split <;> simp [*]
@[simp] theorem egressComplete_agent (s : State) : s.egressComplete.agent = s.agent := by unfold egressComplete; split <;> simp [*]
@[simp] theorem egressComplete_counters (s : State) : s.egressComplete.counters = s.counters := by unfold egressComplete; split <;> simp [*]
@[simp] theorem egressComplete_resetHeld (s : State) : s.egressComplete.resetHeld = s.resetHeld := by unfold egressComplete; split <;> simp [*]
@[simp] theorem egressComplete_freeTick (s : State) : s.egressComplete.freeTick = s.freeTick := by unfold egressComplete; split <;> simp [*]
@[simp] theorem egressComplete_pending (s : State) : s.egressComplete.pending = s.pending := by unfold egressComplete; split <;> simp [*]
@[simp] theorem egressComplete_port_other (s : State) (q : Port) (hq : q ≠ .t) : s.egressComplete.port q = s.port q := by unfold egressComplete; split <;> simp [*]
@[simp] theorem egressComplete_bank (s : State) (k : BankId) : s.egressComplete.bank k = s.bank k := by unfold egressComplete; split <;> simp [*]
@[simp] theorem egressComplete_seg (s : State) (j : Segment) : s.egressComplete.seg j = s.seg j := by unfold egressComplete; split <;> simp [*]

@[simp] theorem dropComplete_copyDone (s : State) (g : Segment) : (s.dropComplete g).copyDone = s.copyDone := by unfold dropComplete; split <;> simp [*]
@[simp] theorem dropComplete_cycle (s : State) (g : Segment) : (s.dropComplete g).cycle = s.cycle := by unfold dropComplete; split <;> simp [*]
@[simp] theorem dropComplete_runtime (s : State) (g : Segment) : (s.dropComplete g).runtime = s.runtime := by unfold dropComplete; split <;> simp [*]
@[simp] theorem dropComplete_inImages (s : State) (g : Segment) : (s.dropComplete g).inImages = s.inImages := by unfold dropComplete; split <;> simp [*]
@[simp] theorem dropComplete_outImages (s : State) (g : Segment) : (s.dropComplete g).outImages = s.outImages := by unfold dropComplete; split <;> simp [*]
@[simp] theorem dropComplete_agent (s : State) (g : Segment) : (s.dropComplete g).agent = s.agent := by unfold dropComplete; split <;> simp [*]
@[simp] theorem dropComplete_counters (s : State) (g : Segment) : (s.dropComplete g).counters = s.counters := by unfold dropComplete; split <;> simp [*]
@[simp] theorem dropComplete_resetHeld (s : State) (g : Segment) : (s.dropComplete g).resetHeld = s.resetHeld := by unfold dropComplete; split <;> simp [*]
@[simp] theorem dropComplete_freeTick (s : State) (g : Segment) : (s.dropComplete g).freeTick = s.freeTick := by unfold dropComplete; split <;> simp [*]
@[simp] theorem dropComplete_pending (s : State) (g : Segment) : (s.dropComplete g).pending = s.pending := by unfold dropComplete; split <;> simp [*]
@[simp] theorem dropComplete_port_other (s : State) (g : Segment) (q : Port) (hq : q ≠ .t) : (s.dropComplete g).port q = s.port q := by unfold dropComplete; split <;> simp [*]
@[simp] theorem dropComplete_bank (s : State) (g : Segment) (k : BankId) : (s.dropComplete g).bank k = s.bank k := by unfold dropComplete; split <;> simp [*]
@[simp] theorem dropComplete_seg_other (s : State) (g : Segment) (j : Segment) (hj : j ≠ g) : (s.dropComplete g).seg j = s.seg j := by unfold dropComplete; split <;> simp [*]

end State

end Sys2Proof.Machine
end

