-- ==== Sys2Proof/Laws/Line.lean ====
section
/-! SUPPORT. What a receiver takes from serial bytes, and the serial bytes of a stream of line bits. -/

namespace Sys2Proof.Machine

/-! ## One serial byte -/

@[simp] theorem getLsbD_zero_serialOf (b : Byte) : (serialOf b).getLsbD 0 = false := by
  revert b; decide +kernel

@[simp] theorem dataByte_serialOf (b : Byte) : dataByte (serialOf b) = b := by
  revert b; decide +kernel

theorem getLsbD_dataByte (f : SerialByte) {i : Nat} (h : i < 8) : (dataByte f).getLsbD i = f.getLsbD (1 + i) := by
  simp [dataByte, h]

theorem takenByte_of_low {f : SerialByte} (h : f.getLsbD 0 = false) : takenByte f = some (dataByte f) := by
  rw [takenByte, h]; rfl

theorem takenByte_of_high {f : SerialByte} (h : f.getLsbD 0 = true) : takenByte f = none := by
  rw [takenByte, h]; rfl

@[simp] theorem takenByte_serialOf (b : Byte) : takenByte (serialOf b) = some b := by
  rw [takenByte_of_low (getLsbD_zero_serialOf b), dataByte_serialOf]

theorem serialBits_serialOf (b : Byte) :
    serialBits (serialOf b) =
      [false, b.getLsbD 0, b.getLsbD 1, b.getLsbD 2, b.getLsbD 3, b.getLsbD 4, b.getLsbD 5, b.getLsbD 6, b.getLsbD 7,
        true] := by
  revert b; decide +kernel

/-! ## Serial bytes one after another -/

@[simp] theorem takenBytes_nil : takenBytes [] = [] := rfl

theorem takenBytes_cons (f : SerialByte) (fs : List SerialByte) :
    takenBytes (f :: fs) = (takenByte f).toList ++ takenBytes fs := by
  cases h : takenByte f <;> simp [takenBytes, h]

@[simp] theorem takenBytes_append (fs gs : List SerialByte) :
    takenBytes (fs ++ gs) = takenBytes fs ++ takenBytes gs := List.filterMap_append

@[simp] theorem takenBytes_map_serialOf (bs : List Byte) : takenBytes (bs.map serialOf) = bs := by
  induction bs with
  | nil => rfl
  | cons b bs ih => rw [List.map_cons, takenBytes_cons, takenByte_serialOf, ih]; rfl

@[simp] theorem takenBytes_lineSerial (p : Port) (t : Telegram) : takenBytes (lineSerial p t) = lineBytes p t :=
  takenBytes_map_serialOf _

theorem receiveSerial_eq (s : State) (p : Port) (fs : List SerialByte) :
    s.receiveSerial p fs = s.receiveBytes p (takenBytes fs) := rfl

/-! ## Line bits -/

@[simp] theorem serialBytes_nil : serialBytes [] = [] := rfl

@[simp] theorem serialBytes_rest (bits : List Bool) : serialBytes (true :: bits) = serialBytes bits := rfl

theorem ofBoolListLE_serialBits (f : SerialByte) :
    BitVec.ofBoolListLE
      [f.getLsbD 0, f.getLsbD 1, f.getLsbD 2, f.getLsbD 3, f.getLsbD 4, f.getLsbD 5, f.getLsbD 6, f.getLsbD 7,
        f.getLsbD 8, f.getLsbD 9] = f := by
  apply BitVec.eq_of_getLsbD_eq
  intro i hi
  have hi : i < 10 := hi
  rw [BitVec.getLsbD_ofBoolListLE]
  interval_cases i <;> rfl

theorem serialBytes_serialBits {f : SerialByte} (h : f.getLsbD 0 = false) (bits : List Bool) :
    serialBytes (serialBits f ++ bits) = f :: serialBytes bits := by
  have hf := ofBoolListLE_serialBits f
  rw [h] at hf
  simp only [serialBits, List.map_cons, List.map_nil, List.cons_append, List.nil_append, h, serialBytes]
  exact congrArg (· :: serialBytes bits) hf

end Sys2Proof.Machine
end

