-- ==== Sys2Proof/Laws/Tables.lean ====
section
/-! SUPPORT. The algebra of tables: what a lookup reads after each operation, and that each operation keeps the canonical
form. -/

namespace Sys2Proof.Machine

namespace Table

variable {α : Type}

/-! ## Rising order -/

/-- Every number of the table is above `j`. -/
def above (j : Nat) (t : Table α) : Prop := ∀ e ∈ t, j < e.1

/-- A table with a head rises exactly when its tail does and lies above the head. -/
theorem rising_cons (j : Nat) (v : α) (t : Table α) :
    rising ((j, v) :: t) = true ↔ above j t ∧ rising t = true := by
  induction t generalizing j v with
  | nil => simp [rising, above]
  | cons e rest ih =>
    obtain ⟨k, w⟩ := e
    simp only [rising, Bool.and_eq_true, decide_eq_true_eq, above, List.mem_cons]
    constructor
    · rintro ⟨hjk, hr⟩
      refine ⟨?_, hr⟩
      have hab := ((ih k w).1 hr).1
      rintro e (rfl | he)
      · exact hjk
      · exact Nat.lt_trans hjk (hab e he)
    · rintro ⟨hab, hr⟩
      exact ⟨hab (k, w) (Or.inl rfl), hr⟩

theorem rising_tail {j : Nat} {v : α} {t : Table α} (h : rising ((j, v) :: t) = true) : rising t = true :=
  ((rising_cons j v t).1 h).2

theorem rising_above {j : Nat} {v : α} {t : Table α} (h : rising ((j, v) :: t) = true) : above j t :=
  ((rising_cons j v t).1 h).1

/-- A rising table is a list sorted strictly by number. -/
theorem rising_iff_pairwise (t : Table α) : rising t = true ↔ List.Pairwise (fun a b => a.1 < b.1) t := by
  induction t with
  | nil => simp [rising]
  | cons e rest ih =>
    obtain ⟨j, v⟩ := e
    rw [rising_cons, List.pairwise_cons, ih]
    rfl

/-- The numbers of a rising table are pairwise distinct. -/
theorem rising_nodup {t : Table α} (h : rising t = true) : (List.map (fun e => e.1) t).Nodup := by
  rw [rising_iff_pairwise] at h
  refine List.Pairwise.map _ ?_ h
  intro a b hab
  exact Nat.ne_of_lt hab

/-! ## Lookup -/

@[simp] theorem lookup_nil (k : Nat) : lookup ([] : Table α) k = none := rfl

/-- A number below every listed one is not listed. -/
theorem lookup_above {j k : Nat} {t : Table α} (h : above j t) (hk : k ≤ j) : lookup t k = none := by
  cases t with
  | nil => rfl
  | cons e rest =>
    obtain ⟨i, v⟩ := e
    have hi : j < i := h (i, v) (by simp)
    have h1 : i ≠ k := by omega
    have h2 : k < i := by omega
    simp [lookup, h1, h2]

/-- In a rising table, the entries are exactly what the lookup finds. -/
theorem lookup_eq_some {t : Table α} (h : rising t = true) (k : Nat) (v : α) :
    lookup t k = some v ↔ (k, v) ∈ t := by
  induction t with
  | nil => simp
  | cons e rest ih =>
    obtain ⟨j, w⟩ := e
    have hr := rising_tail h
    have ha := rising_above h
    unfold lookup
    by_cases hjk : j = k
    · subst hjk
      simp only [if_true, Option.some.injEq, List.mem_cons, Prod.mk.injEq, true_and]
      constructor
      · intro hw
        exact Or.inl hw.symm
      · rintro (hw | hm)
        · exact hw.symm
        · exact absurd (ha _ hm) (Nat.lt_irrefl _)
    · simp only [hjk, if_false, List.mem_cons, Prod.mk.injEq]
      by_cases hlt : k < j
      · simp only [hlt, if_true]
        constructor
        · intro hn
          cases hn
        · rintro (⟨hk, _⟩ | hm)
          · exact absurd hk.symm hjk
          · have := ha _ hm
            simp only at this
            omega
      · simp only [hlt, if_false]
        rw [ih hr]
        constructor
        · exact Or.inr
        · rintro (⟨hk, _⟩ | hm)
          · exact absurd hk.symm hjk
          · exact hm

/-- A number that is not listed. -/
theorem lookup_eq_none {t : Table α} (h : rising t = true) (k : Nat) :
    lookup t k = none ↔ k ∉ List.map (fun e => e.1) t := by
  rw [Option.eq_none_iff_forall_ne_some]
  constructor
  · intro hn hk
    obtain ⟨e, he, rfl⟩ := List.mem_map.1 hk
    exact hn e.2 ((lookup_eq_some h _ _).2 he)
  · intro hk v hv
    exact hk (List.mem_map.2 ⟨(k, v), (lookup_eq_some h _ _).1 hv, rfl⟩)

/-! ## Insert -/

theorem mem_insert {t : Table α} {k : Nat} {v : α} {e : Nat × α} (h : e ∈ insert t k v) : e = (k, v) ∨ e ∈ t := by
  induction t with
  | nil => simpa [insert] using h
  | cons f rest ih =>
    obtain ⟨j, w⟩ := f
    unfold insert at h
    split at h
    · simpa using h
    · split at h
      · rcases List.mem_cons.1 h with h | h
        · exact Or.inl h
        · exact Or.inr (List.mem_cons_of_mem _ h)
      · rcases List.mem_cons.1 h with h | h
        · exact Or.inr (h ▸ List.mem_cons_self ..)
        · rcases ih h with h | h
          · exact Or.inl h
          · exact Or.inr (List.mem_cons_of_mem _ h)

/-- Listing a number keeps the rising order. -/
theorem rising_insert {t : Table α} (h : rising t = true) (k : Nat) (v : α) : rising (insert t k v) = true := by
  induction t with
  | nil => rfl
  | cons e rest ih =>
    obtain ⟨j, w⟩ := e
    have hr := rising_tail h
    have ha := rising_above h
    unfold insert
    by_cases hkj : k < j
    · rw [if_pos hkj, rising_cons]
      refine ⟨?_, h⟩
      intro e he
      rcases List.mem_cons.1 he with rfl | he
      · exact hkj
      · exact Nat.lt_trans hkj (ha e he)
    · rw [if_neg hkj]
      by_cases hjk : j = k
      · subst hjk
        rw [if_pos rfl, rising_cons]
        exact ⟨ha, hr⟩
      · rw [if_neg hjk, rising_cons]
        refine ⟨?_, ih hr⟩
        intro e he
        rcases mem_insert he with rfl | he
        · simp only
          omega
        · exact ha e he

@[simp] theorem lookup_insert_same (t : Table α) (k : Nat) (v : α) : lookup (insert t k v) k = some v := by
  induction t with
  | nil => simp [insert, lookup]
  | cons e rest ih =>
    obtain ⟨j, w⟩ := e
    unfold insert
    by_cases hkj : k < j
    · simp [hkj, lookup]
    · by_cases hjk : j = k
      · simp [hjk, lookup]
      · simp [hkj, hjk, lookup, ih]

theorem lookup_insert_other (t : Table α) {k i : Nat} (v : α) (hi : i ≠ k) : lookup (insert t k v) i = lookup t i := by
  induction t with
  | nil =>
    have : k ≠ i := fun h => hi h.symm
    simp [insert, lookup, this]
  | cons e rest ih =>
    obtain ⟨j, w⟩ := e
    have hki : k ≠ i := fun h => hi h.symm
    unfold insert
    by_cases hkj : k < j
    · rw [if_pos hkj]
      by_cases hik : i < k
      · have h1 : j ≠ i := by omega
        have h2 : i < j := by omega
        simp [lookup, hki, hik, h1, h2]
      · simp [lookup, hki, hik]
    · by_cases hjk : j = k
      · subst hjk
        simp only [Nat.lt_irrefl, if_false, if_true]
        by_cases hij : i < j
        · simp [lookup, hki, hij]
        · simp [lookup, hki, hij]
      · simp only [hkj, hjk, if_false]
        simp only [lookup, ih]

/-- What a lookup reads after a listing. -/
theorem lookup_insert (t : Table α) (k i : Nat) (v : α) :
    lookup (insert t k v) i = if i = k then some v else lookup t i := by
  split
  · next h => rw [h, lookup_insert_same]
  · next h => exact lookup_insert_other t v h

/-! ## Erase -/

theorem mem_of_mem_erase {t : Table α} {k : Nat} {e : Nat × α} (h : e ∈ erase t k) : e ∈ t := by
  induction t with
  | nil => simp [erase] at h
  | cons f rest ih =>
    obtain ⟨j, w⟩ := f
    unfold erase at h
    split at h
    · exact List.mem_cons_of_mem _ h
    · split at h
      · exact h
      · rcases List.mem_cons.1 h with h | h
        · exact h ▸ List.mem_cons_self ..
        · exact List.mem_cons_of_mem _ (ih h)

/-- Unlisting a number keeps the rising order. -/
theorem rising_erase {t : Table α} (h : rising t = true) (k : Nat) : rising (erase t k) = true := by
  induction t with
  | nil => rfl
  | cons e rest ih =>
    obtain ⟨j, w⟩ := e
    have hr := rising_tail h
    have ha := rising_above h
    unfold erase
    split
    · exact hr
    · split
      · exact h
      · rw [rising_cons]
        exact ⟨fun e he => ha e (mem_of_mem_erase he), ih hr⟩

theorem lookup_erase_same {t : Table α} (h : rising t = true) (k : Nat) : lookup (erase t k) k = none := by
  induction t with
  | nil => rfl
  | cons e rest ih =>
    obtain ⟨j, w⟩ := e
    have hr := rising_tail h
    have ha := rising_above h
    unfold erase
    by_cases hjk : j = k
    · rw [if_pos hjk]
      exact lookup_above ha (by omega)
    · rw [if_neg hjk]
      by_cases hkj : k < j
      · simp [hkj, lookup, hjk]
      · simp [hkj, lookup, hjk, ih hr]

theorem lookup_erase_other {t : Table α} (h : rising t = true) {k i : Nat} (hi : i ≠ k) :
    lookup (erase t k) i = lookup t i := by
  induction t with
  | nil => rfl
  | cons e rest ih =>
    obtain ⟨j, w⟩ := e
    have hr := rising_tail h
    have ha := rising_above h
    have hki : k ≠ i := fun h => hi h.symm
    unfold erase
    by_cases hjk : j = k
    · subst hjk
      rw [if_pos rfl]
      by_cases hij : i < j
      · simp [lookup, hki, hij, lookup_above ha (Nat.le_of_lt hij)]
      · simp [lookup, hki, hij]
    · rw [if_neg hjk]
      by_cases hkj : k < j
      · rw [if_pos hkj]
      · rw [if_neg hkj]
        simp only [lookup, ih hr]

/-- What a lookup reads after an unlisting. -/
theorem lookup_erase {t : Table α} (h : rising t = true) (k i : Nat) :
    lookup (erase t k) i = if i = k then none else lookup t i := by
  split
  · next hi => rw [hi, lookup_erase_same h]
  · next hi => exact lookup_erase_other h hi

/-! ## Tables as multisets of entries -/

/-- A listed number's entry and the rest. -/
theorem perm_of_lookup {t : Table α} {k : Nat} {v : α} (hl : lookup t k = some v) :
    List.Perm t ((k, v) :: erase t k) := by
  induction t with
  | nil => simp at hl
  | cons e rest ih =>
    obtain ⟨j, w⟩ := e
    unfold lookup at hl
    unfold erase
    by_cases hjk : j = k
    · rw [if_pos hjk] at hl
      cases hl
      rw [if_pos hjk, hjk]
    · rw [if_neg hjk] at hl
      by_cases hkj : k < j
      · rw [if_pos hkj] at hl
        cases hl
      · rw [if_neg hkj] at hl
        rw [if_neg hjk, if_neg hkj]
        exact ((ih hl).cons _).trans (List.Perm.swap ..)

/-- Unlisting a number that is not listed changes nothing. -/
theorem erase_of_none {t : Table α} {k : Nat} (hl : lookup t k = none) : erase t k = t := by
  induction t with
  | nil => rfl
  | cons e rest ih =>
    obtain ⟨j, w⟩ := e
    unfold lookup at hl
    unfold erase
    by_cases hjk : j = k
    · rw [if_pos hjk] at hl
      cases hl
    · rw [if_neg hjk] at hl ⊢
      by_cases hkj : k < j
      · rw [if_pos hkj]
      · rw [if_neg hkj] at hl ⊢
        rw [ih hl]

/-- Unlisting after listing the same number. -/
theorem erase_insert (t : Table α) (k : Nat) (v : α) : erase (insert t k v) k = erase t k := by
  induction t with
  | nil => simp [insert, erase]
  | cons e rest ih =>
    obtain ⟨j, w⟩ := e
    unfold insert
    by_cases hkj : k < j
    · have : j ≠ k := by omega
      simp [hkj, erase, this]
    · by_cases hjk : j = k
      · simp [hjk, erase]
      · simp [hkj, hjk, erase, ih]

/-- A listing's entry and the rest. -/
theorem insert_perm (t : Table α) (k : Nat) (v : α) : List.Perm (insert t k v) ((k, v) :: erase t k) := by
  have h := perm_of_lookup (lookup_insert_same t k v)
  rwa [erase_insert] at h

/-- Listing a listed number anew leaves the numbers listed as they were. -/
theorem keys_insert {t : Table α} (h : rising t = true) {k : Nat} {v : α} (hl : lookup t k = some v) (w : α) :
    List.map (fun e => e.1) (insert t k w) = List.map (fun e => e.1) t := by
  refine List.Perm.eq_of_pairwise (le := fun a b => a < b)
    (fun a b _ _ h1 h2 => absurd (Nat.lt_trans h1 h2) (Nat.lt_irrefl _)) ?_ ?_ ?_
  · exact List.Pairwise.map _ (fun _ _ hab => hab) ((rising_iff_pairwise _).1 (rising_insert h k w))
  · exact List.Pairwise.map _ (fun _ _ hab => hab) ((rising_iff_pairwise _).1 h)
  · have h1 := (insert_perm t k w).map fun e => e.1
    have h2 := (perm_of_lookup hl).map fun e => e.1
    exact h1.trans h2.symm

/-! ## Set and get -/

@[simp] theorem get_nil (dflt : α) (k : Nat) : get dflt ([] : Table α) k = dflt := rfl

variable [DecidableEq α]

/-- The canonical form: rising, and no entry equal to what an unlisted number reads as. -/
theorem wf_iff (dflt : α) (t : Table α) : wf dflt t = true ↔ rising t = true ∧ ∀ e ∈ t, e.2 ≠ dflt := by
  simp [wf, List.all_eq_true]

theorem wf_rising {dflt : α} {t : Table α} (h : wf dflt t = true) : rising t = true := ((wf_iff dflt t).1 h).1

/-- Setting an entry keeps the canonical form. -/
theorem wf_set {dflt : α} {t : Table α} (h : wf dflt t = true) (k : Nat) (v : α) : wf dflt (set dflt t k v) = true := by
  rw [wf_iff] at h ⊢
  unfold set
  split
  · exact ⟨rising_erase h.1 k, fun e he => h.2 e (mem_of_mem_erase he)⟩
  · next hv =>
    refine ⟨rising_insert h.1 k v, fun e he => ?_⟩
    rcases mem_insert he with rfl | he
    · exact hv
    · exact h.2 e he

theorem get_set_same {dflt : α} {t : Table α} (h : rising t = true) (k : Nat) (v : α) :
    get dflt (set dflt t k v) k = v := by
  unfold get set
  split
  · next hv => rw [lookup_erase_same h, Option.getD_none, hv]
  · rw [lookup_insert_same, Option.getD_some]

theorem get_set_other {dflt : α} {t : Table α} (h : rising t = true) {k i : Nat} (v : α) (hi : i ≠ k) :
    get dflt (set dflt t k v) i = get dflt t i := by
  unfold get set
  split
  · rw [lookup_erase_other h hi]
  · rw [lookup_insert_other t v hi]

/-- What a number reads as after a setting. -/
theorem get_set {dflt : α} {t : Table α} (h : rising t = true) (k i : Nat) (v : α) :
    get dflt (set dflt t k v) i = if i = k then v else get dflt t i := by
  split
  · next hi => rw [hi, get_set_same h]
  · next hi => exact get_set_other h v hi

/-- In canonical form, equal reads make equal tables. -/
theorem ext_of_wf {dflt : α} {t u : Table α} (ht : wf dflt t = true) (hu : wf dflt u = true)
    (h : ∀ k, get dflt t k = get dflt u k) : t = u := by
  rw [wf_iff] at ht hu
  have key : ∀ {x y : Table α}, (rising x = true ∧ ∀ e ∈ x, e.2 ≠ dflt) → (rising y = true ∧ ∀ e ∈ y, e.2 ≠ dflt) →
      (∀ k, get dflt x k = get dflt y k) → ∀ e ∈ x, e ∈ y := by
    intro x y hx hy hxy e he
    have hl := (lookup_eq_some hx.1 e.1 e.2).2 he
    have hg : get dflt y e.1 = e.2 := by
      rw [← hxy e.1]
      simp [get, hl]
    unfold get at hg
    cases hl2 : lookup y e.1 with
    | none =>
      rw [hl2, Option.getD_none] at hg
      exact absurd hg.symm (hx.2 e he)
    | some w =>
      rw [hl2, Option.getD_some] at hg
      subst hg
      exact (lookup_eq_some hy.1 e.1 e.2).1 hl2
  have hp1 := (rising_iff_pairwise t).1 ht.1
  have hp2 := (rising_iff_pairwise u).1 hu.1
  have hperm : List.Perm t u := by
    refine (List.perm_ext_iff_of_nodup ?_ ?_).2 fun e => ⟨key ht hu h e, key hu ht (fun k => (h k).symm) e⟩
    · exact hp1.imp fun {a b} hab hEq => by
        subst hEq
        exact Nat.lt_irrefl _ hab
    · exact hp2.imp fun {a b} hab hEq => by
        subst hEq
        exact Nat.lt_irrefl _ hab
  exact hperm.eq_of_pairwise
    (fun a b _ _ h1 h2 => absurd (Nat.lt_trans h1 h2) (Nat.lt_irrefl _)) hp1 hp2

/-! ## Operations on whole tables -/

/-- Changing every value keeps the canonical form. -/
theorem wf_mapValues {dflt : α} {t : Table α} (h : rising t = true) (f : α → α) :
    wf dflt (mapValues dflt f t) = true := by
  rw [wf_iff]
  refine ⟨?_, ?_⟩
  · rw [rising_iff_pairwise] at h ⊢
    have hm : List.Pairwise (fun a b : Nat × α => a.1 < b.1) (List.map (fun e => (e.1, f e.2)) t) :=
      List.Pairwise.map _ (fun _ _ hab => hab) h
    exact hm.filter _
  · intro e he
    simpa using (List.mem_filter.1 he).2

/-- Reading after a change of every value. -/
theorem get_mapValues {dflt : α} {t : Table α} (h : rising t = true) (f : α → α) (hf : f dflt = dflt) (k : Nat) :
    get dflt (mapValues dflt f t) k = f (get dflt t k) := by
  have hw := wf_rising (wf_mapValues (dflt := dflt) h f)
  unfold get
  cases hl : lookup t k with
  | none =>
    have : lookup (mapValues dflt f t) k = none := by
      rw [lookup_eq_none hw]
      rw [lookup_eq_none h] at hl
      intro hk
      obtain ⟨e, he, rfl⟩ := List.mem_map.1 hk
      obtain ⟨e0, he0, rfl⟩ := List.mem_map.1 (List.mem_filter.1 he).1
      exact hl (List.mem_map.2 ⟨e0, he0, rfl⟩)
    simp [this, hf]
  | some v =>
    have hm := (lookup_eq_some h k v).1 hl
    by_cases hv : f v = dflt
    · have : lookup (mapValues dflt f t) k = none := by
        rw [lookup_eq_none hw]
        intro hk
        obtain ⟨e, he, hek⟩ := List.mem_map.1 hk
        obtain ⟨e0, he0, rfl⟩ := List.mem_map.1 (List.mem_filter.1 he).1
        have h0 : e0.1 = k := hek
        have he1 : lookup t k = some e0.2 := (lookup_eq_some h k e0.2).2 (h0 ▸ he0)
        rw [hl] at he1
        have hd : f e0.2 ≠ dflt := by simpa using (List.mem_filter.1 he).2
        rw [Option.some.injEq] at he1
        rw [← he1] at hd
        exact hd hv
      simp [this, hv]
    · have : lookup (mapValues dflt f t) k = some (f v) := by
        rw [lookup_eq_some hw]
        exact List.mem_filter.2 ⟨List.mem_map.2 ⟨(k, v), hm, rfl⟩, by simpa using hv⟩
      simp [this]

/-- The splice of two canonical tables is canonical. -/
theorem wf_splice {dflt : α} {src tgt : Table α} (hs : wf dflt src = true) (ht : wf dflt tgt = true) (k : Nat) :
    wf dflt (splice src tgt k) = true := by
  rw [wf_iff] at hs ht ⊢
  refine ⟨?_, ?_⟩
  · have h1 := (rising_iff_pairwise src).1 hs.1
    have h2 := (rising_iff_pairwise tgt).1 ht.1
    rw [rising_iff_pairwise]
    refine List.pairwise_append.2 ⟨h1.filter _, h2.filter _, ?_⟩
    intro a ha b hb
    have h3 : a.1 < k := by simpa using (List.mem_filter.1 ha).2
    have h4 : k ≤ b.1 := by simpa using (List.mem_filter.1 hb).2
    omega
  · intro e he
    rcases List.mem_append.1 he with he | he
    · exact hs.2 e (List.mem_filter.1 he).1
    · exact ht.2 e (List.mem_filter.1 he).1

/-- A splice reads as its source below `k` and as its target from `k` on. -/
theorem get_splice {dflt : α} {src tgt : Table α} (hs : wf dflt src = true) (ht : wf dflt tgt = true) (k i : Nat) :
    get dflt (splice src tgt k) i = if i < k then get dflt src i else get dflt tgt i := by
  have hw := wf_rising (wf_splice hs ht k)
  have h1 := wf_rising hs
  have h2 := wf_rising ht
  have key : ∀ v, lookup (splice src tgt k) i = some v ↔ (if i < k then lookup src i else lookup tgt i) = some v := by
    intro v
    rw [lookup_eq_some hw]
    unfold splice
    rw [List.mem_append, List.mem_filter, List.mem_filter]
    split
    · next hi =>
      have : ¬k ≤ i := by omega
      simp [hi, this, lookup_eq_some h1]
    · next hi =>
      have : k ≤ i := by omega
      simp [hi, this, lookup_eq_some h2]
  have : lookup (splice src tgt k) i = if i < k then lookup src i else lookup tgt i := Option.ext key
  unfold get
  rw [this]
  split <;> rfl

end Table

end Sys2Proof.Machine
end

