-- ==== Sys2Proof/Laws/Memory.lean ====
section
/-! SUPPORT. The spec lemmas of Telegram Memory's operations: what each reads back, that each keeps the block store in
canonical form, and that each keeps Telegram Memory's laws. -/

namespace Sys2Proof.Machine

/-! ## Words and blocks -/

/-- Word addresses of words 0 to 7 of two blocks differ unless block and word agree. -/
theorem wordAddr_inj {b c i j : Nat} (hi : i < Config.blockWords) (hj : j < Config.blockWords)
    (h : wordAddr b i = wordAddr c j) : b = c ∧ i = j := by
  unfold wordAddr Config.blockWords at *
  omega

/-- A word's write keeps the block store's canonical form. -/
theorem TelegramMemory.setWord_canonical {m : TelegramMemory} (h : Table.wf 0 m.blocks = true) (b i : Nat) (w : Word) :
    Table.wf 0 (m.setWord b i w).blocks = true := Table.wf_set h _ _

/-- What a word reads as after a word's write. -/
theorem TelegramMemory.word_setWord {m : TelegramMemory} (h : Table.wf 0 m.blocks = true) (b i c j : Nat) (w : Word)
    (hi : i < Config.blockWords) (hj : j < Config.blockWords) :
    (m.setWord b i w).word c j = if c = b ∧ j = i then w else m.word c j := by
  unfold TelegramMemory.setWord TelegramMemory.word
  simp only
  rw [Table.get_set (Table.wf_rising h)]
  by_cases hcj : c = b ∧ j = i
  · obtain ⟨rfl, rfl⟩ := hcj
    simp
  · have : wordAddr c j ≠ wordAddr b i := fun he => hcj (wordAddr_inj hj hi he)
    simp [hcj, this]

/-- The writes of a block's words, as a fold over any list of word numbers. -/
theorem TelegramMemory.foldl_setWord_canonical (b : Nat) (ws : List Word) (is : List Nat) {m : TelegramMemory}
    (h : Table.wf 0 m.blocks = true) :
    Table.wf 0 (is.foldl (fun m i => m.setWord b i (ws.getD i 0)) m).blocks = true := by
  induction is generalizing m with
  | nil => exact h
  | cons i rest ih => exact ih (setWord_canonical h b i _)

/-- What a word reads as after the writes of a block's words `is`. -/
theorem TelegramMemory.word_foldl_setWord (b : Nat) (ws : List Word) (is : List Nat) {m : TelegramMemory}
    (h : Table.wf 0 m.blocks = true) (his : ∀ i ∈ is, i < Config.blockWords) (c j : Nat) (hj : j < Config.blockWords) :
    (is.foldl (fun m i => m.setWord b i (ws.getD i 0)) m).word c j =
      if c = b ∧ j ∈ is then ws.getD j 0 else m.word c j := by
  induction is generalizing m with
  | nil => simp
  | cons i rest ih =>
    simp only [List.foldl_cons]
    rw [ih (setWord_canonical h b i _) fun k hk => his k (List.mem_cons_of_mem _ hk),
      word_setWord h b i c j _ (his i (List.mem_cons_self ..)) hj]
    by_cases hc : c = b
    · by_cases hjr : j ∈ rest
      · simp [hc, hjr]
      · by_cases hji : j = i
        · simp [hc, hji]
        · simp [hc, hjr, hji]
    · simp [hc]

theorem TelegramMemory.setBlock_canonical {m : TelegramMemory} (h : Table.wf 0 m.blocks = true) (b : Nat)
    (ws : List Word) : Table.wf 0 (m.setBlock b ws).blocks = true := foldl_setWord_canonical b ws _ h

/-- What a word reads as after a block's write (R22). -/
theorem TelegramMemory.word_setBlock {m : TelegramMemory} (h : Table.wf 0 m.blocks = true) (b : Nat) (ws : List Word)
    (c j : Nat) (hj : j < Config.blockWords) :
    (m.setBlock b ws).word c j = if c = b then ws.getD j 0 else m.word c j := by
  unfold TelegramMemory.setBlock
  rw [word_foldl_setWord b ws _ h (fun i hi => List.mem_range.1 hi) c j hj]
  simp [hj]

/-- Fold of word writes: everything but the block store stays. -/
theorem TelegramMemory.foldl_setWord_rest (b : Nat) (ws : List Word) (is : List Nat) (m : TelegramMemory) :
    is.foldl (fun m i => m.setWord b i (ws.getD i 0)) m =
      { m with blocks := (is.foldl (fun m i => m.setWord b i (ws.getD i 0)) m).blocks } := by
  induction is generalizing m with
  | nil => rfl
  | cons i rest ih =>
    simp only [List.foldl_cons]
    rw [ih (m.setWord b i (ws.getD i 0))]
    rfl

/-- A block's write changes the block store alone. -/
theorem TelegramMemory.setBlock_rest (m : TelegramMemory) (b : Nat) (ws : List Word) :
    m.setBlock b ws = { m with blocks := (m.setBlock b ws).blocks } := foldl_setWord_rest b ws _ m

/-! ## Chains -/

theorem TelegramMemory.writeChain_canonical (chain : List Nat) (ws : List Word) {m : TelegramMemory}
    (h : Table.wf 0 m.blocks = true) : Table.wf 0 (m.writeChain chain ws).blocks = true := by
  induction chain generalizing m ws with
  | nil => exact h
  | cons b rest ih => exact ih _ (setBlock_canonical h b ws)

/-- A chain's write changes the block store alone. -/
theorem TelegramMemory.writeChain_rest (chain : List Nat) (ws : List Word) (m : TelegramMemory) :
    m.writeChain chain ws = { m with blocks := (m.writeChain chain ws).blocks } := by
  induction chain generalizing m ws with
  | nil => rfl
  | cons b rest ih =>
    unfold TelegramMemory.writeChain
    rw [ih]
    rw [setBlock_rest m b ws]

/-- A chain's write leaves every other block as it was. -/
theorem TelegramMemory.word_writeChain_other (chain : List Nat) (ws : List Word) {m : TelegramMemory}
    (h : Table.wf 0 m.blocks = true) {c j : Nat} (hj : j < Config.blockWords) (hc : c ∉ chain) :
    (m.writeChain chain ws).word c j = m.word c j := by
  induction chain generalizing m ws with
  | nil => rfl
  | cons b rest ih =>
    unfold TelegramMemory.writeChain
    rw [ih _ (setBlock_canonical h b ws) fun hm => hc (List.mem_cons_of_mem _ hm), word_setBlock h b ws c j hj, if_neg]
    exact fun hb => hc (hb ▸ List.mem_cons_self ..)

/-- Reading a chain depends on the words of its blocks alone. -/
theorem TelegramMemory.readChain_congr (chain : List Nat) (n : Nat) {m k : TelegramMemory}
    (h : ∀ c ∈ chain, ∀ j, j < Config.blockWords → m.word c j = k.word c j) :
    m.readChain chain n = k.readChain chain n := by
  induction chain generalizing n with
  | nil => rfl
  | cons b rest ih =>
    unfold TelegramMemory.readChain
    rw [ih _ fun c hc => h c (List.mem_cons_of_mem _ hc)]
    congr 1
    refine List.map_congr_left fun i hi => ?_
    have : i < min n Config.blockWords := List.mem_range.1 hi
    exact h b (List.mem_cons_self ..) i (by omega)

/-- What a chain reads as is as long as it is asked for, within the chain. -/
theorem TelegramMemory.readChain_length (chain : List Nat) (n : Nat) (m : TelegramMemory)
    (h : n ≤ Config.blockWords * chain.length) : (m.readChain chain n).length = n := by
  induction chain generalizing n with
  | nil =>
    have h0 : n = 0 := by simpa using h
    simp [TelegramMemory.readChain, h0]
  | cons b rest ih =>
    unfold TelegramMemory.readChain
    rw [List.length_append, List.length_map, List.length_range, ih]
    · omega
    · simp only [List.length_cons, Nat.mul_add, Nat.mul_one] at h
      omega

/-- A chain reads back the words written into it (R22). -/
theorem TelegramMemory.readChain_writeChain (chain : List Nat) (hn : chain.Nodup) (ws : List Word) (n : Nat)
    {m : TelegramMemory} (h : Table.wf 0 m.blocks = true) (hl : n ≤ Config.blockWords * chain.length)
    (hw : n ≤ ws.length) : (m.writeChain chain ws).readChain chain n = ws.take n := by
  induction chain generalizing m ws n with
  | nil =>
    have : n = 0 := by simpa using hl
    simp [TelegramMemory.readChain, this]
  | cons b rest ih =>
    have hb := (List.nodup_cons.1 hn).1
    unfold TelegramMemory.readChain TelegramMemory.writeChain
    have hlen : n - Config.blockWords ≤ Config.blockWords * rest.length := by
      simp only [List.length_cons, Nat.mul_add, Nat.mul_one] at hl
      omega
    have hwl : n - Config.blockWords ≤ (ws.drop Config.blockWords).length := by
      rw [List.length_drop]
      omega
    rw [ih (List.nodup_cons.1 hn).2 (ws.drop Config.blockWords) _ (setBlock_canonical h b ws) hlen hwl]
    have hfirst : ((List.range (min n Config.blockWords)).map fun i =>
        ((m.setBlock b ws).writeChain rest (ws.drop Config.blockWords)).word b i) = ws.take (min n Config.blockWords) := by
      refine List.ext_getElem ?_ fun i h1 h2 => ?_
      · rw [List.length_map, List.length_range, List.length_take]
        omega
      · rw [List.length_map, List.length_range] at h1
        have hi : i < Config.blockWords := by omega
        rw [List.getElem_map, List.getElem_range, word_writeChain_other rest _ (setBlock_canonical h b ws) hi hb,
          word_setBlock h b ws b i hi, if_pos rfl, List.getElem_take, List.getD_eq_getElem?_getD,
          List.getElem?_eq_getElem (by omega), Option.getD_some]
    rw [hfirst]
    by_cases hnb : n ≤ Config.blockWords
    · have h0 : n - Config.blockWords = 0 := by omega
      simp [h0, Nat.min_eq_left hnb]
    · have h1 : min n Config.blockWords = Config.blockWords := by omega
      rw [h1]
      have h2 := List.take_add (l := ws) (i := Config.blockWords) (j := n - Config.blockWords)
      rw [← h2]
      congr 1
      omega

/-! ## Descriptors -/

theorem TelegramMemory.desc_setDesc_same (m : TelegramMemory) (d : Nat) (x : Descriptor) : (m.setDesc d x).desc d = x := by
  simp [TelegramMemory.desc, TelegramMemory.setDesc]

theorem TelegramMemory.desc_setDesc_other (m : TelegramMemory) {d k : Nat} (x : Descriptor) (hk : k ≠ d) :
    (m.setDesc d x).desc k = m.desc k := by
  simp [TelegramMemory.desc, TelegramMemory.setDesc, Table.lookup_insert_other _ _ hk]

/-- Writing a descriptor leaves every block as it was. -/
@[simp] theorem TelegramMemory.word_setDesc (m : TelegramMemory) (d : Nat) (x : Descriptor) (b i : Nat) :
    (m.setDesc d x).word b i = m.word b i := rfl

/-- A descriptor is IN USE exactly when the table lists it. -/
theorem TelegramMemory.mem_inUse {m : TelegramMemory} (h : Table.rising m.descs = true) (d : Nat) :
    d ∈ m.inUse ↔ Table.lookup m.descs d = some (m.desc d) := by
  constructor
  · intro hd
    cases hl : Table.lookup m.descs d with
    | none => exact absurd hd ((Table.lookup_eq_none h d).1 hl)
    | some x => simp [TelegramMemory.desc, hl]
  · intro hl
    exact List.mem_map.2 ⟨(d, m.desc d), (Table.lookup_eq_some h d _).1 hl, rfl⟩

/-- A descriptor whose words do not change: its fields stay and its blocks' words stay. -/
theorem TelegramMemory.words_congr {m k : TelegramMemory} {d : Nat} (hc : k.desc d = m.desc d)
    (hw : ∀ c ∈ (m.desc d).chain, ∀ j, j < Config.blockWords → k.word c j = m.word c j) : k.words d = m.words d := by
  unfold TelegramMemory.words
  rw [hc]
  exact readChain_congr _ _ hw

/-! ## Every operation keeps the block store's canonical form -/

theorem TelegramMemory.allocate_canonical {m m' : TelegramMemory} {cls : AllocClass} {h : Header} {ws : List Word}
    {d : Nat} (hm : Table.wf 0 m.blocks = true) (ha : m.allocate cls h ws = some (d, m')) :
    Table.wf 0 m'.blocks = true := by
  unfold TelegramMemory.allocate at ha
  split at ha
  · cases ha
  · split at ha
    · cases ha
      exact writeChain_canonical _ _ (m := TelegramMemory.setDesc _ _ _) hm
    · cases ha

theorem TelegramMemory.replaceChain_canonical {m : TelegramMemory} (hm : Table.wf 0 m.blocks = true) (d : Nat)
    (ws : List Word) : Table.wf 0 (m.replaceChain d ws).2.blocks = true := by
  unfold TelegramMemory.replaceChain
  simp only
  split
  · exact hm
  · split
    · exact writeChain_canonical _ _ (m := TelegramMemory.setDesc _ _ _) hm
    · exact hm

theorem TelegramMemory.rewriteWords_canonical {m : TelegramMemory} (hm : Table.wf 0 m.blocks = true) (d : Nat)
    (ws : List Word) : Table.wf 0 (m.rewriteWords d ws).blocks = true := writeChain_canonical _ _ hm

theorem TelegramMemory.release_canonical {m : TelegramMemory} (hm : Table.wf 0 m.blocks = true) (d : Nat) :
    Table.wf 0 (m.release d).blocks = true := hm

theorem TelegramMemory.dropRef_canonical {m : TelegramMemory} (hm : Table.wf 0 m.blocks = true) (d : Nat) :
    Table.wf 0 (m.dropRef d).blocks = true := by
  unfold TelegramMemory.dropRef
  split <;> exact hm

theorem TelegramMemory.foldl_release_blocks (ds : List Nat) (m : TelegramMemory) :
    (ds.foldl TelegramMemory.release m).blocks = m.blocks := by
  induction ds generalizing m with
  | nil => rfl
  | cons d rest ih => exact ih _

theorem TelegramMemory.releaseAllBut_canonical {m : TelegramMemory} (hm : Table.wf 0 m.blocks = true) (keep : Nat) :
    Table.wf 0 (m.releaseAllBut keep).blocks = true := by
  unfold TelegramMemory.releaseAllBut
  rw [foldl_release_blocks]
  exact hm

/-! ## Telegram Memory's laws -/

/-- Data words per block: `n` words fit `blocksFor n` blocks. -/
theorem le_blocksFor (n : Nat) : n ≤ Config.blockWords * blocksFor n := by
  unfold blocksFor Config.blockWords
  omega

/-- The chains of two tables with the same entries have the same blocks. -/
theorem chains_perm {t u : Table Descriptor} (h : List.Perm t u) :
    List.Perm (t.flatMap fun e => e.2.chain) (u.flatMap fun e => e.2.chain) := h.flatMap_right _

/-- The chains of the rest of the IN USE descriptors. -/
def TelegramMemory.otherBlocks (m : TelegramMemory) (d : Nat) : List Nat :=
  (Table.erase m.descs d).flatMap fun e => e.2.chain

/-- The blocks of an IN USE descriptor, those of the rest, and the free ones. -/
theorem MemoryLaw.blocks_split {m : TelegramMemory} (h : MemoryLaw m) {d : Nat} (hd : d ∈ m.inUse) :
    List.Perm (m.freeBlocks ++ ((m.desc d).chain ++ m.otherBlocks d)) (List.range Config.blocks) := by
  have hl := (TelegramMemory.mem_inUse h.1 d).1 hd
  exact ((List.Perm.refl _).append (chains_perm (Table.perm_of_lookup hl)).symm).trans h.2.2.1

/-- A chain has no block twice. -/
theorem MemoryLaw.chain_nodup {m : TelegramMemory} (h : MemoryLaw m) {d : Nat} (hd : d ∈ m.inUse) :
    (m.desc d).chain.Nodup := by
  have := (h.blocks_split hd).nodup_iff.2 List.nodup_range
  exact (List.nodup_append.1 (List.nodup_append.1 this).2.1).1

/-- The free block list has no block twice. -/
theorem MemoryLaw.free_nodup {m : TelegramMemory} (h : MemoryLaw m) : m.freeBlocks.Nodup := by
  have := h.2.2.1.nodup_iff.2 List.nodup_range
  exact (List.nodup_append.1 this).1

/-- A free block is in no chain. -/
theorem MemoryLaw.free_not_chain {m : TelegramMemory} (h : MemoryLaw m) {d : Nat} (hd : d ∈ m.inUse) {c : Nat}
    (hc : c ∈ (m.desc d).chain) : c ∉ m.freeBlocks := by
  have := (h.blocks_split hd).nodup_iff.2 List.nodup_range
  intro hf
  exact (List.nodup_append.1 this).2.2 c hf c (List.mem_append_left _ hc) rfl

/-- Two IN USE descriptors have no block in common. -/
theorem MemoryLaw.chains_disjoint {m : TelegramMemory} (h : MemoryLaw m) {d k : Nat} (hd : d ∈ m.inUse)
    (hk : k ∈ m.inUse) (hne : k ≠ d) {c : Nat} (hc : c ∈ (m.desc k).chain) : c ∉ (m.desc d).chain := by
  have hnd := (h.blocks_split hd).nodup_iff.2 List.nodup_range
  have hmem : c ∈ m.otherBlocks d := by
    have hl := (TelegramMemory.mem_inUse h.1 k).1 hk
    have hl2 : Table.lookup (Table.erase m.descs d) k = some (m.desc k) := by
      rw [Table.lookup_erase_other h.1 hne, hl]
    have := (Table.lookup_eq_some (Table.rising_erase h.1 d) k _).1 hl2
    exact List.mem_flatMap.2 ⟨_, this, hc⟩
  intro hcd
  exact (List.nodup_append.1 (List.nodup_append.1 hnd).2.1).2.2 c hcd c hmem rfl

/-- A free descriptor is not IN USE. -/
theorem MemoryLaw.free_not_inUse {m : TelegramMemory} (h : MemoryLaw m) {d : Nat} (hd : d ∈ m.freeDescs) :
    d ∉ m.inUse := by
  have := h.2.2.2.1.nodup_iff.2 List.nodup_range
  intro hi
  exact (List.nodup_append.1 this).2.2 d hd d hi rfl

/-- An IN USE descriptor's count and chain length (R22). -/
theorem MemoryLaw.fits {m : TelegramMemory} (h : MemoryLaw m) {d : Nat} (hd : d ∈ m.inUse) :
    (m.desc d).count ≤ 32 ∧ (m.desc d).chain.length = blocksFor (m.desc d).count := by
  have hl := (TelegramMemory.mem_inUse h.1 d).1 hd
  exact h.2.2.2.2 _ ((Table.lookup_eq_some h.1 d _).1 hl)

/-- A descriptor's data words are as many as its count says. -/
theorem MemoryLaw.words_length {m : TelegramMemory} (h : MemoryLaw m) {d : Nat} (hd : d ∈ m.inUse) :
    (m.words d).length = (m.desc d).count := by
  unfold TelegramMemory.words
  refine TelegramMemory.readChain_length _ _ _ ?_
  rw [(h.fits hd).2]
  exact le_blocksFor _

/-- Writing the blocks leaves the laws as they were. -/
theorem MemoryLaw.writeChain {m : TelegramMemory} (h : MemoryLaw m) (chain : List Nat) (ws : List Word) :
    MemoryLaw (m.writeChain chain ws) := by
  have hc := TelegramMemory.writeChain_canonical chain ws h.2.1
  have hr := TelegramMemory.writeChain_rest chain ws m
  rw [hr]
  exact ⟨h.1, hc, h.2.2.1, h.2.2.2.1, h.2.2.2.2⟩

/-- Rewriting fields of an IN USE descriptor other than count and chain leaves the laws as they were. -/
theorem MemoryLaw.setDesc {m : TelegramMemory} (h : MemoryLaw m) {d : Nat} (hd : d ∈ m.inUse) {x : Descriptor}
    (hcount : x.count = (m.desc d).count) (hchain : x.chain = (m.desc d).chain) : MemoryLaw (m.setDesc d x) := by
  have hl := (TelegramMemory.mem_inUse h.1 d).1 hd
  have hp := Table.perm_of_lookup hl
  have hi := Table.insert_perm m.descs d x
  refine ⟨Table.rising_insert h.1 d x, h.2.1, ?_, ?_, ?_⟩
  · have : List.Perm ((Table.insert m.descs d x).flatMap fun e => e.2.chain) (m.descs.flatMap fun e => e.2.chain) := by
      refine (chains_perm hi).trans ((chains_perm hp).trans ?_).symm
      rw [List.flatMap_cons, List.flatMap_cons, hchain]
    exact ((List.Perm.refl _).append this).trans h.2.2.1
  · have hk := Table.keys_insert h.1 hl x
    exact ((List.Perm.refl _).append (List.Perm.of_eq hk)).trans h.2.2.2.1
  · intro e he
    rcases Table.mem_insert he with rfl | he
    · rw [hcount, hchain]
      exact h.fits hd
    · exact h.2.2.2.2 e he

/-- The descriptors IN USE stay the same when fields of one are rewritten. -/
theorem MemoryLaw.inUse_setDesc {m : TelegramMemory} (h : MemoryLaw m) {d : Nat} (hd : d ∈ m.inUse) (x : Descriptor)
    (k : Nat) : k ∈ (m.setDesc d x).inUse ↔ k ∈ m.inUse := by
  have hr := Table.rising_insert h.1 d x
  have h1 : ∀ j, j ∈ (m.setDesc d x).inUse ↔ Table.lookup (Table.insert m.descs d x) j ≠ none := by
    intro j
    exact not_iff_comm.1 (Table.lookup_eq_none hr j).symm |>.symm
  have h2 : ∀ j, j ∈ m.inUse ↔ Table.lookup m.descs j ≠ none := by
    intro j
    exact not_iff_comm.1 (Table.lookup_eq_none h.1 j).symm |>.symm
  rw [h1, h2, Table.lookup_insert]
  by_cases hk : k = d
  · subst hk
    have := (h2 k).1 hd
    simp [this]
  · simp [hk]

/-! ### Allocation (R24 to R26) -/

/-- What an allocation is when it succeeds. -/
theorem TelegramMemory.allocate_eq_some {m m' : TelegramMemory} {cls : AllocClass} {h : Header} {ws : List Word} {d : Nat} :
    m.allocate cls h ws = some (d, m') ↔
      m.freeDescs.head? = some d ∧ m.admits cls 1 (blocksFor ws.length) = true ∧
      m' = ((m.takeFree 1 (blocksFor ws.length)).setDesc d
        (h.descriptor ws.length (m.freeBlocks.take (blocksFor ws.length)))).writeChain
          (m.freeBlocks.take (blocksFor ws.length)) ws := by
  unfold TelegramMemory.allocate
  cases hf : m.freeDescs with
  | nil => simp
  | cons k rest =>
    simp only [List.head?_cons, Option.some.injEq]
    by_cases ha : m.admits cls 1 (blocksFor ws.length) = true
    · simp only [ha, if_true, Option.some.injEq, Prod.mk.injEq, true_and]
      constructor
      · rintro ⟨rfl, rfl⟩
        exact ⟨rfl, rfl⟩
      · rintro ⟨rfl, rfl⟩
        exact ⟨rfl, rfl⟩
    · simp [ha]

/-- An allocation whose class does not admit it fails whole (R24). -/
theorem TelegramMemory.allocate_eq_none {m : TelegramMemory} {cls : AllocClass} {h : Header} {ws : List Word} :
    m.allocate cls h ws = none ↔ m.freeDescs = [] ∨ m.admits cls 1 (blocksFor ws.length) = false := by
  unfold TelegramMemory.allocate
  cases hf : m.freeDescs with
  | nil => simp
  | cons k rest =>
    by_cases ha : m.admits cls 1 (blocksFor ws.length) = true
    · simp [ha]
    · simp [ha]

/-- The blocks an allocation takes: it succeeds only when there are that many. -/
theorem TelegramMemory.admits_blocks {m : TelegramMemory} {cls : AllocClass} {nd nb : Nat}
    (h : m.admits cls nd nb = true) : nb ≤ m.freeBlocks.length := by
  cases cls
  · simp only [TelegramMemory.admits, Bool.and_eq_true, decide_eq_true_eq] at h
    omega
  · simp only [TelegramMemory.admits, Bool.and_eq_true, decide_eq_true_eq] at h
    omega

/-- An allocation keeps the laws. -/
theorem MemoryLaw.allocate {m m' : TelegramMemory} {cls : AllocClass} {h : Header} {ws : List Word} {d : Nat}
    (hm : MemoryLaw m) (hw : ws.length ≤ 32) (ha : m.allocate cls h ws = some (d, m')) : MemoryLaw m' := by
  obtain ⟨hd, hadm, rfl⟩ := TelegramMemory.allocate_eq_some.1 ha
  have hnb := TelegramMemory.admits_blocks hadm
  have hfree : d ∈ m.freeDescs := List.mem_of_mem_head? hd
  have hnone : Table.lookup m.descs d = none := (Table.lookup_eq_none hm.1 d).2 (hm.free_not_inUse hfree)
  have hfd : m.freeDescs = d :: m.freeDescs.drop 1 := by
    cases hf : m.freeDescs with
    | nil => simp [hf] at hd
    | cons k rest =>
      simp [hf] at hd
      simp [hd]
  refine MemoryLaw.writeChain ?_ _ _
  have hi := Table.insert_perm m.descs d (h.descriptor ws.length (m.freeBlocks.take (blocksFor ws.length)))
  rw [Table.erase_of_none hnone] at hi
  refine ⟨Table.rising_insert hm.1 d _, hm.2.1, ?_, ?_, ?_⟩
  · refine ((List.Perm.refl _).append (chains_perm hi)).trans ?_
    refine List.Perm.trans ?_ hm.2.2.1
    rw [List.flatMap_cons, ← List.append_assoc]
    refine List.Perm.append ?_ (List.Perm.refl _)
    refine List.perm_append_comm.trans ?_
    exact List.Perm.of_eq (List.take_append_drop _ _)
  · refine ((List.Perm.refl _).append (hi.map _)).trans ?_
    refine List.Perm.trans ?_ hm.2.2.2.1
    rw [hfd]
    exact List.perm_middle
  · intro e he
    rcases Table.mem_insert he with rfl | he
    · refine ⟨hw, ?_⟩
      simp only [Header.descriptor, List.length_take]
      omega
    · exact hm.2.2.2.2 e he

/-- What an allocation makes: descriptor, words, and what it leaves as it was (R21, R22, R24, R34). -/
theorem TelegramMemory.allocate_spec {m m' : TelegramMemory} {cls : AllocClass} {h : Header} {ws : List Word} {d : Nat}
    (hm : MemoryLaw m) (ha : m.allocate cls h ws = some (d, m')) :
    m'.desc d = h.descriptor ws.length (m.freeBlocks.take (blocksFor ws.length)) ∧ m'.words d = ws ∧
    (∀ k, k ≠ d → m'.desc k = m.desc k) ∧ (∀ k ∈ m.inUse, m'.words k = m.words k) ∧ d ∉ m.inUse ∧
    (∀ k, k ∈ m'.inUse ↔ k = d ∨ k ∈ m.inUse) ∧ m'.freeDescs = m.freeDescs.drop 1 ∧
    m'.freeBlocks = m.freeBlocks.drop (blocksFor ws.length) ∧
    m'.minDescs = min m.minDescs (m.freeDescs.drop 1).length ∧
    m'.minBlocks = min m.minBlocks (m.freeBlocks.drop (blocksFor ws.length)).length := by
  obtain ⟨hd, hadm, rfl⟩ := TelegramMemory.allocate_eq_some.1 ha
  have hnb := TelegramMemory.admits_blocks hadm
  have hfree : d ∈ m.freeDescs := List.mem_of_mem_head? hd
  have hni := hm.free_not_inUse hfree
  have hdesc : ∀ k, TelegramMemory.desc (((m.takeFree 1 (blocksFor ws.length)).setDesc d
      (h.descriptor ws.length (m.freeBlocks.take (blocksFor ws.length)))).writeChain
        (m.freeBlocks.take (blocksFor ws.length)) ws) k =
      if k = d then h.descriptor ws.length (m.freeBlocks.take (blocksFor ws.length)) else m.desc k := by
    intro k
    rw [writeChain_rest]
    by_cases hk : k = d
    · rw [if_pos hk, hk]
      exact desc_setDesc_same _ _ _
    · rw [if_neg hk]
      exact desc_setDesc_other _ _ hk
  have hcan : Table.wf 0 ((m.takeFree 1 (blocksFor ws.length)).setDesc d
      (h.descriptor ws.length (m.freeBlocks.take (blocksFor ws.length)))).blocks = true := hm.2.1
  refine ⟨?_, ?_, ?_, ?_, hni, ?_, ?_, ?_, ?_, ?_⟩
  · rw [hdesc, if_pos rfl]
  · unfold TelegramMemory.words
    rw [hdesc, if_pos rfl]
    refine (readChain_writeChain _ ((hm.free_nodup).sublist (List.take_sublist _ _)) ws _ hcan ?_
      (Nat.le_refl _)).trans List.take_length
    rw [List.length_take, Nat.min_eq_left hnb]
    exact le_blocksFor _
  · intro k hk
    rw [hdesc, if_neg hk]
  · intro k hk
    have hkd : k ≠ d := fun he => hni (he ▸ hk)
    refine words_congr (by rw [hdesc, if_neg hkd]) fun c hc j hj => ?_
    rw [word_writeChain_other _ ws hcan hj]
    · rfl
    · exact fun hmem => hm.free_not_chain hk hc (List.mem_of_mem_take hmem)
  · intro k
    rw [writeChain_rest]
    have hr := Table.rising_insert hm.1 d (h.descriptor ws.length (m.freeBlocks.take (blocksFor ws.length)))
    have h1 : k ∈ List.map (fun e => e.1) (Table.insert m.descs d
        (h.descriptor ws.length (m.freeBlocks.take (blocksFor ws.length)))) ↔ _ :=
      (not_iff_comm.1 (Table.lookup_eq_none hr k).symm).symm
    have h2 : k ∈ m.inUse ↔ _ := (not_iff_comm.1 (Table.lookup_eq_none hm.1 k).symm).symm
    refine h1.trans ?_
    rw [h2, Table.lookup_insert]
    by_cases hk : k = d <;> simp [hk]
  all_goals
    rw [writeChain_rest]
    rfl

/-! ### Chain replacement (R27) -/

/-- What the release stage of a chain replacement does. -/
theorem MemoryLaw.emptyChain {m : TelegramMemory} (hm : MemoryLaw m) {d : Nat} (hd : d ∈ m.inUse) :
    MemoryLaw (m.emptyChain d) := by
  have hl := (TelegramMemory.mem_inUse hm.1 d).1 hd
  have hp := Table.perm_of_lookup hl
  have hi := Table.insert_perm m.descs d { m.desc d with count := 0, chain := [] }
  refine ⟨Table.rising_insert hm.1 d _, hm.2.1, ?_, ?_, ?_⟩
  · refine ((List.Perm.refl _).append (chains_perm hi)).trans ?_
    refine List.Perm.trans ?_ (hm.blocks_split hd)
    rw [List.flatMap_cons, List.nil_append, ← List.append_assoc]
    exact List.Perm.refl _
  · have hk := Table.keys_insert hm.1 hl { m.desc d with count := 0, chain := [] }
    exact ((List.Perm.refl _).append (List.Perm.of_eq hk)).trans hm.2.2.2.1
  · intro e he
    rcases Table.mem_insert he with rfl | he
    · exact ⟨Nat.zero_le _, (by decide : 0 = blocksFor 0)⟩
    · exact hm.2.2.2.2 e he

/-- A chain replacement keeps the laws, whether it succeeds or not. -/
theorem MemoryLaw.replaceChain {m : TelegramMemory} (hm : MemoryLaw m) {d : Nat} (hd : d ∈ m.inUse) {ws : List Word}
    (hw : ws.length ≤ 32) : MemoryLaw (m.replaceChain d ws).2 := by
  have h1 := hm.emptyChain hd
  unfold TelegramMemory.replaceChain
  simp only
  split
  · exact h1
  · split
    · next hadm =>
      have hnb := TelegramMemory.admits_blocks hadm
      refine MemoryLaw.writeChain ?_ _ _
      have hd1 : d ∈ (m.emptyChain d).inUse := (hm.inUse_setDesc hd _ d).2 hd
      have hl := (TelegramMemory.mem_inUse h1.1 d).1 hd1
      have hp := Table.perm_of_lookup hl
      have hi := Table.insert_perm (m.emptyChain d).descs d
        { (m.emptyChain d).desc d with
          count := ws.length, chain := (m.emptyChain d).freeBlocks.take (blocksFor ws.length) }
      refine ⟨Table.rising_insert h1.1 d _, h1.2.1, ?_, ?_, ?_⟩
      · refine ((List.Perm.refl _).append (chains_perm hi)).trans ?_
        refine List.Perm.trans ?_ (h1.blocks_split hd1)
        have he : ((m.emptyChain d).desc d).chain = [] := by
          have : (m.emptyChain d).desc d = { m.desc d with count := 0, chain := [] } :=
            TelegramMemory.desc_setDesc_same m d _
          rw [this]
        rw [List.flatMap_cons, he, List.nil_append, ← List.append_assoc]
        refine List.Perm.append ?_ (List.Perm.refl _)
        refine List.perm_append_comm.trans ?_
        exact List.Perm.of_eq (List.take_append_drop _ _)
      · have hk := Table.keys_insert h1.1 hl { (m.emptyChain d).desc d with
          count := ws.length, chain := (m.emptyChain d).freeBlocks.take (blocksFor ws.length) }
        exact ((List.Perm.refl _).append (List.Perm.of_eq hk)).trans h1.2.2.2.1
      · intro e he
        rcases Table.mem_insert he with rfl | he
        · refine ⟨hw, ?_⟩
          exact List.length_take.trans (Nat.min_eq_left hnb)
        · exact h1.2.2.2.2 e he
    · exact h1

/-- What a chain replacement makes (R27): on success the descriptor has the new words, on failure none; its other fields,
the other descriptors and their words stay as they were. -/
theorem TelegramMemory.replaceChain_spec {m : TelegramMemory} (hm : MemoryLaw m) {d : Nat} (hd : d ∈ m.inUse)
    (ws : List Word) :
    (m.replaceChain d ws).2.words d = (if (m.replaceChain d ws).1 then ws else []) ∧
    (∃ count chain, (m.replaceChain d ws).2.desc d = { m.desc d with count := count, chain := chain }) ∧
    ((m.replaceChain d ws).2.desc d).count = (if (m.replaceChain d ws).1 then ws.length else 0) ∧
    (∀ k, k ≠ d → (m.replaceChain d ws).2.desc k = m.desc k) ∧
    (∀ k ∈ m.inUse, k ≠ d → (m.replaceChain d ws).2.words k = m.words k) ∧
    (m.replaceChain d ws).2.freeDescs = m.freeDescs ∧ (m.replaceChain d ws).2.inUse = m.inUse := by
  have hself : (m.emptyChain d).desc d = { m.desc d with count := 0, chain := [] } := desc_setDesc_same m d _
  have hother : ∀ k, k ≠ d → (m.emptyChain d).desc k = m.desc k := fun k hk => desc_setDesc_other m _ hk
  have hwords0 : (m.emptyChain d).words d = [] := by
    unfold TelegramMemory.words
    rw [hself]
    rfl
  have hl := (TelegramMemory.mem_inUse hm.1 d).1 hd
  have hin1 : (m.emptyChain d).inUse = m.inUse := Table.keys_insert hm.1 hl _
  have hm1 := hm.emptyChain hd
  have hd1 : d ∈ (m.emptyChain d).inUse := hin1 ▸ hd
  have hl1 := (TelegramMemory.mem_inUse hm1.1 d).1 hd1
  unfold TelegramMemory.replaceChain
  simp only
  by_cases hws : ws = []
  · subst hws
    simp only [if_true]
    exact ⟨hwords0, ⟨0, [], hself⟩, by rw [hself]; rfl, hother, fun k hk hkd => words_congr (hother k hkd) fun _ _ _ _ => rfl,
      rfl, hin1⟩
  · simp only [hws, if_false]
    by_cases hadm : (m.emptyChain d).admits .part 0 (blocksFor ws.length) = true
    · simp only [hadm, if_true]
      have hnb := admits_blocks hadm
      have hcan : Table.wf 0 (((m.emptyChain d).takeFree 0 (blocksFor ws.length)).setDesc d
          { (m.emptyChain d).desc d with
            count := ws.length, chain := (m.emptyChain d).freeBlocks.take (blocksFor ws.length) }).blocks = true := hm1.2.1
      have hdesc : ∀ k, TelegramMemory.desc ((((m.emptyChain d).takeFree 0 (blocksFor ws.length)).setDesc d
          { (m.emptyChain d).desc d with
            count := ws.length, chain := (m.emptyChain d).freeBlocks.take (blocksFor ws.length) }).writeChain
            ((m.emptyChain d).freeBlocks.take (blocksFor ws.length)) ws) k =
          if k = d then { m.desc d with
            count := ws.length, chain := (m.emptyChain d).freeBlocks.take (blocksFor ws.length) } else m.desc k := by
        intro k
        rw [writeChain_rest]
        by_cases hk : k = d
        · rw [if_pos hk, hk, hself]
          exact desc_setDesc_same _ _ _
        · rw [if_neg hk]
          exact (desc_setDesc_other _ _ hk).trans (hother k hk)
      refine ⟨?_, ⟨_, _, by rw [hdesc, if_pos rfl]⟩, by rw [hdesc, if_pos rfl], ?_, ?_, ?_, ?_⟩
      · unfold TelegramMemory.words
        rw [hdesc, if_pos rfl]
        refine (readChain_writeChain _ ((hm1.free_nodup).sublist (List.take_sublist _ _)) ws _ hcan ?_
          (Nat.le_refl _)).trans List.take_length
        rw [List.length_take, Nat.min_eq_left hnb]
        exact le_blocksFor _
      · intro k hk
        rw [hdesc, if_neg hk]
      · intro k hk hkd
        refine words_congr (by rw [hdesc, if_neg hkd]) fun c hc j hj => ?_
        rw [word_writeChain_other _ ws hcan hj]
        · rfl
        · intro hmem
          have hk1 : k ∈ (m.emptyChain d).inUse := hin1 ▸ hk
          exact hm1.free_not_chain hk1 (by rw [hother k hkd]; exact hc) (List.mem_of_mem_take hmem)
      · rw [writeChain_rest]
        rfl
      · rw [writeChain_rest]
        exact (Table.keys_insert hm1.1 hl1 _).trans hin1
    · rw [if_neg hadm]
      exact ⟨hwords0, ⟨0, [], hself⟩, by rw [hself]; rfl, hother,
        fun k hk hkd => words_congr (hother k hkd) fun _ _ _ _ => rfl, rfl, hin1⟩

/-! ### Release (R29) -/

/-- A release keeps the laws. -/
theorem MemoryLaw.release {m : TelegramMemory} (hm : MemoryLaw m) {d : Nat} (hd : d ∈ m.inUse) :
    MemoryLaw (m.release d) := by
  have hl := (TelegramMemory.mem_inUse hm.1 d).1 hd
  have hp := Table.perm_of_lookup hl
  refine ⟨Table.rising_erase hm.1 d, hm.2.1, ?_, ?_, ?_⟩
  · refine List.Perm.trans ?_ (hm.blocks_split hd)
    rw [← List.append_assoc]
    exact List.Perm.refl _
  · refine List.Perm.trans ?_ (((List.Perm.refl _).append (hp.map _).symm).trans hm.2.2.2.1)
    exact (List.append_assoc ..).symm ▸ List.Perm.refl _
  · intro e he
    exact hm.2.2.2.2 e (Table.mem_of_mem_erase he)

/-- What a release leaves: the descriptor FREE, the others and their words as they were. -/
theorem TelegramMemory.release_spec {m : TelegramMemory} (hm : MemoryLaw m) (d : Nat) :
    Table.lookup (m.release d).descs d = none ∧ (∀ k, k ≠ d → (m.release d).desc k = m.desc k) ∧
    (∀ k, k ≠ d → (m.release d).words k = m.words k) ∧ (m.release d).freeDescs = m.freeDescs ++ [d] ∧
    (m.release d).freeBlocks = m.freeBlocks ++ (m.desc d).chain := by
  have hk : ∀ k, k ≠ d → (m.release d).desc k = m.desc k := by
    intro k hk
    simp [TelegramMemory.release, TelegramMemory.desc, Table.lookup_erase_other hm.1 hk]
  exact ⟨Table.lookup_erase_same hm.1 d, hk, fun k h => words_congr (hk k h) fun _ _ _ _ => rfl, rfl, rfl⟩

/-- Holder counts do not enter Telegram Memory's own laws. -/
theorem MemoryLaw.hold {m : TelegramMemory} (hm : MemoryLaw m) {d : Nat} (hd : d ∈ m.inUse) : MemoryLaw (m.hold d) :=
  hm.setDesc hd rfl rfl

theorem MemoryLaw.unhold {m : TelegramMemory} (hm : MemoryLaw m) {d : Nat} (hd : d ∈ m.inUse) : MemoryLaw (m.unhold d) :=
  hm.setDesc hd rfl rfl

/-- Giving up a reference keeps the laws, whether the descriptor is released or not. -/
theorem MemoryLaw.dropRef {m : TelegramMemory} (hm : MemoryLaw m) {d : Nat} (hd : d ∈ m.inUse) :
    MemoryLaw (m.dropRef d) := by
  unfold TelegramMemory.dropRef
  split
  · exact (hm.unhold hd).release ((hm.inUse_setDesc hd _ d).2 hd)
  · exact hm.unhold hd

end Sys2Proof.Machine
end

