-- ==== Sys2Proof/Laws/Specs.lean ====
section
/-! SUPPORT. One lemma per shared operation of trunk egress, the Notice Unit, the reply build and the answers, which says
once everything the operation does. Proofs about the commands cite these and never unfold the operations. -/

namespace Sys2Proof.Machine

/-! ## What changes nothing but Telegram Memory, trunk egress, the Notice Unit and port T's transmitter -/

theorem OnlyEgress.refl (s : State) : OnlyEgress s s := rfl

theorem OnlyEgress.trans {s t u : State} (h1 : OnlyEgress s t) (h2 : OnlyEgress t u) : OnlyEgress s u := by
  unfold OnlyEgress at *
  rw [h2, h1]

theorem OnlyEgress.setMem (s : State) (m : TelegramMemory) : OnlyEgress s (s.setMem m) := rfl

theorem OnlyEgress.setEgress (s : State) (e : TrunkEgress) : OnlyEgress s (s.setEgress e) := rfl

theorem OnlyEgress.setNotices (s : State) (n : NoticeUnit) : OnlyEgress s (s.setNotices n) := rfl

theorem OnlyEgress.modDesc (s : State) (d : Nat) (f : Descriptor → Descriptor) : OnlyEgress s (s.modDesc d f) := rfl

theorem OnlyEgress.handTx (s : State) (d : Nat) : OnlyEgress s (s.handTx .t d) := by
  unfold State.handTx
  split <;> rfl

theorem OnlyEgress.handHead (s : State) : OnlyEgress s s.handHead := by
  unfold State.handHead
  split
  · exact (OnlyEgress.setEgress s _).trans (OnlyEgress.handTx _ _)
  · rfl

theorem OnlyEgress.joinEgress (s : State) (d : Nat) : OnlyEgress s (s.joinEgress d) :=
  (OnlyEgress.setEgress s _).trans (OnlyEgress.handHead _)

/-! ## Trunk egress (R152, R153) -/

/-- Handing the head leaves the queue and the notice count, and a non-empty queue's head is handed. -/
theorem State.handHead_egress (s : State) :
    s.handHead.egress = { s.egress with handed := s.egress.handed || !s.egress.queue.isEmpty } := by
  unfold State.handHead
  rcases s with ⟨_, _, _, _, _, _, _, _, _, _, _, _, _, ⟨queue, handed, count⟩, _, _, _, _, _, _⟩
  cases queue <;> cases handed <;> simp

/-- The telegram joins the tail of trunk egress, and the head is handed. -/
theorem State.joinEgress_egress (s : State) (d : Nat) :
    (s.joinEgress d).egress = { s.egress with queue := s.egress.queue ++ [d], handed := true } := by
  simp [State.joinEgress, State.handHead_egress]

theorem State.handTx_portT (s : State) (d : Nat) :
    (s.handTx .t d).portT.tx = s.portT.tx.afterHanding d (s.telegram d) := by
  obtain ⟨⟨rx, tx⟩, _⟩ := s
  cases tx <;> rfl

theorem State.telegram_congr {s t : State} (h : t.mem = s.mem) (k : Nat) : t.telegram k = s.telegram k := by
  unfold State.telegram State.desc State.words
  rw [h]

/-- A telegram that joins trunk egress is handed when the queue was empty (R153). -/
theorem State.joinEgress_hands (s : State) (d : Nat) : HandsTheHead s (s.joinEgress d) [d] := by
  refine ⟨by simp [State.joinEgress_egress], ?_, ?_⟩
  · rintro (h | h)
    · have hh : ∀ q, (s.setEgress { s.egress with queue := q }).handHead.portT = s.portT := by
        intro q
        unfold State.handHead
        simp only [State.setEgress_egress, h]
        rfl
      rw [State.joinEgress, hh]
    · cases h
  · intro k hk hh hq
    cases hk
    have ht : (s.joinEgress d).telegram d = s.telegram d := State.telegram_congr (by simp) d
    rw [ht]
    unfold State.joinEgress State.handHead
    simp only [State.setEgress_egress, hq, hh, List.nil_append]
    exact State.handTx_portT _ d

theorem HandsTheHead.none (s : State) : HandsTheHead s s [] := ⟨by simp, fun _ => rfl, by simp⟩

theorem HandsTheHead.trans {s t u : State} {xs ys : List Nat} (h1 : HandsTheHead s t xs)
    (hq : t.egress.queue = s.egress.queue ++ xs) (h2 : HandsTheHead t u ys)
    (hk : ∀ h ∈ xs, u.telegram h = t.telegram h) : HandsTheHead s u (xs ++ ys) := by
  cases xs with
  | nil =>
    have e1 : t.egress.handed = s.egress.handed := by simpa using h1.1
    have e2 : t.portT.tx = s.portT.tx := h1.2.1 (Or.inr rfl)
    have e3 : t.egress.queue = s.egress.queue := by simpa using hq
    unfold HandsTheHead at h2
    rw [e1, e2, e3] at h2
    exact h2
  | cons x xs =>
    have e1 : t.egress.handed = true := by simpa using h1.1
    have e2 : u.portT.tx = t.portT.tx := h2.2.1 (Or.inl e1)
    refine ⟨by rw [h2.1, e1]; simp, ?_, ?_⟩
    · rintro (h | h)
      · exact e2.trans (h1.2.1 (Or.inl h))
      · cases h
    · intro h hh hf hq0
      cases hh
      rw [e2, hk x (by simp)]
      exact h1.2.2 x rfl hf hq0

/-! ## Emission attempts (R187, R188) -/

theorem noticeTelegrams_append (s : State) (number : Byte) (es fs : List NoticeEntry) :
    noticeTelegrams s number (es ++ fs) =
      noticeTelegrams s number es ++ noticeTelegrams s (number + BitVec.ofNat 8 es.length) fs := by
  induction es generalizing number with
  | nil => simp [noticeTelegrams]
  | cons e es ih =>
    have h : number + 1 + BitVec.ofNat 8 es.length = number + BitVec.ofNat 8 (es.length + 1) := by
      rw [BitVec.add_assoc, show (1 : BitVec 8) = BitVec.ofNat 8 1 from rfl, ← BitVec.ofNat_add, Nat.add_comm 1]
    show _ :: noticeTelegrams s (number + 1) (es ++ fs) = _
    rw [ih, h]
    rfl

/-- A notice takes one block. -/
theorem blocksFor_noticeWords (s : State) (e : NoticeEntry) : blocksFor (noticeWords s e).length = 1 := by
  cases e <;> simp [noticeWords, blocksFor, Config.blockWords]

/-- Notices depend on the stations' health alone. -/
theorem noticeTelegrams_congr {s t : State} (h : t.runtime = s.runtime) (number : Byte) (es : List NoticeEntry) :
    noticeTelegrams t number es = noticeTelegrams s number es := by
  induction es generalizing number with
  | nil => rfl
  | cons e es ih =>
    have he : noticeTelegram t number e = noticeTelegram s number e := by
      unfold noticeTelegram State.station
      rw [h]
    simp [noticeTelegrams, ih, he]

theorem OnlyEgress.runtime {s t : State} (h : OnlyEgress s t) : t.runtime = s.runtime := by
  unfold OnlyEgress at h
  rw [h]

/-- From `s` to `t` emissions turn the oldest pending entries into the notices `ns` at the tail of trunk egress, and
nothing else changes. -/
structure Emits (s t : State) (ns : List Nat) : Prop where
  only : OnlyEgress s t
  law : MemoryLaw t.mem
  kept : ∀ k ∈ s.mem.inUse, t.desc k = s.desc k ∧ t.words k = s.words k
  inUse : ∀ k, k ∈ t.mem.inUse ↔ k ∈ ns ∨ k ∈ s.mem.inUse
  fresh : ∀ k ∈ ns, k ∉ s.mem.inUse ∧ (t.desc k).kind = .notice ∧ (t.desc k).stamp = none ∧ (t.desc k).holders = 1
  queue : t.egress.queue = s.egress.queue ++ ns
  noticeCount : t.egress.noticeCount = s.egress.noticeCount + ns.length
  handed : t.egress.handed = (s.egress.handed || !ns.isEmpty)
  le_pending : ns.length ≤ s.notices.pendingSet.length
  pendingSet : t.notices.pendingSet = s.notices.pendingSet.drop ns.length
  number : t.notices.number = s.notices.number + BitVec.ofNat 8 ns.length
  freeDescs : t.mem.freeDescs = s.mem.freeDescs.drop ns.length
  telegrams : ns.map t.telegram = noticeTelegrams s s.notices.number (s.notices.pendingSet.take ns.length)
  hands : HandsTheHead s t ns
  freeBlocks : t.mem.freeBlocks = s.mem.freeBlocks.drop ns.length
  minima : MinimaAfter s t ns

theorem Emits.refl {s : State} (h : MemoryLaw s.mem) : Emits s s [] where
  only := rfl
  law := h
  kept := fun _ _ => ⟨rfl, rfl⟩
  inUse := by simp
  fresh := by simp
  queue := by simp
  noticeCount := by simp
  handed := by simp
  le_pending := by simp
  pendingSet := by simp
  number := by simp
  freeDescs := by simp
  telegrams := by simp [noticeTelegrams]
  hands := HandsTheHead.none s
  freeBlocks := by simp
  minima := ⟨rfl, rfl⟩

/-- Emissions keep the telegrams in use, the notices among them. -/
theorem Emits.telegram {s t : State} {ns : List Nat} (h : Emits s t ns) {k : Nat} (hk : k ∈ s.mem.inUse) :
    t.telegram k = s.telegram k := by
  unfold State.telegram
  rw [(h.kept k hk).1, (h.kept k hk).2]

theorem Emits.trans {s t u : State} {ns ms : List Nat} (h1 : Emits s t ns) (h2 : Emits t u ms) :
    Emits s u (ns ++ ms) where
  only := h1.only.trans h2.only
  law := h2.law
  kept := by
    intro k hk
    have a := h1.kept k hk
    have b := h2.kept k ((h1.inUse k).2 (Or.inr hk))
    exact ⟨b.1.trans a.1, b.2.trans a.2⟩
  inUse := by
    intro k
    rw [h2.inUse, h1.inUse, List.mem_append]
    tauto
  fresh := by
    intro k hk
    rcases List.mem_append.1 hk with hk | hk
    · have a := h1.fresh k hk
      have b := (h2.kept k ((h1.inUse k).2 (Or.inl hk))).1
      rw [b]
      exact a
    · have a := h2.fresh k hk
      exact ⟨fun h => a.1 ((h1.inUse k).2 (Or.inr h)), a.2⟩
  queue := by rw [h2.queue, h1.queue, List.append_assoc]
  noticeCount := by rw [h2.noticeCount, h1.noticeCount, List.length_append, Nat.add_assoc]
  handed := by
    rw [h2.handed, h1.handed]
    cases s.egress.handed <;> cases ns <;> cases ms <;> rfl
  le_pending := by
    have a := h1.le_pending
    have b := h2.le_pending
    rw [h1.pendingSet, List.length_drop] at b
    rw [List.length_append]
    omega
  pendingSet := by rw [h2.pendingSet, h1.pendingSet, List.drop_drop, List.length_append]
  number := by
    rw [h2.number, h1.number, List.length_append, BitVec.add_assoc, ← BitVec.ofNat_add]
  freeDescs := by rw [h2.freeDescs, h1.freeDescs, List.drop_drop, List.length_append]
  telegrams := by
    have hk : ns.map u.telegram = ns.map t.telegram :=
      List.map_congr_left fun k hk => h2.telegram ((h1.inUse k).2 (Or.inl hk))
    have ht : s.notices.pendingSet.take (ns ++ ms).length =
        s.notices.pendingSet.take ns.length ++ (s.notices.pendingSet.drop ns.length).take ms.length := by
      rw [List.length_append, List.take_add]
    have hl : (s.notices.pendingSet.take ns.length).length = ns.length := by
      have := h1.le_pending
      rw [List.length_take]
      omega
    rw [List.map_append, hk, h1.telegrams, h2.telegrams, h1.pendingSet, h1.number, ht, noticeTelegrams_append, hl,
      noticeTelegrams_congr h1.only.runtime]
  hands := h1.hands.trans h1.queue h2.hands fun k hk => h2.telegram ((h1.inUse k).2 (Or.inl hk))
  freeBlocks := by rw [h2.freeBlocks, h1.freeBlocks, List.drop_drop, List.length_append]
  minima := by
    have a := h1.minima
    have b := h2.minima
    have c : u.mem.freeDescs.length ≤ t.mem.freeDescs.length := by rw [h2.freeDescs, List.length_drop]; omega
    have d : u.mem.freeBlocks.length ≤ t.mem.freeBlocks.length := by rw [h2.freeBlocks, List.length_drop]; omega
    unfold MinimaAfter at *
    rw [b.1, b.2, a.1, a.2, h2.freeDescs, h2.freeBlocks] at *
    cases ns <;> cases ms <;> simp

/-- One emission makes one notice (R188). -/
theorem State.emitOne_spec {s t : State} (hm : MemoryLaw s.mem) (h : s.emitOne = some t) :
    ∃ d, Emits s t [d] ∧ s.mem.freeDescs.head? = some d ∧ s.egress.noticeCount < 2 := by
  unfold State.emitOne at h
  split at h
  · cases h
  · next e rest hp =>
    split at h
    · next hc =>
      split at h
      · cases h
      · next d m ha =>
        have hs := TelegramMemory.allocate_spec hm ha
        have hl : (noticeWords s e).length ≤ 32 := by cases e <;> exact (by decide : 4 ≤ 32)
        have hm1 := MemoryLaw.allocate hm hl ha
        have hd : d ∈ m.inUse := (hs.2.2.2.2.2.1 d).2 (Or.inl rfl)
        obtain ⟨hdesc, hwd0, hother, hwords, hfresh, hin, hfd, hfb, hmd, hmb⟩ := hs
        have hhold : (m.hold d).desc d = { m.desc d with holders := (m.desc d).holders + 1 } :=
          TelegramMemory.desc_setDesc_same _ _ _
        refine ⟨d, ?_, (TelegramMemory.allocate_eq_some.1 ha).1, hc⟩
        cases h
        constructor
        · exact (((OnlyEgress.setMem s _).trans (OnlyEgress.setNotices _ _)).trans (OnlyEgress.setEgress _ _)).trans
            (OnlyEgress.joinEgress _ _)
        · simpa using hm1.hold hd
        · intro k hk
          have hkd : k ≠ d := fun h => hfresh (h ▸ hk)
          have hkm : (m.hold d).desc k = m.desc k := TelegramMemory.desc_setDesc_other _ _ hkd
          have hd' : (m.hold d).desc k = s.mem.desc k := hkm.trans (hother k hkd)
          have hw' : (m.hold d).words k = m.words k := TelegramMemory.words_congr hkm fun _ _ _ _ => rfl
          exact ⟨by simpa [State.desc] using hd', by simpa [State.words] using hw'.trans (hwords k hk)⟩
        · intro k
          rw [State.joinEgress_mem]
          exact (hm1.inUse_setDesc hd _ k).trans ((hin k).trans (by simp))
        · intro k hk
          rw [List.mem_singleton.1 hk]
          refine ⟨hfresh, ?_⟩
          simp [State.desc, hhold, hdesc, Header.descriptor, noticeHeader]
        · simp [State.joinEgress_egress]
        · simp [State.joinEgress_egress]
        · simp [State.joinEgress_egress]
        · simp [hp]
        · simp [hp]
        · simp
        · simpa [TelegramMemory.hold, TelegramMemory.setDesc] using hfd
        · have hwd : (m.hold d).words d = noticeWords s e := by
            have : (m.hold d).words d = m.words d := by
              show TelegramMemory.readChain _ _ _ = TelegramMemory.readChain _ _ _
              rw [hhold]
              exact TelegramMemory.readChain_congr _ _ fun _ _ _ _ => rfl
            exact this.trans hwd0
          have hmem : ∀ x : State, x.mem = m.hold d → x.telegram d = noticeTelegram s s.notices.number e := by
            intro x hx
            unfold State.telegram State.desc State.words
            rw [hx, hwd, hhold, hdesc]
            cases e <;> rfl
          simp [hp, noticeTelegrams, hmem]
        · exact (HandsTheHead.none s).trans (by simp) (State.joinEgress_hands _ d) (by simp)
        · simpa [TelegramMemory.hold, TelegramMemory.setDesc, blocksFor_noticeWords] using hfb
        · rw [blocksFor_noticeWords] at hmb hfb
          rw [← hfd] at hmd
          rw [← hfb] at hmb
          simp [MinimaAfter, TelegramMemory.hold, TelegramMemory.setDesc, hmd, hmb]
    · cases h

/-- An emission attempt makes at most two notices, of the oldest pending entries, and keeps the memory law (R187). -/
theorem State.emissionAttempt_spec {s : State} (hm : MemoryLaw s.mem) :
    ∃ ns, Emits s s.emissionAttempt ns ∧ ns.length ≤ 2 := by
  unfold State.emissionAttempt
  cases h1 : s.emitOne with
  | none => exact ⟨[], Emits.refl hm, by simp⟩
  | some s1 =>
    obtain ⟨d, e1, -⟩ := State.emitOne_spec hm h1
    show ∃ ns, Emits s (match s1.emitOne with | none => s1 | some s2 => s2) ns ∧ ns.length ≤ 2
    cases h2 : s1.emitOne with
    | none => exact ⟨[d], e1, by simp⟩
    | some s2 =>
      obtain ⟨k, e2, -⟩ := State.emitOne_spec e1.law h2
      exact ⟨[d] ++ [k], e1.trans e2, by simp⟩

/-- An emission is refused only for want of an entry, of room under the notice limit, or of memory (R187). -/
theorem State.heldBack_of_emitOne {s : State} (h : s.emitOne = none) : HeldBackLaw s := by
  unfold State.emitOne at h
  split at h
  · next hp => exact Or.inl hp
  · next e rest hp =>
    split at h
    · split at h
      · next ha =>
        refine Or.inr (Or.inr ?_)
        unfold TelegramMemory.allocate at ha
        split at ha
        · next hf => exact Or.inl hf
        · next hf =>
          split at ha
          · cases ha
          · next hn =>
            refine Or.inr ?_
            have hl := blocksFor_noticeWords s e
            by_contra hb
            have := List.length_pos_of_ne_nil hb
            apply hn
            simp only [TelegramMemory.admits, hl, hf, List.length_cons, Bool.and_eq_true, decide_eq_true_eq]
            omega
      · cases h
    · next hc => exact Or.inr (Or.inl (Nat.le_of_not_lt hc))

/-- After an emission attempt no entry waits that could be emitted (R187). -/
theorem State.emissionAttempt_heldBack {s : State} (hm : MemoryLaw s.mem) : HeldBackLaw s.emissionAttempt := by
  unfold State.emissionAttempt
  cases h1 : s.emitOne with
  | none => exact State.heldBack_of_emitOne h1
  | some s1 =>
    obtain ⟨d, e1, -, -⟩ := State.emitOne_spec hm h1
    show HeldBackLaw (match s1.emitOne with | none => s1 | some s2 => s2)
    cases h2 : s1.emitOne with
    | none => exact State.heldBack_of_emitOne h2
    | some s2 =>
      obtain ⟨k, e2, -, -⟩ := State.emitOne_spec e1.law h2
      refine Or.inr (Or.inl ?_)
      rw [e2.noticeCount, e1.noticeCount]
      simp

/-- With an empty pending set an attempt does nothing. -/
theorem State.emissionAttempt_of_empty {s : State} (h : s.notices.pendingSet = []) : s.emissionAttempt = s := by
  simp [State.emissionAttempt, State.emitOne, h]

/-- With the notice limit reached an attempt does nothing (R155). -/
theorem State.emissionAttempt_of_limit {s : State} (h : 2 ≤ s.egress.noticeCount) : s.emissionAttempt = s := by
  have : s.emitOne = none := by
    unfold State.emitOne
    split
    · rfl
    · rw [if_neg (by omega)]
  simp [State.emissionAttempt, this]

/-! ## Giving a reference up (R28, R29) -/

/-- The last holder's reference releases the descriptor; any other lowers the holder count. -/
theorem TelegramMemory.dropRef_eq (m : TelegramMemory) (d : Nat) :
    m.dropRef d = if (m.desc d).holders ≤ 1 then m.release d
      else m.setDesc d { m.desc d with holders := (m.desc d).holders - 1 } := by
  have h : ((m.unhold d).desc d) = { m.desc d with holders := (m.desc d).holders - 1 } :=
    TelegramMemory.desc_setDesc_same _ _ _
  have hr : (m.unhold d).release d = m.release d := by
    unfold TelegramMemory.release
    rw [h]
    simp [TelegramMemory.unhold, TelegramMemory.setDesc, Table.erase_insert]
  have hi : (m.desc d).holders - 1 = 0 ↔ (m.desc d).holders ≤ 1 := by omega
  unfold TelegramMemory.dropRef
  rw [h, hr]
  simp only [hi]
  rfl

/-- Giving up the last reference releases the descriptor and makes an emission attempt. -/
theorem State.unhold_eq (s : State) (d : Nat) :
    s.unhold d = if (s.desc d).holders ≤ 1 then (s.setMem (s.mem.release d)).emissionAttempt
      else s.setMem (s.mem.setDesc d { s.desc d with holders := (s.desc d).holders - 1 }) := by
  have h : ((s.mem.unhold d).desc d) = { s.mem.desc d with holders := (s.mem.desc d).holders - 1 } :=
    TelegramMemory.desc_setDesc_same _ _ _
  have hi : (s.mem.desc d).holders - 1 = 0 ↔ (s.mem.desc d).holders ≤ 1 := by omega
  unfold State.unhold State.desc
  rw [h, TelegramMemory.dropRef_eq]
  by_cases hc : (s.mem.desc d).holders ≤ 1
  · simp [hc]
  · simp [hi, hc]

/-! ## Chain replacement with its emission attempt (R27, R189) -/

/-- In a lawful memory every block is free or in a chain. -/
theorem MemoryLaw.freeBlocks_length {m : TelegramMemory} (h : MemoryLaw m) :
    m.freeBlocks.length + (m.descs.flatMap fun e => e.2.chain).length = 640 := by
  have := h.2.2.1.length_eq
  rwa [List.length_append, List.length_range] at this

/-- In a lawful memory every descriptor is free or listed. -/
theorem MemoryLaw.freeDescs_length {m : TelegramMemory} (h : MemoryLaw m) :
    m.freeDescs.length + m.descs.length = 160 := by
  have := h.2.2.2.1.length_eq
  rwa [List.length_append, List.length_range, TelegramMemory.inUse, List.length_map] at this

/-- From `s` to `t` the words of `d` become `ws`, its other fields stay, and an emission attempt makes the notices `ns`. -/
structure Replaces (s t : State) (d : Nat) (ws : List Word) (ns : List Nat) : Prop where
  only : OnlyEgress s t
  law : MemoryLaw t.mem
  desc : ∃ count chain, t.desc d = { s.desc d with count := count, chain := chain }
  words : t.words d = ws
  kept : ∀ k ∈ s.mem.inUse, k ≠ d → t.desc k = s.desc k ∧ t.words k = s.words k
  inUse : ∀ k, k ∈ t.mem.inUse ↔ k ∈ ns ∨ k ∈ s.mem.inUse
  fresh : ∀ k ∈ ns, k ∉ s.mem.inUse ∧ (t.desc k).kind = .notice ∧ (t.desc k).stamp = none ∧ (t.desc k).holders = 1
  length : ns.length ≤ 2
  queue : t.egress.queue = s.egress.queue ++ ns
  noticeCount : t.egress.noticeCount = s.egress.noticeCount + ns.length
  handed : t.egress.handed = (s.egress.handed || !ns.isEmpty)
  le_pending : ns.length ≤ s.notices.pendingSet.length
  pendingSet : t.notices.pendingSet = s.notices.pendingSet.drop ns.length
  number : t.notices.number = s.notices.number + BitVec.ofNat 8 ns.length
  freeDescs : t.mem.freeDescs = s.mem.freeDescs.drop ns.length
  telegrams : ns.map t.telegram = noticeTelegrams s s.notices.number (s.notices.pendingSet.take ns.length)
  hands : HandsTheHead s t ns
  heldBack : HeldBackLaw t

/-- A chain replacement that finds its blocks: the new words, and what its emission attempt makes. -/
theorem State.replaceChain_spec {s : State} (hm : MemoryLaw s.mem) {d : Nat} (hd : d ∈ s.mem.inUse) {ws : List Word}
    (hw : ws.length ≤ 32) (hok : (s.mem.replaceChain d ws).1 = true) :
    (s.replaceChain d ws).1 = true ∧ ∃ ns, Replaces s (s.replaceChain d ws).2 d ws ns := by
  refine ⟨hok, ?_⟩
  have hm1 : MemoryLaw (s.setMem (s.mem.replaceChain d ws).2).mem := hm.replaceChain hd hw
  obtain ⟨ns, he, hlen⟩ := State.emissionAttempt_spec hm1
  obtain ⟨hwd, hdesc, -, hother, hwords, hfree, hin⟩ := TelegramMemory.replaceChain_spec hm hd ws
  have hin1 : ∀ k, k ∈ (s.setMem (s.mem.replaceChain d ws).2).mem.inUse ↔ k ∈ s.mem.inUse := fun k => by
    rw [State.setMem_mem, hin]
  have hk := fun k hk => he.kept k ((hin1 k).2 hk)
  refine ⟨ns, (OnlyEgress.setMem s _).trans he.only, he.law, ?_, ?_, ?_, ?_, ?_, hlen, he.queue, he.noticeCount,
    he.handed, he.le_pending, he.pendingSet, he.number, ?_, ?_, he.hands, State.emissionAttempt_heldBack hm1⟩
  · obtain ⟨count, chain, h⟩ := hdesc
    exact ⟨count, chain, (hk d hd).1.trans h⟩
  · refine (hk d hd).2.trans (hwd.trans ?_)
    rw [if_pos hok]
  · intro k hks hkd
    exact ⟨(hk k hks).1.trans (hother k hkd), (hk k hks).2.trans (hwords k hks hkd)⟩
  · intro k
    exact (he.inUse k).trans (by rw [hin1])
  · intro k hkn
    have := he.fresh k hkn
    exact ⟨fun h => this.1 ((hin1 k).2 h), this.2⟩
  · exact he.freeDescs.trans (by rw [State.setMem_mem, hfree])
  · exact he.telegrams.trans (noticeTelegrams_congr (OnlyEgress.setMem s _).runtime _ _)

/-! ## The stamp release (R47) -/

/-- A stamp release clears the stamp of `d` and lowers its bank's in-flight count; an unstamped descriptor changes
nothing. -/
theorem State.releaseStamp_spec (s : State) (d : Nat) :
    ((s.desc d).stamp = none → s.releaseStamp d = s) ∧
    ∀ b, (s.desc d).stamp = some b →
      s.releaseStamp d = (s.modDesc d fun x => { x with stamp := none }).setBank b (s.bank b).releaseOne ∧
      ∀ k, (s.releaseStamp d).bank k = afterRelease s b k := by
  constructor
  · intro h
    simp [State.releaseStamp, h]
  · intro b h
    have e : s.releaseStamp d = (s.modDesc d fun x => { x with stamp := none }).setBank b (s.bank b).releaseOne := by
      simp [State.releaseStamp, h]
    refine ⟨e, ?_⟩
    intro k
    rw [e]
    by_cases hk : k = b
    · subst hk
      have hi : (s.bank k).inFlight - 1 = 0 ↔ (s.bank k).inFlight ≤ 1 := by omega
      simp [afterRelease, Bank.releaseOne, hi]
    · simp [afterRelease, hk]

/-! ## Fields of one descriptor -/

/-- Rewriting the fields of `d` reaches no other descriptor and no word. -/
theorem State.modDesc_spec (s : State) (d : Nat) (f : Descriptor → Descriptor)
    (hf : ∀ x, (f x).count = x.count ∧ (f x).chain = x.chain) :
    (s.modDesc d f).desc d = f (s.desc d) ∧ (∀ k, k ≠ d → (s.modDesc d f).desc k = s.desc k) ∧
    ∀ k, (s.modDesc d f).words k = s.words k := by
  have h1 : (s.modDesc d f).desc d = f (s.desc d) := TelegramMemory.desc_setDesc_same _ _ _
  have h2 : ∀ k, k ≠ d → (s.modDesc d f).desc k = s.desc k := fun k hk => TelegramMemory.desc_setDesc_other _ _ hk
  refine ⟨h1, h2, ?_⟩
  intro k
  by_cases hk : k = d
  · subst hk
    have h3 := hf (s.mem.desc k)
    show TelegramMemory.readChain _ _ _ = TelegramMemory.readChain _ _ _
    change ((s.modDesc k f).desc k) = _ at h1
    unfold State.desc at h1
    rw [h1, h3.1, h3.2]
    exact TelegramMemory.readChain_congr _ _ fun _ _ _ _ => rfl
  · exact TelegramMemory.words_congr (h2 k hk) fun _ _ _ _ => rfl

/-- It keeps the memory law too. -/
theorem State.modDesc_law {s : State} (hm : MemoryLaw s.mem) {d : Nat} (hd : d ∈ s.mem.inUse)
    (f : Descriptor → Descriptor) (hf : ∀ x, (f x).count = x.count ∧ (f x).chain = x.chain) :
    MemoryLaw (s.modDesc d f).mem ∧ ∀ k, k ∈ (s.modDesc d f).mem.inUse ↔ k ∈ s.mem.inUse :=
  ⟨hm.setDesc hd (hf _).1 (hf _).2, hm.inUse_setDesc hd _⟩

/-! ## Answers (R167, R160) -/

/-- The answer to request `d`: built in its own descriptor, at the tail of trunk egress, and cached; nothing else changes
but what the emission attempt makes. -/
theorem State.answer_spec {s : State} (hm : MemoryLaw s.mem) {d : Nat} (hd : d ∈ s.mem.inUse) {st : AnswerStatus}
    {ws : List Word} (hw : ws.length ≤ 32) (hok : (s.mem.replaceChain d ws).1 = true) :
    AnsweredWith s (s.answer d st ws) d st ws ∧ OthersKept s (s.answer d st ws) [d] ∧
    (s.answer d st ws).agent = { s.agent with cache := cacheAdd s.agent.cache ⟨(s.desc d).seq, st, ws⟩ } ∧
    MemoryLaw (s.answer d st ws).mem ∧ HeldBackLaw (s.answer d st ws) ∧ OnlyEgress (s.setAgent (s.answer d st ws).agent) (s.answer d st ws) ∧
    ∃ ns, JoinsEgress s (s.answer d st ws) ns [d] ∧
      (s.answer d st ws).mem.freeDescs = s.mem.freeDescs.drop ns.length ∧
      (∀ k, k ∈ (s.answer d st ws).mem.inUse ↔ k ∈ ns ∨ k ∈ s.mem.inUse) ∧
      (s.answer d st ws).egress.handed = true := by
  obtain ⟨h1, ns, hr⟩ := State.replaceChain_spec hm hd hw hok
  have hb : s.buildAnswer d st ws =
      (⟨(s.desc d).seq, st, ws⟩, ((s.replaceChain d ws).2.modDesc d (Descriptor.toAnswer st)).joinEgress d) := by
    unfold State.buildAnswer
    rcases h : s.replaceChain d ws with ⟨b, s1⟩
    rw [h] at h1
    cases h1
    rfl
  have ha : s.answer d st ws =
      (((s.replaceChain d ws).2.modDesc d (Descriptor.toAnswer st)).joinEgress d).cacheAnswer
        ⟨(s.desc d).seq, st, ws⟩ := by
    unfold State.answer
    rw [hb]
  generalize hs1 : (s.replaceChain d ws).2 = s1 at hr ha
  have hto : ∀ x, (Descriptor.toAnswer st x).count = x.count ∧ (Descriptor.toAnswer st x).chain = x.chain := fun x =>
    ⟨rfl, rfl⟩
  obtain ⟨hdd, hdo, hdw⟩ := State.modDesc_spec s1 d (Descriptor.toAnswer st) hto
  have hd1 : d ∈ s1.mem.inUse := (hr.inUse d).2 (Or.inr hd)
  obtain ⟨hml, hmi⟩ := State.modDesc_law hr.law hd1 (Descriptor.toAnswer st) hto
  have hag : s1.agent = s.agent := by rw [← hs1]; simp
  have hmem : (s.answer d st ws).mem = (s1.modDesc d (Descriptor.toAnswer st)).mem := by
    rw [ha]
    simp [State.cacheAnswer]
  have hdesc : ∀ k, (s.answer d st ws).desc k = (s1.modDesc d (Descriptor.toAnswer st)).desc k := fun k => by
    unfold State.desc
    rw [hmem]
  have hwords : ∀ k, (s.answer d st ws).words k = s1.words k := fun k => by
    rw [← hdw k]
    unfold State.words
    rw [hmem]
  have heg : (s.answer d st ws).egress = { s1.egress with queue := s1.egress.queue ++ [d], handed := true } := by
    rw [ha]
    simp only [State.cacheAnswer, State.setAgent_egress]
    rw [State.joinEgress_egress]
    rfl
  have hno : (s.answer d st ws).notices = s1.notices := by
    rw [ha]
    simp [State.cacheAnswer]
  have hnd : ∀ k ∈ ns, k ≠ d := fun k hk h => (hr.fresh k hk).1 (h ▸ hd)
  have htel : ∀ k, k ≠ d → (s.answer d st ws).telegram k = s1.telegram k := fun k hk => by
    unfold State.telegram
    rw [hwords, hdesc, hdo k hk]
  refine ⟨?_, ?_, ?_, ?_, ?_, ?_, ns, ⟨?_, hr.length, hr.le_pending, ?_, ?_, ?_, ?_, ?_, ?_⟩, ?_, ?_, ?_⟩
  · obtain ⟨count, chain, h⟩ := hr.desc
    unfold AnsweredWith State.telegram
    rw [hwords, hdesc, hdd, h, hr.words]
    rfl
  · intro k hk hkd
    have hkd : k ≠ d := fun h => hkd (by simp [h])
    rw [hwords, hdesc, hdo k hkd]
    exact hr.kept k hk hkd
  · rw [ha]
    simp only [State.cacheAnswer, State.setAgent_agent, State.joinEgress_agent]
    change ({ s1.agent with cache := cacheAdd s1.agent.cache _ } : Agent) = _
    rw [hag]
  · rw [hmem]
    exact hml
  · unfold HeldBackLaw
    rw [hno, heg, hmem]
    exact hr.heldBack
  · have h2 : OnlyEgress s (((s1.modDesc d (Descriptor.toAnswer st)).joinEgress d)) :=
      (hr.only.trans (OnlyEgress.modDesc _ _ _)).trans (OnlyEgress.joinEgress _ _)
    rw [ha]
    unfold OnlyEgress at h2 ⊢
    rw [h2]
    rfl
  · rw [heg, hr.queue]
  · rw [hno, hr.pendingSet]
  · rw [hno, hr.number]
  · rw [heg, hr.noticeCount]
  · exact (List.map_congr_left fun k hk => htel k (hnd k hk)).trans hr.telegrams
  · intro k hk
    refine ⟨(hr.fresh k hk).1, by simpa using hnd k hk, ?_⟩
    rw [hdesc, hdo k (hnd k hk)]
    exact (hr.fresh k hk).2
  · refine hr.hands.trans hr.queue ?_ fun k hk => htel k (hnd k hk)
    have h2 : HandsTheHead s1 ((s1.modDesc d (Descriptor.toAnswer st)).joinEgress d) [d] :=
      State.joinEgress_hands (s1.modDesc d (Descriptor.toAnswer st)) d
    rw [ha]
    exact h2
  · rw [hmem]
    exact hr.freeDescs
  · intro k
    rw [hmem, hmi]
    exact hr.inUse k
  · rw [heg]

/-! ## Execution (R166) -/

/-- A head request that `want` names leaves the queue and is treated by `body`. -/
theorem State.execute_head {s : State} {d : Nat} {want : Request → Bool} {body : State → Nat → List Word → State}
    (hd : s.agent.requests.head? = some d) (hw : want (classifyRequest (s.words d)) = true) :
    s.execute want body = body (s.setAgent { s.agent with requests := s.agent.requests.tail }) d (s.words d) := by
  unfold State.execute
  cases hr : s.agent.requests with
  | nil => simp [hr] at hd
  | cons k rest =>
    simp only [hr, List.head?_cons, Option.some.injEq] at hd
    subst hd
    simp [hw]

end Sys2Proof.Machine
end

