-- ==== Sys2Proof/WellFormed.lean ====
section
/-! DEFINITION. Which command terms a sender may give: the byte lists of the two reception rows are not empty and no
longer than one telegram on the line (R2: 73 bytes with the lead byte), and every serial byte begins with a low start bit
(R1). `exec` is defined on every term all the same. -/

namespace Sys2Proof

/-- A serial byte begins with a start bit, which is low (R1). -/
def wfSerialByte (b : SerialByte) : Bool := !b.getLsbD 0

/-- The bytes up to a refused sixth header byte: at most the lead byte and six header bytes (R6). -/
def wfHeaderBytes (bytes : List SerialByte) : Bool :=
  1 ≤ bytes.length && bytes.length ≤ 7 && bytes.all wfSerialByte

/-- The bytes up to the second CRC byte: at most one telegram of 73 bytes (R2). -/
def wfTelegramBytes (bytes : List SerialByte) : Bool :=
  1 ≤ bytes.length && bytes.length ≤ 73 && bytes.all wfSerialByte

/-- A well-formed command term. -/
def Instr.wf : Instr → Bool
  | .countAbove32 _ bytes => wfHeaderBytes bytes
  | .receiveTelegram _ bytes => wfTelegramBytes bytes
  | .leadByte _ b => wfSerialByte b
  | .resetAsserted | .powerOnReset | .truncation _ | .discardSilence _ | .transmissionComplete _ | .spacingEnds _
  | .take _ | .replyWindowExpiry _ | .copyCompletion | .checkCompletion | .status | .readStation | .readPoints
  | .writeStation | .writePoints | .setLabel | .readImage | .readStationState | .readCounters | .clearCounters
  | .setMode | .copy | .commit | .cancel | .restart | .malformedRequest => true

end Sys2Proof
end

