-- ==== Sys2Proof/Tests/Slice0.lean ====
section
/-! SUPPORT. The model's own tests: ill-formed terms refused, the data book's worked numbers, one small step per command,
and, for every statement with hypotheses, a witness that states and operands meet them. -/

namespace Sys2Proof.Tests

set_option Elab.async false

open Sys2Proof Sys2Proof.Machine

/-! ## Ill-formed terms are refused -/

theorem test_wf_refuses_no_header_bytes : (Instr.countAbove32 .t []).wf = false := by decide
theorem test_wf_refuses_eight_header_bytes : (Instr.countAbove32 .a (List.replicate 8 0)).wf = false := by decide
theorem test_wf_accepts_seven_header_bytes : (Instr.countAbove32 .a (List.replicate 7 0)).wf = true := by decide
theorem test_wf_refuses_header_byte_without_start : (Instr.countAbove32 .a [0x3FF]).wf = false := by decide
theorem test_wf_refuses_telegram_byte_without_start : (Instr.receiveTelegram .b [0, 1]).wf = false := by decide
theorem test_wf_refuses_lead_byte_without_start : (Instr.leadByte .t 0x3FF).wf = false := by decide
theorem test_wf_accepts_lead_byte : (Instr.leadByte .t (serialOf 0x5A)).wf = true := by decide
theorem test_wf_refuses_no_telegram_bytes : (Instr.receiveTelegram .t []).wf = false := by decide
theorem test_wf_refuses_74_telegram_bytes : (Instr.receiveTelegram .b (List.replicate 74 0)).wf = false := by decide
theorem test_wf_accepts_73_telegram_bytes : (Instr.receiveTelegram .b (List.replicate 73 0)).wf = true := by decide

/-! ## States for the tests -/

/-- A telegram. -/
def telegram (dest src : Nat) (kind : Kind) (seq : Nat) (words : List Word) : Telegram :=
  ⟨BitVec.ofNat 6 dest, BitVec.ofNat 6 src, kind, Marks.clear, BitVec.ofNat 8 seq, 0, words⟩

/-- The state an outcome goes on to. -/
def nextOf (o : Host.Outcome State Fault Refusal) : State :=
  match o with
  | .next t => t
  | .fault _ => State.reset
  | .refused _ => State.reset

/-- The state after the arrival of `t` on port `p`. -/
def heard (p : Port) (t : Telegram) (s : State) : State := nextOf (exec (.receiveTelegram p (lineSerial .t t)) s)

/-- `s` with one more telegram in its memory, its descriptor's fields rewritten by `f`. -/
def put (s : State) (h : Header) (ws : List Word) (f : Descriptor → Descriptor) : State :=
  match s.mem.allocate .part h ws with
  | none => s
  | some (d, m) => (s.setMem m).modDesc d f

/-- One holder. -/
def oneHolder (x : Descriptor) : Descriptor := { x with holders := 1 }

/-- One holder, and a stamp. -/
def stampedWith (b : BankId) (x : Descriptor) : Descriptor := { x with holders := 1, stamp := some b }

/-- `s` with a management request of these words waiting. -/
def request (s : State) (ws : List Word) : State :=
  (put s ⟨62, 0, .mgmtReq, 7, 0⟩ ws oneHolder).setAgent { s.agent with requests := [0] }

/-- The reset state with bank 1 in the state given. -/
def withBank1 (st : BankState) : State := State.reset.setBank .bank1 (Bank.reset st)

/-- A memory with `n` descriptors in use, each a request of no words with its own number as sequence. -/
def crowdedMem (n : Nat) : TelegramMemory :=
  { TelegramMemory.reset with
    descs := (List.range n).map fun d => (d, ⟨62, 0, .mgmtReq, Marks.clear, BitVec.ofNat 8 d, 0, 0, [], 1, none⟩)
    freeDescs := List.range' n (Config.descriptors - n) }

/-- The state with such a memory. -/
def crowded (n : Nat) : State := State.reset.setMem (crowdedMem n)

theorem rising_map_range' (f : Nat → Descriptor) (k n : Nat) :
    Table.rising ((List.range' k n).map fun d => (d, f d)) = true := by
  rw [Table.rising_iff_pairwise, List.pairwise_map]
  exact List.Pairwise.imp (fun h => h) List.pairwise_lt_range'

theorem crowdedMem_law {n : Nat} (h : n ≤ 160) : MemoryLaw (crowdedMem n) := by
  refine ⟨?_, rfl, ?_, ?_, ?_⟩
  · have := rising_map_range' (fun d => ⟨62, 0, .mgmtReq, Marks.clear, BitVec.ofNat 8 d, 0, 0, [], 1, none⟩) 0 n
    rwa [← List.range_eq_range'] at this
  · have : ((crowdedMem n).descs.flatMap fun e => e.2.chain) = [] := by simp [crowdedMem]
    unfold BlocksPartitioned
    rw [this, List.append_nil]
    simp only [crowdedMem, TelegramMemory.reset, List.Perm.refl]
  · have : (crowdedMem n).inUse = List.range n := by
      simp only [TelegramMemory.inUse, crowdedMem, List.map_map]
      exact List.map_id' _
    rw [DescriptorsPartitioned, this]
    refine List.perm_append_comm.trans (List.Perm.of_eq ?_)
    show List.range n ++ List.range' n (160 - n) = List.range 160
    rw [List.range_eq_range', List.range_eq_range']
    have := List.range'_append (s := 0) (m := n) (n := 160 - n) (step := 1)
    rw [Nat.one_mul, Nat.zero_add] at this
    rw [this, Nat.add_sub_of_le h]
  · intro e he
    obtain ⟨d, -, rfl⟩ := List.mem_map.1 he
    exact ⟨Nat.zero_le _, (by decide : 0 = blocksFor 0)⟩

theorem crowded_none : crowdedMem 0 = TelegramMemory.reset := by
  simp [crowdedMem, TelegramMemory.reset, List.range_eq_range']

theorem reset_law : MemoryLaw TelegramMemory.reset := crowded_none ▸ crowdedMem_law (Nat.zero_le 160)

/-- A bank's default contents are canonical. -/
theorem tables_default : Table.wf StationEntry.default [] = true ∧ Table.wf StationEntry.default [] = true ∧
    Table.wf PointRecord.default [] = true ∧ Table.wf PointRecord.default [] = true ∧
    Table.wf StationRuntime.default [] = true ∧ Table.wf ImageRecord.default [] = true ∧
    Table.wf ImageRecord.default [] = true ∧ Table.wf StationCounters.zero [] = true := by decide

theorem put_law {s : State} (hm : MemoryLaw s.mem) (h : Header) {ws : List Word} (hw : ws.length ≤ 32)
    (f : Descriptor → Descriptor) (hf : ∀ x, (f x).count = x.count ∧ (f x).chain = x.chain) :
    MemoryLaw (put s h ws f).mem := by
  unfold put
  cases ha : s.mem.allocate .part h ws with
  | none => exact hm
  | some p =>
    obtain ⟨d, m⟩ := p
    have h1 := hm.allocate hw ha
    exact h1.setDesc (((TelegramMemory.allocate_spec hm ha).2.2.2.2.2.1 d).2 (Or.inl rfl)) (hf _).1 (hf _).2

theorem running_put {s : State} (h : Running s) (hd : Header) {ws : List Word} (hw : ws.length ≤ 32)
    (f : Descriptor → Descriptor) (hf : ∀ x, (f x).count = x.count ∧ (f x).chain = x.chain) :
    Running (put s hd ws f) := by
  have hm := put_law h.2.1 hd hw f hf
  have hr : (put s hd ws f).resetHeld = s.resetHeld ∧ (put s hd ws f).bank0 = s.bank0 ∧
      (put s hd ws f).bank1 = s.bank1 ∧ (put s hd ws f).runtime = s.runtime ∧ (put s hd ws f).inImages = s.inImages ∧
      (put s hd ws f).outImages = s.outImages ∧ (put s hd ws f).counters = s.counters := by
    unfold put
    cases s.mem.allocate .part hd ws with
    | none => exact ⟨rfl, rfl, rfl, rfl, rfl, rfl, rfl⟩
    | some p => exact ⟨rfl, rfl, rfl, rfl, rfl, rfl, rfl⟩
  obtain ⟨h0, h1, h2, h3, h4, h5, h6⟩ := hr
  refine ⟨h0.trans h.1, hm, hm.1, hm.2.1, ?_⟩
  rw [h1, h2, h3, h4, h5, h6]
  exact h.2.2.2.2

theorem oneHolder_keeps (x : Descriptor) : (oneHolder x).count = x.count ∧ (oneHolder x).chain = x.chain := ⟨rfl, rfl⟩

theorem stampedWith_keeps (b : BankId) (x : Descriptor) :
    (stampedWith b x).count = x.count ∧ (stampedWith b x).chain = x.chain := ⟨rfl, rfl⟩

/-- With an empty memory, the agent is about to execute any request put before it. -/
theorem executing_request {s : State} (h : Running s) (he : s.mem = TelegramMemory.reset) {ws : List Word}
    (hw : ws.length ≤ 32) : Executing (request s ws) 0 ws := by
  obtain ⟨m, ha⟩ : ∃ m, s.mem.allocate .part ⟨62, 0, .mgmtReq, 7, 0⟩ ws = some (0, m) := by
    refine ⟨_, TelegramMemory.allocate_eq_some.2 ⟨by rw [he]; rfl, ?_, rfl⟩⟩
    rw [he]
    simp only [TelegramMemory.admits, TelegramMemory.reset, Config.descriptors, Config.blocks, List.length_range,
      blocksFor, Config.blockWords]
    simp
    omega
  have hs := TelegramMemory.allocate_spec h.2.1 ha
  have hput : put s ⟨62, 0, .mgmtReq, 7, 0⟩ ws oneHolder = (s.setMem m).modDesc 0 oneHolder := by
    unfold put
    rw [ha]
  have h0 := (hs.2.2.2.2.2.1 0).2 (Or.inl rfl)
  refine ⟨running_put h _ hw _ oneHolder_keeps, rfl, ?_, ?_⟩
  · unfold request
    rw [hput]
    exact ((h.2.1.allocate hw ha).inUse_setDesc h0 _ 0).2 h0
  · unfold request
    rw [hput]
    exact ((State.modDesc_spec (s.setMem m) 0 oneHolder oneHolder_keeps).2.2 0).trans hs.2.1

theorem running_of {s : State} (hr : s.resetHeld = false) (hm : MemoryLaw s.mem)
    (ht : Table.wf StationEntry.default s.bank0.stations = true ∧ Table.wf StationEntry.default s.bank1.stations = true ∧
      Table.wf PointRecord.default s.bank0.points = true ∧ Table.wf PointRecord.default s.bank1.points = true ∧
      Table.wf StationRuntime.default s.runtime = true ∧ Table.wf ImageRecord.default s.inImages = true ∧
      Table.wf ImageRecord.default s.outImages = true ∧ Table.wf StationCounters.zero s.counters.stations = true) :
    Running s := ⟨hr, hm, hm.1, hm.2.1, ht⟩

theorem running_reset : Running State.reset := running_of rfl reset_law tables_default

theorem running_withBank1 (st : BankState) : Running (withBank1 st) := running_reset

theorem running_crowded {n : Nat} (h : n ≤ 160) : Running (crowded n) :=
  running_of rfl (crowdedMem_law h) tables_default

/-- Any request, with bank 1 in any state. -/
theorem executing (st : BankState) {ws : List Word} (hw : ws.length ≤ 32) : Executing (request (withBank1 st) ws) 0 ws :=
  executing_request (running_withBank1 st) rfl hw

/-- A waiting poll of station 5, sequence 9, stamped with bank `b`. -/
def withPoll (b : BankId) : State := put State.reset ⟨5, 0, .poll, 9, 0⟩ [0x1234] (stampedWith b)

theorem running_withPoll (b : BankId) : Running (withPoll b) := by
  unfold withPoll
  exact running_put running_reset _ (by simp) _ (stampedWith_keeps b)

/-- A SYNC of cycle 77 with `n` holders. -/
def withSync (n : Nat) : State := put State.reset ⟨63, 0, .sync, 1, 0⟩ [77] fun x => { x with holders := n }

theorem running_withSync (n : Nat) : Running (withSync n) := by
  unfold withSync
  exact running_put running_reset _ (by simp) _ fun _ => ⟨rfl, rfl⟩

/-! ## Witnesses: the machine and its resets -/

/-- The reset state held in reset. -/
def heldReset : State := State.reset.setResetHeld true

theorem witness_StepRunsTheFrontCommand : State.reset.pending = [] := rfl

theorem witness_CommandsAnswerNextAndTheResetPinHolds :
    heldReset.resetHeld = true ∧ Instr.take .a ≠ Instr.powerOnReset := by decide

theorem witness_LawsHoldAtReset : Table.wf 0 State.reset.mem.blocks = true := by decide

/-- The laws hold of the reset state, which steps to itself. -/
theorem witness_LawsKeptByEveryStep : Laws State.reset ∧ step State.reset = .next State.reset := by
  refine ⟨?_, rfl⟩
  have hc : State.reset.bank0.checkedLaw ∧ State.reset.bank1.checkedLaw := by decide +kernel
  constructor
  case memory => exact reset_law
  case tables => exact running_reset.2.2
  case checked => exact hc
  all_goals decide +kernel

theorem witness_TablesStayCanonical : TablesCanonical State.reset ∧ step State.reset = .next State.reset :=
  ⟨running_reset.2.2, rfl⟩

/-! ## Witnesses: the line -/

/-- The reset state with the receiver of port A as given. -/
def withRx (r : Receiver) : State := State.reset.setRx .a r

theorem witness_CrcOfTheCheckBytesAndResidue :
    ([5, 0, 1, 9, 0, 0] : List Byte).length = 6 + 2 * (([5, 0, 1, 9, 0, 0] : List Byte).getD 5 0).toNat := by decide

/-- 5Ah and the count bytes 32 and 0 as ten line bits, the stop bit low. -/
theorem witness_ReceiverTakesOneByte_bits :
    (∀ b ∈ [(0x5A : Byte), 32, 0], ∃ f ∈ [0xB4, 64, (0 : SerialByte)], f.getLsbD 0 = false ∧
      ∀ i, i < 8 → f.getLsbD (i + 1) = b.getLsbD i) ∧
    (0x3FF : SerialByte).getLsbD 0 = true := by decide

theorem witness_ReceiverTakesOneByte :
    State.reset.resetHeld = false ∧ (State.reset.port .a).rx = .hunt ∧
    ((withRx .discard).resetHeld = false ∧ ((withRx .discard).port .a).rx = .discard) ∧
    ((withRx (.frame [])).port .a).rx = .frame [] ∧ ([] : List Byte).length < 5 ∧
    ((withRx (.frame [1, 2, 3, 4])).port .a).rx = .frame [1, 2, 3, 4] ∧ [1, 2, 3, 4].length < 5 ∧
    ((withRx (.frame [1, 2, 3, 4, 5])).port .a).rx = .frame [1, 2, 3, 4, 5] ∧ [1, 2, 3, 4, 5].length = 5 ∧
      (32 : Byte).toNat ≤ 32 ∧
    ((withRx (.frame [1, 2, 3, 4, 5, 0])).port .a).rx = .frame [1, 2, 3, 4, 5, 0] ∧
      6 ≤ [1, 2, 3, 4, 5, 0].length ∧ [1, 2, 3, 4, 5, 0].length + 1 < 8 + 2 * (0 : Byte).toNat := by decide

theorem witness_OverlongAndTruncatedTelegrams :
    let header : List Byte := [5, 0, 1, 9, 0, 33]
    State.reset.resetHeld = false ∧ header.length = 6 ∧ 32 < (header.getD 5 0).toNat ∧
    (State.reset.port .a).rx = .hunt ∧ takenBytes ((0x5A :: header).map serialOf) = 0x5A :: header ∧
    0 < 6 ∧ ((withRx (.frame (header.take 0))).port .a).rx = .frame (header.take 0) ∧
      takenBytes (header.map serialOf) = header.drop 0 ∧
    5 < 6 ∧ ((withRx (.frame (header.take 5))).port .a).rx = .frame (header.take 5) ∧
      takenBytes [66] = header.drop 5 ∧
    ((withRx .discard).port .a).rx = .discard := by decide

/-- The header bytes of a telegram of no words and this kind byte. -/
def headerOf (kind : Byte) : List Byte := [5, 0, kind, 9, 0, 0]

theorem witness_DamagedTelegramsAreOnlyCounted :
    State.reset.resetHeld = false ∧ (State.reset.port .t).rx = .hunt ∧
    ((headerOf 1).getD 5 0).toNat ≤ 32 ∧ (headerOf 1).length = 6 + 2 * ((headerOf 1).getD 5 0).toNat ∧
    takenBytes ((0x5A :: (headerOf 1 ++ [0, 0])).map serialOf) = 0x5A :: (headerOf 1 ++ [0, 0]) ∧
    crc16 (headerOf 1) ≠ (0 : Byte) ++ (0 : Byte) ∧
    crc16 (headerOf 0x17) = hiByte (crc16 (headerOf 0x17)) ++ loByte (crc16 (headerOf 0x17)) ∧
    7 ≤ ((headerOf 0x17).getD 2 0).toNat % 16 ∧ ((headerOf 0x10).getD 2 0).toNat % 16 = 0 ∧
    (let body : List Byte := [5, 0, 1, 9, 0, 32] ++ List.replicate 64 7
     (body.getD 5 0).toNat ≤ 32 ∧ body.length = 6 + 2 * (body.getD 5 0).toNat) := by decide +kernel

theorem witness_LineRoundTrip :
    takenBytes [0x2B4] = takenBytes [(0x0B4 : SerialByte)] ∧
    State.reset.resetHeld = false ∧ (State.reset.port .b).rx = .hunt ∧
    (telegram 5 0 .poll 9 (List.replicate 32 1)).words.length ≤ 32 := by decide

theorem witness_DiscardedTelegramsAreOnlyCounted :
    State.reset.resetHeld = false ∧ State.reset.portT.rx = .hunt ∧ (telegram 5 1 .poll 9 []).src ≠ 0 ∧
    (telegram 5 0 .reply 9 []).src = 0 ∧
    (∀ k ∈ [Kind.reply, .mgmtAns, .notice], k = .reply ∨ k = .mgmtAns ∨ k = .notice) ∧
    (∀ d ∈ [0, 62, 63], (telegram d 0 .poll 9 []).dest = 0 ∨ 62 ≤ (telegram d 0 .poll 9 []).dest.toNat) ∧
    (telegram 62 0 .sync 9 []).dest ≠ 63 ∧
    (∀ ws ∈ [[], [(1 : Word), 2]], (telegram 63 0 .sync 9 ws).dest = 63 ∧ (telegram 63 0 .sync 9 ws).words.length ≠ 1) ∧
    (telegram 61 0 .mgmtReq 9 []).dest ≠ 62 ∧
    (State.reset.port (dropPort .a)).rx = .hunt ∧ (telegram 5 0 .poll 9 []).kind ≠ .reply ∧
    (telegram 1 5 .reply 9 []).dest ≠ 0 ∧ (telegram 0 0 .reply 9 []).src = 0 ∧
    62 ≤ (telegram 0 62 .reply 9 []).src.toNat ∧
    (∀ n ∈ [1, 61], 1 ≤ (telegram 0 n .reply 9 []).src.toNat ∧ (telegram 0 n .reply 9 []).src.toNat ≤ 61) := by decide

theorem witness_NoTransactionMatches : ¬∃ x, Matches State.reset .a x 5 9 := by
  rintro ⟨x, h, -⟩
  cases h

/-- `s` with the transmitter of port `p` sending a telegram. -/
def sendingOn (s : State) (p : Port) : State := s.setTx p (.sending (telegram 5 0 .poll 9 []))

theorem running_sendingOn {s : State} (h : Running s) (p : Port) : Running (sendingOn s p) := by cases p <;> exact h

theorem running_setSeg {s : State} (h : Running s) (g : Segment) (c : SegmentController) : Running (s.setSeg g c) := by
  cases g <;> exact h

/-- A transaction of station 5 in descriptor 0. -/
def transaction (made allowed : Nat) : Transaction := ⟨5, 9, 0, .bank0, allowed, made, false⟩

theorem witness_DropTransmissionComplete :
    let s := fun n => sendingOn ((withSync n).setSeg .a ⟨[], .sync 0, none, .sending⟩) .a
    let p := sendingOn ((withPoll .bank0).setSeg .a ⟨[], .poll (transaction 1 2), none, .sending⟩) .a
    let e := sendingOn (State.reset.setSeg .a ⟨[], .empty, none, .sending⟩) .a
    (Running (s 1) ∧ Running (s 2) ∧ Running p ∧ Running e) ∧
    ((s 1).port (dropPort .a)).tx = .sending (telegram 5 0 .poll 9 []) ∧
    ((s 1).seg .a).slot = .sync 0 ∧ 0 ∈ (s 1).mem.inUse ∧ ((s 1).desc 0).holders ≤ 1 ∧ (s 1).notices.pendingSet = [] ∧
    ((s 2).seg .a).slot = .sync 0 ∧ 0 ∈ (s 2).mem.inUse ∧ 2 ≤ ((s 2).desc 0).holders ∧
    (p.seg .a).slot = .poll (transaction 1 2) ∧ (e.seg .a).slot = .empty := by
  refine ⟨⟨running_sendingOn (running_setSeg (running_withSync 1) _ _) _, running_sendingOn (running_setSeg (running_withSync 2) _ _) _,
    running_sendingOn (running_setSeg (running_withPoll _) _ _) _, running_sendingOn (running_setSeg running_reset _ _) _⟩, ?_⟩
  decide +kernel

/-- The state with three requests in use, of which 0 and 1 stand in trunk egress, and port T sending. -/
def sendingTrunk : State := sendingOn ((crowded 3).setEgress ⟨[0, 1], true, 0⟩) .t

theorem witness_TrunkTransmissionComplete :
    Running sendingTrunk ∧ sendingTrunk.portT.tx = .sending (telegram 5 0 .poll 9 []) ∧
    sendingTrunk.egress.queue = 0 :: [1] ∧ 0 ∈ sendingTrunk.mem.inUse ∧ (sendingTrunk.desc 0).holders = 1 ∧
    sendingTrunk.notices.pendingSet = [] :=
  ⟨running_crowded (by decide), by decide +kernel⟩

theorem witness_SpacingEndsFreesOrStarts :
    State.reset.resetHeld = false ∧ ((State.reset.setTx .b (.spacing none)).port .b).tx = .spacing none ∧
    (((crowded 1).setTx .b (.spacing (some 0))).port .b).tx = .spacing (some 0) ∧ (State.reset.port .b).tx = .idle ∧
    ((sendingOn State.reset .b).port .b).tx = .sending (telegram 5 0 .poll 9 []) := by decide +kernel

/-! ## Witnesses: Telegram Memory -/

theorem witness_TrafficLeavesTheReserve :
    ((crowdedMem 151).allocate .traffic ⟨5, 0, .poll, 9, 0⟩ []).isSome = true ∧
    ((crowdedMem 152).allocate .traffic ⟨5, 0, .poll, 9, 0⟩ []).isSome = false ∧
    ((crowdedMem 159).allocate .part ⟨5, 0, .poll, 9, 0⟩ [1]).isSome = true ∧
    ((crowdedMem 1).replaceChain 0 [1]).1 = true ∧ [(1 : Word)] ≠ [] ∧
    ({ crowdedMem 1 with freeBlocks := [] }.replaceChain 0 [1]).1 = false := by decide +kernel

theorem witness_ReplacementAlwaysFindsBlocks :
    MemoryLaw (crowdedMem 160) ∧ 159 ∈ (crowdedMem 160).inUse ∧ (List.replicate 32 (1 : Word)).length ≤ 32 :=
  ⟨crowdedMem_law (by decide), by decide +kernel⟩

/-! ## Witnesses: configuration banks -/

theorem witness_BankLawsKept :
    (OneActive State.reset ∧ FlightLaw State.reset ∧ CheckedLaw State.reset ∧ OpenSlotLaw State.reset) ∧
    step State.reset = .next State.reset := by
  refine ⟨?_, rfl⟩
  decide +kernel

/-- The reset state with bank 1 ACTIVE. -/
def bank1Active : State := (withBank1 .active).setBank .bank0 (Bank.reset .standby)

theorem witness_ActiveBankChangesOnlyAtSync :
    (OneActive bank1Active ∧ exec .powerOnReset bank1Active = .next bank1Active.powerOn ∧
      bank1Active.powerOn.active ≠ bank1Active.active) ∧
    OneActive (withBank1 .pending) ∧
    exec (.receiveTelegram .t (lineSerial .t (telegram 63 0 .sync 1 [7]))) (withBank1 .pending) =
      .next (heard .t (telegram 63 0 .sync 1 [7]) (withBank1 .pending)) ∧
    (heard .t (telegram 63 0 .sync 1 [7]) (withBank1 .pending)).active ≠ (withBank1 .pending).active ∧
    ((withBank1 .pending).arriveTrunk ⟨63, 0, .sync, 1, [7]⟩).active ≠ (withBank1 .pending).active := by
  refine ⟨⟨by decide, rfl, by decide⟩, by decide, rfl, ?_⟩
  decide +kernel

theorem witness_BankContentsChangeOnlyInStandbyOrFilling :
    OneActive State.reset ∧ exec (.take .a) State.reset = .next State.reset ∧ Instr.take .a ≠ .powerOnReset ∧
    (State.reset.bank .bank0).state ≠ .standby ∧ (State.reset.bank .bank0).state ≠ .filling :=
  ⟨by decide, rfl, by decide⟩

theorem witness_SetLabelSetsAStandbyLabel :
    Executing (request (withBank1 .standby) [6, 2, 7]) 0 [6, 2, 7] ∧ 1 < (2 : Word).toNat ∧
    Executing (request (withBank1 .standby) [6, 1, 65535]) 0 [6, 1, 65535] ∧
    Executing (request (withBank1 .standby) [6, 1, 65534]) 0 [6, 1, 65534] ∧ (1 : Word) = BankId.bank1.code ∧
      (65534 : Word) ≠ 65535 ∧ ((request (withBank1 .standby) [6, 1, 65534]).bank .bank1).state = .standby ∧
    Executing (request (withBank1 .standby) [6, 0, 0]) 0 [6, 0, 0] ∧ (0 : Word) = BankId.bank0.code ∧
      ((request (withBank1 .standby) [6, 0, 0]).bank .bank0).state ≠ .standby := by
  refine ⟨executing _ (by decide), by decide, executing _ (by decide), executing _ (by decide), by decide, by decide, ?_,
    executing _ (by decide), by decide, ?_⟩ <;> decide +kernel

theorem witness_WritesReachAStandbyBank_station :
    let least : List Word := [3, 1, 1, 0, 1, 0, 1, 0, 0, 0, 0, 0]
    let most : List Word := [3, 1, 61, 2, 255, 3, 15, 255, 1023, 32, 1023, 32]
    let beyond : List Word := [3, 1, 62, 0, 1, 0, 1, 0, 0, 0, 0, 0]
    Executing (request (withBank1 .standby) least) 0 least ∧ Executing (request (withBank1 .filling) most) 0 most ∧
    Executing (request (withBank1 .standby) beyond) 0 beyond ∧
    ((request (withBank1 .standby) least).bank .bank1).state = .standby ∧
    ((request (withBank1 .filling) most).bank .bank1).state ≠ .standby := by
  refine ⟨executing _ (by decide), executing _ (by decide), executing _ (by decide), ?_⟩
  decide +kernel

theorem witness_WritesReachAStandbyBank_points :
    let one : List (List Word) := [[31, 10, 1, 0, 0, 0]]
    let four : List (List Word) := List.replicate 4 [0, 0, 0, 1, 2, 3]
    let beyond : List (List Word) := [[32, 0, 0, 0, 0, 0]]
    (∀ rs ∈ [one, four, beyond], (∀ r ∈ rs, r.length = 6) ∧ 1 ≤ rs.length ∧ rs.length ≤ 4) ∧
    (1 : Word).toNat = one.length ∧ (4 : Word).toNat = four.length ∧ (1 : Word).toNat = beyond.length ∧
    Executing (request (withBank1 .standby) ([5, 1, 1023, 1] ++ one.flatten)) 0 ([5, 1, 1023, 1] ++ one.flatten) ∧
    Executing (request (withBank1 .pending) ([5, 1, 1020, 4] ++ four.flatten)) 0 ([5, 1, 1020, 4] ++ four.flatten) ∧
    Executing (request (withBank1 .standby) ([5, 1, 0, 1] ++ beyond.flatten)) 0 ([5, 1, 0, 1] ++ beyond.flatten) ∧
    ((request (withBank1 .standby) ([5, 1, 1023, 1] ++ one.flatten)).bank .bank1).state = .standby ∧
    ((request (withBank1 .pending) ([5, 1, 1020, 4] ++ four.flatten)).bank .bank1).state ≠ .standby := by
  refine ⟨by decide, by decide, by decide, by decide, executing _ (by decide), executing _ (by decide),
    executing _ (by decide), ?_⟩
  decide +kernel

theorem witness_BankReadsAnswerTheContents :
    (OneActive (request (withBank1 .filling) [2, 1, 61]) ∧ Executing (request (withBank1 .filling) [2, 1, 61]) 0 [2, 1, 61] ∧
      ((request (withBank1 .filling) [2, 1, 61]).bank .bank1).state = .filling) ∧
    (OneActive (request (withBank1 .filling) [2, 0, 1]) ∧ Executing (request (withBank1 .filling) [2, 0, 1]) 0 [2, 0, 1] ∧
      ((request (withBank1 .filling) [2, 0, 1]).bank .bank0).state ≠ .filling) ∧
    Executing (request (withBank1 .filling) [2, 0, 62]) 0 [2, 0, 62] ∧
    (OneActive (request (withBank1 .filling) [4, 1, 1020, 4]) ∧
      Executing (request (withBank1 .filling) [4, 1, 1020, 4]) 0 [4, 1, 1020, 4]) ∧
    Executing (request (withBank1 .standby) [4, 1, 1023, 1]) 0 [4, 1, 1023, 1] ∧
    Executing (request (withBank1 .standby) [4, 1, 1021, 4]) 0 [4, 1, 1021, 4] := by
  refine ⟨⟨?_, executing _ (by decide), ?_⟩, ⟨?_, executing _ (by decide), ?_⟩,
    executing _ (by decide), ⟨?_, executing _ (by decide)⟩, executing _ (by decide), executing _ (by decide)⟩ <;>
  decide +kernel

theorem witness_CopyAndCommitOpenTheOperation :
    ∀ st ∈ [BankState.filling, .checking, .pending, .retiring, .standby],
      OneActive (request (withBank1 st) [12]) ∧ Executing (request (withBank1 st) [12]) 0 [12] ∧
      (request (withBank1 st) [12]).standbyState = st ∧
      OneActive (request (withBank1 st) [13]) ∧ Executing (request (withBank1 st) [13]) 0 [13] ∧
      (request (withBank1 st) [13]).standbyState = st := by
  have h1 : ∀ st ∈ [BankState.filling, .checking, .pending, .retiring, .standby],
      OneActive (request (withBank1 st) [12]) ∧ (request (withBank1 st) [12]).standbyState = st ∧
      OneActive (request (withBank1 st) [13]) ∧ (request (withBank1 st) [13]).standbyState = st := by decide +kernel
  intro st hst
  obtain ⟨a, b, c, d⟩ := h1 st hst
  exact ⟨a, executing st (by decide), b, c, executing st (by decide), d⟩

/-- Two requests in use; 0 is open and 1 waits to be executed. -/
def openState (st : BankState) (ws : List Word) : State :=
  (put ((crowded 1).setBank .bank1 (Bank.reset st)) ⟨62, 0, .mgmtReq, 7, 0⟩ ws oneHolder).setAgent ⟨[1], some 0, []⟩

theorem running_setAgent {s : State} (h : Running s) (a : Agent) : Running (s.setAgent a) := h

theorem running_setBank1 {s : State} (h : Running s) {b : Bank}
    (hb : Table.wf StationEntry.default b.stations = true ∧ Table.wf PointRecord.default b.points = true) :
    Running (s.setBank .bank1 b) := by
  obtain ⟨h1, h2, h3, h4, h5, -, h7, -, h9⟩ := h
  exact ⟨h1, h2, h3, h4, h5, hb.1, h7, hb.2, h9⟩

theorem running_crowded1 (st : BankState) : Running ((crowded 1).setBank .bank1 (Bank.reset st)) :=
  running_of (running_crowded (n := 1) (by decide)).1 (crowdedMem_law (by decide)) tables_default

theorem running_openState (st : BankState) {ws : List Word} (hw : ws.length ≤ 32) : Running (openState st ws) := by
  unfold openState
  exact running_setAgent (running_put (running_crowded1 st) _ hw _ oneHolder_keeps) _

/-- Bank 1 with a run of station 1 that names a record of kind NONE, which the check refuses. -/
def refusedBank (st : BankState) : Bank := (Bank.reset st).setEntry 1 ⟨.a, 20, 1, 3, 0, 0, 1, 0, 0⟩

theorem witness_CompletionsAnswerTheOpenRequest :
    (State.reset.resetHeld = false ∧ State.reset.agent.openSlot = none ∧ State.reset.standbyState = .standby) ∧
    (∀ st ∈ [BankState.filling, .checking, .standby], Running (openState st []) ∧
      (openState st []).agent.openSlot = some 0 ∧ 0 ∈ (openState st []).mem.inUse ∧ (openState st []).standbyState = st) ∧
    ((openState .checking []).bank (openState .checking []).standbyId).check = none ∧
    (refusedBank .checking).check = some ⟨1, 0, 5⟩ ∧
    Running ((openState .checking []).setBank .bank1 (refusedBank .checking)) := by
  refine ⟨by decide, ?_, by decide +kernel, by decide +kernel, ?_⟩
  · have h : ∀ st ∈ [BankState.filling, .checking, .standby],
      (openState st []).agent.openSlot = some 0 ∧ 0 ∈ (openState st []).mem.inUse ∧
      (openState st []).standbyState = st := by decide +kernel
    exact fun st hst => ⟨running_openState st (by decide), h st hst⟩
  · have h := running_openState .checking (ws := []) (by decide)
    exact running_setBank1 h (by decide +kernel)

/-- A bank with an outbound run of two records, 0 and 1, and an inbound run of one, 2. -/
def checkedBank : Bank :=
  ((Bank.reset .standby).setEntry 1 ⟨.a, 20, 1, 3, 0, 0, 2, 2, 1⟩).setPoints 0
    [⟨0, .bcd8ToBin32, .substitute, 0, 0, 0⟩, ⟨2, .scale, .hold, 1, 1, 0⟩, ⟨31, .range, .hold, 0xFFFF, 0, 0⟩]

/-- `checkedBank` with station 2 given an inbound run of two records from `first` on. -/
def checkedWith (first : Nat) : Bank := checkedBank.setEntry 2 ⟨.a, 20, 1, 3, 0, 0, 0, first, 2⟩

theorem witness_PassedCheckMeansSoundRuns :
    checkedBank.check = none ∧ checkedBank.runs = [⟨1, false, 0, 2⟩, ⟨1, true, 2, 1⟩] ∧
    ((∀ r ∈ checkedBank.runs, r.inTable) ∧ ∀ r ∈ checkedBank.runs, ∀ k ∈ List.range' r.first r.length,
      recordReason checkedBank r k = 0) ∧
    ((checkedWith 1023).runs = [⟨1, false, 0, 2⟩, ⟨1, true, 2, 1⟩] ++ ⟨2, true, 1023, 2⟩ :: [] ∧
      ¬RunRef.inTable ⟨2, true, 1023, 2⟩ ∧ (checkedWith 1023).check = some ⟨0, 2, 2⟩) ∧
    ((checkedWith 1).runs = [⟨1, false, 0, 2⟩, ⟨1, true, 2, 1⟩] ++ ⟨2, true, 1, 2⟩ :: [] ∧
      (RunRef.has ⟨2, true, 1, 2⟩ 1 ∧ RunRef.has ⟨1, false, 0, 2⟩ 1) ∧ (checkedWith 1).check = some ⟨0, 2, 4⟩) ∧
    ((checkedWith 1022).runs = [⟨1, false, 0, 2⟩, ⟨1, true, 2, 1⟩] ++ ⟨2, true, 1022, 2⟩ :: [] ∧
      RunRef.has ⟨2, true, 1022, 2⟩ 1022 ∧ recordReason (checkedWith 1022) ⟨2, true, 1022, 2⟩ 1022 = 5 ∧
      (checkedWith 1022).check = some ⟨1, 1022, 5⟩) := by decide +kernel

theorem witness_CancelEndsTheOperation :
    (∀ st ∈ [BankState.standby, .retiring, .pending], OneActive (request (withBank1 st) [14]) ∧
      Executing (request (withBank1 st) [14]) 0 [14] ∧ (request (withBank1 st) [14]).standbyState = st) ∧
    ∀ st ∈ [BankState.filling, .checking], OneActive (openState st [14]) ∧ Executing (openState st [14]) 1 [14] ∧
      (openState st [14]).agent.openSlot = some 0 ∧ 0 ∈ (openState st [14]).mem.inUse ∧ (0 : Nat) ≠ 1 ∧
      (openState st [14]).standbyState = st := by
  have h1 : ∀ st ∈ [BankState.standby, .retiring, .pending], OneActive (request (withBank1 st) [14]) ∧
      (request (withBank1 st) [14]).standbyState = st := by decide +kernel
  have h2 : ∀ st ∈ [BankState.filling, .checking], OneActive (openState st [14]) ∧
      ((openState st [14]).agent.requests.head? = some 1 ∧ 1 ∈ (openState st [14]).mem.inUse ∧
        (openState st [14]).words 1 = [14]) ∧
      (openState st [14]).agent.openSlot = some 0 ∧ 0 ∈ (openState st [14]).mem.inUse ∧ (0 : Nat) ≠ 1 ∧
      (openState st [14]).standbyState = st := by decide +kernel
  exact ⟨fun st h => ⟨(h1 st h).1, executing st (by decide), (h1 st h).2⟩,
    fun st h => ⟨(h2 st h).1, ⟨running_openState st (by decide), (h2 st h).2.1⟩, (h2 st h).2.2⟩⟩

/-! ## Witnesses: admission -/

/-- A poll of station `n` with these words. -/
def pollOf (n : Nat) (ws : List Word) : Telegram := telegram n 0 .poll 8 ws

/-- The reset state with station 1 unrouted in bank 0. -/
def unrouted : State := State.reset.setBank .bank0 ((Bank.reset .active).setEntry 1 ⟨.none, 20, 1, 3, 0, 0, 0, 0, 0⟩)

theorem running_setBank0 {s : State} (h : Running s) {b : Bank}
    (hb : Table.wf StationEntry.default b.stations = true ∧ Table.wf PointRecord.default b.points = true) :
    Running (s.setBank .bank0 b) := by
  obtain ⟨h1, h2, h3, h4, -, h6, -, h8⟩ := h
  exact ⟨h1, h2, h3, h4, hb.1, h6, hb.2, h8⟩

theorem witness_PollsAnsweredAtAdmission :
    (∀ n ∈ [152, 159, 160], HearsTrunk (crowded n) (pollOf 61 []) ∧ (pollOf 61 []).kind = .poll ∧
      1 ≤ (pollOf 61 []).dest.toNat ∧ (pollOf 61 []).dest.toNat ≤ 61 ∧ ¬HasRoom (crowded n) (pollOf 61 []).words.length) ∧
    (crowded 160).mem.freeDescs = [] ∧ (crowded 159).mem.freeDescs = 159 :: [] ∧
    HearsTrunk unrouted (pollOf 1 []) ∧ (pollOf 1 []).kind = .poll ∧ 1 ≤ (pollOf 1 []).dest.toNat ∧
    (pollOf 1 []).dest.toNat ≤ 61 ∧ HasRoom unrouted (pollOf 1 []).words.length ∧
    ((unrouted.bank unrouted.active).entry (pollOf 1 []).dest.toNat).route = .none ∧
    unrouted.mem.freeDescs.head? = some 0 := by
  have h : ∀ n ∈ [152, 159, 160], (crowded n).portT.rx = .hunt ∧ ¬HasRoom (crowded n) 0 ∧ n ≤ 160 := by decide +kernel
  refine ⟨fun n hn => ⟨⟨running_crowded (h n hn).2.2, (h n hn).1, by decide, by decide⟩, by decide, by decide, by decide,
    (h n hn).2.1⟩, by decide +kernel, by decide +kernel,
    ⟨running_setBank0 running_reset (by decide +kernel), by decide +kernel⟩, ?_⟩
  decide +kernel

theorem witness_PollJoinsItsQueue :
    let t := pollOf 1 (List.replicate 32 3)
    HearsTrunk State.reset t ∧ t.kind = .poll ∧ 1 ≤ t.dest.toNat ∧ t.dest.toNat ≤ 61 ∧ HasRoom State.reset t.words.length ∧
    ((State.reset.bank State.reset.active).entry t.dest.toNat).route = routeOf .a ∧
    (∀ k ∈ (State.reset.seg .a).queue, k ∈ State.reset.mem.inUse ∧
      ¬((State.reset.desc k).kind = .poll ∧ (State.reset.desc k).dest = t.dest)) ∧
    State.reset.mem.freeDescs.head? = some 0 :=
  ⟨⟨running_reset, by decide, by decide, by decide⟩, by decide +kernel⟩

/-- The poll of station 5 that waits in queue A, stamped with bank `b`. -/
def waiting (b : BankId) : State := (withPoll b).setSeg .a ⟨[0], .empty, none, .idle⟩

theorem running_waiting (b : BankId) : Running (waiting b) := running_setSeg (running_withPoll b) _ _

theorem witness_PollSupersedesTheWaitingPoll :
    ∀ b ∈ [BankId.bank0, .bank1], let s := waiting b
      OneActive s ∧ HearsTrunk s (pollOf 5 [7]) ∧ (pollOf 5 [7]).kind = .poll ∧ 1 ≤ (pollOf 5 [7]).dest.toNat ∧
      (pollOf 5 [7]).dest.toNat ≤ 61 ∧ HasRoom s (pollOf 5 [7]).words.length ∧
      ((s.bank s.active).entry (pollOf 5 [7]).dest.toNat).route = routeOf .a ∧ (s.seg .a).queue = [] ++ [0] ++ [] ∧
      (∀ k ∈ (s.seg .a).queue, k ∈ s.mem.inUse) ∧ (s.desc 0).kind = .poll ∧ (s.desc 0).dest = (pollOf 5 [7]).dest ∧
      (s.desc 0).stamp = some b ∧ s.mem.freeDescs.head? = some 1 := by
  have h : ∀ b ∈ [BankId.bank0, .bank1], OneActive (waiting b) ∧ ((waiting b).portT.rx = .hunt ∧ (pollOf 5 [7]).src = 0 ∧
      (pollOf 5 [7]).words.length ≤ 32) ∧ (pollOf 5 [7]).kind = .poll ∧ 1 ≤ (pollOf 5 [7]).dest.toNat ∧
      (pollOf 5 [7]).dest.toNat ≤ 61 ∧ HasRoom (waiting b) (pollOf 5 [7]).words.length ∧
      (((waiting b).bank (waiting b).active).entry (pollOf 5 [7]).dest.toNat).route = routeOf .a ∧
      ((waiting b).seg .a).queue = [] ++ [0] ++ [] ∧ (∀ k ∈ ((waiting b).seg .a).queue, k ∈ (waiting b).mem.inUse) ∧
      ((waiting b).desc 0).kind = .poll ∧ ((waiting b).desc 0).dest = (pollOf 5 [7]).dest ∧
      ((waiting b).desc 0).stamp = some b ∧ (waiting b).mem.freeDescs.head? = some 1 := by decide +kernel
  exact fun b hb => ⟨(h b hb).1, ⟨running_waiting b, (h b hb).2.1⟩, (h b hb).2.2⟩

/-- A SYNC of cycle `w`. -/
def syncOf (w : Word) : Telegram := telegram 63 0 .sync 2 [w]

/-- A SYNC waits in both segment queues. -/
def syncsWait : State := ((withSync 2).setSeg .a ⟨[0], .empty, none, .idle⟩).setSeg .b ⟨[0], .empty, none, .idle⟩

/-- Bank 1 is PENDING, and the notices stand as given. -/
def pendingBank (count : Nat) (entries : List NoticeEntry) : State :=
  ((withBank1 .pending).setEgress ⟨[], false, count⟩).setNotices ⟨entries, 5⟩

theorem witness_SyncAdvancesTheCycleAndIsDistributed :
    (HearsTrunk State.reset (syncOf 9) ∧ (syncOf 9).kind = .sync ∧ (syncOf 9).dest = 63 ∧ (syncOf 9).words = [9] ∧
      State.reset.standbyState ≠ .pending ∧ (∀ g, (State.reset.seg g).queue = []) ∧ HasRoom State.reset 1 ∧
      State.reset.mem.freeDescs.head? = some 0) ∧
    (HearsTrunk (crowded 152) (syncOf 9) ∧ (crowded 152).standbyState ≠ .pending ∧
      (∀ g, ((crowded 152).seg g).queue = []) ∧ ¬HasRoom (crowded 152) 1) ∧
    (HearsTrunk syncsWait (syncOf 9) ∧ syncsWait.standbyState ≠ .pending ∧ HasRoom syncsWait 1 ∧
      (∀ g, (syncsWait.seg g).queue = [] ++ [0] ++ []) ∧ 0 ∈ syncsWait.mem.inUse ∧ (syncsWait.desc 0).kind = .sync ∧
      (syncsWait.desc 0).count = 1 ∧ syncsWait.notices.pendingSet = [] ∧ syncsWait.mem.freeDescs.head? = some 1) := by
  refine ⟨⟨⟨running_reset, by decide⟩, by decide, by decide, by decide, by decide, fun g => by cases g <;> rfl,
    by decide +kernel⟩, ⟨⟨running_crowded (by decide), by decide⟩, by decide, fun g => by cases g <;> rfl,
    by decide +kernel⟩, ⟨?_, by decide +kernel⟩, by decide +kernel, by decide +kernel, fun g => by cases g <;> rfl, ?_⟩
  · exact running_setSeg (running_setSeg (running_withSync 2) _ _) _ _
  · decide +kernel

theorem witness_SyncAdvancesTheCycleAndIsDistributed_pending :
    ∀ count entries, HearsTrunk (pendingBank count entries) (syncOf 9) ∧
    (pendingBank count entries).standbyState = .pending ∧ (∀ g, ((pendingBank count entries).seg g).queue = []) ∧
    HasRoom (pendingBank count entries) 1 ∧ (pendingBank count entries).mem.freeDescs.head? = some 0 :=
  fun _ _ => ⟨⟨running_reset, rfl, rfl, Nat.le_of_ble_eq_true rfl⟩, rfl, fun g => by cases g <;> rfl,
    (by decide +kernel : HasRoom State.reset 1), (by decide +kernel : State.reset.mem.freeDescs.head? = some 0)⟩

theorem witness_SyncSwitchesAPendingBank :
    (∀ count entries, HearsTrunk (pendingBank count entries) (syncOf 9)) ∧ (syncOf 9).kind = .sync ∧
    (syncOf 9).dest = 63 ∧ (syncOf 9).words = [9] ∧
    (∀ count entries, OneActive (pendingBank count entries) ∧ (pendingBank count entries).standbyState = .pending) ∧
    (∀ e ∈ [NoticeEntry.station 3 1], e.isBank = false) ∧
    (let entries := [NoticeEntry.station 3 1] ++ [.bank .bank0 4 5] ++ [.station 4 65535]
     (pendingBank 2 entries).notices.pendingSet = [NoticeEntry.station 3 1] ++ [.bank .bank0 4 5] ++ [.station 4 65535] ∧
     ∀ e ∈ [NoticeEntry.station 3 1] ++ [NoticeEntry.station 4 65535], e.isBank = false) ∧
    ((pendingBank 1 []).egress.noticeCount < 2 ∧ (pendingBank 1 []).notices.pendingSet = [] ∧
     2 ≤ (pendingBank 1 []).mem.freeDescs.length) :=
  ⟨fun _ _ => ⟨running_withBank1 .pending, rfl, by decide⟩, by decide, by decide, by decide,
    fun _ _ => ⟨(by decide : OneActive (withBank1 .pending)), rfl⟩, by decide, by decide, by decide +kernel⟩

/-! ## Witnesses: drop segment transactions -/

/-- The SYNC waits at the head of queue A. -/
def syncWaits : State := (withSync 1).setSeg .a ⟨[0], .empty, none, .idle⟩

/-- The poll waits at the head of queue A and its station is in mode `m`. -/
def inMode (m : Mode) : State := (waiting .bank0).setRuntime [(5, ⟨.up, 0, m⟩)]

theorem running_setRuntime {s : State} (h : Running s) {t : Table StationRuntime}
    (ht : Table.wf StationRuntime.default t = true) : Running (s.setRuntime t) := by
  obtain ⟨h1, h2, h3, h4, h5, h6, h7, h8, -, h10⟩ := h
  exact ⟨h1, h2, h3, h4, h5, h6, h7, h8, ht, h10⟩

theorem running_setTx {s : State} (h : Running s) (p : Port) (x : Transmitter) : Running (s.setTx p x) := by
  cases p <;> exact h

theorem witness_TakesThatUseTheDrop :
    (AtHead syncWaits .a 0 [] ∧ (syncWaits.desc 0).kind = .sync ∧ (syncWaits.port (dropPort .a)).tx = .idle) ∧
    (AtHead (syncWaits.setTx .a (.spacing none)) .a 0 [] ∧
      ((syncWaits.setTx .a (.spacing none)).desc 0).kind = .sync ∧
      ((syncWaits.setTx .a (.spacing none)).port (dropPort .a)).tx = .spacing none) ∧
    (AtHead (waiting .bank0) .a 0 [] ∧ ((waiting .bank0).desc 0).kind = .poll ∧
      ((waiting .bank0).desc 0).stamp = some .bank0 ∧
      ((waiting .bank0).station ((waiting .bank0).desc 0).dest.toNat).mode = .normal ∧
      ((waiting .bank0).port (dropPort .a)).tx = .idle) ∧
    (AtHead ((waiting .bank0).setTx .a (.spacing none)) .a 0 [] ∧
      (((waiting .bank0).setTx .a (.spacing none)).port (dropPort .a)).tx = .spacing none) := by
  have h1 : Running syncWaits := running_setSeg (running_withSync 1) _ _
  refine ⟨⟨⟨h1, by decide +kernel⟩, by decide +kernel⟩, ⟨⟨running_setTx h1 _ _, by decide +kernel⟩, by decide +kernel⟩,
    ⟨⟨running_waiting _, by decide +kernel⟩, by decide +kernel⟩,
    ⟨running_setTx (running_waiting _) _ _, by decide +kernel⟩, by decide +kernel⟩

theorem witness_TakeInEchoOrIsolatedModeAnswers :
    ∀ m ∈ [Mode.echo, .isolated], AtHead (inMode m) .a 0 [] ∧ ((inMode m).desc 0).kind = .poll ∧
      ((inMode m).desc 0).stamp = some .bank0 ∧ ImagesLaw (inMode m) ∧
      ((inMode m).station ((inMode m).desc 0).dest.toNat).mode = m := by
  have h : ∀ m ∈ [Mode.echo, .isolated], (((inMode m).seg .a).state = .idle ∧ ((inMode m).seg .a).queue = [0] ∧
      0 ∈ (inMode m).mem.inUse) ∧ ((inMode m).desc 0).kind = .poll ∧
      ((inMode m).desc 0).stamp = some .bank0 ∧ ImagesLaw (inMode m) ∧
      ((inMode m).station ((inMode m).desc 0).dest.toNat).mode = m := by decide +kernel
  have h2 : ∀ m, Table.wf StationRuntime.default [(5, (⟨.up, 0, m⟩ : StationRuntime))] = true := fun m => by
    cases m <;> decide
  exact fun m hm => ⟨⟨running_setRuntime (running_waiting _) (h2 m), (h m hm).1⟩, (h m hm).2⟩

/-- Segment A holds the transaction of the poll, with so many tries made and allowed. -/
def holding (made allowed : Nat) (st : SegState) : State :=
  (withPoll .bank0).setSeg .a ⟨[], .poll (transaction made allowed), some 40000, st⟩

theorem running_holding (made allowed : Nat) (st : SegState) : Running (holding made allowed st) :=
  running_setSeg (running_withPoll _) _ _

theorem witness_WindowExpiryRetransmits :
    HoldsTransaction (holding 1 2 .awaiting) .a (transaction 1 2) ∧ ((holding 1 2 .awaiting).seg .a).state = .awaiting ∧
    ((holding 1 2 .awaiting).port (dropPort .a)).tx = .idle ∧
    (transaction 1 2).triesMade < (transaction 1 2).triesAllowed :=
  ⟨⟨running_holding _ _ _, by decide +kernel⟩, by decide +kernel⟩

theorem witness_LastWindowExpiryFailsTheTransaction :
    HoldsTransaction (holding 2 2 .awaiting) .a (transaction 2 2) ∧ ImagesLaw (holding 2 2 .awaiting) ∧
    ((holding 2 2 .awaiting).seg .a).state = .awaiting ∧ ((holding 2 2 .awaiting).port (dropPort .a)).tx = .idle ∧
    (transaction 2 2).triesAllowed ≤ (transaction 2 2).triesMade :=
  ⟨⟨running_holding _ _ _, by decide +kernel⟩, by decide +kernel⟩

/-- A reply of station 5 to the poll, with these words. -/
def replyOf (ws : List Word) : Telegram := telegram 0 5 .reply 9 ws

theorem witness_MatchedReplyIsBuiltOk :
    (∀ st, Running (holding 2 2 st)) ∧
    ∀ st ∈ [SegState.awaiting, .sending], ∀ t ∈ [replyOf [], replyOf (List.replicate 32 1)],
      ((holding 2 2 st).seg .a).slot = .poll (transaction 2 2) ∧
      (transaction 2 2).desc ∈ (holding 2 2 st).mem.inUse ∧
      ((holding 2 2 st).desc (transaction 2 2).desc).dest = (transaction 2 2).station ∧
      ((holding 2 2 st).desc (transaction 2 2).desc).seq = (transaction 2 2).seq ∧
      ((holding 2 2 st).desc (transaction 2 2).desc).stamp = some (transaction 2 2).bank ∧
      ((holding 2 2 st).port (dropPort .a)).rx = .hunt ∧ t.kind = .reply ∧ t.dest = 0 ∧ 1 ≤ t.src.toNat ∧
      t.src.toNat ≤ 61 ∧ t.words.length ≤ 32 ∧ Matches (holding 2 2 st) .a (transaction 2 2) t.src t.seq :=
  ⟨running_holding 2 2, by decide +kernel⟩

/-- The same with no free block, which no lawful state is. -/
def short : State :=
  (holding 1 1 .awaiting).setMem { (holding 1 1 .awaiting).mem with freeBlocks := [] }

theorem witness_MatchedReplyWithoutBlocksIsOverrun :
    let t := replyOf (List.replicate 9 1)
    short.resetHeld = false ∧ TablesCanonical short ∧ short.notices.pendingSet = [] ∧
    (short.port (dropPort .a)).rx = .hunt ∧ t.kind = .reply ∧ t.dest = 0 ∧ 1 ≤ t.src.toNat ∧ t.src.toNat ≤ 61 ∧
    t.words.length ≤ 32 ∧ Matches short .a (transaction 1 1) t.src t.seq ∧ (transaction 1 1).desc ∈ short.mem.inUse ∧
    (short.desc 0).dest = (transaction 1 1).station ∧ (short.desc 0).stamp = some (transaction 1 1).bank ∧
    (short.station 5).health ≠ .down ∧
    short.mem.freeBlocks.length + (short.desc 0).chain.length < (t.words.length + 7) / 8 := by decide +kernel

/-- The reset state with station 5 in this health with this fail count, and the notice limit reached. -/
def withHealth (h : Health) (fails : Nat) (entries : List NoticeEntry) : State :=
  ((State.reset.setRuntime [(5, ⟨h, fails, .normal⟩)]).setEgress ⟨[], false, 2⟩).setNotices ⟨entries, 0⟩

theorem witness_HealthFollowsTheOutcomes :
    (∀ h fails entries, Table.rising (withHealth h fails entries).runtime = true ∧
      MemoryLaw (withHealth h fails entries).mem ∧ 2 ≤ (withHealth h fails entries).egress.noticeCount ∧
      ((withHealth h fails entries).setEgress ⟨[], false, 0⟩).egress.noticeCount < 2) ∧
    ((withHealth .up 0 []).station 5).health ≠ .down ∧ ((withHealth .down 15 []).station 5).health = .down ∧
    min 15 (((withHealth .failing 1 []).station 5).failCount + 1) < 3 ∧
    3 ≤ min 15 (((withHealth .failing 2 []).station 5).failCount + 1) ∧
    (let es := [NoticeEntry.bank .bank0 1 2] ++ [.station 5 65535] ++ [.station 6 1]
     (withHealth .down 3 es).notices.pendingSet = [NoticeEntry.bank .bank0 1 2] ++ [.station 5 65535] ++ [.station 6 1] ∧
     ∀ e ∈ [NoticeEntry.bank .bank0 1 2] ++ [NoticeEntry.station 6 1], e.isStation 5 = false) :=
  ⟨fun _ _ _ => ⟨rfl, reset_law, Nat.le_refl 2, Nat.zero_lt_two⟩, by decide⟩

/-! ## Witnesses: the Point Engine and images -/

/-- A record of this kind on word `i`, with A = 0, B = 10 and substitute value 99. -/
def record (i : Nat) (kind : PointKind) (policy : Policy) : PointRecord := ⟨i, kind, policy, 0, 10, 99⟩

theorem witness_FixedComplementAndBits :
    (∀ k ∈ [PointKind.fixed, .complement, .bits], (record 31 k .hold).kind = k) ∧
    (record 31 .fixed .hold).index < (List.replicate 32 (5 : Word)).length := by decide

theorem witness_InertAndSkippedRecords :
    (record 0 .none .hold).kind = .none ∧ (record 1 .range .hold).kind ≠ .none ∧
    (¬((record 1 .range .hold).kind = .bcd8ToBin32 ∨ (record 1 .range .hold).kind = .bin32ToBcd8)) ∧
    [(7 : Word)].length ≤ (record 1 .range .hold).index ∧ [(7 : Word)].length ≤ (record 0 .bcd8ToBin32 .hold).index + 1 := by
  decide

theorem witness_FourDigitTransforms :
    (record 0 .bcdToBin .hold).index < [(0x9999 : Word)].length ∧ [(0x9999 : Word)].getD 0 0 = 0x9999 ∧
    (record 0 .bcdToBin .hold).kind = .bcdToBin ∧ (record 0 .binToBcd .hold).kind = .binToBcd ∧
    (9999 : Word).toNat ≤ 9999 ∧ ¬(10000 : Word).toNat ≤ 9999 := by decide

theorem witness_EightDigitTransforms :
    (∀ k ∈ [PointKind.bcd8ToBin32, .bin32ToBcd8],
      ((record 0 k .hold).kind = .bcd8ToBin32 ∨ (record 0 k .hold).kind = .bin32ToBcd8) ∧
      (record 0 k .hold).index + 1 < [(0x9999 : Word), 0x9999].length) ∧
    transformPair .bcd8ToBin32 0x9999 0x9999 = some (0xE0FF, 0x05F5) ∧
    transformPair .bin32ToBcd8 0xE0FF 0x05F5 = some (0x9999, 0x9999) ∧
    transformPair .bcd8ToBin32 0xA000 0 = none ∧ transformPair .bin32ToBcd8 0xE100 0x05F5 = none := by decide

theorem witness_SignedTransforms :
    (∀ k ∈ [PointKind.scale, .clamp, .range], (record 0 k .hold).kind = k ∧
      (record 0 k .hold).index < [(10 : Word)].length) ∧
    1 ≤ (record 0 .scale .hold).b.toInt ∧
    (record 0 .clamp .hold).a.toInt ≤ (record 0 .clamp .hold).b.toInt ∧
    (0 : Word).toInt ≤ (10 : Word).toInt ∧
    (0xFFFF : Word).toInt < (0 : Word).toInt ∧ (10 : Word).toInt < (11 : Word).toInt ∧
    32767 < Int.tdiv ((32767 : Word).toInt * (2 : Word).toInt) (1 : Word).toInt ∧
    Int.tdiv ((0x8000 : Word).toInt * (2 : Word).toInt) (1 : Word).toInt < -32768 ∧
    Int.tdiv ((0x8000 : Word).toInt * (1 : Word).toInt) (1 : Word).toInt = -32768 := by decide +kernel

theorem witness_FaultPoliciesReplaceTheWords :
    (record 0 .range .substitute).policy = .substitute ∧ (record 0 .range .hold).policy = .hold ∧
    (let img : ImageRecord := ⟨true, [1, 2], 0, false⟩
     img.valid = true ∧ img.words[(record 0 .range .hold).index]? = some 1 ∧
     img.words[(record 0 .range .hold).index + 1]? = some 2 ∧ img.words.length ≤ (record 2 .range .hold).index ∧
     img.words.length ≤ (record 1 .range .hold).index + 1) ∧
    ImageRecord.default.valid = false := by decide

/-! ## Witnesses: trunk egress, agent, notices, counters -/

theorem witness_QueueLimitsKept :
    let x := State.reset
    (x.egress.noticeCount ≤ 2 ∧ x.agent.requests.length ≤ 4 ∧ CacheLaw x ∧
      (x.notices.pendingSet.map NoticeEntry.subject).Nodup ∧
      (∀ e ∈ x.notices.pendingSet, e.subject = 0 → e.isBank = true) ∧ x.egress.handed = !x.egress.queue.isEmpty) ∧
    (∀ g y, (x.seg g).slot = .poll y → 1 ≤ y.station.toNat) ∧ step x = .next x :=
  ⟨by decide +kernel, (by intro g y h; cases g <;> cases h), rfl⟩

/-- Four requests queued. -/
def fourRequests : State := (crowded 4).setAgent ⟨[0, 1, 2, 3], none, []⟩

/-- Three requests queued, and one open. -/
def threeAndOpen : State := (crowded 4).setAgent ⟨[0, 1, 2], some 3, []⟩

/-- A request of this sequence with 32 words. -/
def requestOf (seq : Nat) : Telegram := telegram 62 0 .mgmtReq seq (List.replicate 32 1)

theorem witness_IntakeTurnsRequestsAway :
    (∀ n, HearsTrunk fourRequests (requestOf n) ∧ HearsTrunk threeAndOpen (requestOf n)) ∧
    (requestOf 3).kind = .mgmtReq ∧ (requestOf 3).dest = 62 ∧ fourRequests.agent.cache = [] ∧
    threeAndOpen.agent.cache = [] ∧
    (∃ d ∈ threeAndOpen.agent.requests ++ threeAndOpen.agent.openSlot.toList,
      (threeAndOpen.desc d).seq = (requestOf 3).seq) ∧
    (∀ d ∈ fourRequests.agent.requests ++ fourRequests.agent.openSlot.toList,
      (fourRequests.desc d).seq ≠ (requestOf 9).seq) ∧ 4 ≤ fourRequests.agent.requests.length := by
  refine ⟨fun n => ⟨⟨running_crowded (by decide), rfl, rfl, ?_⟩, ⟨running_crowded (by decide), rfl, rfl, ?_⟩⟩, ?_⟩
  · exact (by decide : (List.replicate 32 (1 : Word)).length ≤ 32)
  · exact (by decide : (List.replicate 32 (1 : Word)).length ≤ 32)
  · decide +kernel

theorem witness_IntakeAdmitsARequest :
    (HearsTrunk threeAndOpen (requestOf 9) ∧ (requestOf 9).kind = .mgmtReq ∧ (requestOf 9).dest = 62 ∧
      threeAndOpen.agent.cache = [] ∧
      (∀ d ∈ threeAndOpen.agent.requests ++ threeAndOpen.agent.openSlot.toList,
        (threeAndOpen.desc d).seq ≠ (requestOf 9).seq) ∧ threeAndOpen.agent.requests.length ≤ 3 ∧
      HasRoom threeAndOpen (requestOf 9).words.length ∧ threeAndOpen.mem.freeDescs.head? = some 4) ∧
    HearsTrunk (crowded 152) (requestOf 9) ∧ (crowded 152).agent.requests = [] ∧
      (crowded 152).agent.openSlot = none ∧ ¬HasRoom (crowded 152) (requestOf 9).words.length :=
  ⟨⟨⟨running_crowded (by decide), by decide⟩, by decide +kernel⟩, ⟨running_crowded (by decide), by decide⟩,
    by decide +kernel⟩

/-- The answer to sequence 9 is cached. -/
def cached (n : Nat) : State := (crowded n).setAgent ⟨[], none, [⟨9, .done, List.replicate 32 2⟩]⟩

theorem witness_CachedAnswersAreRepeated :
    ∀ n ∈ [0, 152], HearsTrunk (cached n) (requestOf 9) ∧ (requestOf 9).kind = .mgmtReq ∧ (requestOf 9).dest = 62 ∧
      CacheLaw (cached n) ∧ ⟨9, .done, List.replicate 32 2⟩ ∈ (cached n).agent.cache ∧
      (9 : Byte) = (requestOf 9).seq ∧ (List.replicate 32 (2 : Word)).length ≤ 32 ∧
      (HasRoom (cached n) (requestOf 9).words.length ↔ n = 0) ∧ (n = 0 → (cached n).mem.freeDescs.head? = some 0) := by
  have h : ∀ n ∈ [0, 152], n ≤ 160 ∧ ((cached n).portT.rx = .hunt ∧ (requestOf 9).src = 0 ∧
      (requestOf 9).words.length ≤ 32) ∧ (requestOf 9).kind = .mgmtReq ∧ (requestOf 9).dest = 62 ∧
      CacheLaw (cached n) ∧ ⟨9, .done, List.replicate 32 2⟩ ∈ (cached n).agent.cache ∧
      (9 : Byte) = (requestOf 9).seq ∧ (List.replicate 32 (2 : Word)).length ≤ 32 ∧
      (HasRoom (cached n) (requestOf 9).words.length ↔ n = 0) ∧
      (n = 0 → (cached n).mem.freeDescs.head? = some 0) := by decide +kernel
  exact fun n hn => ⟨⟨running_setAgent (running_crowded (h n hn).1) _, (h n hn).2.1⟩, (h n hn).2.2⟩

theorem request_rest (s : State) (ws : List Word) :
    (request s ws).bank0 = s.bank0 ∧ (request s ws).bank1 = s.bank1 ∧ (request s ws).notices = s.notices := by
  unfold request put
  cases s.mem.allocate .part ⟨62, 0, .mgmtReq, 7, 0⟩ ws with
  | none => exact ⟨rfl, rfl, rfl⟩
  | some p => exact ⟨rfl, rfl, rfl⟩

/-- Every request of at most 32 words can be about to be executed: the witness of every statement about an execution. -/
theorem witness_Executing (ws : List Word) (h : ws.length ≤ 32) :
    ∃ s d, Executing s d ws ∧ OneActive s ∧ s.notices.pendingSet = [] := by
  obtain ⟨h0, h1, h2⟩ := request_rest (withBank1 .standby) ws
  refine ⟨request (withBank1 .standby) ws, 0, executing .standby h, ?_, ?_⟩
  · unfold OneActive
    rw [h0, h1]
    decide
  · rw [h2]
    decide

theorem witness_MalformedRequestsAreAnswered :
    (∀ ws ∈ [[], [(0 : Word)], [16], [1, 0], [5, 0, 0], [5, 0, 0, 0], [5, 0, 0, 5], [5, 0, 0, 1], [15, 0]],
      ∃ s d, Executing s d ws) ∧
    ((0 : Word) = 0 ∨ 15 < (0 : Word).toNat) ∧ 15 < (16 : Word).toNat ∧ [(1 : Word), 0].length ≠ 1 ∧
    [(15 : Word), 0].length ≠ 1 ∧ [(5 : Word), 0, 0].length < 4 ∧ [(5 : Word), 0, 0, 0].getD 3 0 = 0 ∧
    4 < ([(5 : Word), 0, 0, 5].getD 3 0).toNat ∧
    [(5 : Word), 0, 0, 1].length ≠ 4 + 6 * ([(5 : Word), 0, 0, 1].getD 3 0).toNat := by
  refine ⟨?_, by decide⟩
  have h : ∀ ws ∈ [[], [(0 : Word)], [16], [1, 0], [5, 0, 0], [5, 0, 0, 0], [5, 0, 0, 5], [5, 0, 0, 1], [15, 0]],
      ws.length ≤ 32 := by decide
  intro ws hws
  obtain ⟨s, d, hs, -⟩ := witness_Executing ws (h ws hws)
  exact ⟨s, d, hs⟩

theorem witness_StatusAnswersSixteenWords : ∃ s d, Executing s d [1] := by
  obtain ⟨s, d, h, -⟩ := witness_Executing [1] (by simp)
  exact ⟨s, d, h⟩

theorem witness_StationReadsAnswerTheState :
    (∀ ws ∈ [[(7 : Word), 1, 0, 0], [7, 61, 1, 31], [7, 61, 2, 0], [7, 0, 0, 0], [7, 62, 0, 0], [7, 1, 0, 32], [8, 1], [8, 61],
      [8, 62]], ∃ s d, Executing s d ws) := by
  have h : ∀ ws ∈ [[(7 : Word), 1, 0, 0], [7, 61, 1, 31], [7, 61, 2, 0], [7, 0, 0, 0], [7, 62, 0, 0], [7, 1, 0, 32], [8, 1],
      [8, 61], [8, 62]], ws.length ≤ 32 := by decide
  intro ws hws
  obtain ⟨s, d, hs, -⟩ := witness_Executing ws (h ws hws)
  exact ⟨s, d, hs⟩

/-- Every group argument, in range or not, can be asked for; `n` is the station it names. -/
theorem witness_ReadCountersAnswersTheGroup (g : Word) :
    (∃ s d, Executing s d [9, g]) ∧ (∃ s d, Executing s d [10, g]) ∧ (17 : Word).toNat = 16 + 1 ∧ (77 : Word).toNat = 16 + 61 ∧
    3 < (4 : Word).toNat ∧ (16 : Word).toNat < 17 ∧ 77 < (78 : Word).toNat :=
  ⟨by
    obtain ⟨s, d, h, -⟩ := witness_Executing [9, g] (by simp)
    exact ⟨s, d, h⟩, by
    obtain ⟨s, d, h, -⟩ := witness_Executing [10, g] (by simp)
    exact ⟨s, d, h⟩, by decide +kernel⟩

theorem witness_ClearCountersClearsTheGroup (g : Word) :
    (∃ s d, Executing s d [10, g] ∧ s.notices.pendingSet = []) ∧
    MinimaLaw (request (withBank1 .standby) [10, 4]).mem ∧ (17 : Word).toNat = 16 + 1 ∧ (77 : Word).toNat = 16 + 61 ∧
    3 < (4 : Word).toNat ∧ (16 : Word).toNat < 17 ∧ 77 < (78 : Word).toNat ∧ (254 : Word) ≠ 255 ∧ (256 : Word) ≠ 255 := by
  obtain ⟨s, d, h, -, hp⟩ := witness_Executing [10, g] (by simp)
  exact ⟨⟨s, d, h, hp⟩, by decide +kernel⟩

theorem witness_SetModeWritesTheMode (n m : Word) : ∃ s d, Executing s d [11, n, m] := by
  obtain ⟨s, d, h, -⟩ := witness_Executing [11, n, m] (by simp)
  exact ⟨s, d, h⟩

theorem witness_RestartLeavesOneAnswer :
    (∀ st ∈ [BankState.standby, .filling], OneActive (request (withBank1 st) [15]) ∧
      (request (withBank1 st) [15]).standbyState = st) ∧
    (∀ st, Executing (request (withBank1 st) [15]) 0 [15]) ∧
    ((request (withBank1 .standby) [15]).portT.tx = .idle ∧ ((request (withBank1 .standby) [15]).port .a).tx = .idle) ∧
    (let s := sendingOn (sendingOn (request (withBank1 .standby) [15]) .t) .b
     Executing s 0 [15] ∧ OneActive s ∧ s.portT.tx ≠ .idle ∧ (s.port .b).tx ≠ .idle ∧ Port.b ≠ .t) := by
  have h := executing .standby (ws := [15]) (by simp)
  refine ⟨by decide +kernel, fun st => executing st (by simp), by decide +kernel, ⟨?_, by decide +kernel⟩,
    by decide +kernel⟩
  exact running_sendingOn (running_sendingOn h.1 _) _

theorem witness_CountersNeverFall :
    Table.wf StationCounters.zero State.reset.counters.stations = true ∧
    exec (.take .a) State.reset = .next State.reset ∧ Instr.take .a ≠ .clearCounters ∧
    Instr.take .a ≠ .powerOnReset := ⟨by decide, rfl, by decide⟩

theorem witness_EventsWithoutTheirConditionDoNothing :
    State.reset.resetHeld = false ∧ (State.reset.port .t).tx = .idle ∧ (State.reset.seg .a).queue = [] ∧
    ((holding 1 2 .sending).seg .b).slot = .empty ∧ ((holding 1 2 .sending).seg .a).state ≠ .awaiting ∧
    State.reset.standbyState = .standby ∧ OpenSlotLaw State.reset ∧ State.reset.agent.openSlot = none ∧
    State.reset.agent.requests = [] ∧ (request (withBank1 .standby) [13]).agent.requests.head? = some 0 ∧
    (((request (withBank1 .standby) [13]).words 0).getD 0 0).toNat ≠ 12 ∧
    (request (withBank1 .standby) [13]).words 0 = [13] ∧ ((13 : Word).toNat, [(13 : Word)].length) ∈ [(13, 1)] ∧
    (request (withBank1 .standby) [13, 0]).agent.requests.head? = some 0 ∧
    (request (withBank1 .standby) [13, 0]).words 0 = [13, 0] ∧ ((13 : Word).toNat, [(13 : Word), 0].length) ∉ [(13, 1)] := by
  decide +kernel

/-! ## The data book's worked numbers -/

/-- The check value of R3. -/
theorem test_crc_check_value :
    crc16 [0x31, 0x32, 0x33, 0x34, 0x35, 0x36, 0x37, 0x38, 0x39] = 0x29B1 := by decide +kernel

/-- The outbound run of section 6.6. -/
theorem test_example_6_6_poll :
    applyRun [⟨0, .binToBcd, .substitute, 0, 0, 0⟩, ⟨1, .clamp, .substitute, 0, 1000, 0⟩] ImageRecord.default
      [0x04D2, 0x05DC] = ⟨[0x1234, 0x03E8], true, false, true, 0, 1, 0⟩ := by decide +kernel

/-- The inbound run of section 6.6. -/
theorem test_example_6_6_reply :
    applyRun [⟨0, .bcd8ToBin32, .hold, 0, 0, 0⟩, ⟨2, .scale, .substitute, 25, 4, 0⟩, ⟨3, .range, .hold, 0xFF9C, 100, 0⟩]
      ⟨true, [0xEA60, 1, 0x64, 0x40], 0, false⟩ [0x5678, 0x12, 0x3E8, 0x96] =
      ⟨[0xEAEE, 1, 0x186A, 0x40], true, true, false, 1, 0, 0⟩ := by decide +kernel

/-- The bank of the example of section 3.6, its station 4 with an inbound run of this length. -/
def exampleBank (inLength : Nat) (word101 : Nat) (divisor limit : Word) : Bank :=
  (((Bank.reset .standby).setEntry 4 ⟨.a, 20, 1, 3, 0, 100, 3, 103, inLength⟩).setEntry 9
    ⟨.a, 20, 1, 3, 0, 104, 2, 0, 0⟩).setPoints 100
    [⟨0, .bcd8ToBin32, .substitute, 0, 0, 0⟩, ⟨word101, .complement, .substitute, 0, 0, 0⟩,
     ⟨4, .scale, .substitute, 1000, divisor, 0⟩, ⟨2, .clamp, .substitute, 0, 500, 0⟩,
     ⟨6, .range, .substitute, 10, limit, 0⟩, ⟨7, .fixed, .substitute, 1, 0, 0⟩]

theorem test_example_3_6_shared : (exampleBank 2 1 0 5).check = some ⟨0, 9, 3⟩ := by decide +kernel
theorem test_example_3_6_overlap : (exampleBank 1 1 0 5).check = some ⟨1, 101, 7⟩ := by decide +kernel
theorem test_example_3_6_divisor : (exampleBank 1 2 0 5).check = some ⟨1, 102, 8⟩ := by decide +kernel
theorem test_example_3_6_limits : (exampleBank 1 2 10 5).check = some ⟨1, 104, 9⟩ := by decide +kernel
theorem test_example_3_6_passes : (exampleBank 1 2 10 10).check = none := by decide +kernel

/-- A poll of station 5 without words on the line: dest 5, source 0, kind 1, sequence 9, status 0, count 0, CRC. -/
theorem test_line_bytes_of_a_poll :
    (lineBytes .a (telegram 5 0 .poll 9 [])).take 7 = [0x5A, 5, 0, 1, 9, 0, 0] ∧
    (lineBytes .a (telegram 5 0 .poll 9 [])).length = 9 := by decide +kernel

/-- A byte on the line: start bit, least significant data bit first, stop bit (R1). -/
theorem test_byte_bits :
    serialBits (serialOf 0x5A) = [false, false, true, false, true, true, false, true, false, true] := by decide

/-- Ten line bits with the stop bit found low are the byte of their data bits; with a high first bit they are none (R1). -/
theorem test_taken_byte :
    (serialBytes [true, false, false, true, false, true, true, false, true, false, false]).map takenByte = [some 0x5A] ∧
    takenByte 0x3FF = none := by decide

/-- A receive line held low for four byte times, five header bytes in: the first three bytes 00h are the count and a CRC
that does not match, the fourth is line noise (R202). -/
theorem test_line_held_low :
    (nextOf (exec (.receiveTelegram .a (serialBytes (List.replicate 40 false))) (withRx (.frame [5, 0, 1, 9, 0])))
      ).counters.dropA.rxCrc = 1 := by decide +kernel

/-! ## One small step per command -/

theorem test_reset_asserted : (nextOf (exec .resetAsserted State.reset)).resetHeld = true := by decide
theorem test_power_on_reset : (nextOf (exec .powerOnReset heldReset)).resetHeld = false := by decide
theorem test_lead_byte :
    ((nextOf (exec (.leadByte .a (serialOf 0x5A)) State.reset)).port .a).rx = .frame [] := by decide
theorem test_count_above_32 :
    ((nextOf (exec (.countAbove32 .t ([0x5A, 5, 0, 1, 9, 0, 33].map serialOf)) State.reset)).portT.rx = .discard) ∧
    (nextOf (exec (.countAbove32 .t ([0x5A, 5, 0, 1, 9, 0, 33].map serialOf)) State.reset)).counters.trunk.rxFormat = 1 := by
  decide +kernel
theorem test_truncation :
    (nextOf (exec (.truncation .a) (withRx (.frame [1])))).counters.dropA.rxFormat = 1 := by decide
theorem test_discard_silence : ((nextOf (exec (.discardSilence .a) (withRx .discard))).port .a).rx = .hunt := by decide

/-- A poll of station 5 arrives: it joins queue A stamped with bank 0. -/
theorem test_receive_poll :
    ((heard .t (pollOf 5 [7]) State.reset).seg .a).queue = [0] ∧
    (heard .t (pollOf 5 [7]) State.reset).words 0 = [7] ∧
    ((heard .t (pollOf 5 [7]) State.reset).desc 0).stamp = some .bank0 ∧
    (heard .t (pollOf 5 [7]) State.reset).bank0.inFlight = 1 := by decide +kernel

theorem test_take_poll :
    ((nextOf (exec (.take .a) (waiting .bank0))).seg .a).state = .sending ∧
    (nextOf (exec (.take .a) (waiting .bank0))).outImage 5 = ⟨true, [0x1234], 0, false⟩ := by decide +kernel

theorem test_transmission_complete_starts_window :
    ((nextOf (exec (.transmissionComplete .a) (sendingOn (holding 1 2 .sending) .a))).seg .a).timer = some 40000 ∧
    ((nextOf (exec (.transmissionComplete .a) (sendingOn (holding 1 2 .sending) .a))).seg .a).state = .awaiting := by
  decide +kernel

/-- Port T ends its telegram while station 5, DOWN, waits to be reported and trunk egress empties: the report is emitted as
notice 9 in the memory just freed, and held through SPACING. -/
theorem test_transmission_complete_emits_a_station_state :
    let s := (sendingOn ((crowded 160).setEgress ⟨[3], true, 0⟩) .t).setNotices ⟨[.station 5 2], 9⟩
    let t := nextOf (exec (.transmissionComplete .t) (s.setRuntime [(5, ⟨.down, 3, .normal⟩)]))
    t.egress = ⟨[3], true, 1⟩ ∧ t.portT.tx = .spacing (some 3) ∧ t.notices = ⟨[], 10⟩ ∧
    t.telegram 3 = ⟨0, 62, .notice, Marks.clear, 9, 0, [2, 5, 3, 2]⟩ := by decide +kernel

/-- An answer that joins the empty trunk egress starts on port T, which is IDLE. -/
theorem test_answer_starts_on_port_t :
    (nextOf (exec .status (request (withBank1 .standby) [14]))).portT.tx = .idle ∧
    (nextOf (exec .cancel (request (withBank1 .standby) [14]))).portT.tx =
      .sending ⟨0, 62, .mgmtAns, Marks.clear, 7, 8, []⟩ := by decide +kernel

theorem test_spacing_ends :
    ((nextOf (exec (.spacingEnds .b) (State.reset.setTx .b (.spacing none)))).port .b).tx = .idle := by decide

theorem test_window_expiry_fails :
    (nextOf (exec (.replyWindowExpiry .a) (holding 2 2 .awaiting))).egress.queue = [0] ∧
    ((nextOf (exec (.replyWindowExpiry .a) (holding 2 2 .awaiting))).station 5) = ⟨.failing, 1, .normal⟩ := by
  decide +kernel

theorem test_matched_reply :
    ((heard .a (replyOf [3, 4]) (holding 1 1 .awaiting)).desc 0).kind = .reply ∧
    (heard .a (replyOf [3, 4]) (holding 1 1 .awaiting)).inImage 5 = ⟨true, [3, 4], 0, false⟩ ∧
    (heard .a (replyOf [3, 4]) (holding 1 1 .awaiting)).station 5 = ⟨.up, 0, .normal⟩ := by decide +kernel

/-- A late reply counts one RX_STRAY. -/
theorem test_stray_reply : (heard .a (replyOf []) State.reset).counters.dropA.rxStray = 1 := by decide +kernel

theorem test_copy_completion :
    (nextOf (exec .copyCompletion (openState .filling []))).bank1.state = .standby ∧
    (nextOf (exec .copyCompletion (openState .filling []))).egress.queue = [0] := by decide +kernel

theorem test_check_completion :
    (nextOf (exec .checkCompletion (openState .checking []))).bank1.state = .pending := by decide +kernel

/-- The answer's data words after the execution of a request of these words. -/
def answerOf (c : Instr) (st : BankState) (ws : List Word) : List Word :=
  (nextOf (exec c (request (withBank1 st) ws))).words 0

/-- The answer's status. -/
def statusOf (c : Instr) (st : BankState) (ws : List Word) : Byte :=
  ((nextOf (exec c (request (withBank1 st) ws))).desc 0).status

theorem test_status :
    answerOf .status .standby [1] = [0, 0, 0, 0, 1, 0, 0, 0, 0, 159, 639, 159, 639, 0, 0, 0xFFFF] := by decide +kernel
theorem test_read_station : answerOf .readStation .standby [2, 1, 61] = [1, 20, 1, 3, 0, 0, 0, 0, 0] := by decide +kernel
theorem test_read_points : answerOf .readPoints .standby [4, 0, 1023, 1] = [0, 0, 0, 0, 0, 0] := by decide +kernel
theorem test_write_station :
    (nextOf (exec .writeStation (request (withBank1 .standby) [3, 1, 9, 2, 1, 2, 3, 4, 5, 6, 7, 8]))).bank1.entry 9 =
      ⟨.b, 1, 2, 3, 4, 5, 6, 7, 8⟩ := by decide +kernel
theorem test_write_points :
    (nextOf (exec .writePoints (request (withBank1 .standby) [5, 1, 8, 1, 31, 10, 1, 2, 3, 4]))).bank1.point 8 =
      ⟨31, .range, .hold, 2, 3, 4⟩ := by decide +kernel
theorem test_set_label :
    (nextOf (exec .setLabel (request (withBank1 .standby) [6, 1, 42]))).bank1.label = 42 ∧
    statusOf .setLabel .pending [6, 1, 42] = 4 := by decide +kernel
theorem test_read_image : answerOf .readImage .standby [7, 5, 1, 0] = [0, 0, 0, 0] := by decide +kernel
theorem test_read_station_state : answerOf .readStationState .standby [8, 5] = [0, 0, 0, 0, 0, 0, 0] := by decide +kernel
theorem test_read_counters : answerOf .readCounters .standby [9, 3] = [159, 639, 0, 0] := by decide +kernel
theorem test_clear_counters :
    (nextOf (exec .clearCounters (request (withBank1 .standby) [10, 3]))).mem.minBlocks = 639 := by decide +kernel
theorem test_set_mode :
    (nextOf (exec .setMode (request (withBank1 .standby) [11, 5, 2]))).station 5 = ⟨.unknown, 0, .echo⟩ := by
  decide +kernel
theorem test_copy :
    (nextOf (exec .copy (request (withBank1 .standby) [12]))).bank1.state = .filling ∧
    (nextOf (exec .copy (request (withBank1 .standby) [12]))).bank1.label = 65535 := by decide +kernel
theorem test_commit :
    (nextOf (exec .commit (request (withBank1 .standby) [13]))).bank1.state = .checking ∧
    statusOf .commit .checking [13] = 5 := by decide +kernel
theorem test_cancel :
    (nextOf (exec .cancel (openState .checking [14]))).egress.queue = [0, 1] ∧
    statusOf .cancel .standby [14] = 8 := by decide +kernel
theorem test_restart :
    (nextOf (exec .restart (request (withBank1 .pending) [15]))).bank1.state = .standby ∧
    (nextOf (exec .restart (request (withBank1 .pending) [15]))).egress.queue = [0] := by decide +kernel
theorem test_malformed_request :
    statusOf .malformedRequest .standby [16] = 1 ∧ statusOf .malformedRequest .standby [2, 0] = 3 := by decide +kernel

/-- A request whose count does not fit, and a fitting one against MALFORMED_REQUEST, are not executed (log entry 1). -/
theorem test_count_and_command_disagree :
    (nextOf (exec .commit (request (withBank1 .standby) [13, 0]))).agent.requests = [0] ∧
    (nextOf (exec .malformedRequest (request (withBank1 .standby) [13]))).agent.requests = [0] := by decide +kernel

/-- An execution command whose request is not at the head does not take place (log entry 1). -/
theorem test_other_head :
    (nextOf (exec .copy (request (withBank1 .standby) [13]))).agent.requests = [0] ∧
    (nextOf (exec .copy (request (withBank1 .standby) [13]))).bank1.state = .standby := by decide +kernel

end Sys2Proof.Tests
end

section
/-! PROOFS. The CRC of R3 (O7): one bit against a word, the bytes of a word, the residue over two bytes, and the
receiver's comparison. -/

namespace Sys2Proof.Proofs.LineCrc

open Sys2Proof Sys2Proof.Machine

/-! ## The check register, bit by bit -/

theorem crcBit_eq_ite (c : Word) (bit : Bool) :
    crcBit c bit = if c.msb = bit then c <<< 1 else (c <<< 1) ^^^ 0x1021 := by
  unfold crcBit crcGenerator
  cases c.msb <;> cases bit <;> rfl

theorem eq_of_msb_eq_of_shiftLeft_one_eq {c w : Word} (hmsb : c.msb = w.msb) (hshift : c <<< 1 = w <<< 1) : c = w := by
  rw [BitVec.msb_eq_decide, BitVec.msb_eq_decide, decide_eq_decide] at hmsb
  bv_omega

/-- The idea of the residue: a register that holds the bits still to be fed keeps holding them, and no other register
comes to hold them, since the generator's last term is set. -/
theorem crcBit_msb_eq_shiftLeft_iff (c w : Word) : crcBit c w.msb = w <<< 1 ↔ c = w := by
  rw [crcBit_eq_ite]
  split
  next hmsb => exact ⟨eq_of_msb_eq_of_shiftLeft_one_eq hmsb, fun h => h ▸ rfl⟩
  next hmsb =>
    refine iff_of_false (fun h => ?_) (fun h => hmsb (congrArg BitVec.msb h))
    have hbit0 := congrArg (BitVec.getLsbD · 0) h
    simp at hbit0

/-- Feeding the first `n` bits of `w` leaves the rest of `w` exactly when the register held `w`. -/
theorem foldl_crcBit_eq_shiftLeft_iff (c w : Word) {n : Nat} (hn : n ≤ 16) :
    (List.range n).foldl (fun r i => crcBit r (w.getLsbD (15 - i))) c = w <<< n ↔ c = w := by
  induction n with
  | zero => simp
  | succ n ih =>
    have hmsb : w.getLsbD (15 - n) = (w <<< n).msb := by
      simp [BitVec.msb_shiftLeft, BitVec.getMsbD, show n < 16 by omega]
    rw [List.range_succ, List.foldl_append, List.foldl_cons, List.foldl_nil, hmsb, BitVec.shiftLeft_add,
      crcBit_msb_eq_shiftLeft_iff, ih (by omega)]

/-! ## Bytes -/

theorem getLsbD_append_bytes (hi lo : Byte) (i : Nat) :
    (hi ++ lo : Word).getLsbD i = if i < 8 then lo.getLsbD i else hi.getLsbD (i - 8) := BitVec.getLsbD_append

theorem crcByte_crcByte (c : Word) (hi lo : Byte) :
    crcByte (crcByte c hi) lo =
      (List.range 16).foldl (fun r i => crcBit r ((hi ++ lo : Word).getLsbD (15 - i))) c := by
  simp only [getLsbD_append_bytes]
  rfl

theorem crcByte_crcByte_eq_zero_iff (c : Word) (hi lo : Byte) : crcByte (crcByte c hi) lo = 0 ↔ c = hi ++ lo := by
  have hempty : (0 : Word) = (hi ++ lo : Word) <<< 16 := (BitVec.shiftLeft_eq_zero (Nat.le_refl 16)).symm
  rw [crcByte_crcByte, hempty, foldl_crcBit_eq_shiftLeft_iff c _ (Nat.le_refl 16)]

theorem crc16_append (body rest : List Byte) : crc16 (body ++ rest) = rest.foldl crcByte (crc16 body) :=
  List.foldl_append

theorem crc16_append_pair_eq_zero_iff (body : List Byte) (hi lo : Byte) :
    crc16 (body ++ [hi, lo]) = 0 ↔ crc16 body = hi ++ lo := by
  rw [crc16_append, List.foldl_cons, List.foldl_cons, List.foldl_nil, crcByte_crcByte_eq_zero_iff]

theorem crc16_concat (body : List Byte) (b : Byte) : crc16 (body ++ [b]) =
    [7, 6, 5, 4, 3, 2, 1, 0].foldl
      (fun (c : Word) (i : Nat) => if c.msb = b.getLsbD i then c <<< 1 else (c <<< 1) ^^^ 0x1021) (crc16 body) := by
  rw [crc16_append]
  simp only [List.foldl_cons, List.foldl_nil, crcByte, crcBit_eq_ite]

theorem hiByte_append_loByte (w : Word) : hiByte w ++ loByte w = w :=
  BitVec.extractLsb'_append_extractLsb' (w := 8) (len := 8) (x := w)

/-! ## The receiver's comparison (R7) -/

theorem checkTelegram_eq_crcMismatch_iff (buf : List Byte) : checkTelegram buf = .crcMismatch ↔
    crc16 (buf.take (6 + 2 * bufCount buf)) ≠
      wordOf (bufByte buf (6 + 2 * bufCount buf)) (bufByte buf (7 + 2 * bufCount buf)) := by
  by_cases hcrc : crc16 (buf.take (6 + 2 * bufCount buf)) =
      wordOf (bufByte buf (6 + 2 * bufCount buf)) (bufByte buf (7 + 2 * bufCount buf))
  · simp only [checkTelegram, if_pos hcrc]
    split <;> simp [hcrc]
  · simp [checkTelegram, hcrc]

theorem bufByte_append_left {body : List Byte} {i : Nat} (hi : i < body.length) (rest : List Byte) :
    bufByte (body ++ rest) i = bufByte body i := List.getD_append _ _ _ _ hi

theorem bufByte_append_right {body : List Byte} {i : Nat} (hi : body.length ≤ i) (rest : List Byte) :
    bufByte (body ++ rest) i = bufByte rest (i - body.length) := List.getD_append_right _ _ _ _ hi

/-- For a buffer of header and data bytes and two more, the comparison is of those two with the CRC of the others. -/
theorem checkTelegram_append_pair_eq_crcMismatch_iff {body : List Byte} (hi lo : Byte)
    (hlen : body.length = 6 + 2 * bufCount body) :
    checkTelegram (body ++ [hi, lo]) = .crcMismatch ↔ crc16 body ≠ hi ++ lo := by
  have hcount : bufCount (body ++ [hi, lo]) = bufCount body :=
    congrArg BitVec.toNat (bufByte_append_left (by omega) _)
  have hhi : bufByte (body ++ [hi, lo]) (6 + 2 * bufCount body) = hi := by
    rw [bufByte_append_right (by omega), ← hlen, Nat.sub_self]; rfl
  have hlo : bufByte (body ++ [hi, lo]) (7 + 2 * bufCount body) = lo := by
    rw [bufByte_append_right (by omega), show 7 + 2 * bufCount body - body.length = 1 by omega]; rfl
  rw [checkTelegram_eq_crcMismatch_iff, hcount, hhi, hlo, ← hlen, List.take_left]
  rfl

/-- Settles O7: the residue follows from `crcBit_msb_eq_shiftLeft_iff`, bit by bit over the two CRC bytes. -/
theorem crcOfTheCheckBytesAndResidue : Obligations.CrcOfTheCheckBytesAndResidue := by
  refine ⟨rfl, crc16_concat, fun p t => ?_, fun body hi lo hlen => ?_, ?_, crc16_append_pair_eq_zero_iff⟩
  · exact ⟨_, _, rfl, (hiByte_append_loByte _).symm⟩
  · exact checkTelegram_append_pair_eq_crcMismatch_iff hi lo hlen
  · decide +kernel

end Sys2Proof.Proofs.LineCrc
end

section
/-! PROOFS. SET_LABEL, WRITE_STATION and WRITE_POINTS (O21, O22): how the agent executes a short operation that may
replace a bank, what the argument decoders accept and how their results travel as words, and what each operation then
does. -/

namespace Sys2Proof.Proofs.BankWrites

open Sys2Proof Sys2Proof.Machine

/-! ## Execution of a short operation (R166, R167) -/

/-- The state in which an operation's meaning runs: the head request has left the queue (R166). -/
def withoutHead (s : State) : State := s.setAgent { s.agent with requests := s.agent.requests.tail }

section

variable {s : State} {d : Nat} {ws : List Word}

/-- A running part executes a fitting head request as its operation's meaning, after the request has left the queue. -/
theorem event_executeOp_eq (h : Executing s d ws) {o : MgmtOp} (hop : classifyRequest ws = .op o)
    (body : State → Nat → List Word → State) :
    event (fun s => s.executeOp o body) s = .next (body (withoutHead s) d ws) := by
  obtain ⟨⟨hheld, -, -⟩, hhead, -, rfl⟩ := h
  have hrun := State.execute_head (want := fun r => r = .op o) (body := body) hhead (by simp [hop])
  simp only [event, hheld, Bool.false_eq_true, if_false, State.executeOp, hrun, withoutHead]

/-- The answer of an operation that has put `v` in the place of bank `k`. -/
theorem answered_after_setBank (h : Executing s d ws) (k : BankId) (v : Bank) (st : AnswerStatus) :
    Answered s (((withoutHead s).setBank k v).answer d st []) d st [] ∧
    OnlyEgress ((s.setAgent (((withoutHead s).setBank k v).answer d st []).agent).setBank k v)
      (((withoutHead s).setBank k v).answer d st []) := by
  obtain ⟨⟨-, hmem, -⟩, -, hd, -⟩ := h
  generalize hu : (withoutHead s).setBank k v = u
  have husm : u.mem = s.mem := by simp [← hu, withoutHead]
  obtain ⟨hans, hkept, hagent, -, hheld, honly, ns, hjoins, hfree, -, -⟩ :=
    State.answer_spec (s := u) (d := d) (st := st) (ws := []) (husm ▸ hmem) (husm ▸ hd) (Nat.zero_le 32) rfl
  subst hu
  unfold JoinsEgress at hjoins
  rw [noticeTelegrams_congr (s := s) (by simp [withoutHead])] at hjoins
  cases k <;> exact ⟨⟨hans, hkept, hheld, hagent, ns, hjoins, hfree⟩, honly⟩

/-- The case of `answered_after_setBank` that puts a bank in its own place. -/
theorem answered_without_write (h : Executing s d ws) (st : AnswerStatus) :
    Answered s ((withoutHead s).answer d st []) d st [] ∧
    OnlyEgress (s.setAgent ((withoutHead s).answer d st []).agent) ((withoutHead s).answer d st []) :=
  answered_after_setBank h .bank0 (s.bank .bank0) st

theorem writeBank_of_standby (h : Executing s d ws) {k : BankId} (hk : (s.bank k).state = .standby) (f : Bank → Bank) :
    Answered s ((withoutHead s).writeBank d k f) d .done [] ∧
    OnlyEgress ((s.setAgent ((withoutHead s).writeBank d k f).agent).setBank k (f (s.bank k)))
      ((withoutHead s).writeBank d k f) ∧
    ((withoutHead s).writeBank d k f).bank k = f (s.bank k) := by
  have heq : (withoutHead s).writeBank d k f = ((withoutHead s).setBank k (f (s.bank k))).answer d .done [] := if_pos hk
  obtain ⟨hans, honly⟩ := answered_after_setBank h k (f (s.bank k)) .done
  rw [heq]
  exact ⟨hans, honly, by simp⟩

theorem writeBank_of_not_standby (h : Executing s d ws) {k : BankId} (hk : (s.bank k).state ≠ .standby)
    (f : Bank → Bank) :
    Answered s ((withoutHead s).writeBank d k f) d .notStandby [] ∧
    OnlyEgress (s.setAgent ((withoutHead s).writeBank d k f).agent) ((withoutHead s).writeBank d k f) := by
  have heq : (withoutHead s).writeBank d k f = (withoutHead s).answer d .notStandby [] := if_neg hk
  rw [heq]
  exact answered_without_write h .notStandby

theorem bank_tables_wf (h : Executing s d ws) (k : BankId) :
    Table.wf StationEntry.default (s.bank k).stations = true ∧
    Table.wf PointRecord.default (s.bank k).points = true := by
  obtain ⟨⟨-, -, -, -, hs0, hs1, hp0, hp1, -⟩, -⟩ := h
  cases k
  · exact ⟨hs0, hp0⟩
  · exact ⟨hs1, hp1⟩

end

/-! ## The decoders of single arguments (R18, R42, R43) -/

theorem bankArg_code (k : BankId) : bankArg k.code = some k := by cases k <;> rfl

theorem bankArg_isSome (w : Word) : (bankArg w).isSome ↔ w.toNat ≤ 1 := by
  unfold bankArg
  generalize w.toNat = n
  refine ⟨fun h => ?_, fun h => ?_⟩
  · split at h <;> simp at h ⊢
  · interval_cases n <;> rfl

theorem stationArg_of_inRange {w : Word} (h : 1 ≤ w.toNat ∧ w.toNat ≤ 61) : stationArg w = some w.toNat := if_pos h

theorem stationArg_isSome (w : Word) : (stationArg w).isSome ↔ 1 ≤ w.toNat ∧ w.toNat ≤ 61 :=
  Option.isSome_ite

theorem rangeArg_eq_some_iff (lo hi : Nat) (w : Word) (n : Nat) :
    rangeArg lo hi w = some n ↔ (lo ≤ w.toNat ∧ w.toNat ≤ hi) ∧ w.toNat = n := by
  simp [rangeArg]

theorem rangeArg_isSome (lo hi : Nat) (w : Word) : (rangeArg lo hi w).isSome ↔ lo ≤ w.toNat ∧ w.toNat ≤ hi := by
  simp [rangeArg]

theorem routeArg_isSome (w : Word) : (routeArg w).isSome ↔ w.toNat ≤ 2 := by
  unfold routeArg
  generalize w.toNat = n
  refine ⟨fun h => ?_, fun h => ?_⟩
  · split at h <;> simp at h ⊢
  · interval_cases n <;> rfl

theorem pointKindArg_isSome (w : Word) : (pointKindArg w).isSome ↔ w.toNat ≤ 10 := by
  unfold pointKindArg
  generalize w.toNat = n
  refine ⟨fun h => ?_, fun h => ?_⟩
  · split at h <;> simp at h ⊢
  · interval_cases n <;> rfl

theorem policyArg_isSome (w : Word) : (policyArg w).isSome ↔ w.toNat ≤ 1 := by
  unfold policyArg
  generalize w.toNat = n
  refine ⟨fun h => ?_, fun h => ?_⟩
  · split at h <;> simp at h ⊢
  · interval_cases n <;> rfl

theorem ofNat_of_rangeArg {lo hi n : Nat} {w : Word} (h : rangeArg lo hi w = some n) : BitVec.ofNat 16 n = w := by
  obtain ⟨-, rfl⟩ := (rangeArg_eq_some_iff lo hi w n).1 h
  rw [BitVec.ofNat_toNat, BitVec.setWidth_eq]

theorem code_of_routeArg {w : Word} {r : Route} (h : routeArg w = some r) : r.code = w := by
  unfold routeArg at h
  split at h <;> cases h <;> exact BitVec.eq_of_toNat_eq (Eq.symm ‹_›)

theorem code_of_pointKindArg {w : Word} {k : PointKind} (h : pointKindArg w = some k) : k.code = w := by
  unfold pointKindArg at h
  split at h <;> cases h <;> exact BitVec.eq_of_toNat_eq (Eq.symm ‹_›)

theorem code_of_policyArg {w : Word} {p : Policy} (h : policyArg w = some p) : p.code = w := by
  unfold policyArg at h
  split at h <;> cases h <;> exact BitVec.eq_of_toNat_eq (Eq.symm ‹_›)

/-! ## Station entries and point records as words (R43) -/

/-- Every one of the nine words of a station entry is in its field's range (R43). -/
def EntryInRange (ws : List Word) : Prop :=
  (ws.getD 0 0).toNat ≤ 2 ∧ (1 ≤ (ws.getD 1 0).toNat ∧ (ws.getD 1 0).toNat ≤ 255) ∧ (ws.getD 2 0).toNat ≤ 3 ∧
  (1 ≤ (ws.getD 3 0).toNat ∧ (ws.getD 3 0).toNat ≤ 15) ∧ (ws.getD 4 0).toNat ≤ 255 ∧ (ws.getD 5 0).toNat ≤ 1023 ∧
  (ws.getD 6 0).toNat ≤ 32 ∧ (ws.getD 7 0).toNat ≤ 1023 ∧ (ws.getD 8 0).toNat ≤ 32

/-- Word index, kind and policy of a point record are in range (R43). -/
def RecordInRange (ws : List Word) : Prop :=
  (ws.getD 0 0).toNat ≤ 31 ∧ (ws.getD 1 0).toNat ≤ 10 ∧ (ws.getD 2 0).toNat ≤ 1

theorem stationEntry_ofWords_isSome (ws : List Word) : (StationEntry.ofWords ws).isSome ↔ EntryInRange ws := by
  simp only [StationEntry.ofWords, Option.bind_eq_bind, Option.pure_def, Option.isSome_bind, Option.any_eq_true,
    Option.isSome_some, and_true, exists_and_right, ← Option.isSome_iff_exists, routeArg_isSome, rangeArg_isSome,
    EntryInRange, Nat.zero_le, true_and]

theorem pointRecord_ofWords_isSome (ws : List Word) : (PointRecord.ofWords ws).isSome ↔ RecordInRange ws := by
  simp only [PointRecord.ofWords, Option.bind_eq_bind, Option.pure_def, Option.isSome_bind, Option.any_eq_true,
    Option.isSome_some, and_true, exists_and_right, ← Option.isSome_iff_exists, rangeArg_isSome, pointKindArg_isSome,
    policyArg_isSome, RecordInRange, Nat.zero_le, true_and]

theorem toWords_of_stationEntry_ofWords {ws : List Word} (hlen : ws.length = 9) {e : StationEntry}
    (h : StationEntry.ofWords ws = some e) : e.toWords = ws := by
  simp only [StationEntry.ofWords, Option.bind_eq_bind, Option.pure_def, Option.bind_eq_some_iff,
    Option.some.injEq] at h
  obtain ⟨route, hroute, window, hwindow, retry, hretry, down, hdown, age, hage, outFirst, houtFirst, outLength,
    houtLength, inFirst, hinFirst, inLength, hinLength, rfl⟩ := h
  match ws, hlen with
  | [_, _, _, _, _, _, _, _, _], _ =>
    simp only [StationEntry.toWords, code_of_routeArg hroute, ofNat_of_rangeArg hwindow, ofNat_of_rangeArg hretry,
      ofNat_of_rangeArg hdown, ofNat_of_rangeArg hage, ofNat_of_rangeArg houtFirst, ofNat_of_rangeArg houtLength,
      ofNat_of_rangeArg hinFirst, ofNat_of_rangeArg hinLength]
    rfl

theorem toWords_of_pointRecord_ofWords {ws : List Word} (hlen : ws.length = 6) {r : PointRecord}
    (h : PointRecord.ofWords ws = some r) : r.toWords = ws := by
  simp only [PointRecord.ofWords, Option.bind_eq_bind, Option.pure_def, Option.bind_eq_some_iff, Option.some.injEq] at h
  obtain ⟨index, hindex, kind, hkind, policy, hpolicy, rfl⟩ := h
  match ws, hlen with
  | [_, _, _, _, _, _], _ =>
    simp only [PointRecord.toWords, ofNat_of_rangeArg hindex, code_of_pointKindArg hkind, code_of_policyArg hpolicy]
    rfl

section

variable {rs : List (List Word)} (hlen : ∀ r ∈ rs, r.length = 6)
include hlen

theorem length_flatten_records : rs.flatten.length = 6 * rs.length := by
  rw [List.length_flatten, List.sum_eq_card_nsmul _ 6 (by simpa using hlen), List.length_map, smul_eq_mul, Nat.mul_comm]

theorem pointRecordsArg_flatten : pointRecordsArg rs.length rs.flatten = rs.mapM PointRecord.ofWords := by
  induction rs with
  | nil => rfl
  | cons r rs ih =>
    obtain ⟨hr, hrs⟩ := List.forall_mem_cons.1 hlen
    rw [List.length_cons, pointRecordsArg, List.flatten_cons, ← hr, List.take_left, List.drop_left, ih hrs,
      List.mapM_cons]

theorem pointRecordsArg_isSome : (pointRecordsArg rs.length rs.flatten).isSome ↔ ∀ r ∈ rs, RecordInRange r := by
  rw [pointRecordsArg_flatten hlen]
  clear hlen
  induction rs with
  | nil => simp
  | cons r rs ih =>
    simp only [List.mapM_cons, Option.bind_eq_bind, Option.pure_def, Option.isSome_bind, Option.any_eq_true,
      Option.isSome_some, and_true, exists_and_right, ← Option.isSome_iff_exists, pointRecord_ofWords_isSome, ih,
      List.forall_mem_cons]

theorem map_toWords_of_pointRecordsArg {xs : List PointRecord} (h : pointRecordsArg rs.length rs.flatten = some xs) :
    xs.map PointRecord.toWords = rs := by
  rw [pointRecordsArg_flatten hlen] at h
  induction rs generalizing xs with
  | nil => cases h; rfl
  | cons r rs ih =>
    obtain ⟨hr, hrs⟩ := List.forall_mem_cons.1 hlen
    simp only [List.mapM_cons, Option.bind_eq_bind, Option.pure_def, Option.bind_eq_some_iff, Option.some.injEq] at h
    obtain ⟨x, hx, xs, hxs, rfl⟩ := h
    rw [List.map_cons, toWords_of_pointRecord_ofWords hr hx, ih hrs hxs]

end

/-! ## Entries and records of a bank after a write (R44) -/

theorem entry_setEntry {b : Bank} (h : Table.wf StationEntry.default b.stations = true) (n i : Nat) (e : StationEntry) :
    (b.setEntry n e).entry i = if i = n then e else b.entry i := Table.get_set (Table.wf_rising h) n i e

/-- A write of point records reaches nothing of the bank but its points. -/
theorem setPoints_eq_with_points (b : Bank) (k : Nat) (xs : List PointRecord) :
    { b with points := (b.setPoints k xs).points } = b.setPoints k xs := by
  induction xs generalizing b k with
  | nil => rfl
  | cons x xs ih =>
    simp only [Bank.setPoints]
    rw [← ih]

theorem point_setPoints {b : Bank} (h : Table.wf PointRecord.default b.points = true) (k i : Nat)
    (xs : List PointRecord) :
    (b.setPoints k xs).point i = if k ≤ i then xs.getD (i - k) (b.point i) else b.point i := by
  induction xs generalizing b k with
  | nil => simp [Bank.setPoints]
  | cons x xs ih =>
    have hhead : Bank.point { b with points := Table.set PointRecord.default b.points k x } i =
        if i = k then x else b.point i := Table.get_set (Table.wf_rising h) k i x
    rw [Bank.setPoints, ih (Table.wf_set h k x), hhead]
    rcases Nat.lt_trichotomy i k with hi | rfl | hi
    · simp [show ¬ k ≤ i by omega, show ¬ k + 1 ≤ i by omega, show i ≠ k by omega]
    · simp
    · rw [show i - k = (i - (k + 1)) + 1 by omega]
      simp [show k ≤ i by omega, show k + 1 ≤ i by omega, show i ≠ k by omega]

theorem setEntry_written {b : Bank} (h : Table.wf StationEntry.default b.stations = true) (n : Nat) {ws : List Word}
    (hlen : ws.length = 9) {e : StationEntry} (he : StationEntry.ofWords ws = some e) :
    ((b.setEntry n e).entry n).toWords = ws ∧ ∀ i, i ≠ n → (b.setEntry n e).entry i = b.entry i := by
  refine ⟨?_, fun i hi => ?_⟩
  · rw [entry_setEntry h, if_pos rfl, toWords_of_stationEntry_ofWords hlen he]
  · rw [entry_setEntry h, if_neg hi]

theorem setPoints_written {b : Bank} (h : Table.wf PointRecord.default b.points = true) (k : Nat)
    {rs : List (List Word)} (hlen : ∀ r ∈ rs, r.length = 6) {xs : List PointRecord}
    (hxs : pointRecordsArg rs.length rs.flatten = some xs) :
    (∀ i, i < rs.length → ((b.setPoints k xs).point (k + i)).toWords = rs.getD i []) ∧
    ∀ i, i < k ∨ k + rs.length ≤ i → (b.setPoints k xs).point i = b.point i := by
  obtain rfl := map_toWords_of_pointRecordsArg hlen hxs
  simp only [List.length_map]
  refine ⟨fun i hi => ?_, fun i hi => ?_⟩
  · rw [point_setPoints h, if_pos (Nat.le_add_right k i), Nat.add_sub_cancel_left, List.getD_eq_getElem _ _ hi,
      List.getD_eq_getElem _ _ (by simpa using hi), List.getElem_map]
  · rw [point_setPoints h]
    split
    next hk => exact List.getD_eq_default _ _ (by omega)
    next => rfl

/-! ## SET_LABEL (R45) -/

theorem opSetLabel_badArgument (s : State) (d : Nat) {b label : Word} (h : 1 < b.toNat ∨ label = 65535) :
    opSetLabel s d [6, b, label] = s.answer d .badArgument [] := by
  unfold opSetLabel
  split
  next k hk =>
    have hb : b.toNat ≤ 1 := (bankArg_isSome b).1 (Option.isSome_of_eq_some hk)
    exact if_pos (h.resolve_left (by omega))
  next => rfl

theorem opSetLabel_of_inRange (s : State) (d : Nat) (k : BankId) {label : Word} (h : label ≠ 65535) :
    opSetLabel s d [6, k.code, label] = s.writeBank d k fun b => { b with label := label } := by
  have hk : bankArg (arg [6, k.code, label] 1) = some k := bankArg_code k
  rw [opSetLabel, hk]
  exact if_neg h

/-- Settles O21, by the two cases of `opSetLabel`: the answer BAD_ARGUMENT, or a `writeBank` of the label. -/
theorem setLabelSetsAStandbyLabel : Obligations.SetLabelSetsAStandbyLabel := by
  intro s d b label h
  refine ⟨_, event_executeOp_eq h rfl opSetLabel, fun hbad => ?_, ?_⟩
  · rw [opSetLabel_badArgument _ d hbad]
    exact answered_without_write h .badArgument
  · rintro k rfl hlabel
    rw [opSetLabel_of_inRange _ d k hlabel]
    refine ⟨fun hk => ?_, fun hk => writeBank_of_not_standby h hk _⟩
    obtain ⟨hans, honly, -⟩ := writeBank_of_standby h hk fun b => { b with label := label }
    exact ⟨hans, honly⟩

/-! ## WRITE_STATION and WRITE_POINTS (R43, R44) -/

theorem opWriteStation_of_inRange (s : State) (d : Nat) (k : BankId) {n : Word} {ws : List Word} {e : StationEntry}
    (hn : 1 ≤ n.toNat ∧ n.toNat ≤ 61) (he : StationEntry.ofWords ws = some e) :
    opWriteStation s d (3 :: k.code :: n :: ws) = s.writeBank d k (Bank.setEntry n.toNat e) := by
  have hk : bankArg (arg (3 :: k.code :: n :: ws) 1) = some k := bankArg_code k
  have hn : stationArg (arg (3 :: k.code :: n :: ws) 2) = some n.toNat := stationArg_of_inRange hn
  have he : StationEntry.ofWords ((3 :: k.code :: n :: ws).drop 3) = some e := he
  simp only [opWriteStation, hk, hn, he]

theorem opWriteStation_badArgument (s : State) (d : Nat) {b n : Word} {ws : List Word}
    (h : ¬ (b.toNat ≤ 1 ∧ 1 ≤ n.toNat ∧ n.toNat ≤ 61 ∧ EntryInRange ws)) :
    opWriteStation s d (3 :: b :: n :: ws) = s.answer d .badArgument [] := by
  unfold opWriteStation
  split
  next k m e hk hm he =>
    have hb : b.toNat ≤ 1 := (bankArg_isSome b).1 (Option.isSome_of_eq_some hk)
    obtain ⟨hn1, hn61⟩ := (stationArg_isSome n).1 (Option.isSome_of_eq_some hm)
    exact absurd ⟨hb, hn1, hn61, (stationEntry_ofWords_isSome ws).1 (Option.isSome_of_eq_some he)⟩ h
  next => rfl

/-- The arguments of a WRITE_POINTS that carries the records `rs` are in range (R43). -/
def PointsInRange (b f : Word) (rs : List (List Word)) : Prop :=
  b.toNat ≤ 1 ∧ f.toNat + rs.length ≤ 1024 ∧ ∀ r ∈ rs, RecordInRange r

section

variable {f c : Word} {rs : List (List Word)} (hcount : c.toNat = rs.length)
include hcount

theorem classifyRequest_writePoints (hlen : ∀ r ∈ rs, r.length = 6) (b : Word) (hpos : 1 ≤ rs.length)
    (hmax : rs.length ≤ 4) : classifyRequest ([5, b, f, c] ++ rs.flatten) = .op .writePoints := by
  have hc : argNat ([5, b, f, c] ++ rs.flatten) 3 = rs.length := hcount
  have hlength : ([5, b, f, c] ++ rs.flatten).length = 4 + 6 * rs.length := by
    rw [List.length_append, length_flatten_records hlen]; rfl
  have hfits : MgmtOp.fits .writePoints ([5, b, f, c] ++ rs.flatten) = true := by
    simp only [MgmtOp.fits, hc, hlength, Bool.and_eq_true, decide_eq_true_eq]
    exact ⟨⟨Nat.le_add_right 4 _, hpos, hmax⟩, trivial⟩
  exact if_pos hfits

theorem opWritePoints_of_inRange (s : State) (d : Nat) (k : BankId) {xs : List PointRecord} (hpos : 1 ≤ rs.length)
    (hfirst : f.toNat + rs.length ≤ 1024) (hxs : pointRecordsArg rs.length rs.flatten = some xs) :
    opWritePoints s d ([5, k.code, f, c] ++ rs.flatten) = s.writeBank d k (Bank.setPoints f.toNat xs) := by
  have hk : bankArg (arg ([5, k.code, f, c] ++ rs.flatten) 1) = some k := bankArg_code k
  have hc : argNat ([5, k.code, f, c] ++ rs.flatten) 3 = rs.length := hcount
  have hxs : pointRecordsArg rs.length (([5, k.code, f, c] ++ rs.flatten).drop 4) = some xs := hxs
  have hf : f.toNat ≤ 1023 := by omega
  simp only [opWritePoints, hk, hc, hxs]
  exact if_pos ⟨hf, hfirst⟩

theorem opWritePoints_badArgument (hlen : ∀ r ∈ rs, r.length = 6) (s : State) (d : Nat) {b : Word}
    (h : ¬ PointsInRange b f rs) :
    opWritePoints s d ([5, b, f, c] ++ rs.flatten) = s.answer d .badArgument [] := by
  have hc : argNat ([5, b, f, c] ++ rs.flatten) 3 = rs.length := hcount
  unfold opWritePoints
  rw [hc]
  split
  next k xs hk hxs =>
    have hb : b.toNat ≤ 1 := (bankArg_isSome b).1 (Option.isSome_of_eq_some hk)
    have hrs := (pointRecordsArg_isSome hlen).1 (Option.isSome_of_eq_some hxs)
    exact if_neg fun hfirst => h ⟨hb, hfirst.2, hrs⟩
  next => rfl

end

/-- Settles O22: each write is a `writeBank` of the decoded entry or records, or the answer BAD_ARGUMENT. -/
theorem writesReachAStandbyBank : Obligations.WritesReachAStandbyBank := by
  refine ⟨fun s d b n w0 w1 w2 w3 w4 w5 w6 w7 w8 h => ?_, fun s d b f c rs hlen hpos hmax hcount h => ?_⟩
  · refine ⟨_, event_executeOp_eq h rfl opWriteStation, ?_⟩
    split
    next hrange =>
      obtain ⟨-, hn1, hn61, hentry⟩ := hrange
      obtain ⟨e, he⟩ := Option.isSome_iff_exists.1
        ((stationEntry_ofWords_isSome [w0, w1, w2, w3, w4, w5, w6, w7, w8]).2 hentry)
      rintro k rfl
      rw [opWriteStation_of_inRange _ d k ⟨hn1, hn61⟩ he]
      refine ⟨fun hk => ?_, fun hk => writeBank_of_not_standby h hk _⟩
      obtain ⟨hans, honly, hbank⟩ := writeBank_of_standby h hk (Bank.setEntry n.toNat e)
      obtain ⟨hwritten, hothers⟩ := setEntry_written (bank_tables_wf h k).1 n.toNat rfl he
      rw [hbank]
      exact ⟨hans, hwritten, hothers, honly⟩
    next hrange =>
      rw [opWriteStation_badArgument _ d hrange]
      exact answered_without_write h .badArgument
  · refine ⟨_, event_executeOp_eq h (classifyRequest_writePoints hcount hlen b hpos hmax) opWritePoints, ?_⟩
    split
    next hrange =>
      obtain ⟨-, hfirst, hrecords⟩ := hrange
      obtain ⟨xs, hxs⟩ := Option.isSome_iff_exists.1 ((pointRecordsArg_isSome hlen).2 hrecords)
      rintro k rfl
      rw [opWritePoints_of_inRange hcount _ d k hpos hfirst hxs]
      refine ⟨fun hk => ?_, fun hk => writeBank_of_not_standby h hk _⟩
      obtain ⟨hans, honly, hbank⟩ := writeBank_of_standby h hk (Bank.setPoints f.toNat xs)
      obtain ⟨hwritten, hothers⟩ := setPoints_written (bank_tables_wf h k).2 f.toNat hlen hxs
      rw [hbank, setPoints_eq_with_points]
      exact ⟨hans, hwritten, hothers, honly⟩
    next hrange =>
      rw [opWritePoints_badArgument hcount hlen _ d hrange]
      exact answered_without_write h .badArgument

end Sys2Proof.Proofs.BankWrites
end

section
/-! PROOFS. The Point Engine (O40 to O45): what a run of one record makes of a skip, a result and a fault; the digits of a
word and the words of digits; the pair transforms as one relation; the signed transforms; the fault policies. -/

namespace Sys2Proof.Proofs.PointEngine

open Sys2Proof Sys2Proof.Machine

/-! ## A run of one record (R108, R110 to R112, R121) -/

theorem isPair_iff {k : PointKind} : k.isPair = true ↔ k = .bcd8ToBin32 ∨ k = .bin32ToBcd8 := by
  cases k <;> decide

theorem ne_none_of_isPair {k : PointKind} (h : k.isPair = true) : k ≠ .none := by
  rintro rfl
  cases h

section

variable {r : PointRecord} {img : ImageRecord} {ws : List Word}

theorem applyRun_singleton : applyRun [r] img ws = treatRecord img (Applied.start ws) r := rfl

theorem applyRun_of_none (hk : r.kind = .none) : applyRun [r] img ws = Applied.start ws := if_pos hk

theorem applyRun_of_short (hk : r.kind ≠ .none) (hpair : r.kind.isPair = false) (hi : ws.length ≤ r.index) :
    applyRun [r] img ws = (Applied.start ws).skip := by
  simp [applyRun_singleton, treatRecord, Applied.start, hk, hpair, hi]

theorem applyRun_of_short_pair (hpair : r.kind.isPair = true) (hi : ws.length ≤ r.index + 1) :
    applyRun [r] img ws = (Applied.start ws).skip := by
  simp [applyRun_singleton, treatRecord, Applied.start, ne_none_of_isPair hpair, hpair, hi]

section

variable {k : PointKind} (hk : r.kind = k) {x : Word} (hi : r.index < ws.length) (hx : ws.getD r.index 0 = x)
include hk hi hx

theorem applyRun_of_result {w : Word} {limited : Bool} (h : transformWord k r.a r.b x = .result w limited)
    (hne : k ≠ .none := by decide) (hpair : k.isPair = false := by decide) :
    applyRun [r] img ws = ⟨ws.set r.index w, true, false, limited, 0, limited.toNat, 0⟩ := by
  subst hk hx
  simp only [applyRun_singleton, treatRecord, Applied.start, if_neg hne, hpair, Nat.not_le.2 hi, h]
  cases limited <;> rfl

theorem applyRun_of_unchanged (h : transformWord k r.a r.b x = .result x false)
    (hne : k ≠ .none := by decide) (hpair : k.isPair = false := by decide) :
    applyRun [r] img ws = ⟨ws, true, false, false, 0, 0, 0⟩ := by
  have hset : ws.set r.index x = ws := by
    rw [← hx, List.getD_eq_getElem _ _ hi, List.set_getElem_self hi]
  rw [applyRun_of_result hk hi hx h hne hpair, hset]
  rfl

theorem applyRun_of_fault (h : transformWord k r.a r.b x = .fault)
    (hne : k ≠ .none := by decide) (hpair : k.isPair = false := by decide) :
    applyRun [r] img ws = ⟨ws.set r.index (replaceWord r img), true, true, false, 1, 0, 0⟩ := by
  subst hk hx
  simp only [applyRun_singleton, treatRecord, Applied.start, if_neg hne, hpair, Nat.not_le.2 hi, h]
  rfl

end

section

variable {lo hi : Word} (hpair : r.kind.isPair = true) (hlen : r.index + 1 < ws.length)
  (hlo : ws.getD r.index 0 = lo) (hhi : ws.getD (r.index + 1) 0 = hi)
include hpair hlen hlo hhi

theorem applyRun_of_pair_result {lo' hi' : Word} (h : transformPair r.kind lo hi = some (lo', hi')) :
    applyRun [r] img ws = ⟨(ws.set r.index lo').set (r.index + 1) hi', true, false, false, 0, 0, 0⟩ := by
  subst hlo hhi
  simp only [applyRun_singleton, treatRecord, Applied.start, if_neg (ne_none_of_isPair hpair), hpair,
    Nat.not_le.2 hlen, h]
  rfl

theorem applyRun_of_pair_fault (h : transformPair r.kind lo hi = none) :
    applyRun [r] img ws =
      ⟨(ws.set r.index (replacePair r img).1).set (r.index + 1) (replacePair r img).2, true, true, false, 1, 0, 0⟩ := by
  subst hlo hhi
  simp only [applyRun_singleton, treatRecord, Applied.start, if_neg (ne_none_of_isPair hpair), hpair,
    Nat.not_le.2 hlen, h]
  rfl

end

end

/-- Settles O40: each of the three transforms answers its result at once. -/
theorem fixedComplementAndBits : Obligations.FixedComplementAndBits := by
  intro r img ws hi
  exact ⟨fun hk => applyRun_of_result hk hi rfl rfl, fun hk => applyRun_of_result hk hi rfl rfl,
    fun hk => applyRun_of_result hk hi rfl rfl⟩

/-- Settles O41, by the record's kind: none, single or pair. -/
theorem inertAndSkippedRecords : Obligations.InertAndSkippedRecords := by
  refine fun r img ws => ⟨applyRun_of_none, fun hk hsingle hpair => ?_⟩
  by_cases h : r.kind = .bcd8ToBin32 ∨ r.kind = .bin32ToBcd8
  · exact applyRun_of_short_pair (isPair_iff.2 h) (hpair h)
  · have hnot : r.kind.isPair = false := Bool.eq_false_iff.2 (mt isPair_iff.1 h)
    exact applyRun_of_short hk hnot (hsingle (not_or.1 h))

/-! ## Digits and words (section 6.2, R114, R115) -/

theorem digit_eq (x : Word) (i : Nat) : digit x i = x.toNat / 16 ^ i % 16 := by
  rw [digit, BitVec.extractLsb'_toNat, Nat.shiftRight_eq_div_pow, Nat.pow_mul]

theorem isBcd_iff (x : Word) : isBcd x = true ↔
    x.toNat / 16 ^ 3 % 16 ≤ 9 ∧ x.toNat / 16 ^ 2 % 16 ≤ 9 ∧ x.toNat / 16 ^ 1 % 16 ≤ 9 ∧ x.toNat / 16 ^ 0 % 16 ≤ 9 := by
  simp only [isBcd, Bool.and_eq_true, decide_eq_true_eq, digit_eq, and_assoc]

theorem isBcd_iff_forall (x : Word) : isBcd x = true ↔ ∀ i < 4, x.toNat / 16 ^ i % 16 ≤ 9 := by
  rw [isBcd_iff]
  refine ⟨fun ⟨h3, h2, h1, h0⟩ i hi => ?_, fun h => ⟨h 3 ?_, h 2 ?_, h 1 ?_, h 0 ?_⟩⟩
  · interval_cases i <;> assumption
  all_goals decide

theorem bcdValue_eq (x : Word) : bcdValue x =
    x.toNat / 16 ^ 3 % 16 * 1000 + x.toNat / 16 ^ 2 % 16 * 100 + x.toNat / 16 ^ 1 % 16 * 10 +
      x.toNat / 16 ^ 0 % 16 := by
  simp only [bcdValue, digit_eq]

/-- The first digit needs no remainder, since a word has four digits. -/
theorem bcdValue_eq_sum (x : Word) : bcdValue x =
    x.toNat / 4096 * 1000 + x.toNat / 256 % 16 * 100 + x.toNat / 16 % 16 * 10 + x.toNat % 16 := by
  rw [bcdValue_eq, Nat.mod_eq_of_lt (show x.toNat / 16 ^ 3 < 16 from Nat.div_lt_of_lt_mul x.isLt)]
  simp

theorem toBcd_toNat (n : Nat) : (toBcd n).toNat =
    n / 1000 % 10 * 4096 + n / 100 % 10 * 256 + n / 10 % 10 * 16 + n % 10 := by
  rw [toBcd, BitVec.toNat_ofNat]
  omega

/-! The next three lemmas give the same facts with repeated quotients, one digit after another, as `omega` solves them. -/

theorem isBcd_iff_quotients (x : Word) : isBcd x = true ↔
    x.toNat / 16 / 16 / 16 % 16 ≤ 9 ∧ x.toNat / 16 / 16 % 16 ≤ 9 ∧ x.toNat / 16 % 16 ≤ 9 ∧ x.toNat % 16 ≤ 9 := by
  simp [isBcd_iff, Nat.div_div_eq_div_mul]

theorem bcdValue_eq_quotients (x : Word) : bcdValue x =
    x.toNat / 16 / 16 / 16 % 16 * 1000 + x.toNat / 16 / 16 % 16 * 100 + x.toNat / 16 % 16 * 10 + x.toNat % 16 := by
  simp [bcdValue_eq, Nat.div_div_eq_div_mul]

theorem toBcd_toNat_quotients (n : Nat) : (toBcd n).toNat =
    n / 10 / 10 / 10 % 10 * 4096 + n / 10 / 10 % 10 * 256 + n / 10 % 10 * 16 + n % 10 := by
  simp [toBcd_toNat, Nat.div_div_eq_div_mul]

theorem bcdValue_lt {x : Word} (h : isBcd x = true) : bcdValue x < 10000 := by
  obtain ⟨h3, h2, h1, h0⟩ := (isBcd_iff_quotients x).1 h
  rw [bcdValue_eq_quotients]
  omega

theorem isBcd_toBcd (n : Nat) : isBcd (toBcd n) = true := by
  rw [isBcd_iff_quotients, toBcd_toNat_quotients]
  omega

theorem bcdValue_toBcd {n : Nat} (h : n < 10000) : bcdValue (toBcd n) = n := by
  rw [bcdValue_eq_quotients, toBcd_toNat_quotients]
  omega

theorem toBcd_bcdValue {x : Word} (h : isBcd x = true) : toBcd (bcdValue x) = x := by
  have hx := x.isLt
  obtain ⟨h3, h2, h1, h0⟩ := (isBcd_iff_quotients x).1 h
  apply BitVec.eq_of_toNat_eq
  rw [toBcd_toNat_quotients, bcdValue_eq_quotients]
  omega

theorem toInt_mem_fourDigits_iff (x : Word) : (0 ≤ x.toInt ∧ x.toInt ≤ 9999) ↔ x.toNat ≤ 9999 := by
  have hx := x.isLt
  rw [BitVec.toInt_eq_toNat_cond]
  split <;> omega

/-- Settles O42: the digits of the statement are the model's `digit`s, and a value is non-negative as a signed word
exactly when its unsigned value is in range. -/
theorem fourDigitTransforms : Obligations.FourDigitTransforms := by
  intro r img ws x hi hx
  refine ⟨fun hk => ?_, fun hk => ?_⟩
  · split
    next hdigits =>
      exact (applyRun_of_result hk hi hx (if_pos ((isBcd_iff x).2 hdigits))).trans (by rw [bcdValue_eq]; rfl)
    next hdigits => exact applyRun_of_fault hk hi hx (if_neg (mt (isBcd_iff x).1 hdigits))
  · split
    next hrange =>
      refine ⟨toBcd x.toNat, ?_, applyRun_of_result hk hi hx (if_pos ((toInt_mem_fourDigits_iff x).2 hrange))⟩
      rw [toBcd_toNat, Nat.mod_eq_of_lt (by omega : x.toNat / 1000 < 10)]
    next hrange => exact applyRun_of_fault hk hi hx (if_neg (mt (toInt_mem_fourDigits_iff x).1 hrange))

/-! ## Pairs (R116, R117) -/

/-- The 32-bit value of two words, the low word first (R20). -/
def pairValue (lo hi : Word) : Nat := hi.toNat * 65536 + lo.toNat

theorem toNat_append_eq_pairValue (lo hi : Word) : (hi ++ lo).toNat = pairValue lo hi := by
  rw [BitVec.toNat_append, ← Nat.shiftLeft_add_eq_or_of_lt lo.isLt, Nat.shiftLeft_eq]
  rfl

theorem pairValue_eq_iff {lo hi : Word} {v : Nat} (hv : v < 4294967296) :
    pairValue lo hi = v ↔ lo = BitVec.ofNat 16 v ∧ hi = BitVec.ofNat 16 (v / 65536) := by
  have hlo := lo.isLt
  have hhi := hi.isLt
  simp only [← BitVec.toNat_inj, BitVec.toNat_ofNat, pairValue]
  omega

theorem transformPair_bcd8ToBin32_eq_none_iff (lo hi : Word) :
    transformPair .bcd8ToBin32 lo hi = none ↔ ¬ (isBcd lo = true ∧ isBcd hi = true) := by
  simp [transformPair]

theorem transformPair_bcd8ToBin32_eq_some_iff (lo hi lo' hi' : Word) :
    transformPair .bcd8ToBin32 lo hi = some (lo', hi') ↔
      (isBcd lo = true ∧ isBcd hi = true) ∧ pairValue lo' hi' = bcdValue hi * 10000 + bcdValue lo := by
  by_cases h : isBcd lo = true ∧ isBcd hi = true
  · have hlo := bcdValue_lt h.1
    have hhi := bcdValue_lt h.2
    rw [pairValue_eq_iff (by omega)]
    simp [transformPair, h, eq_comm]
  · rw [(transformPair_bcd8ToBin32_eq_none_iff lo hi).2 h]
    simp [h]

/-- The pair as a signed 32-bit value is in range exactly when its unsigned value is. -/
theorem transformPair_bin32ToBcd8 (lo hi : Word) : transformPair .bin32ToBcd8 lo hi =
    if pairValue lo hi ≤ 99999999 then some (toBcd (pairValue lo hi % 10000), toBcd (pairValue lo hi / 10000))
    else none := by
  have hlt := (hi ++ lo).isLt
  have hint := BitVec.toInt_eq_toNat_cond (hi ++ lo)
  rw [toNat_append_eq_pairValue] at hlt hint
  by_cases h : pairValue lo hi ≤ 99999999
  · rw [if_pos (by omega)] at hint
    simp [transformPair, hint, h]
  · have hout : ¬ (0 ≤ (hi ++ lo).toInt ∧ (hi ++ lo).toInt ≤ 99999999) := by
      split at hint <;> omega
    simp only [transformPair, if_neg hout, if_neg h]

theorem transformPair_bin32ToBcd8_eq_none_iff (lo hi : Word) :
    transformPair .bin32ToBcd8 lo hi = none ↔ 99999999 < pairValue lo hi := by
  simp [transformPair_bin32ToBcd8]

theorem transformPair_bin32ToBcd8_eq_some_iff (lo hi lo' hi' : Word) :
    transformPair .bin32ToBcd8 lo hi = some (lo', hi') ↔
      (isBcd lo' = true ∧ isBcd hi' = true) ∧ pairValue lo hi = bcdValue hi' * 10000 + bcdValue lo' := by
  rw [transformPair_bin32ToBcd8]
  constructor
  · intro h
    split at h
    next hle =>
      cases h
      rw [bcdValue_toBcd (by omega), bcdValue_toBcd (by omega)]
      exact ⟨⟨isBcd_toBcd _, isBcd_toBcd _⟩, by omega⟩
    next => cases h
  · rintro ⟨⟨hlo, hhi⟩, hvalue⟩
    have hlo4 := bcdValue_lt hlo
    have hhi4 := bcdValue_lt hhi
    have hmod : pairValue lo hi % 10000 = bcdValue lo' := by omega
    have hdiv : pairValue lo hi / 10000 = bcdValue hi' := by omega
    rw [if_pos (by omega), hmod, hdiv, toBcd_bcdValue hlo, toBcd_bcdValue hhi]

/-- Each pair transform undoes the other: they are one relation, read in the two directions. -/
theorem transformPair_bcd8ToBin32_eq_some_iff_bin32ToBcd8 (lo hi lo' hi' : Word) :
    transformPair .bcd8ToBin32 lo hi = some (lo', hi') ↔ transformPair .bin32ToBcd8 lo' hi' = some (lo, hi) :=
  (transformPair_bcd8ToBin32_eq_some_iff lo hi lo' hi').trans
    (transformPair_bin32ToBcd8_eq_some_iff lo' hi' lo hi).symm

theorem transformPair_bcd8ToBin32_eq_none_iff_exists (lo hi : Word) : transformPair .bcd8ToBin32 lo hi = none ↔
    ∃ i, i < 4 ∧ (9 < lo.toNat / 16 ^ i % 16 ∨ 9 < hi.toNat / 16 ^ i % 16) := by
  rw [transformPair_bcd8ToBin32_eq_none_iff, isBcd_iff_forall, isBcd_iff_forall, ← forall₂_and]
  simp only [not_forall, not_and_or, not_le, exists_prop]

/-- Settles O43, from the relation of the two pair transforms and the two outcomes of a pair record. -/
theorem eightDigitTransforms : Obligations.EightDigitTransforms := by
  intro lo hi
  refine ⟨transformPair_bcd8ToBin32_eq_none_iff_exists lo hi, transformPair_bin32ToBcd8_eq_none_iff lo hi,
    fun lo' hi' h => ?_, fun lo' hi' => (transformPair_bcd8ToBin32_eq_some_iff_bin32ToBcd8 lo hi lo' hi').1,
    fun lo' hi' => (transformPair_bcd8ToBin32_eq_some_iff_bin32ToBcd8 lo' hi' lo hi).2,
    fun r img ws hk hlen hlo hhi => ?_⟩
  · obtain ⟨-, hvalue⟩ := (transformPair_bcd8ToBin32_eq_some_iff lo hi lo' hi').1 h
    rw [bcdValue_eq_sum, bcdValue_eq_sum] at hvalue
    exact hvalue
  · have hpair := isPair_iff.2 hk
    exact ⟨fun _ _ => applyRun_of_pair_result hpair hlen hlo hhi, applyRun_of_pair_fault hpair hlen hlo hhi⟩

/-! ## SCALE, CLAMP and RANGE (R118 to R120) -/

theorem scaleWord_of_pos {x a b : Word} (hb : 1 ≤ b.toInt) {q : Int} (hq : Int.tdiv (x.toInt * a.toInt) b.toInt = q) :
    scaleWord x a b =
      if 32767 < q then .result 0x7FFF true
      else if q < -32768 then .result 0x8000 true
      else .result (BitVec.ofInt 16 q) false := by
  subst hq
  exact if_pos hb

theorem clampWord_of_le {x a b : Word} (hab : a.toInt ≤ b.toInt) :
    clampWord x a b =
      if x.toInt < a.toInt then .result a true else if b.toInt < x.toInt then .result b true else .result x false :=
  if_neg (by omega)

/-- Settles O44: one outcome of `scaleWord`, `clampWord` and `rangeWord` for each clause. -/
theorem signedTransforms : Obligations.SignedTransforms := by
  intro r img ws hi x a b kept becomes
  refine ⟨fun hk hb => ?_, fun hk hab => ?_, fun hk => ⟨fun hax hxb => ?_, fun hout => ?_⟩⟩
  · intro q
    have hscale := scaleWord_of_pos (x := ws.getD r.index 0) (a := r.a) hb rfl
    refine ⟨fun hq => ⟨0x7FFF, by decide, ?_⟩, fun hq => ⟨0x8000, by decide, ?_⟩,
      fun hlo hhi => ⟨BitVec.ofInt 16 q, ?_, ?_⟩⟩
    · exact applyRun_of_result hk hi rfl (hscale.trans (if_pos hq))
    · exact applyRun_of_result hk hi rfl (hscale.trans ((if_neg (not_lt.2 (by omega : q ≤ 32767))).trans (if_pos hq)))
    · exact BitVec.toInt_ofInt_eq_self (by decide) hlo (by omega)
    · exact applyRun_of_result hk hi rfl (hscale.trans ((if_neg (not_lt.2 hhi)).trans (if_neg (not_lt.2 hlo))))
  · have hclamp := clampWord_of_le (x := ws.getD r.index 0) hab
    refine ⟨fun hxa => ⟨r.a, rfl, ?_⟩, fun hbx => ⟨r.b, rfl, ?_⟩, fun hax hxb => ?_⟩
    · exact applyRun_of_result hk hi rfl (hclamp.trans (if_pos hxa))
    · exact applyRun_of_result hk hi rfl (hclamp.trans ((if_neg (by omega)).trans (if_pos hbx)))
    · exact applyRun_of_unchanged hk hi rfl (hclamp.trans ((if_neg (by omega)).trans (if_neg (by omega))))
  · exact applyRun_of_unchanged hk hi rfl (if_pos ⟨hax, hxb⟩)
  · exact applyRun_of_fault hk hi rfl (if_neg (by omega))

/-! ## The fault policies (R122, R123) -/

section

variable {r : PointRecord} {img : ImageRecord}

theorem replace_of_substitute (h : r.policy = .substitute) :
    replaceWord r img = r.subst ∧ replacePair r img = (r.subst, r.subst) := by
  simp [replaceWord, replacePair, h]

theorem replaceWord_of_hold (h : r.policy = .hold) : replaceWord r img =
    if img.valid = true ∧ r.index + 1 ≤ img.words.length then img.words.getD r.index 0 else r.subst := by
  rw [replaceWord, h]
  rfl

theorem replacePair_of_hold (h : r.policy = .hold) : replacePair r img =
    if img.valid = true ∧ r.index + 2 ≤ img.words.length then
      (img.words.getD r.index 0, img.words.getD (r.index + 1) 0)
    else (r.subst, r.subst) := by
  rw [replacePair, h]
  rfl

end

theorem reached_of_getElem? {ws : List Word} {i : Nat} {w : Word} (h : ws[i]? = some w) :
    i < ws.length ∧ ws.getD i 0 = w :=
  ⟨(List.getElem?_eq_some_iff.1 h).1, by rw [List.getD_eq_getElem?_getD, h, Option.getD_some]⟩

theorem not_valid_and_reaches {img : ImageRecord} {i : Nat} (h : img.valid = false ∨ img.words.length ≤ i) :
    ¬ (img.valid = true ∧ i + 1 ≤ img.words.length) := by
  rintro ⟨hvalid, hlen⟩
  rcases h with h | h
  · exact Bool.false_ne_true (h.symm.trans hvalid)
  · omega

/-- Settles O45, by the policy and by whether the image is valid and reaches the words. -/
theorem faultPoliciesReplaceTheWords : Obligations.FaultPoliciesReplaceTheWords := by
  refine fun r img => ⟨replace_of_substitute, fun hp => ?_⟩
  rw [replaceWord_of_hold hp, replacePair_of_hold hp]
  refine ⟨fun w hvalid hw => ?_, fun w v hvalid hw hv => ?_, fun h => ?_, fun h => ?_⟩
  · obtain ⟨hlen, hword⟩ := reached_of_getElem? hw
    rw [if_pos ⟨hvalid, hlen⟩, hword]
  · obtain ⟨-, hword⟩ := reached_of_getElem? hw
    obtain ⟨hlen, hsecond⟩ := reached_of_getElem? hv
    rw [if_pos ⟨hvalid, hlen⟩, hword, hsecond]
  · exact if_neg (not_valid_and_reaches h)
  · exact if_neg (not_valid_and_reaches h)

end Sys2Proof.Proofs.PointEngine
end

section
/-! PROOFS. The images (O47): the age of an image as a number, and when a poll's inbound image serves for substitution. -/

namespace Sys2Proof.Proofs.Images

open Sys2Proof Sys2Proof.Machine

/-- R135: the difference of two cycle words is the difference of their numbers, wrapped at 65536. -/
theorem imageAge_eq_mod (s : State) (r : ImageRecord) :
    s.imageAge r = (s.cycle.number.toNat + 65536 - r.cycle.toNat) % 65536 := by
  have hcapture : r.cycle.toNat < 65536 := r.cycle.isLt
  calc s.imageAge r = (65536 - r.cycle.toNat + s.cycle.number.toNat) % 65536 := BitVec.toNat_sub _ _
    _ = (s.cycle.number.toNat + 65536 - r.cycle.toNat) % 65536 := by congr 1; omega

/-- R136: the three conditions of the substitution rule. -/
theorem substitutable_iff (s : State) (d : Nat) :
    s.substitutable d = true ↔
      (s.inImage (s.stationOf d)).valid = true ∧ 0 < (s.stampedEntry d).ageLimit ∧
      s.imageAge (s.inImage (s.stationOf d)) ≤ (s.stampedEntry d).ageLimit := by
  simp only [State.substitutable, Bool.and_eq_true, decide_eq_true_eq, and_assoc]

/-- Settles O47: the age by the subtraction of words, the decision by the rule's three conditions. -/
theorem imageAgeDecidesSubstitution : Obligations.ImageAgeDecidesSubstitution :=
  fun s d r => ⟨imageAge_eq_mod s r, substitutable_iff s d⟩

end Sys2Proof.Proofs.Images
end

section
/-! PROOFS. Management intake (O49): a whole telegram from the line reaches classification as it was sent; then the two
steps of intake that discard a request. -/

namespace Sys2Proof.Proofs.Intake

open Sys2Proof Sys2Proof.Machine Sys2Proof.Proofs.LineCrc

/-! ## The receive buffer (R6) -/

theorem bufCount_append_left {buf : List Byte} (h : 6 ≤ buf.length) (rest : List Byte) :
    bufCount (buf ++ rest) = bufCount buf := congrArg BitVec.toNat (bufByte_append_left h rest)

/-- What a receiver collects next leaves the buffer before it a telegram in progress. -/
theorem fits_of_fits_append {buf rest : List Byte} (h : Receiver.fits (.frame (buf ++ rest)) = true) :
    Receiver.fits (.frame buf) = true := by
  simp only [Receiver.fits, Bool.or_eq_true, Bool.and_eq_true, decide_eq_true_eq, List.length_append] at h ⊢
  by_cases hlen : buf.length < 6
  · exact Or.inl hlen
  · rw [bufCount_append_left (by omega)] at h
    exact Or.inr (by omega)

section

variable {s : State} {p : Port} {buf : List Byte}

/-- A byte after which the telegram is still in progress joins the buffer. -/
theorem receiveByte_of_fits (hrx : (s.port p).rx = .frame buf) {b : Byte}
    (hfits : Receiver.fits (.frame (buf ++ [b])) = true) : s.receiveByte p b = s.setRx p (.frame (buf ++ [b])) := by
  simp only [Receiver.fits, Bool.or_eq_true, Bool.and_eq_true, decide_eq_true_eq] at hfits
  have hshort : ¬ ((buf ++ [b]).length = 6 ∧ 32 < bufCount (buf ++ [b])) := by omega
  have hopen : ¬ bufComplete (buf ++ [b]) = true := by
    simp only [bufComplete, Bool.and_eq_true, decide_eq_true_eq]
    omega
  simp only [State.receiveByte, hrx, if_neg hshort, if_neg hopen]

/-- The byte that completes the telegram ends it. -/
theorem receiveByte_of_complete (hrx : (s.port p).rx = .frame buf) {b : Byte} (hcount : bufCount (buf ++ [b]) ≤ 32)
    (hlen : (buf ++ [b]).length = 8 + 2 * bufCount (buf ++ [b])) :
    s.receiveByte p b = s.telegramEnds p (buf ++ [b]) := by
  have hshort : ¬ ((buf ++ [b]).length = 6 ∧ 32 < bufCount (buf ++ [b])) := by omega
  have hdone : bufComplete (buf ++ [b]) = true := by
    simp only [bufComplete, Bool.and_eq_true, decide_eq_true_eq]
    omega
  simp only [State.receiveByte, hrx, if_neg hshort, if_pos hdone]

end

theorem setRx_of_rx {s : State} {p : Port} {r : Receiver} (hrx : (s.port p).rx = r) : s.setRx p r = s := by
  rw [State.setRx, ← hrx]
  exact State.setPort_self s p

/-- Bytes after which the telegram is still in progress join the buffer, one after another. -/
theorem receiveBytes_of_fits {s : State} {p : Port} {buf bytes : List Byte} (hrx : (s.port p).rx = .frame buf)
    (hfits : Receiver.fits (.frame (buf ++ bytes)) = true) :
    s.receiveBytes p bytes = s.setRx p (.frame (buf ++ bytes)) := by
  induction bytes generalizing s buf with
  | nil => rw [List.append_nil]; exact (setRx_of_rx hrx).symm
  | cons b bytes ih =>
    rw [List.append_cons] at hfits ⊢
    have hrx1 : ((s.setRx p (.frame (buf ++ [b]))).port p).rx = .frame (buf ++ [b]) := by rw [State.setRx_port_same]
    have hstep := receiveByte_of_fits hrx (fits_of_fits_append hfits)
    calc s.receiveBytes p (b :: bytes) = (s.setRx p (.frame (buf ++ [b]))).receiveBytes p bytes :=
          congrArg (State.receiveBytes · p bytes) hstep
      _ = s.setRx p (.frame (buf ++ [b] ++ bytes)) := by rw [ih hrx1 hfits, State.setRx_setRx]

theorem telegramEnds_setRx (s : State) (p : Port) (r : Receiver) (buf : List Byte) :
    (s.setRx p r).telegramEnds p buf = s.telegramEnds p buf := by
  simp only [State.telegramEnds, State.setRx_setRx]

/-- From HUNT, the lead byte and the bytes of a whole telegram come to the checks of R7 and R8. -/
theorem receiveBytes_of_complete {s : State} {p : Port} (hrx : (s.port p).rx = .hunt) {bytes : List Byte} {b : Byte}
    (hcount : bufCount bytes ≤ 32) (hlen : bytes.length = 7 + 2 * bufCount bytes) :
    s.receiveBytes p (leadByteValue :: (bytes ++ [b])) = s.telegramEnds p (bytes ++ [b]) := by
  have hlead : s.receiveByte p leadByteValue = s.setRx p (.frame []) := by
    simp only [State.receiveByte, hrx, if_true]
  have hfits : Receiver.fits (.frame ([] ++ bytes)) = true := by
    simp only [Receiver.fits, List.nil_append, Bool.or_eq_true, Bool.and_eq_true, decide_eq_true_eq]
    omega
  have hfull : bufCount (bytes ++ [b]) = bufCount bytes := bufCount_append_left (by omega) [b]
  calc s.receiveBytes p (leadByteValue :: (bytes ++ [b]))
      = ((s.setRx p (.frame [])).receiveBytes p bytes).receiveByte p b := by
        simp only [State.receiveBytes, List.foldl_cons, List.foldl_append, List.foldl_nil, hlead]
    _ = (s.setRx p (.frame bytes)).receiveByte p b := by
        rw [receiveBytes_of_fits (buf := []) (by rw [State.setRx_port_same]) hfits, State.setRx_setRx, List.nil_append]
    _ = (s.setRx p (.frame bytes)).telegramEnds p (bytes ++ [b]) := by
        refine receiveByte_of_complete (by rw [State.setRx_port_same]) (by omega) ?_
        rw [List.length_append, List.length_singleton]
        omega
    _ = s.telegramEnds p (bytes ++ [b]) := telegramEnds_setRx s p _ _

/-! ## What the checks make of the bytes of a telegram (R3, R7, R8) -/

theorem ofCode_code (k : Kind) : Kind.ofCode k.code = some k := by cases k <;> rfl

theorem bytesWords_wordBytes (ws : List Word) : bytesWords (wordBytes ws) = ws := by
  induction ws with
  | nil => rfl
  | cons w ws ih => rw [wordBytes, bytesWords, ih, wordOf, hiByte_append_loByte]

theorem wordBytes_length (ws : List Word) : (wordBytes ws).length = 2 * ws.length := by
  induction ws with
  | nil => rfl
  | cons w ws ih => rw [wordBytes, List.length_cons, List.length_cons, ih, List.length_cons]; omega

theorem setWidth_setWidth_addr (a : Addr) : (a.setWidth 8).setWidth 6 = a := by
  rw [BitVec.setWidth_setWidth_of_le _ (by decide), BitVec.setWidth_eq]

/-- Header and data bytes with a known kind, followed by their CRC, make an arrival of the header's fields. -/
theorem checkTelegram_of_crc {body : List Byte} {hi lo : Byte} {k : Kind} (hlen : body.length = 6 + 2 * bufCount body)
    (hcrc : crc16 body = wordOf hi lo) (hkind : Kind.ofCode ((bufByte body 2).setWidth 4) = some k) :
    checkTelegram (body ++ [hi, lo]) =
      .arrived { dest := (bufByte body 0).setWidth 6, src := (bufByte body 1).setWidth 6, kind := k,
                 seq := bufByte body 3, words := bytesWords (body.drop 6) } := by
  have hcount : bufCount (body ++ [hi, lo]) = bufCount body := bufCount_append_left (by omega) _
  have hheader : ∀ i < 6, bufByte (body ++ [hi, lo]) i = bufByte body i := fun i hi6 => bufByte_append_left (by omega) _
  have htail : ∀ j, bufByte (body ++ [hi, lo]) (body.length + j) = bufByte [hi, lo] j := fun j => by
    rw [bufByte_append_right (Nat.le_add_right _ _), Nat.add_sub_cancel_left]
  have hsent : wordOf (bufByte (body ++ [hi, lo]) (6 + 2 * bufCount body))
      (bufByte (body ++ [hi, lo]) (7 + 2 * bufCount body)) = wordOf hi lo := by
    rw [show 7 + 2 * bufCount body = body.length + 1 by omega, htail, ← hlen]
    exact congrArg (wordOf · lo) (htail 0)
  rw [checkTelegram, hcount, ← hlen, List.take_left, hlen, hsent, if_pos hcrc, hheader 2 (by decide), hkind,
    hheader 0 (by decide), hheader 1 (by decide), hheader 3 (by decide)]

/-- What a telegram hands to classification when it arrives (R9). -/
def arrivalOf (t : Telegram) : Arrival := { dest := t.dest, src := t.src, kind := t.kind, seq := t.seq, words := t.words }

section

variable {t : Telegram} (hwords : t.words.length ≤ 32) (q : Port)

theorem bodyBytes_length : (bodyBytes q t).length = 6 + 2 * t.words.length := by
  rw [bodyBytes, List.length_append, wordBytes_length]; rfl

include hwords

theorem bufCount_bodyBytes : bufCount (bodyBytes q t) = t.words.length := by
  have : (BitVec.ofNat 8 t.words.length).toNat = t.words.length := by
    rw [BitVec.toNat_ofNat]
    omega
  exact this

/-- The CRC bytes that follow are right, and the kind is one of the six, so what a port sends passes the checks. -/
theorem checkTelegram_bodyBytes :
    checkTelegram (bodyBytes q t ++ [hiByte (crc16 (bodyBytes q t)), loByte (crc16 (bodyBytes q t))]) =
      .arrived (arrivalOf t) := by
  have hlen : (bodyBytes q t).length = 6 + 2 * bufCount (bodyBytes q t) := by
    rw [bufCount_bodyBytes hwords, bodyBytes_length]
  have hkindbits : (sentMarks q t ++ t.kind.code).setWidth 4 = t.kind.code := BitVec.setWidth_append_eq_right
  have hkind : Kind.ofCode ((bufByte (bodyBytes q t) 2).setWidth 4) = some t.kind :=
    (congrArg Kind.ofCode hkindbits).trans (ofCode_code t.kind)
  have hdest : (bufByte (bodyBytes q t) 0).setWidth 6 = t.dest := setWidth_setWidth_addr t.dest
  have hsrc : (bufByte (bodyBytes q t) 1).setWidth 6 = t.src := setWidth_setWidth_addr t.src
  have hdata : bytesWords ((bodyBytes q t).drop 6) = t.words := bytesWords_wordBytes t.words
  rw [checkTelegram_of_crc hlen (hiByte_append_loByte _).symm hkind, hdest, hsrc, hdata]
  rfl

end

/-- A telegram of at most 32 words that the receiver in HUNT hears arrives as it was sent. -/
theorem receiveSerial_lineSerial {s : State} {p : Port} (hrx : (s.port p).rx = .hunt) {t : Telegram}
    (hwords : t.words.length ≤ 32) (q : Port) : s.receiveSerial p (lineSerial q t) = s.arrive p (arrivalOf t) := by
  have hlen := bodyBytes_length (t := t) q
  have hcount := bufCount_bodyBytes hwords q
  have hcount1 : bufCount (bodyBytes q t ++ [hiByte (crc16 (bodyBytes q t))]) = t.words.length :=
    (bufCount_append_left (by omega) _).trans hcount
  have hends : s.receiveSerial p (lineSerial q t) =
      s.telegramEnds p (bodyBytes q t ++ [hiByte (crc16 (bodyBytes q t)), loByte (crc16 (bodyBytes q t))]) := by
    rw [receiveSerial_eq, takenBytes_lineSerial, lineBytes, List.append_cons]
    refine receiveBytes_of_complete hrx (by omega) ?_
    rw [List.length_append, List.length_singleton]
    omega
  rw [hends, State.telegramEnds, checkTelegram_bodyBytes hwords, setRx_of_rx hrx]

/-! ## Intake (R161 to R163) -/

theorem arriveTrunk_mgmtReq (s : State) {a : Arrival} (hsrc : a.src = 0) (hkind : a.kind = .mgmtReq)
    (hdest : a.dest = 62) : s.arriveTrunk a = (s.countPort .t .rxGood).intake a := by
  have hsrc : ¬ a.src ≠ controllerAddr := not_not.2 hsrc
  have hdest : a.dest = partAddr := hdest
  simp only [State.arriveTrunk, if_neg hsrc, hkind, if_pos hdest]

section

variable {s : State} {a : Arrival} (hcache : ∀ e ∈ s.agent.cache, e.seq ≠ a.seq)

include hcache

/-- Past the cache, a sequence that the queue or the open slot holds turns the request away, then a full queue does
(R162, R163). -/
theorem intake_of_not_cached : s.intake a =
    if s.heldSeqs.contains a.seq then s.countDuplicate
    else if requestLimit ≤ s.agent.requests.length then s.countQueueFull
    else s.admitRequest a := by
  have hfind : s.agent.cache.find? (fun e => e.seq = a.seq) = none := by simpa using hcache
  rw [State.intake, hfind]

theorem intake_of_held (hheld : a.seq ∈ s.heldSeqs) : s.intake a = s.countDuplicate := by
  rw [intake_of_not_cached hcache, if_pos (List.contains_iff_mem.2 hheld)]

theorem intake_of_full (hheld : a.seq ∉ s.heldSeqs) (hfull : 4 ≤ s.agent.requests.length) :
    s.intake a = s.countQueueFull := by
  rw [intake_of_not_cached hcache, if_neg (mt List.contains_iff_mem.1 hheld)]
  exact if_pos hfull

end

theorem mem_heldSeqs_iff (s : State) (seq : Byte) :
    seq ∈ s.heldSeqs ↔ ∃ d ∈ s.agent.requests ++ s.agent.openSlot.toList, (s.desc d).seq = seq := List.mem_map

/-- A request for the part that port T hears counts RX_GOOD and comes to intake. -/
theorem receiveTelegram_request {s : State} {q : Port} {t : Telegram} (h : HearsTrunk s t) (hkind : t.kind = .mgmtReq)
    (hdest : t.dest = 62) :
    exec (.receiveTelegram .t (lineSerial q t)) s = .next ((s.countPort .t .rxGood).intake (arrivalOf t)) := by
  obtain ⟨⟨hheld, -, -⟩, hrx, hsrc, hwords⟩ := h
  calc exec (.receiveTelegram .t (lineSerial q t)) s = .next (s.receiveSerial .t (lineSerial q t)) :=
        event_running (State.receiveSerial · .t (lineSerial q t)) s hheld
    _ = .next (s.arriveTrunk (arrivalOf t)) := congrArg _ (receiveSerial_lineSerial (p := .t) hrx hwords q)
    _ = .next ((s.countPort .t .rxGood).intake (arrivalOf t)) := by
        rw [arriveTrunk_mgmtReq s (a := arrivalOf t) hsrc hkind hdest]

/-- R193 for a 16-bit counter. -/
theorem satInc_word (c : Word) : satInc c = if c = 65535 then 65535 else c + 1 := by
  by_cases hmax : c = 65535
  · rw [hmax]; rfl
  · rw [if_neg hmax]; exact if_neg hmax

/-- Settles O49: the request reaches intake with RX_GOOD counted, and intake counts it away. -/
theorem intakeTurnsRequestsAway : Obligations.IntakeTurnsRequestsAway := by
  intro s q t h hkind hdest hcache heard
  have hrequest := receiveTelegram_request (q := q) h hkind hdest
  refine ⟨fun hheld => ?_, fun hnew hfull => ?_⟩
  · have hmem : (arrivalOf t).seq ∈ heard.heldSeqs := (mem_heldSeqs_iff s t.seq).2 hheld
    rw [hrequest, intake_of_held hcache hmem, State.countDuplicate, satInc_word]
    rfl
  · have hmem : (arrivalOf t).seq ∉ heard.heldSeqs := fun hmem => by
      obtain ⟨d, hd, hseq⟩ := (mem_heldSeqs_iff s t.seq).1 hmem
      exact hnew d hd hseq
    rw [hrequest, intake_of_full hcache hmem hfull, State.countQueueFull, satInc_word]
    rfl

end Sys2Proof.Proofs.Intake
end

section
/-! PROOFS. STATUS, READ_IMAGE, READ_STATION_STATE and SET_MODE (O53, O54, O57): a replacement of at most 32 words finds
its blocks, so a short operation answers with the words it was given; then what each operation answers and writes. -/

namespace Sys2Proof.Proofs.StationAnswers

open Sys2Proof Sys2Proof.Machine Sys2Proof.Proofs.BankWrites

/-! ## Blocks for an answer (R22, R27) -/

/-- The other descriptors hold at most four blocks each. -/
theorem otherBlocks_length_le {m : TelegramMemory} (hm : MemoryLaw m) {d : Nat} (hd : d ∈ m.inUse) :
    (m.otherBlocks d).length ≤ 4 * 159 := by
  have ⟨hrising, _, _, _, hfit⟩ := hm
  have hdescs := hm.freeDescs_length
  have herase : m.descs.length = (Table.erase m.descs d).length + 1 :=
    (Table.perm_of_lookup ((TelegramMemory.mem_inUse hrising d).1 hd)).length_eq
  have hchain : ∀ e ∈ Table.erase m.descs d, e.2.chain.length ≤ 4 := fun e he => by
    obtain ⟨hcount, hlen⟩ := hfit e (Table.mem_of_mem_erase he)
    rw [hlen, blocksFor, Config.blockWords]
    omega
  have hsum : (m.otherBlocks d).length ≤ (Table.erase m.descs d).length * 4 := by
    have hle := List.sum_le_card_nsmul ((Table.erase m.descs d).map fun e => e.2.chain.length) 4
      (List.forall_mem_map.2 hchain)
    rwa [List.length_map, smul_eq_mul, ← List.length_flatMap] at hle
  omega

/-- The blocks given back and the free ones are enough for any words, since every other descriptor has four at most. -/
theorem replaceChain_finds_blocks {m : TelegramMemory} (hm : MemoryLaw m) {d : Nat} (hd : d ∈ m.inUse) {ws : List Word}
    (hlen : ws.length ≤ 32) : (m.replaceChain d ws).1 = true := by
  have hsplit := (hm.blocks_split hd).length_eq
  have hothers := otherBlocks_length_le hm hd
  have hfree : blocksFor ws.length ≤ (m.emptyChain d).freeBlocks.length := by
    rw [List.length_append, List.length_append, List.length_range, Config.blocks] at hsplit
    rw [TelegramMemory.emptyChain, List.length_append, blocksFor, Config.blockWords]
    omega
  have hadmits : (m.emptyChain d).admits .part 0 (blocksFor ws.length) = true := by
    simpa [TelegramMemory.admits] using hfree
  simp only [TelegramMemory.replaceChain, hadmits, if_true]
  split <;> rfl

/-! ## Short operations that may replace the Station Runtime Table (R166, R167) -/

/-- Notices carry of the stations their health alone (R188). -/
theorem noticeTelegrams_of_health_eq {s t : State} (h : ∀ n, (t.station n).health = (s.station n).health) (number : Byte)
    (es : List NoticeEntry) : noticeTelegrams t number es = noticeTelegrams s number es := by
  induction es generalizing number with
  | nil => rfl
  | cons e es ih =>
    have he : noticeTelegram t number e = noticeTelegram s number e := by
      cases e with
      | bank b label cycle => rfl
      | station n changes => simp only [noticeTelegram, h]
    rw [noticeTelegrams, noticeTelegrams, he, ih]

section

variable {s : State} {d : Nat} {ws : List Word}

/-- The answer of an operation that has put `rt` in the place of the Station Runtime Table and kept every health. -/
theorem answered_after_setRuntime (h : Executing s d ws) {rt : Table StationRuntime}
    (hhealth : ∀ n, (Table.get StationRuntime.default rt n).health = (s.station n).health) (st : AnswerStatus)
    {as : List Word} (hlen : as.length ≤ 32) :
    Answered s (((withoutHead s).setRuntime rt).answer d st as) d st as ∧
    OnlyEgress ((s.setAgent (((withoutHead s).setRuntime rt).answer d st as).agent).setRuntime rt)
      (((withoutHead s).setRuntime rt).answer d st as) := by
  obtain ⟨⟨-, hmem, -⟩, -, hd, -⟩ := h
  obtain ⟨hans, hkept, hagent, -, hheld, honly, ns, hjoins, hfree, -, -⟩ :=
    State.answer_spec (s := (withoutHead s).setRuntime rt) (st := st) hmem hd hlen (replaceChain_finds_blocks hmem hd hlen)
  unfold JoinsEgress at hjoins
  rw [noticeTelegrams_of_health_eq (s := s) (t := (withoutHead s).setRuntime rt) hhealth] at hjoins
  exact ⟨⟨hans, hkept, hheld, hagent, ns, hjoins, hfree⟩, honly⟩

/-- The case of `answered_after_setRuntime` that keeps the table. -/
theorem answered_with (h : Executing s d ws) (st : AnswerStatus) {as : List Word} (hlen : as.length ≤ 32) :
    Answered s ((withoutHead s).answer d st as) d st as ∧
    OnlyEgress (s.setAgent ((withoutHead s).answer d st as).agent) ((withoutHead s).answer d st as) :=
  answered_after_setRuntime h (rt := s.runtime) (fun _ => rfl) st hlen

end

/-! ## STATUS (R168) -/

theorem openSeqWord_eq (s : State) : s.openSeqWord =
    match s.agent.openSlot with
    | none => 0xFFFF
    | some o => BitVec.ofNat 16 (s.desc o).seq.toNat := by
  unfold State.openSeqWord
  cases s.agent.openSlot with
  | none => rfl
  | some o => exact (BitVec.ofNat_toNat 16 _).symm

theorem status_answers {s : State} {d : Nat} (h : Executing s d [1]) :
    ∃ t, exec .status s = .next t ∧ Answered s t d .done s.statusWords ∧ OnlyEgress (s.setAgent t.agent) t :=
  ⟨_, event_executeOp_eq h rfl opStatus, answered_with h .done (as := s.statusWords) (by decide : 16 ≤ 32)⟩

/-- Settles O53: the agent answers with `statusWords`, whose last word is the open request's sequence. -/
theorem statusAnswersSixteenWords : Obligations.StatusAnswersSixteenWords := by
  intro s d h
  obtain ⟨t, hexec, hans, honly⟩ := status_answers h
  rw [State.statusWords, openSeqWord_eq] at hans
  exact ⟨t, hexec, hans, honly⟩

/-! ## READ_IMAGE (R170) -/

theorem directionArg_of_le_one {w : Word} (h : w.toNat ≤ 1) : directionArg w = some (decide (w ≠ 0)) := by
  obtain rfl | rfl : w = 0 ∨ w = 1 := by bv_omega
  · rfl
  · rfl

theorem le_one_of_directionArg {w : Word} {o : Bool} (h : directionArg w = some o) : w.toNat ≤ 1 := by
  unfold directionArg at h
  split at h
  next hw => omega
  next hw => omega
  next => cases h

theorem imageNamed_direction (s : State) (n : Nat) (dir : Word) :
    s.imageNamed (decide (dir ≠ 0)) n = if dir = 0 then s.inImage n else s.outImage n := by
  by_cases hdir : dir = 0
  · rw [if_pos hdir, decide_eq_false (not_not.2 hdir)]; rfl
  · rw [if_neg hdir, decide_eq_true hdir]; rfl

theorem take_drop_eq_map_range (ws : List Word) (f k : Nat) :
    (ws.drop f).take k = (List.range (min ws.length (f + k) - f)).map fun i => ws.getD (f + i) 0 := by
  refine List.ext_getElem (by simp; omega) fun i hi _ => ?_
  rw [List.length_take, List.length_drop] at hi
  rw [List.getElem_take, List.getElem_drop, List.getElem_map, List.getElem_range, List.getD_eq_getElem _ _ (by omega)]

/-- The four leading words and the window of at most 28 of the record's words from word `f` (R20). -/
theorem answerWords_eq (r : ImageRecord) (f : Nat) :
    r.answerWords f =
      [(if r.valid then 1 else 0), BitVec.ofNat 16 r.words.length, r.cycle, (if r.faulted then 1 else 0)] ++
        (List.range (min r.words.length (f + 28) - f)).map fun i => r.words.getD (f + i) 0 := by
  rw [ImageRecord.answerWords, take_drop_eq_map_range]
  rfl

theorem answerWords_length_le (r : ImageRecord) (f : Nat) : (r.answerWords f).length ≤ 32 := by
  rw [ImageRecord.answerWords, List.length_append, List.length_take]
  exact Nat.add_le_add_left (Nat.min_le_left 28 _) 4

theorem opReadImage_of_inRange (s : State) (d : Nat) {n dir f : Word} (hn : 1 ≤ n.toNat ∧ n.toNat ≤ 61)
    (hdir : dir.toNat ≤ 1) (hf : f.toNat ≤ 31) :
    opReadImage s d [7, n, dir, f] =
      s.answer d .done ((if dir = 0 then s.inImage n.toNat else s.outImage n.toNat).answerWords f.toNat) := by
  have hn : stationArg (arg [7, n, dir, f] 1) = some n.toNat := stationArg_of_inRange hn
  have hdir : directionArg (arg [7, n, dir, f] 2) = some (decide (dir ≠ 0)) := directionArg_of_le_one hdir
  simp only [opReadImage, hn, hdir, imageNamed_direction]
  exact if_pos hf

theorem opReadImage_badArgument (s : State) (d : Nat) {n dir f : Word}
    (h : ¬ (1 ≤ n.toNat ∧ n.toNat ≤ 61 ∧ dir.toNat ≤ 1 ∧ f.toNat ≤ 31)) :
    opReadImage s d [7, n, dir, f] = s.answer d .badArgument [] := by
  unfold opReadImage
  split
  next m o hm ho =>
    obtain ⟨hn1, hn61⟩ := (stationArg_isSome n).1 (Option.isSome_of_eq_some hm)
    exact if_neg fun hf => h ⟨hn1, hn61, le_one_of_directionArg ho, hf⟩
  next => rfl

theorem readImage_answers {s : State} {d : Nat} {n dir f : Word} (h : Executing s d [7, n, dir, f]) :
    ∃ t, exec .readImage s = .next t ∧ OnlyEgress (s.setAgent t.agent) t ∧
      if 1 ≤ n.toNat ∧ n.toNat ≤ 61 ∧ dir.toNat ≤ 1 ∧ f.toNat ≤ 31 then
        ∀ r, r = (if dir = 0 then s.inImage n.toNat else s.outImage n.toNat) →
          Answered s t d .done (r.answerWords f.toNat)
      else Answered s t d .badArgument [] := by
  refine ⟨_, event_executeOp_eq h rfl opReadImage, ?_⟩
  split
  next hrange =>
    obtain ⟨hn1, hn61, hdir, hf⟩ := hrange
    rw [opReadImage_of_inRange _ d ⟨hn1, hn61⟩ hdir hf]
    obtain ⟨hans, honly⟩ := answered_with h .done (answerWords_length_le _ _)
    exact ⟨honly, fun r hr => hr ▸ hans⟩
  next hrange =>
    rw [opReadImage_badArgument _ d hrange]
    exact (answered_with h .badArgument (as := []) (Nat.zero_le 32)).symm

/-! ## READ_STATION_STATE (R171) -/

theorem flagWord_eq_one_iff (b : Bool) : flagWord b = 1 ↔ b = true := by cases b <;> decide

theorem flagWord_eq_zero_or_one (b : Bool) : flagWord b = 0 ∨ flagWord b = 1 := by cases b <;> decide

theorem waitingPoll_isSome_iff (s : State) (g : Segment) (n : Nat) :
    (s.waitingPoll g n).isSome = true ↔
      ∃ k ∈ (s.seg g).queue, (s.desc k).kind = .poll ∧ (s.desc k).dest.toNat = n := by
  simp only [State.waitingPoll, List.find?_isSome, State.isPollFor, Bool.and_eq_true, decide_eq_true_eq]
  rfl

theorem inTransaction_iff (s : State) (g : Segment) (n : Nat) :
    s.inTransaction g n = true ↔ ∃ x, (s.seg g).slot = .poll x ∧ x.station.toNat = n := by
  unfold State.inTransaction
  cases (s.seg g).slot with
  | empty => simp
  | sync d => simp
  | poll t => simp

theorem opReadStationState_of_inRange (s : State) (d : Nat) {n : Word} (hn : 1 ≤ n.toNat ∧ n.toNat ≤ 61) :
    opReadStationState s d [8, n] = s.answer d .done (s.stationStateWords n.toNat) := by
  have hn : stationArg (arg [8, n] 1) = some n.toNat := stationArg_of_inRange hn
  rw [opReadStationState, hn]

theorem opReadStationState_badArgument (s : State) (d : Nat) {n : Word} (hn : ¬ (1 ≤ n.toNat ∧ n.toNat ≤ 61)) :
    opReadStationState s d [8, n] = s.answer d .badArgument [] := by
  have hn : stationArg (arg [8, n] 1) = none := if_neg hn
  rw [opReadStationState, hn]

theorem readStationState_answers {s : State} {d : Nat} {n : Word} (h : Executing s d [8, n]) :
    ∃ t, exec .readStationState s = .next t ∧ OnlyEgress (s.setAgent t.agent) t ∧
      if 1 ≤ n.toNat ∧ n.toNat ≤ 61 then Answered s t d .done (s.stationStateWords n.toNat)
      else Answered s t d .badArgument [] := by
  refine ⟨_, event_executeOp_eq h rfl opReadStationState, ?_⟩
  split
  next hn =>
    rw [opReadStationState_of_inRange _ d hn]
    exact (answered_with h .done (as := s.stationStateWords n.toNat) (by decide : 7 ≤ 32)).symm
  next hn =>
    rw [opReadStationState_badArgument _ d hn]
    exact (answered_with h .badArgument (as := []) (Nat.zero_le 32)).symm

/-- Settles O54: the words of `readImage_answers` are a window of the record, the flags of `readStationState_answers` say
whether a poll waits or is in transaction. -/
theorem stationReadsAnswerTheState : Obligations.StationReadsAnswerTheState := by
  refine ⟨fun s d n dir f h => ?_, fun s d n h => ?_⟩
  · simp only [← answerWords_eq]
    exact readImage_answers h
  · obtain ⟨t, hexec, honly, hans⟩ := readStationState_answers h
    refine ⟨t, hexec, honly, ?_⟩
    split
    next hn =>
      rw [if_pos hn] at hans
      refine ⟨_, _, _, _, hans, ?_, ?_, ?_, ?_, ?_⟩
      · simp only [List.forall_mem_cons, flagWord_eq_zero_or_one, true_and, List.not_mem_nil, false_imp_iff, implies_true]
      · exact (flagWord_eq_one_iff _).trans (waitingPoll_isSome_iff s .a _)
      · exact (flagWord_eq_one_iff _).trans (waitingPoll_isSome_iff s .b _)
      · exact (flagWord_eq_one_iff _).trans (inTransaction_iff s .a _)
      · exact (flagWord_eq_one_iff _).trans (inTransaction_iff s .b _)
    next hn => rwa [if_neg hn] at hans

/-! ## SET_MODE (R104, R173) -/

theorem code_of_modeArg {w : Word} {m : Mode} (h : modeArg w = some m) : m.code = w := by
  unfold modeArg at h
  split at h <;> cases h <;> exact BitVec.eq_of_toNat_eq (Eq.symm ‹_›)

theorem le_two_of_modeArg {w : Word} {m : Mode} (h : modeArg w = some m) : w.toNat ≤ 2 := by
  rw [← code_of_modeArg h]
  cases m <;> decide

theorem modeArg_of_le_two {w : Word} (h : w.toNat ≤ 2) : ∃ m, modeArg w = some m := by
  obtain rfl | rfl | rfl : w = 0 ∨ w = 1 ∨ w = 2 := by bv_omega
  · exact ⟨.normal, rfl⟩
  · exact ⟨.isolated, rfl⟩
  · exact ⟨.echo, rfl⟩

/-- The Station Runtime Table with mode `m` for station `n` (R104). -/
def withMode (s : State) (n : Nat) (m : Mode) : State := s.setStation n { s.station n with mode := m }

theorem station_withMode {s : State} (h : Table.wf StationRuntime.default s.runtime = true) (n k : Nat) (m : Mode) :
    (withMode s n m).station k = if k = n then { s.station n with mode := m } else s.station k :=
  Table.get_set (Table.wf_rising h) n k _

theorem health_withMode {s : State} (h : Table.wf StationRuntime.default s.runtime = true) (n k : Nat) (m : Mode) :
    ((withMode s n m).station k).health = (s.station k).health := by
  rw [station_withMode h]
  split
  next hk => rw [hk]
  next => rfl

theorem opSetMode_of_inRange (s : State) (d : Nat) {n w : Word} {m : Mode} (hn : 1 ≤ n.toNat ∧ n.toNat ≤ 61)
    (hm : modeArg w = some m) : opSetMode s d [11, n, w] = (withMode s n.toNat m).answer d .done [] := by
  have hn : stationArg (arg [11, n, w] 1) = some n.toNat := stationArg_of_inRange hn
  have hm : modeArg (arg [11, n, w] 2) = some m := hm
  rw [opSetMode, hn, hm]
  rfl

theorem opSetMode_badArgument (s : State) (d : Nat) {n w : Word}
    (h : ¬ (1 ≤ n.toNat ∧ n.toNat ≤ 61 ∧ w.toNat ≤ 2)) : opSetMode s d [11, n, w] = s.answer d .badArgument [] := by
  unfold opSetMode
  split
  next k m hk hm =>
    obtain ⟨hn1, hn61⟩ := (stationArg_isSome n).1 (Option.isSome_of_eq_some hk)
    exact absurd ⟨hn1, hn61, le_two_of_modeArg hm⟩ h
  next => rfl

theorem runtime_wf {s : State} {d : Nat} {ws : List Word} (h : Executing s d ws) :
    Table.wf StationRuntime.default s.runtime = true := by
  obtain ⟨⟨-, -, -, -, -, -, -, -, hwf, -⟩, -⟩ := h
  exact hwf

theorem withMode_answers {s t : State} {d : Nat} {ws : List Word} (h : Executing s d ws) (n : Nat) (m : Mode)
    (ht : t = (withMode (withoutHead s) n m).answer d .done []) :
    Answered s t d .done [] ∧
    (∀ k, t.station k = if k = n then { s.station n with mode := m } else s.station k) ∧
    OnlyEgress ((s.setAgent t.agent).setRuntime t.runtime) t := by
  subst ht
  have hwf := runtime_wf h
  obtain ⟨hans, honly⟩ := answered_after_setRuntime h (rt := (withMode (withoutHead s) n m).runtime)
    (fun k => health_withMode (s := withoutHead s) hwf n k m) .done (as := []) (Nat.zero_le 32)
  have hruntime := State.answer_runtime (withMode (withoutHead s) n m) d .done []
  refine ⟨hans, fun k => ?_, ?_⟩
  · rw [State.station, hruntime]
    exact station_withMode (s := withoutHead s) hwf n k m
  · rw [hruntime]
    exact honly

/-- Settles O57: in range the operation answers after a write that replaces the mode of the station alone. -/
theorem setModeWritesTheMode : Obligations.SetModeWritesTheMode := by
  intro s d n w h
  refine ⟨_, event_executeOp_eq h rfl opSetMode, ?_⟩
  split
  next hrange =>
    obtain ⟨hn1, hn61, hw⟩ := hrange
    obtain ⟨m, hm⟩ := modeArg_of_le_two hw
    rw [opSetMode_of_inRange _ d ⟨hn1, hn61⟩ hm]
    obtain ⟨hans, hstation, honly⟩ := withMode_answers h n.toNat m rfl
    rw [(hstation n.toNat).trans (if_pos rfl)]
    exact ⟨hans, code_of_modeArg hm, rfl, rfl, fun k hk => (hstation k).trans (if_neg hk), honly⟩
  next hrange =>
    rw [opSetMode_badArgument _ d hrange]
    exact answered_with h .badArgument (as := []) (Nat.zero_le 32)

end Sys2Proof.Proofs.StationAnswers
end

section
/-! PROOFS. READ_COUNTERS and the answers of CLEAR_COUNTERS (O55): the groups that an argument names, the words of a group
as the data book lays them out, and that neither a counter nor a minimum has a part in how a request is answered. -/

namespace Sys2Proof.Proofs.CounterGroups

open Sys2Proof Sys2Proof.Machine Sys2Proof.Proofs.BankWrites Sys2Proof.Proofs.StationAnswers

/-! ## The group argument (R172) -/

theorem groupArg_of_above_three {w : Word} (h : 3 < w.toNat) :
    groupArg w = if 17 ≤ w.toNat ∧ w.toNat ≤ 77 then some (.station (w.toNat - 16)) else none := by
  unfold groupArg
  split
  case h_5 => rfl
  all_goals omega

theorem groupArg_of_station {w : Word} {n : Nat} (hw : w.toNat = 16 + n) (hn1 : 1 ≤ n) (hn61 : n ≤ 61) :
    groupArg w = some (.station n) := by
  rw [groupArg_of_above_three (by omega), if_pos (by omega), hw, Nat.add_sub_cancel_left]

theorem groupArg_eq_none {w : Word} (h3 : 3 < w.toNat) (h : w.toNat < 17 ∨ 77 < w.toNat) : groupArg w = none := by
  rw [groupArg_of_above_three h3, if_neg (by omega)]

theorem groupArg_isSome (w : Word) : (groupArg w).isSome ↔ w.toNat ≤ 3 ∨ (17 ≤ w.toNat ∧ w.toNat ≤ 77) := by
  by_cases h3 : w.toNat ≤ 3
  · obtain rfl | rfl | rfl | rfl : w = 0 ∨ w = 1 ∨ w = 2 ∨ w = 3 := by bv_omega
    all_goals decide
  · rw [groupArg_of_above_three (by omega), Option.isSome_ite]
    exact (or_iff_right h3).symm

/-! ## The words of a group (R20, section 1.7) -/

/-- The low word is the counter modulo 65536, the high word its quotient. -/
theorem counterWords_eq (c : BitVec 32) : counterWords c = [BitVec.ofNat 16 c.toNat, BitVec.ofNat 16 (c.toNat / 65536)] := by
  have hdiv : c.toNat >>> 16 = c.toNat / 65536 := Nat.shiftRight_eq_div_pow c.toNat 16
  rw [counterWords, BitVec.extractLsb', BitVec.extractLsb', hdiv, Nat.shiftRight_zero]

theorem groupWords_withoutHead (s : State) (k : Group) : (withoutHead s).groupWords k = s.groupWords k := by
  cases k <;> rfl

/-- Every group's words fit a telegram. -/
theorem groupWords_length_le (s : State) (k : Group) : (s.groupWords k).length ≤ 32 := by
  cases k with
  | trunk => exact (by decide : 14 ≤ 32)
  | dropA => exact (by decide : 12 ≤ 32)
  | dropB => exact (by decide : 12 ≤ 32)
  | memoryAgent => exact (by decide : 4 ≤ 32)
  | station n => exact (by decide : 9 ≤ 32)

/-! ## READ_COUNTERS (R172, R195) -/

theorem opReadCounters_of_group (s : State) (d : Nat) {g : Word} {k : Group} (hg : groupArg g = some k) :
    opReadCounters s d [9, g] = s.answer d .done (s.groupWords k) := by
  have hg : groupArg (arg [9, g] 1) = some k := hg
  rw [opReadCounters, hg]

theorem opReadCounters_badArgument (s : State) (d : Nat) {g : Word} (hg : groupArg g = none) :
    opReadCounters s d [9, g] = s.answer d .badArgument [] := by
  have hg : groupArg (arg [9, g] 1) = none := hg
  rw [opReadCounters, hg]

theorem readCounters_answers {s : State} {d : Nat} {g : Word} (h : Executing s d [9, g]) :
    ∃ t, exec .readCounters s = .next t ∧ OnlyEgress (s.setAgent t.agent) t ∧
      (∀ k, groupArg g = some k → Answered s t d .done (s.groupWords k)) ∧
      (groupArg g = none → Answered s t d .badArgument []) := by
  refine ⟨_, event_executeOp_eq h rfl opReadCounters, ?_⟩
  cases hg : groupArg g with
  | none =>
    rw [opReadCounters_badArgument _ d hg]
    obtain ⟨hans, honly⟩ := answered_with h .badArgument (as := []) (Nat.zero_le 32)
    exact ⟨honly, fun k hk => (nomatch hk), fun _ => hans⟩
  | some k =>
    rw [opReadCounters_of_group _ d hg, groupWords_withoutHead]
    obtain ⟨hans, honly⟩ := answered_with h .done (groupWords_length_le s k)
    exact ⟨honly, fun j hj => Option.some.inj hj ▸ hans, fun hj => nomatch hj⟩

/-! ## CLEAR_COUNTERS (R172, R196) -/

/-- The two minima and the Counter Bank replaced: all that a clear can write. -/
def withCounts (s : State) (minDescs minBlocks : Nat) (c : CounterBank) : State :=
  (s.setMem { s.mem with minDescs := minDescs, minBlocks := minBlocks }).setCounters c

theorem clearGroup_eq_withCounts (s : State) (k : Group) : ∃ x y c, s.clearGroup k = withCounts s x y c := by
  cases k with
  | memoryAgent => exact ⟨_, _, _, rfl⟩
  | _ => exact ⟨s.mem.minDescs, s.mem.minBlocks, _, rfl⟩

/-- The data words of a telegram stand in descriptors and blocks, not in the minima. -/
theorem words_withCounts (s : State) (x y : Nat) (c : CounterBank) (k : Nat) :
    (withCounts s x y c).words k = s.words k :=
  TelegramMemory.readChain_congr _ _ fun _ _ _ _ => rfl

/-- The answer of an operation that has replaced counters and minima: no law and no part of an answer reads them. -/
theorem answered_after_withCounts {s : State} {d : Nat} {ws : List Word} (h : Executing s d ws) (x y : Nat)
    (c : CounterBank) (st : AnswerStatus) :
    Answered s ((withCounts (withoutHead s) x y c).answer d st []) d st [] ∧
    OnlyEgress ((s.setAgent ((withCounts (withoutHead s) x y c).answer d st []).agent).setCounters c)
      ((withCounts (withoutHead s) x y c).answer d st []) := by
  obtain ⟨⟨-, hmem, -⟩, -, hd, -⟩ := h
  obtain ⟨hans, hkept, hagent, -, hheld, honly, ns, hjoins, hfree, -, -⟩ :=
    State.answer_spec (s := withCounts (withoutHead s) x y c) (st := st) (ws := []) hmem hd (Nat.zero_le 32) rfl
  unfold JoinsEgress at hjoins
  rw [noticeTelegrams_congr (s := s) (t := withCounts (withoutHead s) x y c) rfl] at hjoins
  simp only [OthersKept, words_withCounts] at hkept
  exact ⟨⟨hans, hkept, hheld, hagent, ns, hjoins, hfree⟩, honly⟩

theorem opClearCounters_all (s : State) (d : Nat) : opClearCounters s d [10, 255] = s.clearAllGroups.answer d .done [] :=
  rfl

theorem opClearCounters_of_group (s : State) (d : Nat) {g : Word} {k : Group} (hall : g ≠ 255)
    (hg : groupArg g = some k) : opClearCounters s d [10, g] = (s.clearGroup k).answer d .done [] := by
  have hall : arg [10, g] 1 ≠ 255 := hall
  have hg : groupArg (arg [10, g] 1) = some k := hg
  rw [opClearCounters, if_neg hall, hg]

theorem opClearCounters_badArgument (s : State) (d : Nat) {g : Word} (hall : g ≠ 255) (hg : groupArg g = none) :
    opClearCounters s d [10, g] = s.answer d .badArgument [] := by
  have hall : arg [10, g] 1 ≠ 255 := hall
  have hg : groupArg (arg [10, g] 1) = none := hg
  rw [opClearCounters, if_neg hall, hg]

theorem clearCounters_answers {s : State} {d : Nat} {g : Word} (h : Executing s d [10, g]) :
    ∃ t, exec .clearCounters s = .next t ∧
      if g.toNat ≤ 3 ∨ (17 ≤ g.toNat ∧ g.toNat ≤ 77) ∨ g.toNat = 255 then Answered s t d .done []
      else Answered s t d .badArgument [] ∧ OnlyEgress (s.setAgent t.agent) t := by
  refine ⟨_, event_executeOp_eq h rfl opClearCounters, ?_⟩
  by_cases hall : g = 255
  · subst hall
    rw [if_pos (.inr (.inr rfl)), opClearCounters_all]
    exact (answered_after_withCounts h _ _ CounterBank.reset .done).1
  cases hg : groupArg g with
  | none =>
    have hout : ¬ (g.toNat ≤ 3 ∨ (17 ≤ g.toNat ∧ g.toNat ≤ 77)) := by rw [← groupArg_isSome, hg]; exact Bool.false_ne_true
    have hall_toNat : g.toNat ≠ 255 := fun h => hall (BitVec.eq_of_toNat_eq h)
    rw [if_neg (by omega), opClearCounters_badArgument _ d hall hg]
    exact answered_with h .badArgument (as := []) (Nat.zero_le 32)
  | some k =>
    have hin := (groupArg_isSome g).1 (Option.isSome_of_eq_some hg)
    rw [if_pos (hin.imp_right .inl), opClearCounters_of_group _ d hall hg]
    obtain ⟨x, y, c, hclear⟩ := clearGroup_eq_withCounts (withoutHead s) k
    rw [hclear]
    exact (answered_after_withCounts h x y c .done).1

/-- Settles O55: the words answered are `groupWords` of the group that the argument names, with `counterWords_eq` for the
32-bit counters; what CLEAR_COUNTERS has written does not show in its answer (`answered_after_withCounts`). -/
theorem readCountersAnswersTheGroup : Obligations.ReadCountersAnswersTheGroup := by
  refine ⟨fun s d g h => ?_, fun s d g h => clearCounters_answers h⟩
  obtain ⟨t, hexec, honly, hdone, hbad⟩ := readCounters_answers h
  simp only [← counterWords_eq]
  refine ⟨t, hexec, honly, ?_, ?_, ?_, ?_, ?_, fun h3 hout => hbad (groupArg_eq_none h3 hout)⟩
  · rintro rfl
    exact hdone .trunk rfl
  · rintro rfl
    exact hdone .dropA rfl
  · rintro rfl
    exact hdone .dropB rfl
  · rintro rfl
    exact hdone .memoryAgent rfl
  · rintro n c hg hn1 hn61 rfl
    exact hdone (.station n) (groupArg_of_station hg hn1 hn61)

end Sys2Proof.Proofs.CounterGroups
end

section
/-! PROOFS. The resets and the laws of the part (O1, O3, O4), and a lawful state that a take makes unlawful (O5): the laws
let one stamped poll wait in both segment queues. -/

namespace Sys2Proof.Proofs.Resets

open Sys2Proof Sys2Proof.Machine

/-! ## Steps and the power-on reset (R199) -/

/-- Settles O1. -/
theorem stepRunsTheFrontCommand : Obligations.StepRunsTheFrontCommand := by
  refine ⟨fun c rest s => rfl, fun s h => ?_⟩
  rw [step, h]

theorem powerOn_reset : State.reset.powerOn = State.reset := by
  simp only [State.powerOn, State.reset, TelegramMemory.reset]

theorem freeBlocks_powerOn (s : State) : s.powerOn.mem.freeBlocks = List.range 640 := by
  simp only [State.powerOn, TelegramMemory.reset, Config.blocks]

theorem bank_powerOn (s : State) (b : BankId) :
    s.powerOn.bank b = Bank.reset (if b = .bank0 then .active else .standby) := by
  cases b <;> rfl

/-- Settles O3: each value is read off the reset state, from which the power-on reset differs in the block store and the
model's own fields alone. -/
theorem powerOnResetValues : Obligations.PowerOnResetValues := by
  refine ⟨fun s => ⟨s.powerOn, rfl, rfl, ?ports, rfl, rfl, freeBlocks_powerOn s, rfl, rfl, rfl, rfl, rfl,
    ?banks, rfl, rfl, ?segments,
    fun n => rfl, fun n => ⟨rfl, rfl⟩, rfl, rfl, rfl, rfl, rfl, rfl, rfl, rfl, fun n => rfl⟩,
    congrArg Host.Outcome.next powerOn_reset⟩
  case ports => intro p; cases p <;> rfl
  case banks =>
    intro b
    rw [bank_powerOn]
    exact ⟨rfl, rfl, fun n => rfl, fun k => rfl⟩
  case segments => intro g; cases g <;> rfl

/-! ## The laws at reset -/

/-- A bank with no runs passes the check. -/
theorem check_of_no_runs {b : Bank} (h : b.runs = []) : b.check = none := by
  rw [Bank.check, h]
  rfl

theorem runs_reset (st : BankState) : (Bank.reset st).runs = [] := by
  have hlength : ∀ r ∈ stationNumbers.flatMap (Bank.reset st).stationRuns, r.length = 0 := by
    intro r hr
    obtain ⟨n, -, hn⟩ := List.mem_flatMap.1 hr
    rcases List.mem_pair.1 hn with rfl | rfl <;> rfl
  exact List.filter_eq_nil_iff.2 fun r hr => by simp [hlength r hr]

theorem check_reset (st : BankState) : (Bank.reset st).check = none := check_of_no_runs (runs_reset st)

theorem memoryLaw_powerOn {s : State} (h : Table.wf 0 s.mem.blocks = true) : MemoryLaw s.powerOn.mem := by
  refine ⟨rfl, h, ?_, ?_, fun _ he => absurd he List.not_mem_nil⟩
  · simp [BlocksPartitioned, State.powerOn, TelegramMemory.reset]
  · simp [DescriptorsPartitioned, TelegramMemory.inUse, State.powerOn, TelegramMemory.reset]

/-- The laws of a state whose parts, but for the block store, are those of the power-on reset. -/
theorem laws_powerOn {s : State} (h : Table.wf 0 s.mem.blocks = true) : Laws s.powerOn where
  tables := ⟨rfl, h, rfl, rfl, rfl, rfl, rfl, rfl, rfl, rfl⟩
  memory := memoryLaw_powerOn h
  minima := by simp [MinimaLaw, State.powerOn, TelegramMemory.reset]
  holders := ⟨fun _ he => absurd he List.not_mem_nil, fun _ hd => absurd hd List.not_mem_nil⟩
  oneActive := by simp [OneActive, State.powerOn, State.reset, Bank.reset]
  flight := by simp [FlightLaw, Bank.flightLaw, State.powerOn, State.reset, Bank.reset]
  stamps := ⟨rfl, rfl⟩
  checked := ⟨fun _ => check_reset .active, fun _ => check_reset .standby⟩
  openSlot := rfl
  shape := ⟨rfl, rfl⟩
  segments := ⟨⟨fun _ hd => absurd hd List.not_mem_nil, List.nodup_nil⟩,
    ⟨fun _ hd => absurd hd List.not_mem_nil, List.nodup_nil⟩, rfl, rfl⟩
  egress := ⟨fun _ hd => absurd hd List.not_mem_nil, rfl, Nat.zero_le 2, rfl⟩
  agent := ⟨Nat.zero_le 4, Nat.zero_le 4, fun _ hd => absurd hd List.not_mem_nil, List.nodup_nil⟩
  pendingSet := ⟨List.nodup_nil, fun _ he => absurd he List.not_mem_nil⟩
  heldBack := .inl rfl
  transmitters := ⟨rfl, rfl, rfl⟩
  receivers := ⟨rfl, rfl, rfl⟩
  runtime := fun _ he => absurd he List.not_mem_nil
  images := ⟨fun _ he => absurd he List.not_mem_nil, fun _ he => absurd he List.not_mem_nil⟩
  cacheWords := fun _ he => absurd he List.not_mem_nil

/-- Settles O4. -/
theorem lawsHoldAtReset : Obligations.LawsHoldAtReset :=
  ⟨powerOn_reset ▸ laws_powerOn (s := State.reset) rfl, fun s h => ⟨s.powerOn, rfl, laws_powerOn h⟩⟩

/-! ## A poll in both queues (R28, R75) -/

/-- Poll 0, for station 1, stamped with bank 0, with the two holders that name it. -/
def sharedPoll : Descriptor :=
  { dest := 1, src := 0, kind := .poll, marks := Marks.clear, seq := 0, status := 0, count := 0, chain := [],
    holders := 2, stamp := some .bank0 }

/-- A lawful state in which the poll waits in both segment queues, its station is in ECHO mode, and segment A's take comes
next. No law says that the two queues hold different polls: `HoldersLaw` counts both references. -/
def sharedPollState : State :=
  { State.reset with
    mem := { TelegramMemory.reset with
      descs := [(0, sharedPoll)], freeDescs := (List.range Config.descriptors).tail, minDescs := 159 }
    bank0 := { Bank.reset .active with inFlight := 1 }
    segA := { SegmentController.reset with queue := [0] }
    segB := { SegmentController.reset with queue := [0] }
    runtime := [(1, ⟨.unknown, 0, .echo⟩)]
    pending := [.take .a] }

theorem sharedPollState_memoryLaw : MemoryLaw sharedPollState.mem := by
  refine ⟨rfl, rfl, ?blocks, ?descriptors, ?chains⟩
  case blocks => simp [BlocksPartitioned, sharedPollState, sharedPoll, TelegramMemory.reset]
  case descriptors => exact List.perm_append_comm (l₂ := [0])
  case chains =>
    intro e he
    rw [List.mem_singleton.1 he]
    decide

theorem sharedPollState_laws : Laws sharedPollState where
  tables := by decide
  memory := sharedPollState_memoryLaw
  minima := by simp [MinimaLaw, sharedPollState, TelegramMemory.reset, Config.descriptors]
  holders := by decide
  oneActive := by simp [OneActive, sharedPollState, State.reset, Bank.reset]
  flight := by decide
  stamps := by decide
  checked := ⟨fun _ => check_of_no_runs (runs_reset .active), fun _ => check_reset .standby⟩
  openSlot := by decide
  shape := by decide
  segments := by decide
  egress := by decide
  agent := by decide
  pendingSet := by decide
  heldBack := .inl rfl
  transmitters := by decide
  receivers := by decide
  runtime := by decide
  images := by decide
  cacheWords := by decide

/-- Segment A's take answers the poll ECHO in its own descriptor, which then waits in queue B as a REPLY. -/
theorem reply_waits_after_take :
    0 ∈ ((sharedPollState.take .a).seg .b).queue ∧ ((sharedPollState.take .a).desc 0).kind = .reply := by
  decide

/-- Refutes O5: the take of a poll that waits in both queues leaves a REPLY in the other queue. -/
theorem not_lawsKeptByEveryStep : ¬ Obligations.LawsKeptByEveryStep := by
  intro h
  have hstep : step sharedPollState = .next ((({ sharedPollState with pending := [] } : State)).take .a) := rfl
  obtain ⟨hwaits, hkind⟩ := reply_waits_after_take
  obtain ⟨-, ⟨hqueue, -⟩, -, -⟩ := (h _ _ sharedPollState_laws hstep).segments
  have hreply := hqueue 0 hwaits
  have hkind : (((({ sharedPollState with pending := [] } : State)).take .a).desc 0).kind = .reply := hkind
  simp [State.isStampedPoll, State.isSync, hkind] at hreply

end Sys2Proof.Proofs.Resets
end

section
/-! PROOFS. What the part's operations are made of: the single updates of one part of the state that every event but the
resets, RESTART and CLEAR_COUNTERS is a run of. A property of all such events is then an induction over these updates. -/

namespace Sys2Proof.Proofs.Updates

open Sys2Proof Sys2Proof.Machine

/-- `t` comes from `s` by updates of one part of the state each. A report is made of a station in `told`, and the banks
switch only if `sync` holds. The contents of a bank are not among the updates: see `BankOp`. -/
inductive Moves (told : Nat → Prop) (sync : Prop) : State → State → Prop where
  | refl (s : State) : Moves told sync s s
  | trans {s t u : State} : Moves told sync s t → Moves told sync t u → Moves told sync s u
  | port (s : State) (p : Port) (v : LinePort) : Moves told sync s (s.setPort p v)
  | allocate {s : State} {cls : AllocClass} {h : Header} {ws : List Word} {d : Nat} {m : TelegramMemory}
      (ha : s.mem.allocate cls h ws = some (d, m)) : Moves told sync s (s.setMem m)
  | setDesc (s : State) (d : Nat) (x : Descriptor) : Moves told sync s (s.setMem (s.mem.setDesc d x))
  | replace (s : State) (d : Nat) (ws : List Word) : Moves told sync s (s.setMem (s.mem.replaceChain d ws).2)
  | release (s : State) (d : Nat) : Moves told sync s (s.setMem (s.mem.release d))
  | rewrite (s : State) (d : Nat) (ws : List Word) : Moves told sync s (s.setMem (s.mem.rewriteWords d ws))
  | cycle (s : State) (w : Word) : Moves told sync s (s.setCycle { number := w, seen := true })
  | station (s : State) (n : Nat) (r : StationRuntime) : Moves told sync s (s.setStation n r)
  | inImage (s : State) (n : Nat) (r : ImageRecord) :
      Moves told sync s (s.setInImages (Table.set ImageRecord.default s.inImages n r))
  | outImage (s : State) (n : Nat) (r : ImageRecord) :
      Moves told sync s (s.setOutImages (Table.set ImageRecord.default s.outImages n r))
  | emit {s t : State} (h : s.emitOne = some t) : Moves told sync s t
  | join (s : State) (d : Nat) : Moves told sync s (s.joinEgress d)
  | reportBank (s : State) (b : BankId) (label cycle : Word) :
      Moves told sync s (s.setNotices { s.notices with pendingSet := reportBankIn b label cycle s.notices.pendingSet })
  | reportStation (s : State) {n : Nat} (h : told n) :
      Moves told sync s (s.setNotices { s.notices with pendingSet := reportStationIn n s.notices.pendingSet })
  | countPort (s : State) (p : Port) (c : PortCounter) : Moves told sync s (s.countPort p c)
  | countStation (s : State) (n : Nat) {f : StationCounters → StationCounters} (hf : ∀ c : StationCounters, c.le (f c)) :
      Moves told sync s (s.countStation n f)
  | countDuplicate (s : State) : Moves told sync s s.countDuplicate
  | countQueueFull (s : State) : Moves told sync s s.countQueueFull
  | seg (s : State) (g : Segment) (v : SegmentController) : Moves told sync s (s.setSeg g v)
  | stamp (s : State) :
      Moves told sync s (s.setBank s.active { s.bank s.active with inFlight := (s.bank s.active).inFlight + 1 })
  | unstamp (s : State) (b : BankId) : Moves told sync s (s.setBank b (s.bank b).releaseOne)
  | switch {s : State} (hsync : sync) (h : s.standbyState = .pending) :
      Moves told sync s ((s.setBankState s.standbyId .active).setBankState s.active
        (if (s.bank s.active).inFlight = 0 then .standby else .retiring))
  | cache (s : State) (e : CacheEntry) : Moves told sync s (s.cacheAnswer e)
  | enqueueRequest {s : State} (d : Nat) (h : s.agent.requests.length < requestLimit) :
      Moves told sync s (s.setAgent { s.agent with requests := s.agent.requests ++ [d] })
  | dequeue (s : State) : Moves told sync s (s.setAgent { s.agent with requests := s.agent.requests.tail })

/-! ## Counts (R193) -/

theorem le_satInc {w : Nat} (c : BitVec w) : c ≤ satInc c := by
  unfold satInc
  split
  · exact BitVec.le_refl c
  · next hmax =>
    have hne : c.toNat ≠ 2 ^ w - 1 := fun h => hmax (BitVec.eq_of_toNat_eq (by rw [h, BitVec.toNat_allOnes]))
    have hlt := c.isLt
    have hone : (1#w).toNat ≤ 1 := by rw [BitVec.toNat_ofNat]; exact Nat.mod_le _ _
    rw [BitVec.le_def]
    change c.toNat ≤ (c + 1#w).toNat
    rw [BitVec.toNat_add, Nat.mod_eq_of_lt (by omega)]
    omega

theorem le_satAdd {w : Nat} (c : BitVec w) (n : Nat) : c ≤ satAdd c n := by
  induction n generalizing c with
  | zero => exact BitVec.le_refl c
  | succ n ih => exact BitVec.le_trans (le_satInc c) (ih _)

theorem le_refl_station (c : StationCounters) : c.le c := by simp [StationCounters.le]

theorem le_bumpTransmissions (c : StationCounters) : c.le c.bumpTransmissions := by
  simp [StationCounters.le, StationCounters.bumpTransmissions, le_satInc]

theorem le_bumpRetries (c : StationCounters) : c.le c.bumpRetries := by
  simp [StationCounters.le, StationCounters.bumpRetries, le_satInc]

theorem le_bumpRepliesOk (c : StationCounters) : c.le c.bumpRepliesOk := by
  simp [StationCounters.le, StationCounters.bumpRepliesOk, le_satInc]

theorem le_bumpFailures (c : StationCounters) : c.le c.bumpFailures := by
  simp [StationCounters.le, StationCounters.bumpFailures, le_satInc]

theorem le_bumpSubstitutions (c : StationCounters) : c.le c.bumpSubstitutions := by
  simp [StationCounters.le, StationCounters.bumpSubstitutions, le_satInc]

theorem le_bumpSuperseded (c : StationCounters) : c.le c.bumpSuperseded := by
  simp [StationCounters.le, StationCounters.bumpSuperseded, le_satInc]

theorem le_addPoints (faults limits skips : Nat) (c : StationCounters) : c.le (c.addPoints faults limits skips) := by
  simp [StationCounters.le, StationCounters.addPoints, le_satAdd]

/-! ## The shared operations -/

namespace Moves

section

variable {told : Nat → Prop} {sync : Prop}

theorem foldl {α : Type} {f : State → α → State} (hf : ∀ s x, Moves told sync s (f s x)) (s : State) (xs : List α) :
    Moves told sync s (xs.foldl f s) := by
  induction xs generalizing s with
  | nil => exact refl s
  | cons x xs ih => exact (hf s x).trans (ih _)

/-- A larger scope. -/
theorem mono {sync' : Prop} {s t : State} (h : Moves told sync s t) (hsync : sync → sync') : Moves told sync' s t := by
  induction h with
  | refl s => exact refl s
  | trans _ _ ih1 ih2 => exact ih1.trans ih2
  | port s p v => exact port s p v
  | allocate ha => exact allocate ha
  | setDesc s d x => exact setDesc s d x
  | replace s d ws => exact replace s d ws
  | release s d => exact release s d
  | rewrite s d ws => exact rewrite s d ws
  | cycle s w => exact cycle s w
  | station s n r => exact station s n r
  | inImage s n r => exact inImage s n r
  | outImage s n r => exact outImage s n r
  | emit h => exact emit h
  | join s d => exact join s d
  | reportBank s b label w => exact reportBank s b label w
  | reportStation s h => exact reportStation s h
  | countPort s p c => exact countPort s p c
  | countStation s n hf => exact countStation s n hf
  | countDuplicate s => exact countDuplicate s
  | countQueueFull s => exact countQueueFull s
  | seg s g v => exact seg s g v
  | stamp s => exact stamp s
  | unstamp s b => exact unstamp s b
  | switch h hp => exact switch (hsync h) hp
  | cache s e => exact cache s e
  | enqueueRequest d h => exact enqueueRequest d h
  | dequeue s => exact dequeue s

theorem setRx (s : State) (p : Port) (r : Receiver) : Moves told sync s (s.setRx p r) := port s p _

theorem setTx (s : State) (p : Port) (x : Transmitter) : Moves told sync s (s.setTx p x) := port s p _

theorem modDesc (s : State) (d : Nat) (f : Descriptor → Descriptor) : Moves told sync s (s.modDesc d f) := setDesc s d _

theorem hold (s : State) (d : Nat) : Moves told sync s (s.hold d) := setDesc s d _

theorem holdIn (s : State) (m : TelegramMemory) (d : Nat) : Moves told sync (s.setMem m) (s.setMem (m.hold d)) :=
  setDesc (s.setMem m) d _

theorem handTx (s : State) (p : Port) (d : Nat) : Moves told sync s (s.handTx p d) := by
  unfold State.handTx
  split
  · exact setTx s p _
  · exact setTx s p _
  · exact refl s

theorem emissionAttempt (s : State) : Moves told sync s s.emissionAttempt := by
  unfold State.emissionAttempt
  split
  · exact refl s
  · next s1 h1 =>
    split
    · exact emit h1
    · next h2 => exact (emit h1).trans (emit h2)

theorem replaceChain (s : State) (d : Nat) (ws : List Word) : Moves told sync s (s.replaceChain d ws).2 :=
  (replace s d ws).trans (emissionAttempt _)

theorem dropRef (s : State) (d : Nat) : Moves told sync s (s.setMem (s.mem.dropRef d)) := by
  rw [TelegramMemory.dropRef_eq]
  split
  · exact release s d
  · exact setDesc s d _

theorem unhold (s : State) (d : Nat) : Moves told sync s (s.unhold d) := by
  unfold State.unhold
  split
  · exact (dropRef s d).trans (emissionAttempt _)
  · exact dropRef s d

theorem releaseUnheld (s : State) (d : Nat) : Moves told sync s (s.releaseUnheld d) := by
  unfold State.releaseUnheld
  split
  · exact (release s d).trans (emissionAttempt _)
  · exact refl s

theorem releaseStamp (s : State) (d : Nat) : Moves told sync s (s.releaseStamp d) := by
  unfold State.releaseStamp
  split
  · exact refl s
  · next b _ => exact (modDesc s d _).trans (unstamp (s.modDesc d _) b)

theorem buildReply (s : State) (d : Nat) (st : ReplyStatus) : Moves told sync s (s.buildReply d st) :=
  (modDesc s d _).trans (releaseStamp _ d)

theorem buildEmptyReply (s : State) (d : Nat) (st : ReplyStatus) : Moves told sync s (s.buildEmptyReply d st) :=
  (replaceChain s d []).trans (buildReply _ d st)

theorem putApplied (s : State) (d n : Nat) (r : Applied) : Moves told sync s (s.putApplied d n r) :=
  ((rewrite s d r.words).trans (modDesc _ d _)).trans (countStation _ n (le_addPoints _ _ _))

theorem reportStationAttempt (s : State) {n : Nat} (h : told n) : Moves told sync s (s.reportStation n) :=
  (reportStation s h).trans (emissionAttempt _)

/-! ## Segments (chapter 5) -/

theorem success (s : State) {n : Nat} (h : told n) : Moves told sync s (s.success n) := by
  unfold State.success
  simp only
  split
  · exact (station s n _).trans (reportStationAttempt _ h)
  · exact station s n _

theorem failure (s : State) {n : Nat} (h : told n) (t : Nat) : Moves told sync s (s.failure n t) := by
  unfold State.failure
  simp only
  split
  · exact (station s n _).trans (reportStationAttempt _ h)
  · exact station s n _

theorem substitute (s : State) (d : Nat) : Moves told sync s (s.substitute d) := by
  unfold State.substitute
  simp only
  split
  · have hchain := replaceChain (told := told) (sync := sync) s d (s.inImage (s.stationOf d)).words
    split
    · next heq =>
      rw [heq] at hchain
      exact ((hchain.trans (modDesc _ d _)).trans (buildReply _ d _)).trans (countStation _ _ le_bumpSubstitutions)
    · next heq =>
      rw [heq] at hchain
      exact hchain.trans (buildReply _ d _)
  · exact buildEmptyReply s d _

theorem handTry (s : State) (g : Segment) (t : Transaction) : Moves told sync s (s.handTry g t) :=
  ((countStation s _ le_bumpTransmissions).trans (seg _ g _)).trans (handTx _ _ _)

theorem take (s : State) (g : Segment) : Moves told sync s (s.take g) := by
  unfold State.take
  split
  · next d rest _ _ =>
    have hpop := seg (told := told) (sync := sync) s g { s.seg g with queue := rest }
    simp only
    split
    · exact hpop.trans ((seg _ g _).trans (handTx _ _ _))
    · split
      · exact hpop.trans ((outImage _ _ _).trans (handTry _ _ _))
      · exact hpop.trans (((modDesc _ d _).trans (substitute _ d)).trans (join _ d))
      · exact hpop.trans ((buildReply _ d _).trans (join _ d))
  · exact refl s

theorem failTransaction (s : State) (g : Segment) (t : Transaction) (h : told t.station.toNat) :
    Moves told sync s (s.failTransaction g t) :=
  (((((seg s g _).trans (modDesc _ _ _)).trans (substitute _ _)).trans (join _ _)).trans
    (countStation _ _ le_bumpFailures)).trans (failure _ h _)

theorem windowExpiry (s : State) (g : Segment) (h : ∀ y, (s.seg g).slot = .poll y → told y.station.toNat) :
    Moves told sync s (s.windowExpiry g) := by
  unfold State.windowExpiry
  split
  · next t _ hslot _ =>
    split
    · exact (countStation s _ le_bumpRetries).trans (handTry _ g _)
    · exact failTransaction s g t (h t hslot)
  · exact refl s

theorem dropComplete (s : State) (g : Segment) : Moves told sync s (s.dropComplete g) := by
  unfold State.dropComplete
  split
  · exact (seg s g _).trans (unhold _ _)
  · exact seg s g _
  · exact seg s g _

theorem matchReply (s : State) (g : Segment) (t : Transaction) (ws : List Word) (h : told t.station.toNat) :
    Moves told sync s (s.matchReply g t ws) := by
  unfold State.matchReply
  simp only
  have hmarks : Moves told sync s ((s.setSeg g (s.seg g).matched).transactionMarks t.desc t.retried) :=
    (seg s g _).trans (modDesc _ _ _)
  have hchain := hmarks.trans (replaceChain _ t.desc ws)
  split
  · next heq =>
    rw [heq] at hchain
    exact (hchain.trans (((((putApplied _ _ _ _).trans (inImage _ _ _)).trans (buildReply _ _ _)).trans (join _ _)).trans
      (countStation _ _ le_bumpRepliesOk))).trans (success _ h)
  · next heq =>
    rw [heq] at hchain
    exact (hchain.trans ((buildReply _ _ _).trans (join _ _))).trans (success _ h)

/-! ## Admission (chapter 4) -/

theorem refusePoll (s : State) (a : Arrival) : Moves told sync s (s.refusePoll a) := by
  unfold State.refusePoll
  simp only
  split
  · exact countPort s _ _
  · next d m ha => exact (((countPort s _ _).trans (allocate ha)).trans (holdIn _ m d)).trans (join _ d)

theorem answerUnrouted (s : State) (d : Nat) : Moves told sync s (s.answerUnrouted d) :=
  ((hold s d).trans (buildEmptyReply _ d _)).trans (join _ d)

theorem answerSuperseded (s : State) (n old : Nat) : Moves told sync s (s.answerSuperseded n old) :=
  (((modDesc s old _).trans (buildEmptyReply _ old _)).trans (join _ old)).trans (countStation _ n le_bumpSuperseded)

theorem joinQueue (s : State) (g : Segment) (d : Nat) : Moves told sync s (s.joinQueue g d) :=
  (hold s d).trans (seg _ g _)

theorem place (s : State) (g : Segment) (n d : Nat) : Moves told sync s (s.place g n d) := by
  unfold State.place
  split
  · exact joinQueue s g d
  · next old _ => exact ((hold s d).trans (seg _ g _)).trans (answerSuperseded _ n old)

theorem stampDesc (s : State) (d : Nat) : Moves told sync s (s.stamp d) :=
  (modDesc s d _).trans (stamp (s.modDesc d _))

theorem admitRouted (s : State) (g : Segment) (d : Nat) : Moves told sync s (s.admitRouted g d) :=
  ((stampDesc s d).trans (putApplied _ _ _ _)).trans (place _ g _ d)

theorem admitPoll (s : State) (a : Arrival) : Moves told sync s (s.admitPoll a) := by
  unfold State.admitPoll
  split
  · exact refusePoll s a
  · next d m ha =>
    split
    · exact (allocate ha).trans (answerUnrouted _ d)
    · exact (allocate ha).trans (admitRouted _ _ d)
    · exact (allocate ha).trans (admitRouted _ _ d)

theorem switchCheck (s : State) (h : sync) : Moves told sync s s.switchCheck := by
  unfold State.switchCheck
  simp only
  split
  · next hp => exact (switch h hp).trans ((reportBank _ _ _ _).trans (emissionAttempt _))
  · exact refl s

theorem newCycle (s : State) (w : Word) (h : sync) : Moves told sync s (s.newCycle w) :=
  (cycle s _).trans (switchCheck _ h)

theorem distribute (s : State) (g : Segment) (d : Nat) (w : Word) : Moves told sync s (s.distribute g d w) := by
  unfold State.distribute
  split
  · exact joinQueue s g d
  · exact rewrite s _ _

theorem admitSync (s : State) (a : Arrival) (h : sync) : Moves told sync s (s.admitSync a) := by
  unfold State.admitSync
  simp only
  split
  · exact (newCycle s _ h).trans (countPort _ _ _)
  · next d m ha =>
    exact ((((allocate ha).trans (newCycle _ _ h)).trans (distribute _ _ d _)).trans (distribute _ _ d _)).trans
      (releaseUnheld _ d)

/-! ## The Management Agent (chapter 9) -/

theorem buildAnswer (s : State) (d : Nat) (st : AnswerStatus) (ws : List Word) :
    Moves told sync s (s.buildAnswer d st ws).2 := by
  unfold State.buildAnswer
  have hchain := replaceChain (told := told) (sync := sync) s d ws
  split
  · next heq =>
    rw [heq] at hchain
    exact (hchain.trans (modDesc _ d _)).trans (join _ d)
  · next heq =>
    rw [heq] at hchain
    exact (hchain.trans (modDesc _ d _)).trans (join _ d)

theorem answer (s : State) (d : Nat) (st : AnswerStatus) (ws : List Word) : Moves told sync s (s.answer d st ws) :=
  (buildAnswer s d st ws).trans (cache _ _)

theorem answerFromCache (s : State) (a : Arrival) (e : CacheEntry) : Moves told sync s (s.answerFromCache a e) := by
  unfold State.answerFromCache
  split
  · exact countPort s _ _
  · next d m ha => exact ((allocate ha).trans (holdIn s m d)).trans (buildAnswer _ d _ _)

theorem intake (s : State) (a : Arrival) : Moves told sync s (s.intake a) := by
  unfold State.intake
  split
  · exact answerFromCache s a _
  · split
    · exact countDuplicate s
    · split
      · exact countQueueFull s
      · next hroom =>
        unfold State.admitRequest
        split
        · exact countPort s _ _
        · next d m ha => exact ((allocate ha).trans (holdIn s m d)).trans (enqueueRequest d (Nat.lt_of_not_le hroom))

/-! ## Reception (sections 1.3 and 1.5) -/

theorem arriveTrunk (s : State) (a : Arrival) : Moves told a.isAdmittedSync s (s.arriveTrunk a) := by
  unfold State.arriveTrunk
  split
  · exact countPort s _ _
  · next hsrc =>
    split
    · exact countPort s _ _
    · exact countPort s _ _
    · exact countPort s _ _
    · split
      · exact (countPort s _ _).trans (admitPoll _ a)
      · exact countPort s _ _
    · next hkind =>
      split
      · exact countPort s _ _
      · next hdest =>
        split
        · exact countPort s _ _
        · next hlen =>
          exact (countPort s _ _).trans (admitSync _ a ⟨not_not.1 hsrc, hkind, not_not.1 hdest, not_not.1 hlen⟩)
    · split
      · exact (countPort s _ _).trans (intake _ a)
      · exact countPort s _ _

theorem accepts_poll {c : SegmentController} {src : Addr} {seq : Byte} {t : Transaction}
    (h : c.accepts src seq = some t) : c.slot = .poll t := by
  unfold SegmentController.accepts at h
  split at h
  · next t' hslot =>
    split at h
    · rw [hslot, Option.some.inj h]
    · cases h
  · cases h
  · cases h

theorem arriveDrop (s : State) (g : Segment) (a : Arrival)
    (h : ∀ y, (s.seg g).slot = .poll y → told y.station.toNat) : Moves told sync s (s.arriveDrop g a) := by
  unfold State.arriveDrop
  split
  · exact countPort s _ _
  · split
    · exact countPort s _ _
    · split
      · next t ht => exact (countPort s _ _).trans (matchReply _ g t _ (h t (accepts_poll ht)))
      · exact countPort s _ _

end

end Moves

end Sys2Proof.Proofs.Updates
end

section
/-! PROOFS. What a command does: every command but the resets is a run of updates (`Moves`), ahead of which the agent's
commands and the bank engine's may act on a bank, and RESTART and CLEAR_COUNTERS discard what they discard. -/

namespace Sys2Proof.Proofs.Commands

open Sys2Proof Sys2Proof.Machine Sys2Proof.Proofs.Updates

/-! ## The event of a command -/

/-- What a command does in a running part. -/
def eventOf : Instr → State → State
  | .resetAsserted, s => s.setResetHeld true
  | .powerOnReset, s => s.powerOn
  | .countAbove32 p bytes, s => s.receiveSerial p bytes
  | .truncation p, s => s.truncate p
  | .discardSilence p, s => s.discardEnds p
  | .receiveTelegram p bytes, s => s.receiveSerial p bytes
  | .transmissionComplete p, s => s.transmissionDone p
  | .spacingEnds p, s => s.spacingDone p
  | .take g, s => s.take g
  | .replyWindowExpiry g, s => s.windowExpiry g
  | .copyCompletion, s => s.copyCompletes
  | .checkCompletion, s => s.checkCompletes
  | .status, s => s.executeOp .status opStatus
  | .readStation, s => s.executeOp .readStation opReadStation
  | .readPoints, s => s.executeOp .readPoints opReadPoints
  | .writeStation, s => s.executeOp .writeStation opWriteStation
  | .writePoints, s => s.executeOp .writePoints opWritePoints
  | .setLabel, s => s.executeOp .setLabel opSetLabel
  | .readImage, s => s.executeOp .readImage opReadImage
  | .readStationState, s => s.executeOp .readStationState opReadStationState
  | .readCounters, s => s.executeOp .readCounters opReadCounters
  | .clearCounters, s => s.executeOp .clearCounters opClearCounters
  | .setMode, s => s.executeOp .setMode opSetMode
  | .copy, s => s.executeOp .copy opCopy
  | .commit, s => s.executeOp .commit opCommit
  | .cancel, s => s.executeOp .cancel opCancel
  | .restart, s => s.executeOp .restart opRestart
  | .malformedRequest, s => s.execute Request.isMalformed opMalformed
  | .leadByte p b, s => s.receiveSerial p [b]

/-- The reset pin's commands always take place; every other is an event of a running part (R199). -/
theorem exec_eq_event {c : Instr} (hassert : c ≠ .resetAsserted) (hreset : c ≠ .powerOnReset) (s : State) :
    exec c s = event (eventOf c) s := by
  cases c with
  | resetAsserted => exact absurd rfl hassert
  | powerOnReset => exact absurd rfl hreset
  | _ => rfl

theorem exec_running {c : Instr} (hassert : c ≠ .resetAsserted) (hreset : c ≠ .powerOnReset) {s : State}
    (hheld : s.resetHeld = false) : exec c s = .next (eventOf c s) :=
  (exec_eq_event hassert hreset s).trans (event_running _ s hheld)

/-! ## The slots under reception -/

/-- Every transaction is for a station in `told`. -/
def SlotsTold (told : Nat → Prop) (s : State) : Prop := ∀ g y, (s.seg g).slot = .poll y → told y.station.toNat

theorem place_slot (s : State) (g j : Segment) (n d : Nat) : ((s.place g n d).seg j).slot = (s.seg j).slot := by
  unfold State.place
  split <;> by_cases hj : j = g <;> simp [State.joinQueue, State.takePlace, hj]

theorem admitRouted_slot (s : State) (g j : Segment) (d : Nat) : ((s.admitRouted g d).seg j).slot = (s.seg j).slot := by
  simp [State.admitRouted, place_slot]

theorem admitPoll_slot (s : State) (a : Arrival) (j : Segment) : ((s.admitPoll a).seg j).slot = (s.seg j).slot := by
  unfold State.admitPoll
  split
  · simp
  · split <;> simp [admitRouted_slot]

theorem distribute_slot (s : State) (g j : Segment) (d : Nat) (w : Word) :
    ((s.distribute g d w).seg j).slot = (s.seg j).slot := by
  unfold State.distribute
  split
  · by_cases hj : j = g <;> simp [State.joinQueue, hj]
  · simp

theorem admitSync_slot (s : State) (a : Arrival) (j : Segment) : ((s.admitSync a).seg j).slot = (s.seg j).slot := by
  unfold State.admitSync
  simp only
  split <;> simp [distribute_slot]

theorem arriveTrunk_slot (s : State) (a : Arrival) (j : Segment) : ((s.arriveTrunk a).seg j).slot = (s.seg j).slot := by
  unfold State.arriveTrunk
  split
  · simp
  · split <;> try simp
    · split <;> simp [admitPoll_slot]
    · split <;> try simp
      split <;> simp [admitSync_slot]
    · split <;> simp

theorem matchReply_slot (s : State) (g : Segment) (t : Transaction) (ws : List Word) :
    ((s.matchReply g t ws).seg g).slot = .empty := by
  have hseg := State.replaceChain_seg ((s.setSeg g (s.seg g).matched).transactionMarks t.desc t.retried) t.desc ws g
  unfold State.matchReply
  simp only
  split
  · next heq => rw [heq] at hseg; simp [hseg, SegmentController.matched]
  · next heq => rw [heq] at hseg; simp [hseg, SegmentController.matched]

theorem arriveDrop_slot (s : State) (g j : Segment) (a : Arrival) :
    ((s.arriveDrop g a).seg j).slot = (s.seg j).slot ∨ ((s.arriveDrop g a).seg j).slot = .empty := by
  unfold State.arriveDrop
  split
  · simp
  · split
    · simp
    · split
      · by_cases hj : j = g
        · rw [hj]
          exact .inr (matchReply_slot _ _ _ _)
        · simp [hj]
      · simp

theorem arrive_slotsTold {told : Nat → Prop} {s : State} (h : SlotsTold told s) (p : Port) (a : Arrival) :
    SlotsTold told (s.arrive p a) := by
  intro j y hy
  cases p with
  | t => exact h j y ((arriveTrunk_slot s a j).symm.trans hy)
  | a =>
    rcases arriveDrop_slot s .a j a with hs | hs
    · exact h j y (hs.symm.trans hy)
    · exact Slot.noConfusion (hs.symm.trans hy)
  | b =>
    rcases arriveDrop_slot s .b j a with hs | hs
    · exact h j y (hs.symm.trans hy)
    · exact Slot.noConfusion (hs.symm.trans hy)

/-! ## Reception -/

/-- The ways a byte is taken: into the receiver alone, with a count, or as the last of a telegram (R4 to R8). -/
theorem receiveByte_cases (s : State) (p : Port) (b : Byte) :
    s.receiveByte p b = s ∨ (∃ r, s.receiveByte p b = s.setRx p r) ∨
    (∃ r c, s.receiveByte p b = (s.setRx p r).countPort p c) ∨
    ∃ buf a, (s.port p).rx = .frame buf ∧ checkTelegram (buf ++ [b]) = .arrived a ∧
      s.receiveByte p b = (s.setRx p .hunt).arrive p a := by
  unfold State.receiveByte
  split
  · split
    · exact .inr (.inl ⟨_, rfl⟩)
    · exact .inl rfl
  · exact .inl rfl
  · next buf hrx =>
    simp only
    split
    · exact .inr (.inr (.inl ⟨_, _, rfl⟩))
    · split
      · unfold State.telegramEnds
        simp only
        split
        · exact .inr (.inr (.inl ⟨_, _, rfl⟩))
        · exact .inr (.inr (.inl ⟨_, _, rfl⟩))
        · next a ha => exact .inr (.inr (.inr ⟨buf, a, hrx, ha, rfl⟩))
      · exact .inr (.inl ⟨_, rfl⟩)

theorem receiveByte_slotsTold {told : Nat → Prop} {s : State} (h : SlotsTold told s) (p : Port) (b : Byte) :
    SlotsTold told (s.receiveByte p b) := by
  have hrx : ∀ r, SlotsTold told (s.setRx p r) := fun r j y hy => h j y (by simpa using hy)
  rcases receiveByte_cases s p b with heq | ⟨r, heq⟩ | ⟨r, c, heq⟩ | ⟨buf, a, -, -, heq⟩ <;> rw [heq]
  · exact h
  · exact hrx r
  · exact fun j y hy => h j y (by simpa using hy)
  · exact arrive_slotsTold (hrx _) p a

theorem arrive_moves {told : Nat → Prop} {s : State} (h : SlotsTold told s) (p : Port) (a : Arrival) :
    Moves told (p = .t) s (s.arrive p a) := by
  cases p with
  | t => exact (Moves.arriveTrunk s a).mono fun _ => rfl
  | a => exact Moves.arriveDrop s .a a (h .a)
  | b => exact Moves.arriveDrop s .b a (h .b)

theorem receiveByte_moves {told : Nat → Prop} {s : State} (h : SlotsTold told s) (p : Port) (b : Byte) :
    Moves told (p = .t) s (s.receiveByte p b) := by
  rcases receiveByte_cases s p b with heq | ⟨r, heq⟩ | ⟨r, c, heq⟩ | ⟨buf, a, -, -, heq⟩ <;> rw [heq]
  · exact .refl s
  · exact .setRx s p r
  · exact (Moves.setRx s p r).trans (.countPort _ p c)
  · exact (Moves.setRx s p _).trans (arrive_moves (fun j y hy => h j y (by simpa using hy)) p a)

theorem receiveBytes_moves {told : Nat → Prop} {s : State} (h : SlotsTold told s) (p : Port) (bs : List Byte) :
    Moves told (p = .t) s (s.receiveBytes p bs) := by
  induction bs generalizing s with
  | nil => exact .refl s
  | cons b bs ih => exact (receiveByte_moves h p b).trans (ih (receiveByte_slotsTold h p b))

/-! ## What acts on a bank (chapter 3) -/

/-- The tables of a bank are in canonical form. -/
abbrev CanonicalBank (b : Bank) : Prop :=
  Table.wf StationEntry.default b.stations = true ∧ Table.wf PointRecord.default b.points = true

/-- The actions of the agent and the bank engine on a bank's contents and state: a write to a STANDBY bank, the progress of
a copy, the start and the end of a long operation, and the withdrawal of a PENDING bank. -/
inductive BankOp : State → State → Prop where
  | write {s : State} {b : BankId} {v : Bank} (hb : (s.bank b).state = .standby) (hstate : v.state = .standby)
      (hflight : v.inFlight = (s.bank b).inFlight) (hwf : CanonicalBank (s.bank b) → CanonicalBank v) :
      BankOp s (s.setBank b v)
  | advance {s : State} {b : BankId} (hb : (s.bank b).state = .filling) : BankOp s s.copyAdvances
  | start {s : State} (h : s.standbyState = .standby) {st : BankState} (hst : st = .filling ∨ st = .checking)
      (label : Word) (n d : Nat) :
      BankOp s (((s.setBank s.standbyId { s.bank s.standbyId with state := st, label := label }).setCopyDone
        n).openRequest d)
  | finish {s : State} (h : s.standbyState = .filling ∨ s.standbyState = .checking) {v : Bank}
      (hstate : v.state = .standby ∨ v.state = .pending ∧ v.check = none)
      (hflight : v.inFlight = (s.bank s.standbyId).inFlight) (hwf : (∀ k, CanonicalBank (s.bank k)) → CanonicalBank v)
      (hkept : s.standbyState = .checking → v.stations = (s.bank s.standbyId).stations ∧
        v.points = (s.bank s.standbyId).points ∧ v.label = (s.bank s.standbyId).label) (n k : Nat) :
      BankOp s { s.setBank s.standbyId v with copyDone := n, freeTick := k, agent := { s.agent with openSlot := none } }
  | withdraw {s : State} (h : s.standbyState = .pending) : BankOp s (s.setBankState s.standbyId .standby)

/-- A run of updates, with at most one action on a bank ahead of it. -/
def OpRun (told : Nat → Prop) (sync : Prop) (s t : State) : Prop :=
  Moves told sync s t ∨ ∃ u, BankOp s u ∧ Moves told sync u t

section

variable {told : Nat → Prop} {sync : Prop}

theorem OpRun.answer (s : State) (d : Nat) (st : AnswerStatus) (ws : List Word) : OpRun told sync s (s.answer d st ws) :=
  .inl (Moves.answer s d st ws)

theorem BankOp.answered {s u : State} (h : BankOp s u) (d : Nat) (st : AnswerStatus) (ws : List Word) :
    OpRun told sync s (u.answer d st ws) :=
  .inr ⟨u, h, Moves.answer u d st ws⟩

theorem observeCopy_answer (s : State) (b : BankId) (d : Nat) (st : AnswerStatus) (ws : List Word) :
    OpRun told sync s ((s.observeCopy b).answer d st ws) := by
  unfold State.observeCopy
  split
  · next hb => exact (BankOp.advance hb).answered d st ws
  · exact .answer s d st ws

theorem opReadStation_run (s : State) (d : Nat) (ws : List Word) : OpRun told sync s (opReadStation s d ws) := by
  unfold opReadStation
  split
  · exact observeCopy_answer s _ d _ _
  · exact .answer s d _ _

theorem opReadPoints_run (s : State) (d : Nat) (ws : List Word) : OpRun told sync s (opReadPoints s d ws) := by
  unfold opReadPoints
  split
  · split
    · exact observeCopy_answer s _ d _ _
    · exact .answer s d _ _
  · exact .answer s d _ _

theorem writeBank_run (s : State) (d : Nat) (b : BankId) {f : Bank → Bank}
    (hstate : (f (s.bank b)).state = (s.bank b).state) (hflight : (f (s.bank b)).inFlight = (s.bank b).inFlight)
    (hwf : CanonicalBank (s.bank b) → CanonicalBank (f (s.bank b))) : OpRun told sync s (s.writeBank d b f) := by
  unfold State.writeBank
  split
  · next hb => exact (BankOp.write hb (hstate.trans hb) hflight hwf).answered d _ _
  · exact .answer s d _ _

theorem setPoints_keeps (k : Nat) (rs : List PointRecord) (b : Bank) :
    (b.setPoints k rs).state = b.state ∧ (b.setPoints k rs).inFlight = b.inFlight ∧
    (CanonicalBank b → CanonicalBank (b.setPoints k rs)) := by
  induction rs generalizing k b with
  | nil => exact ⟨rfl, rfl, id⟩
  | cons r rs ih =>
    obtain ⟨hstate, hflight, hwf⟩ := ih (k + 1) { b with points := Table.set PointRecord.default b.points k r }
    exact ⟨hstate, hflight, fun h => hwf ⟨h.1, Table.wf_set h.2 k r⟩⟩

theorem opWriteStation_run (s : State) (d : Nat) (ws : List Word) : OpRun told sync s (opWriteStation s d ws) := by
  unfold opWriteStation
  split
  · exact writeBank_run s d _ rfl rfl fun h => ⟨Table.wf_set h.1 _ _, h.2⟩
  · exact .answer s d _ _

theorem opWritePoints_run (s : State) (d : Nat) (ws : List Word) : OpRun told sync s (opWritePoints s d ws) := by
  unfold opWritePoints
  split
  · next b rs _ _ =>
    obtain ⟨hstate, hflight, hwf⟩ := setPoints_keeps (argNat ws 2) rs (s.bank b)
    split
    · exact writeBank_run s d b hstate hflight hwf
    · exact .answer s d _ _
  · exact .answer s d _ _

theorem opSetLabel_run (s : State) (d : Nat) (ws : List Word) : OpRun told sync s (opSetLabel s d ws) := by
  unfold opSetLabel
  split
  · split
    · exact .answer s d _ _
    · exact writeBank_run s d _ rfl rfl id
  · exact .answer s d _ _

theorem opReadImage_run (s : State) (d : Nat) (ws : List Word) : OpRun told sync s (opReadImage s d ws) := by
  unfold opReadImage
  split
  · split <;> exact .answer s d _ _
  · exact .answer s d _ _

theorem opReadStationState_run (s : State) (d : Nat) (ws : List Word) : OpRun told sync s (opReadStationState s d ws) := by
  unfold opReadStationState
  split <;> exact .answer s d _ _

theorem opReadCounters_run (s : State) (d : Nat) (ws : List Word) : OpRun told sync s (opReadCounters s d ws) := by
  unfold opReadCounters
  split <;> exact .answer s d _ _

theorem opSetMode_run (s : State) (d : Nat) (ws : List Word) : OpRun told sync s (opSetMode s d ws) := by
  unfold opSetMode
  split
  · exact .inl ((Moves.station s _ _).trans (.answer _ d _ _))
  · exact .answer s d _ _

theorem standbyState_of_engineRefusal {s : State} (h : s.engineRefusal = none) : s.standbyState = .standby := by
  unfold State.engineRefusal at h
  split at h
  · cases h
  · split at h
    · cases h
    · next hs => exact not_not.1 hs

theorem opCopy_run (s : State) (d : Nat) (ws : List Word) : OpRun told sync s (opCopy s d ws) := by
  unfold opCopy
  split
  · exact .answer s d _ _
  · next h => exact .inr ⟨_, .start (standbyState_of_engineRefusal h) (.inl rfl) _ 0 d, .refl _⟩

theorem opCommit_run (s : State) (d : Nat) (ws : List Word) : OpRun told sync s (opCommit s d ws) := by
  unfold opCommit
  split
  · exact .answer s d _ _
  · next h =>
    have hop := BankOp.start (standbyState_of_engineRefusal h) (.inr rfl) (s.bank s.standbyId).label s.copyDone d
    refine .inr ⟨_, hop, ?_⟩
    unfold State.setBankState
    cases s.standbyId <;> exact .refl _

/-- What the answer to the open request leaves: the slot empty, then updates. -/
theorem answerOpen_moves (s : State) (st : AnswerStatus) (ws : List Word) :
    Moves told sync (s.setAgent { s.agent with openSlot := none }) (s.answerOpen st ws) := by
  unfold State.answerOpen
  split
  · next h =>
    rw [← h]
    exact .refl s
  · exact .answer _ _ _ _

theorem copyCompletes_run (s : State) : OpRun told sync s s.copyCompletes := by
  unfold State.copyCompletes
  split
  · next h =>
    refine .inr ⟨_, .finish (.inl h) (v := { s.bank s.standbyId with
      stations := (s.bank s.active).stations, points := (s.bank s.active).points, label := (s.bank s.active).label,
      state := .standby }) (.inl rfl) rfl (fun hwf => hwf s.active) (fun hc => ?_) 0 s.freeTick, ?_⟩
    · rw [h] at hc
      cases hc
    · have hmoves := answerOpen_moves (told := told) (sync := sync) ((s.setBank s.standbyId { s.bank s.standbyId with
        stations := (s.bank s.active).stations, points := (s.bank s.active).points, label := (s.bank s.active).label,
        state := .standby }).setCopyDone 0) .done []
      cases hid : s.standbyId <;> rw [hid] at hmoves <;> exact hmoves
  · exact .inl (.refl s)

/-- The check reads a bank's station entries and point records alone. -/
theorem check_congr {b c : Bank} (hs : c.stations = b.stations) (hp : c.points = b.points) : c.check = b.check := by
  have hpoint : ∀ k, c.point k = b.point k := fun k => by rw [Bank.point, hp]; rfl
  have hentry : ∀ n, c.entry n = b.entry n := fun n => by rw [Bank.entry, hs]; rfl
  have hruns : c.runs = b.runs := by
    have hstation : c.stationRuns = b.stationRuns := funext fun n => by simp only [Bank.stationRuns, hentry]
    rw [Bank.runs, hstation]
    rfl
  have hrun : ∀ n covered k, c.checkRun covered k n = b.checkRun covered k n := by
    intro n
    induction n with
    | zero => exact fun _ _ => rfl
    | succ n ih => intro covered k; simp only [Bank.checkRun, ih, hpoint]
  simp only [Bank.check, hruns, hrun]

theorem check_eq_none_of_same {b c : Bank} (hb : b.check = none) (hs : c.stations = b.stations)
    (hp : c.points = b.points) : c.check = none :=
  (check_congr hs hp).trans hb

/-- The end of a check: the bank goes to `st` with its contents as they are. -/
theorem endCheck_bankOp {s : State} (h : s.standbyState = .checking) {st : BankState}
    (hst : st = .standby ∨ st = .pending ∧ (s.bank s.standbyId).check = none) :
    BankOp s { s.setBankState s.standbyId st with agent := { s.agent with openSlot := none } } := by
  have hop := BankOp.finish (s := s) (.inr h) (v := { s.bank s.standbyId with state := st })
    (hst.imp_right fun hp => ⟨hp.1, check_eq_none_of_same (b := s.bank s.standbyId) hp.2 rfl rfl⟩) rfl (fun hwf => hwf s.standbyId) (fun _ => ⟨rfl, rfl, rfl⟩) s.copyDone s.freeTick
  unfold State.setBankState
  cases hid : s.standbyId <;> rw [hid] at hop <;> exact hop

theorem checkCompletes_run (s : State) : OpRun told sync s s.checkCompletes := by
  unfold State.checkCompletes
  split
  · next h =>
    split
    · next hc =>
      refine .inr ⟨_, endCheck_bankOp h (.inr ⟨rfl, hc⟩), ?_⟩
      cases hid : s.standbyId <;> exact answerOpen_moves (s.setBankState _ .pending) _ _
    · refine .inr ⟨_, endCheck_bankOp h (.inl rfl), ?_⟩
      cases hid : s.standbyId <;> exact answerOpen_moves (s.setBankState _ .standby) _ _
  · exact .inl (.refl s)

theorem canonical_copyFrom {tgt src : Bank} (htgt : CanonicalBank tgt) (hsrc : CanonicalBank src) (n : Nat) :
    CanonicalBank (tgt.copyFrom src n) :=
  ⟨Table.wf_splice hsrc.1 htgt.1 _, Table.wf_splice hsrc.2 htgt.2 _⟩

/-- A copy that is ended holds what it had reached. -/
theorem endCopy_bankOp {s : State} (h : s.standbyState = .filling) :
    BankOp s { s.endCopy with agent := { s.agent with openSlot := none } } := by
  have hop := BankOp.finish (s := s) (.inl h)
    (v := { (s.bank s.standbyId).copyFrom (s.bank s.active)
      (min copyLength (s.copyDone + Config.copyAdvance s.freeTick)) with state := .standby }) (.inl rfl) rfl
    (fun hwf => canonical_copyFrom (hwf s.standbyId) (hwf s.active) _) (fun hc => by rw [h] at hc; cases hc) 0
    (s.freeTick + 1)
  unfold State.endCopy State.copyAdvances State.setBankState
  cases hid : s.standbyId <;> rw [hid] at hop <;> exact hop

theorem opCancel_run (s : State) (d : Nat) (ws : List Word) : OpRun told sync s (opCancel s d ws) := by
  unfold opCancel
  split
  · next h =>
    refine .inr ⟨_, endCopy_bankOp h, ?_⟩
    have hmoves := answerOpen_moves (told := told) (sync := sync) s.endCopy .cancelled []
    rw [State.endCopy_agent] at hmoves
    exact hmoves.trans (.answer _ d _ _)
  · next h =>
    refine .inr ⟨_, endCheck_bankOp h (.inl rfl), ?_⟩
    refine Moves.trans ?_ (.answer _ d _ _)
    cases hid : s.standbyId <;> exact answerOpen_moves (s.setBankState _ .standby) _ _
  · next h => exact (BankOp.withdraw h).answered d _ _
  · exact .answer s d _ _
  · exact .answer s d _ _
  · exact .answer s d _ _

/-! ## Every command -/

/-- The head request has left the queue. -/
abbrev dequeued (s : State) : State := s.setAgent { s.agent with requests := s.agent.requests.tail }

/-- What command `c` may do to `s`. -/
inductive Does (told : Nat → Prop) (sync : Prop) (c : Instr) : State → State → Prop where
  | asserts (hc : c = .resetAsserted) (s : State) : Does told sync c s (s.setResetHeld true)
  | resets {s : State} (hc : c = .powerOnReset) : Does told sync c s s.powerOn
  | runs {s t : State} (h : OpRun told sync s t) : Does told sync c s t
  | executes {s t : State} (h : OpRun told sync (dequeued s) t) : Does told sync c s t
  | clears {s t : State} (hc : c = .clearCounters) (g : Group) (h : Moves told sync ((dequeued s).clearGroup g) t) :
      Does told sync c s t
  | clearsAll {s t : State} (hc : c = .clearCounters) (h : Moves told sync (dequeued s).clearAllGroups t) :
      Does told sync c s t
  | restarts {s t : State} (d : Nat) (h : Moves told sync ((dequeued s).restartEffects d) t) : Does told sync c s t
  | completes {s u v : State} (h : Moves told sync s u) {d : Nat} {rest : List Nat} (hqueue : u.egress.queue = d :: rest)
      {n : Nat} (hn : n ≤ u.egress.noticeCount)
      (hfreed : Moves told sync (u.setEgress { queue := rest, handed := false, noticeCount := n }) v) :
      Does told sync c s v.handHead

theorem execute_does {c : Instr} {s : State} {want : Request → Bool} {body : State → Nat → List Word → State}
    (h : ∀ d ws, Does told sync c s (body (dequeued s) d ws)) : Does told sync c s (s.execute want body) := by
  unfold State.execute
  split
  · exact .runs (.inl (.refl s))
  · next d rest hr =>
    split
    · have hbody := h d (s.words d)
      rw [dequeued, hr] at hbody
      exact hbody
    · exact .runs (.inl (.refl s))

theorem executeOp_runs (c : Instr) (s : State) (o : MgmtOp) {body : State → Nat → List Word → State}
    (h : ∀ u d ws, OpRun told sync u (body u d ws)) : Does told sync c s (s.executeOp o body) :=
  execute_does fun d ws => .executes (h _ d ws)

theorem event_does {f : State → State} {c : Instr} {s t : State} (hf : Does told sync c s (f s))
    (h : event f s = .next t) : Does told sync c s t := by
  rw [event_next] at h
  obtain rfl := Host.Outcome.next.inj h
  split
  · exact .runs (.inl (.refl s))
  · exact hf

theorem opClearCounters_does (s : State) (d : Nat) (ws : List Word) :
    Does told sync .clearCounters s (opClearCounters (dequeued s) d ws) := by
  unfold opClearCounters
  split
  · exact .clearsAll rfl (.answer _ d _ _)
  · split
    · exact .clears rfl _ (.answer _ d _ _)
    · exact .executes (.answer _ d _ _)

theorem transmissionDone_does {c : Instr} (s : State) (p : Port) : Does told sync c s (s.transmissionDone p) := by
  unfold State.transmissionDone
  split
  · have hsent : Moves told sync s ((s.setTx p (.spacing none)).countPort p .txDone) :=
      (Moves.setTx s p _).trans (.countPort _ p _)
    cases p with
    | t =>
      simp only [State.completeReported]
      unfold State.egressComplete
      split
      · exact .runs (.inl hsent)
      · next d rest hq =>
        refine .completes hsent hq (n := if _ then _ else _) ?_ ((Moves.dropRef _ d).trans (.emissionAttempt _))
        split
        · exact Nat.sub_le _ 1
        · exact Nat.le_refl _
    | a => exact .runs (.inl (hsent.trans (.dropComplete _ .a)))
    | b => exact .runs (.inl (hsent.trans (.dropComplete _ .b)))
  · exact .runs (.inl (.refl s))
  · exact .runs (.inl (.refl s))

theorem spacingDone_moves (s : State) (p : Port) : Moves told sync s (s.spacingDone p) := by
  unfold State.spacingDone
  split
  · exact .setTx s p _
  · exact .setTx s p _
  · exact .refl s
  · exact .refl s

theorem truncate_moves (s : State) (p : Port) : Moves told sync s (s.truncate p) := by
  unfold State.truncate
  split
  · exact (Moves.setRx s p _).trans (.countPort _ p _)
  · exact .refl s
  · exact .refl s

theorem discardEnds_moves (s : State) (p : Port) : Moves told sync s (s.discardEnds p) := by
  unfold State.discardEnds
  split
  · exact .setRx s p _
  · exact .refl s
  · exact .refl s

/-- The commands that give bytes to the receiver of port T. -/
def TakesTrunkBytes (c : Instr) : Prop :=
  (∃ b, c = .leadByte .t b) ∨ (∃ bs, c = .countAbove32 .t bs) ∨ ∃ bs, c = .receiveTelegram .t bs

/-- The event of a command is one of the things that `Does` lists. -/
theorem eventOf_does {s : State} (hslots : SlotsTold told s) (c : Instr) :
    Does told (TakesTrunkBytes c) c s (eventOf c s) := by
  cases c with
  | resetAsserted => exact .asserts rfl s
  | powerOnReset => exact .resets rfl
  | countAbove32 p bytes =>
    exact .runs (.inl ((receiveBytes_moves hslots p _).mono fun hp => .inr (.inl ⟨bytes, hp ▸ rfl⟩)))
  | receiveTelegram p bytes =>
    exact .runs (.inl ((receiveBytes_moves hslots p _).mono fun hp => .inr (.inr ⟨bytes, hp ▸ rfl⟩)))
  | leadByte p b => exact .runs (.inl ((receiveBytes_moves hslots p _).mono fun hp => .inl ⟨b, hp ▸ rfl⟩))
  | truncation p => exact .runs (.inl (truncate_moves s p))
  | discardSilence p => exact .runs (.inl (discardEnds_moves s p))
  | transmissionComplete p => exact transmissionDone_does s p
  | spacingEnds p => exact .runs (.inl (spacingDone_moves s p))
  | take g => exact .runs (.inl (.take s g))
  | replyWindowExpiry g => exact .runs (.inl (.windowExpiry s g (hslots g)))
  | copyCompletion => exact .runs (copyCompletes_run s)
  | checkCompletion => exact .runs (checkCompletes_run s)
  | status => exact executeOp_runs _ s .status fun u d ws => .answer u d _ _
  | readStation => exact executeOp_runs _ s _ opReadStation_run
  | readPoints => exact executeOp_runs _ s _ opReadPoints_run
  | writeStation => exact executeOp_runs _ s _ opWriteStation_run
  | writePoints => exact executeOp_runs _ s _ opWritePoints_run
  | setLabel => exact executeOp_runs _ s _ opSetLabel_run
  | readImage => exact executeOp_runs _ s _ opReadImage_run
  | readStationState => exact executeOp_runs _ s _ opReadStationState_run
  | readCounters => exact executeOp_runs _ s _ opReadCounters_run
  | clearCounters => exact execute_does (want := fun r => r = .op .clearCounters) (opClearCounters_does s)
  | setMode => exact executeOp_runs _ s _ opSetMode_run
  | copy => exact executeOp_runs _ s _ opCopy_run
  | commit => exact executeOp_runs _ s _ opCommit_run
  | cancel => exact executeOp_runs _ s _ opCancel_run
  | restart => exact execute_does (want := fun r => r = .op .restart) (body := opRestart) fun d ws => .restarts d (.answer _ d _ _)
  | malformedRequest => exact execute_does fun d ws => .executes (.answer _ d _ _)

/-- Every command is one of the things that `Does` lists. -/
theorem exec_does {c : Instr} {s t : State} (hslots : SlotsTold told s) (h : exec c s = .next t) :
    Does told (TakesTrunkBytes c) c s t := by
  by_cases hassert : c = .resetAsserted
  · subst hassert
    obtain rfl := Host.Outcome.next.inj h
    exact .asserts rfl s
  · by_cases hreset : c = .powerOnReset
    · subst hreset
      obtain rfl := Host.Outcome.next.inj h
      exact .resets rfl
    · rw [exec_eq_event hassert hreset] at h
      exact event_does (eventOf_does hslots c) h

end

end Sys2Proof.Proofs.Commands
end

section
/-! PROOFS. What every step keeps (O2, O6, O18 to O20, O48, O59): each property is shown of the single updates, of the
actions on a bank, and then of every command. -/

namespace Sys2Proof.Proofs.Invariants

open Sys2Proof Sys2Proof.Machine Sys2Proof.Proofs.Updates Sys2Proof.Proofs.Commands

/-- A step is idling, or a command on the rest of the queue. -/
theorem step_cases {s t : State} (h : step s = .next t) :
    t = s ∨ ∃ c rest, s.pending = c :: rest ∧ exec c { s with pending := rest } = .next t := by
  unfold step at h
  split at h
  · exact .inl (Host.Outcome.next.inj h).symm
  · next c rest hp => exact .inr ⟨c, rest, hp, h⟩

/-- An emission takes the head entry, with memory for it below the notice limit. -/
theorem emitOne_eq_some {s t : State} (h : s.emitOne = some t) :
    ∃ e rest d m, s.notices.pendingSet = e :: rest ∧ s.egress.noticeCount < 2 ∧
      s.mem.allocate .part (noticeHeader s.notices.number) (noticeWords s e) = some (d, m) ∧
      t = ((((s.setMem (m.hold d)).setNotices { pendingSet := rest, number := s.notices.number + 1 }).setEgress
        { s.egress with noticeCount := s.egress.noticeCount + 1 }).joinEgress d) := by
  unfold State.emitOne at h
  split at h
  · cases h
  · next e rest hp =>
    split at h
    · next hn =>
      split at h
      · cases h
      · next d m ha => exact ⟨e, rest, d, m, hp, hn, ha, (Option.some.inj h).symm⟩
    · cases h

theorem slotsTold_trivial (s : State) : SlotsTold (fun _ => True) s := fun _ _ _ => trivial

/-! ## Canonical tables (O6) -/

/-- The tables of Telegram Memory are in canonical form. -/
abbrev CanonicalMemory (m : TelegramMemory) : Prop := Table.rising m.descs = true ∧ Table.wf 0 m.blocks = true

/-- `TablesCanonical`, part by part. -/
structure Canonical (s : State) : Prop where
  mem : CanonicalMemory s.mem
  banks : ∀ k, CanonicalBank (s.bank k)
  runtime : Table.wf StationRuntime.default s.runtime = true
  inImages : Table.wf ImageRecord.default s.inImages = true
  outImages : Table.wf ImageRecord.default s.outImages = true
  counters : Table.wf StationCounters.zero s.counters.stations = true

theorem canonical_iff (s : State) : TablesCanonical s ↔ Canonical s := by
  constructor
  · rintro ⟨hdescs, hblocks, hs0, hs1, hp0, hp1, hrt, hin, hout, hc⟩
    exact ⟨⟨hdescs, hblocks⟩, fun k => by cases k; exacts [⟨hs0, hp0⟩, ⟨hs1, hp1⟩], hrt, hin, hout, hc⟩
  · rintro ⟨⟨hdescs, hblocks⟩, hb, hrt, hin, hout, hc⟩
    exact ⟨hdescs, hblocks, (hb .bank0).1, (hb .bank1).1, (hb .bank0).2, (hb .bank1).2, hrt, hin, hout, hc⟩

theorem countPort_stations (s : State) (p : Port) (c : PortCounter) :
    (s.countPort p c).counters.stations = s.counters.stations := by
  cases p <;> rfl

/-- A state whose tables are those of a canonical one. -/
theorem Canonical.of_eq {s t : State} (h : Canonical s) (hmem : CanonicalMemory t.mem)
    (hbank : ∀ k, t.bank k = s.bank k := by simp) (hruntime : t.runtime = s.runtime := by simp)
    (hin : t.inImages = s.inImages := by simp) (hout : t.outImages = s.outImages := by simp)
    (hcounters : t.counters.stations = s.counters.stations := by simp) : Canonical t where
  mem := hmem
  banks := fun k => hbank k ▸ h.banks k
  runtime := hruntime ▸ h.runtime
  inImages := hin ▸ h.inImages
  outImages := hout ▸ h.outImages
  counters := hcounters ▸ h.counters

/-- A bank is replaced by a canonical one with the rest as it was. -/
theorem Canonical.setBank {s : State} (h : Canonical s) {b : BankId} {v : Bank} (hv : CanonicalBank v) :
    Canonical (s.setBank b v) where
  mem := by simpa using h.mem
  banks := fun k => by
    rw [State.setBank_bank]
    split
    · exact hv
    · exact h.banks k
  runtime := by simpa using h.runtime
  inImages := by simpa using h.inImages
  outImages := by simpa using h.outImages
  counters := by simpa using h.counters

theorem Canonical.setBankState {s : State} (h : Canonical s) (b : BankId) (st : BankState) :
    Canonical (s.setBankState b st) :=
  h.setBank (h.banks b)

theorem canonical_allocate {m m' : TelegramMemory} {cls : AllocClass} {h : Header} {ws : List Word} {d : Nat}
    (hm : CanonicalMemory m) (ha : m.allocate cls h ws = some (d, m')) : CanonicalMemory m' := by
  refine ⟨?_, TelegramMemory.allocate_canonical hm.2 ha⟩
  obtain ⟨-, -, rfl⟩ := TelegramMemory.allocate_eq_some.1 ha
  rw [TelegramMemory.writeChain_rest]
  exact Table.rising_insert hm.1 d _

theorem canonical_setDesc {m : TelegramMemory} (hm : CanonicalMemory m) (d : Nat) (x : Descriptor) :
    CanonicalMemory (m.setDesc d x) :=
  ⟨Table.rising_insert hm.1 d x, hm.2⟩

theorem canonical_writeChain {m : TelegramMemory} (hm : CanonicalMemory m) (chain : List Nat) (ws : List Word) :
    CanonicalMemory (m.writeChain chain ws) := by
  refine ⟨?_, TelegramMemory.writeChain_canonical chain ws hm.2⟩
  rw [TelegramMemory.writeChain_rest]
  exact hm.1

theorem canonical_replaceChain {m : TelegramMemory} (hm : CanonicalMemory m) (d : Nat) (ws : List Word) :
    CanonicalMemory (m.replaceChain d ws).2 := by
  have hempty : CanonicalMemory (m.emptyChain d) := canonical_setDesc hm d _
  unfold TelegramMemory.replaceChain
  simp only
  split
  · exact hempty
  · split
    · exact canonical_writeChain (canonical_setDesc (m := (m.emptyChain d).takeFree 0 _) hempty d _) _ ws
    · exact hempty

theorem canonical_release {m : TelegramMemory} (hm : CanonicalMemory m) (d : Nat) : CanonicalMemory (m.release d) :=
  ⟨Table.rising_erase hm.1 d, hm.2⟩

theorem canonical_releaseAllBut {m : TelegramMemory} (hm : CanonicalMemory m) (keep : Nat) :
    CanonicalMemory (m.releaseAllBut keep) := by
  unfold TelegramMemory.releaseAllBut
  induction m.inUse.filter (fun d => d ≠ keep) generalizing m with
  | nil => exact hm
  | cons d ds ih => exact ih (canonical_release hm d)

theorem Canonical.moves {told : Nat → Prop} {sync : Prop} {s t : State} (h : Moves told sync s t) (hs : Canonical s) :
    Canonical t := by
  induction h with
  | refl s => exact hs
  | trans _ _ ih1 ih2 => exact ih2 (ih1 hs)
  | port s p v => exact hs.of_eq (by simpa using hs.mem)
  | allocate ha => exact hs.of_eq (canonical_allocate hs.mem ha)
  | setDesc s d x => exact hs.of_eq (canonical_setDesc hs.mem d x)
  | replace s d ws => exact hs.of_eq (canonical_replaceChain hs.mem d ws)
  | release s d => exact hs.of_eq (canonical_release hs.mem d)
  | rewrite s d ws => exact hs.of_eq (canonical_writeChain hs.mem _ ws)
  | cycle s w => exact hs.of_eq hs.mem
  | station s n r => exact { hs with runtime := Table.wf_set hs.runtime n r }
  | inImage s n r => exact { hs with inImages := Table.wf_set hs.inImages n r }
  | outImage s n r => exact { hs with outImages := Table.wf_set hs.outImages n r }
  | emit h =>
    obtain ⟨e, rest, d, m, -, -, ha, rfl⟩ := emitOne_eq_some h
    exact hs.of_eq (by rw [State.joinEgress_mem]; exact canonical_setDesc (canonical_allocate hs.mem ha) d _)
  | join s d => exact hs.of_eq (by simpa using hs.mem)
  | reportBank s b label w => exact hs.of_eq hs.mem
  | reportStation s h => exact hs.of_eq hs.mem
  | countPort s p c => exact hs.of_eq (by simpa using hs.mem) (hcounters := countPort_stations s p c)
  | countStation s n hf => exact { hs with counters := Table.wf_set hs.counters n _ }
  | countDuplicate s => exact hs.of_eq hs.mem (hcounters := rfl)
  | countQueueFull s => exact hs.of_eq hs.mem (hcounters := rfl)
  | seg s g v => exact hs.of_eq (by simpa using hs.mem)
  | stamp s => exact hs.setBank (hs.banks s.active)
  | unstamp s b => exact hs.setBank (hs.banks b)
  | switch _ _ => exact (hs.setBankState _ .active).setBankState _ _
  | cache s e => exact hs.of_eq hs.mem
  | enqueueRequest d h => exact hs.of_eq hs.mem
  | dequeue s => exact hs.of_eq hs.mem

theorem Canonical.copyAdvances {s : State} (hs : Canonical s) : Canonical s.copyAdvances := by
  have hb := hs.setBank (canonical_copyFrom (hs.banks s.standbyId) (hs.banks s.active)
    (min copyLength (s.copyDone + Config.copyAdvance s.freeTick))) (b := s.standbyId)
  exact ⟨hb.mem, hb.banks, hb.runtime, hb.inImages, hb.outImages, hb.counters⟩

theorem Canonical.bankOp {s t : State} (h : BankOp s t) (hs : Canonical s) : Canonical t := by
  cases h with
  | write hb _ _ hwf => exact hs.setBank (hwf (hs.banks _))
  | advance hb => exact hs.copyAdvances
  | @start _ st hst label n d =>
    have hb := hs.setBank (b := s.standbyId) (v := { s.bank s.standbyId with state := st, label := label })
      (hs.banks s.standbyId)
    exact ⟨hb.mem, hb.banks, hb.runtime, hb.inImages, hb.outImages, hb.counters⟩
  | finish h hstate hflight hwf hkept n k =>
    have hb := hs.setBank (hwf hs.banks) (b := s.standbyId)
    exact ⟨hb.mem, hb.banks, hb.runtime, hb.inImages, hb.outImages, hb.counters⟩
  | withdraw h => exact hs.setBank (hs.banks s.standbyId)

theorem Canonical.restartEffects {s : State} (hs : Canonical s) (d : Nat) : Canonical (s.restartEffects d) := by
  have hcopy : Canonical s.restartCopy := by
    unfold State.restartCopy
    split
    · have hb := hs.copyAdvances
      exact ⟨hb.mem, hb.banks, hb.runtime, hb.inImages, hb.outImages, hb.counters⟩
    · exact hs
  have hmem := canonical_releaseAllBut hcopy.mem d
  have himages : ∀ t : Table ImageRecord, Table.wf ImageRecord.default t = true →
      Table.wf ImageRecord.default (invalidateImages t) = true := fun t ht => Table.wf_mapValues (Table.wf_rising ht) _
  unfold State.restartEffects
  exact ⟨hmem, fun k => by cases k; exacts [hcopy.banks .bank0, hcopy.banks .bank1], rfl, himages _ hcopy.inImages,
    himages _ hcopy.outImages, hcopy.counters⟩

theorem Canonical.clearGroup {s : State} (hs : Canonical s) (g : Group) : Canonical (s.clearGroup g) := by
  cases g with
  | station n => exact ⟨hs.mem, hs.banks, hs.runtime, hs.inImages, hs.outImages,
      Table.wf_set hs.counters n StationCounters.zero⟩
  | memoryAgent => exact ⟨hs.mem, hs.banks, hs.runtime, hs.inImages, hs.outImages, hs.counters⟩
  | trunk => exact ⟨hs.mem, hs.banks, hs.runtime, hs.inImages, hs.outImages, hs.counters⟩
  | dropA => exact ⟨hs.mem, hs.banks, hs.runtime, hs.inImages, hs.outImages, hs.counters⟩
  | dropB => exact ⟨hs.mem, hs.banks, hs.runtime, hs.inImages, hs.outImages, hs.counters⟩

theorem Canonical.opRun {told : Nat → Prop} {sync : Prop} {s t : State} (h : OpRun told sync s t) (hs : Canonical s) :
    Canonical t := by
  rcases h with h | ⟨u, hop, h⟩
  · exact hs.moves h
  · exact (hs.bankOp hop).moves h

theorem Canonical.does {told : Nat → Prop} {sync : Prop} {c : Instr} {s t : State} (h : Does told sync c s t)
    (hs : Canonical s) : Canonical t := by
  have hpop : Canonical (dequeued s) := hs.moves (.dequeue (told := told) (sync := sync) s)
  cases h with
  | asserts => exact ⟨hs.mem, hs.banks, hs.runtime, hs.inImages, hs.outImages, hs.counters⟩
  | resets _ => exact ⟨⟨rfl, hs.mem.2⟩, fun k => by cases k <;> exact ⟨rfl, rfl⟩, rfl, rfl, rfl, rfl⟩
  | runs h => exact hs.opRun h
  | executes h => exact hpop.opRun h
  | clears _ g h => exact (hpop.clearGroup g).moves h
  | clearsAll _ h =>
    refine Canonical.moves h ⟨hpop.mem, hpop.banks, hpop.runtime, hpop.inImages, hpop.outImages, rfl⟩
  | restarts d h => exact (hpop.restartEffects d).moves h
  | completes h _ _ hfreed =>
    have hu := hs.moves h
    have hv : Canonical _ := Canonical.moves hfreed
      ⟨hu.mem, hu.banks, hu.runtime, hu.inImages, hu.outImages, hu.counters⟩
    exact hv.of_eq (by simpa using hv.mem)

/-- Settles O6. -/
theorem tablesStayCanonical : Obligations.TablesStayCanonical := by
  intro s t hs hstep
  rcases step_cases hstep with rfl | ⟨c, rest, -, hexec⟩
  · exact hs
  · have hc := (canonical_iff s).1 hs
    have hc : Canonical { s with pending := rest } :=
      ⟨hc.mem, hc.banks, hc.runtime, hc.inImages, hc.outImages, hc.counters⟩
    exact (canonical_iff t).2 (hc.does (exec_does (slotsTold_trivial _) hexec))

end Sys2Proof.Proofs.Invariants
end

section
/-! PROOFS. The banks under every command (O18 to O20): the laws of the bank states, the ACTIVE bank, and the contents. -/

namespace Sys2Proof.Proofs.BankInvariants

open Sys2Proof Sys2Proof.Machine Sys2Proof.Proofs.Updates Sys2Proof.Proofs.Commands Sys2Proof.Proofs.Invariants
  Sys2Proof.Proofs.Resets

/-! ## The two banks by their role -/

@[simp] theorem other_other (b : BankId) : b.other.other = b := by cases b <;> rfl

theorem other_ne (b : BankId) : b.other ≠ b := by cases b <;> decide

theorem eq_or_eq_other (b k : BankId) : b = k ∨ b = k.other := by cases b <;> cases k <;> decide

theorem eq_active_or_standbyId (s : State) (b : BankId) : b = s.active ∨ b = s.standbyId := eq_or_eq_other b s.active

theorem active_eq {s : State} {k : BankId} (hk : (s.bank k).state = .active) (ho : (s.bank k.other).state ≠ .active) :
    s.active = k := by
  cases k with
  | bank0 => exact if_pos hk
  | bank1 => exact if_neg ho

theorem oneActive_iff (s : State) :
    OneActive s ↔ (s.bank s.active).state = .active ∧ (s.bank s.standbyId).state ≠ .active := by
  unfold OneActive State.standbyId State.active
  by_cases h0 : s.bank0.state = .active <;> by_cases h1 : s.bank1.state = .active <;>
    simp [h0, h1, BankId.other]

theorem active_congr {s t : State} (h : ∀ k, ((t.bank k).state = .active ↔ (s.bank k).state = .active)) :
    t.active = s.active := by
  unfold State.active
  exact if_congr (h .bank0) rfl rfl

/-- Replacing a bank by one that is ACTIVE exactly when it was leaves the ACTIVE bank's number. -/
theorem active_setBank {s : State} {b : BankId} {v : Bank} (h : v.state = .active ↔ (s.bank b).state = .active) :
    (s.setBank b v).active = s.active := by
  refine active_congr fun k => ?_
  rw [State.setBank_bank]
  split
  · next hk => rw [hk, h]
  · rfl

/-! ## The laws of the bank states (O18) -/

/-- What the bank laws say of the ACTIVE bank, the other bank and the open slot. -/
structure BankRoles (a o : Bank) (open? : Option Nat) : Prop where
  active : a.state = .active
  other : o.state ≠ .active
  activeChecked : a.check = none
  flight : o.flightLaw
  checked : o.checkedLaw
  slot : open?.isSome = (o.state = .filling || o.state = .checking : Bool)

/-- Some bank is ACTIVE and the other one is not, and both are lawful. -/
def BankLaws (s : State) : Prop := ∃ k, BankRoles (s.bank k) (s.bank k.other) s.agent.openSlot

theorem bankLaws_iff (s : State) : BankLaws s ↔ OneActive s ∧ FlightLaw s ∧ CheckedLaw s ∧ OpenSlotLaw s := by
  constructor
  · rintro ⟨k, hactive, hother, hpassed, hflight, hchecked, hslot⟩
    have hk := active_eq hactive hother
    have hactiveFlight : (s.bank k).flightLaw := by simp [Bank.flightLaw, hactive]
    have hactiveChecked : (s.bank k).checkedLaw := fun _ => hpassed
    refine ⟨(oneActive_iff s).2 ⟨?_, ?_⟩, ?_, ?_, ?_⟩
    · rwa [hk]
    · rwa [State.standbyId, hk]
    · cases k
      · exact ⟨hactiveFlight, hflight⟩
      · exact ⟨hflight, hactiveFlight⟩
    · cases k
      · exact ⟨hactiveChecked, hchecked⟩
      · exact ⟨hchecked, hactiveChecked⟩
    · rwa [OpenSlotLaw, State.engineRunning, State.standbyState, State.standbyId, hk]
  · rintro ⟨hone, ⟨hf0, hf1⟩, ⟨hc0, hc1⟩, hslot⟩
    obtain ⟨hactive, hother⟩ := (oneActive_iff s).1 hone
    have hflight : ∀ k, (s.bank k).flightLaw := fun k => by cases k; exacts [hf0, hf1]
    have hchecked : ∀ k, (s.bank k).checkedLaw := fun k => by cases k; exacts [hc0, hc1]
    exact ⟨s.active, hactive, hother, hchecked _ (.inl hactive), hflight _, hchecked _, hslot⟩

theorem BankLaws.of_eq {s t : State} (h : BankLaws s) (hbank : ∀ k, t.bank k = s.bank k := by simp)
    (hslot : t.agent.openSlot = s.agent.openSlot := by simp) : BankLaws t := by
  obtain ⟨k, hk⟩ := h
  exact ⟨k, by rwa [hbank, hbank, hslot]⟩

/-- A lawful state names its ACTIVE bank. -/
theorem BankLaws.roles {s : State} (h : BankLaws s) :
    BankRoles (s.bank s.active) (s.bank s.standbyId) s.agent.openSlot := by
  obtain ⟨k, hk⟩ := h
  have hactive := active_eq hk.active hk.other
  rw [State.standbyId, hactive]
  exact hk

/-- Putting `v` in the ACTIVE bank's place. -/
theorem BankLaws.setActive {s : State} (h : BankLaws s) {v : Bank} (hstate : v.state = .active)
    (hcheck : v.check = none) : BankLaws (s.setBank s.active v) := by
  have hr := h.roles
  have hne : s.active.other ≠ s.active := other_ne _
  refine ⟨s.active, ?_⟩
  rw [State.setBank_bank_same, State.setBank_bank_other _ _ _ _ hne]
  exact { hr with active := hstate, activeChecked := hcheck, slot := by rw [State.setBank_agent]; exact hr.slot }

/-- Putting `v` in the other bank's place, with the open slot as it then is. -/
theorem BankLaws.setOther {s t : State} (h : BankLaws s) {v : Bank} (hbank : ∀ k, t.bank k = (s.setBank s.standbyId v).bank k)
    (hstate : v.state ≠ .active) (hflight : v.flightLaw) (hchecked : v.checkedLaw)
    (hslot : t.agent.openSlot.isSome = (v.state = .filling || v.state = .checking : Bool)) : BankLaws t := by
  have hr := h.roles
  have hne : s.active ≠ s.standbyId := (other_ne _).symm
  refine ⟨s.active, ?_⟩
  rw [hbank, hbank, State.setBank_bank_other _ _ _ _ hne]
  change BankRoles _ ((s.setBank s.standbyId v).bank s.standbyId) _
  rw [State.setBank_bank_same]
  exact ⟨hr.active, hstate, hr.activeChecked, hflight, hchecked, hslot⟩

/-- A stamp release of a bank that is not ACTIVE: a RETIRING bank may go to STANDBY, and no other state changes. -/
theorem releaseOne_laws {b : Bank} (hne : b.state ≠ .active) (hflight : b.flightLaw) (hchecked : b.checkedLaw) :
    b.releaseOne.state ≠ .active ∧ b.releaseOne.flightLaw ∧ b.releaseOne.checkedLaw ∧
    (b.releaseOne.state = .filling ↔ b.state = .filling) ∧ (b.releaseOne.state = .checking ↔ b.state = .checking) := by
  obtain ⟨-, hnone⟩ := hflight
  have hcheck : b.releaseOne.check = b.check := check_congr rfl rfl
  unfold Bank.checkedLaw Bank.flightLaw
  rw [hcheck]
  by_cases hr : b.state = .retiring
  · have hpassed := hchecked (.inr (.inr hr))
    by_cases hlast : b.inFlight - 1 = 0
    · simp [Bank.releaseOne, hr, hlast]
    · simp [Bank.releaseOne, hr, hlast, hpassed]
      omega
  · have hstate : b.releaseOne.state = b.state := if_neg fun h => hr h.1
    have hcount : b.releaseOne.inFlight = 0 := by simp [Bank.releaseOne, hnone hr hne]
    rw [hstate, hcount]
    exact ⟨hne, ⟨fun h => absurd h hr, fun _ _ => rfl⟩, hchecked, Iff.rfl, Iff.rfl⟩

theorem BankLaws.unstamp {s : State} (h : BankLaws s) (b : BankId) : BankLaws (s.setBank b (s.bank b).releaseOne) := by
  have hr := h.roles
  rcases eq_active_or_standbyId s b with rfl | rfl
  · exact h.setActive (by simp [Bank.releaseOne, hr.active]) (check_eq_none_of_same hr.activeChecked rfl rfl)
  · obtain ⟨hstate, hflight, hchecked, hfilling, hchecking⟩ := releaseOne_laws hr.other hr.flight hr.checked
    refine h.setOther (fun k => rfl) hstate hflight hchecked ?_
    rw [State.setBank_agent, decide_eq_decide.2 hfilling, decide_eq_decide.2 hchecking]
    exact hr.slot

/-- The switch exchanges the roles of the banks. -/
theorem BankLaws.switch {s : State} (h : BankLaws s) (hp : s.standbyState = .pending) :
    BankLaws ((s.setBankState s.standbyId .active).setBankState s.active
      (if (s.bank s.active).inFlight = 0 then .standby else .retiring)) := by
  have hr := h.roles
  have hpassed := hr.checked (.inr (.inl hp))
  have hclosed : s.agent.openSlot.isSome = false := by
    rw [hr.slot, show (s.bank s.standbyId).state = .pending from hp]
    rfl
  have hne : s.standbyId ≠ s.active := other_ne _
  have hback : s.standbyId.other = s.active := other_other _
  refine ⟨s.standbyId, ?_⟩
  rw [hback, State.setBankState, State.setBank_bank_other _ _ _ _ hne, State.setBank_bank_same, State.setBankState,
    State.setBank_bank_same, State.setBank_bank_other _ _ _ _ hne.symm]
  have hold : ({ s.bank s.active with
      state := if (s.bank s.active).inFlight = 0 then .standby else .retiring } : Bank).check = none :=
    check_eq_none_of_same hr.activeChecked rfl rfl
  refine ⟨rfl, ?_, check_eq_none_of_same hpassed rfl rfl, ?_, fun _ => hold, ?_⟩
  · dsimp only
    split <;> simp
  · by_cases hzero : (s.bank s.active).inFlight = 0
    · simp [Bank.flightLaw, hzero]
    · simp [Bank.flightLaw, hzero]
      omega
  · by_cases hzero : (s.bank s.active).inFlight = 0 <;> simpa [hzero] using hclosed

theorem BankLaws.moves {told : Nat → Prop} {sync : Prop} {s t : State} (h : Moves told sync s t) (hs : BankLaws s) :
    BankLaws t := by
  induction h with
  | refl s => exact hs
  | trans _ _ ih1 ih2 => exact ih2 (ih1 hs)
  | emit h => exact hs.of_eq (fun k => State.emitOne_bank _ k h) (by rw [State.emitOne_agent _ h])
  | stamp s => exact hs.setActive hs.roles.active (check_eq_none_of_same hs.roles.activeChecked rfl rfl)
  | unstamp s b => exact hs.unstamp b
  | switch _ hp => exact hs.switch hp
  | cache s e => exact hs.of_eq (hslot := rfl)
  | enqueueRequest d h => exact hs.of_eq (hslot := rfl)
  | dequeue s => exact hs.of_eq (hslot := rfl)
  | _ => exact hs.of_eq

theorem BankLaws.bankOp {s t : State} (h : BankOp s t) (hs : BankLaws s) : BankLaws t := by
  have hr := hs.roles
  have hnone : ∀ {b : Bank}, b.flightLaw → b.state ≠ .active → b.state ≠ .retiring → b.inFlight = 0 :=
    fun hf ha hret => hf.2 hret ha
  cases h with
  | @write b v hb hstate hflight _ =>
    have hother : b = s.standbyId := by
      rcases eq_active_or_standbyId s b with rfl | rfl
      · exact absurd (hb.symm.trans hr.active) (by decide)
      · rfl
    subst hother
    have hzero := hnone hr.flight hr.other (by rw [hb]; decide)
    exact hs.setOther (fun k => rfl) (by rw [hstate]; decide) (by simp [Bank.flightLaw, hstate, hflight, hzero])
      (by simp [Bank.checkedLaw, hstate]) (by simpa [hstate, hb] using hr.slot)
  | @advance b hb =>
    have hother : b = s.standbyId := by
      rcases eq_active_or_standbyId s b with rfl | rfl
      · exact absurd (hb.symm.trans hr.active) (by decide)
      · rfl
    subst hother
    have hzero := hnone hr.flight hr.other (by rw [hb]; decide)
    refine hs.setOther (v := (s.bank s.standbyId).copyFrom (s.bank s.active)
      (min copyLength (s.copyDone + Config.copyAdvance s.freeTick))) (fun k => rfl) ?_ ?_ ?_ ?_
    · exact hr.other
    · simp [Bank.flightLaw, Bank.copyFrom, hb, hzero]
    · simp [Bank.checkedLaw, Bank.copyFrom, hb]
    · simpa [State.copyAdvances, Bank.copyFrom] using hr.slot
  | @start hstandby st hst label n d =>
    have hzero := hnone hr.flight hr.other (by rw [show (s.bank s.standbyId).state = .standby from hstandby]; decide)
    refine hs.setOther (v := { s.bank s.standbyId with state := st, label := label }) (fun k => rfl) ?_ ?_ ?_ ?_
    all_goals rcases hst with rfl | rfl <;> simp [Bank.flightLaw, Bank.checkedLaw, State.openRequest, hzero]
  | @finish hrun v hstate hflight _ _ n k =>
    have hrun : (s.bank s.standbyId).state = .filling ∨ (s.bank s.standbyId).state = .checking := hrun
    have hzero := hnone hr.flight hr.other (by rcases hrun with h | h <;> rw [h] <;> decide)
    refine hs.setOther (v := v) (fun k => rfl) ?_ ?_ ?_ ?_
    all_goals rcases hstate with h | ⟨h, hc⟩ <;> simp_all [Bank.flightLaw, Bank.checkedLaw]
  | withdraw hp =>
    have hp : (s.bank s.standbyId).state = .pending := hp
    have hzero := hnone hr.flight hr.other (by rw [hp]; decide)
    exact hs.setOther (v := { s.bank s.standbyId with state := .standby }) (fun k => rfl) (by simp)
      (by simp [Bank.flightLaw, hzero]) (by simp [Bank.checkedLaw]) (by simpa [hp] using hr.slot)

theorem BankLaws.opRun {told : Nat → Prop} {sync : Prop} {s t : State} (h : OpRun told sync s t) (hs : BankLaws s) :
    BankLaws t := by
  rcases h with h | ⟨u, hop, h⟩
  · exact hs.moves h
  · exact (hs.bankOp hop).moves h

/-- What a RESTART makes of the banks: its copy, if one runs, reaches the other bank alone. -/
theorem restartCopy_bank (s : State) (k : BankId) :
    (s.restartCopy.bank k).state = (s.bank k).state ∧ (s.restartCopy.bank k).label = (s.bank k).label ∧
    ((s.restartCopy.bank k).stations = (s.bank k).stations ∧ (s.restartCopy.bank k).points = (s.bank k).points ∨
      s.standbyState = .filling ∧ k = s.standbyId) := by
  unfold State.restartCopy
  split
  · next hf =>
    by_cases hk : k = s.standbyId
    · subst hk
      have hbank : (s.copyAdvances.setCopyDone 0).bank s.standbyId = (s.bank s.standbyId).copyFrom (s.bank s.active)
          (min copyLength (s.copyDone + Config.copyAdvance s.freeTick)) := by simp [State.copyAdvances]
      rw [hbank]
      exact ⟨rfl, rfl, .inr ⟨hf, rfl⟩⟩
    · have hbank : (s.copyAdvances.setCopyDone 0).bank k = s.bank k := by simp [State.copyAdvances, hk]
      rw [hbank]
      exact ⟨rfl, rfl, .inl ⟨rfl, rfl⟩⟩
  · exact ⟨rfl, rfl, .inl ⟨rfl, rfl⟩⟩

theorem restartEffects_bank (s : State) (d : Nat) (k : BankId) :
    (s.restartEffects d).bank k = (s.restartCopy.bank k).restart := by
  cases k <;> rfl

theorem BankLaws.restartEffects {s : State} (hs : BankLaws s) (d : Nat) : BankLaws (s.restartEffects d) := by
  have hr := hs.roles
  have hother : (s.bank s.standbyId).state ≠ .active := hr.other
  obtain ⟨hstate, -, hcontents⟩ := restartCopy_bank s s.active
  obtain ⟨hostate, -⟩ := restartCopy_bank s s.standbyId
  have hcheck : (s.restartCopy.bank s.active).check = none := by
    rcases hcontents with ⟨hst, hpt⟩ | ⟨-, heq⟩
    · exact (check_congr hst hpt).trans hr.activeChecked
    · exact absurd heq.symm (other_ne _)
  refine ⟨s.active, ?_⟩
  rw [restartEffects_bank, restartEffects_bank]
  change BankRoles _ (s.restartCopy.bank s.standbyId).restart none
  refine ⟨?_, ?_, check_eq_none_of_same hcheck rfl rfl, ?_, ?_, ?_⟩
  · simp [Bank.restart, hstate, hr.active]
  all_goals simp [Bank.restart, Bank.flightLaw, Bank.checkedLaw, hostate, hother]

theorem bankLaws_powerOn (s : State) : BankLaws s.powerOn := by
  refine ⟨.bank0, rfl, fun h => BankState.noConfusion h, check_reset .active, ?_, ?_, rfl⟩
  · exact ⟨fun h => BankState.noConfusion h, fun _ _ => rfl⟩
  · exact fun _ => check_reset .standby

theorem clearGroup_bank (s : State) (g : Group) (k : BankId) : (s.clearGroup g).bank k = s.bank k := by
  cases g <;> cases k <;> rfl

theorem clearGroup_agent (s : State) (g : Group) : (s.clearGroup g).agent = s.agent := by
  cases g <;> rfl

theorem BankLaws.does {told : Nat → Prop} {sync : Prop} {c : Instr} {s t : State} (h : Does told sync c s t)
    (hs : BankLaws s) : BankLaws t := by
  have hpop : BankLaws (dequeued s) := hs.of_eq (fun k => rfl) rfl
  cases h with
  | asserts => exact hs.of_eq (fun k => rfl) rfl
  | resets _ => exact bankLaws_powerOn s
  | runs h => exact hs.opRun h
  | executes h => exact hpop.opRun h
  | clears _ g h => exact (hpop.of_eq (clearGroup_bank _ g) (by rw [clearGroup_agent])).moves h
  | clearsAll _ h => exact BankLaws.moves h (hpop.of_eq (fun k => rfl) rfl)
  | restarts d h => exact (hpop.restartEffects d).moves h
  | completes h _ _ hfreed => exact ((BankLaws.moves hfreed ((hs.moves h).of_eq (fun k => rfl) rfl))).of_eq

/-- Settles O18. -/
theorem bankLawsKept : Obligations.BankLawsKept := by
  intro s t hs hstep
  rcases step_cases hstep with rfl | ⟨c, rest, -, hexec⟩
  · exact hs
  · have hb : BankLaws { s with pending := rest } := ((bankLaws_iff s).2 hs).of_eq (fun k => rfl) rfl
    exact (bankLaws_iff t).1 (hb.does (exec_does (slotsTold_trivial _) hexec))

end Sys2Proof.Proofs.BankInvariants
end

section
/-! PROOFS. What no command changes out of turn: the queue of commands and the reset pin (O2), the contents of a bank that
is neither STANDBY nor FILLING (O20), and the ACTIVE bank (O19). -/

namespace Sys2Proof.Proofs.EventFrames

open Sys2Proof Sys2Proof.Machine Sys2Proof.Proofs.Updates Sys2Proof.Proofs.Commands Sys2Proof.Proofs.Invariants
  Sys2Proof.Proofs.BankInvariants

section

variable {told : Nat → Prop} {sync : Prop} {s t : State}

/-! ## The queue of commands and the reset pin (O2) -/

theorem moves_held (h : Moves told sync s t) : t.pending = s.pending ∧ t.resetHeld = s.resetHeld := by
  induction h with
  | trans _ _ ih1 ih2 => exact ⟨ih2.1.trans ih1.1, ih2.2.trans ih1.2⟩
  | emit h => exact ⟨State.emitOne_pending _ h, State.emitOne_resetHeld _ h⟩
  | cache s e => exact ⟨rfl, rfl⟩
  | _ => simp

theorem bankOp_held (h : BankOp s t) : t.pending = s.pending ∧ t.resetHeld = s.resetHeld := by
  cases h <;> simp [State.openRequest]

theorem opRun_held (h : OpRun told sync s t) : t.pending = s.pending ∧ t.resetHeld = s.resetHeld := by
  rcases h with h | ⟨u, hop, h⟩
  · exact moves_held h
  · obtain ⟨hp, hr⟩ := bankOp_held hop
    exact ⟨(moves_held h).1.trans hp, (moves_held h).2.trans hr⟩

theorem clearGroup_held (s : State) (g : Group) :
    (s.clearGroup g).pending = s.pending ∧ (s.clearGroup g).resetHeld = s.resetHeld := by
  cases g <;> exact ⟨rfl, rfl⟩

theorem restartCopy_held (s : State) :
    s.restartCopy.pending = s.pending ∧ s.restartCopy.resetHeld = s.resetHeld := by
  unfold State.restartCopy
  split <;> simp

theorem does_pending {c : Instr} (h : Does told sync c s t) : t.pending = s.pending := by
  cases h with
  | asserts _ => rfl
  | resets _ => rfl
  | runs h => exact (opRun_held h).1
  | executes h => exact (opRun_held h).1
  | clears _ g h => exact (moves_held h).1.trans (clearGroup_held _ g).1
  | clearsAll _ h => exact (moves_held h).1
  | restarts d h => exact (moves_held h).1.trans (restartCopy_held _).1
  | completes h _ _ hfreed =>
    rw [State.handHead_pending]
    exact (moves_held hfreed).1.trans (moves_held h).1

theorem does_resetHeld {c : Instr} (hassert : c ≠ .resetAsserted) (hreset : c ≠ .powerOnReset)
    (h : Does told sync c s t) : t.resetHeld = s.resetHeld := by
  cases h with
  | asserts hc => exact absurd hc hassert
  | resets hc => exact absurd hc hreset
  | runs h => exact (opRun_held h).2
  | executes h => exact (opRun_held h).2
  | clears _ g h => exact (moves_held h).2.trans (clearGroup_held _ g).2
  | clearsAll _ h => exact (moves_held h).2
  | restarts d h => exact (moves_held h).2.trans (restartCopy_held _).2
  | completes h _ _ hfreed =>
    rw [State.handHead_resetHeld]
    exact (moves_held hfreed).2.trans (moves_held h).2

/-- A command answers a next state. -/
theorem exec_answers (c : Instr) (s : State) : ∃ t, exec c s = .next t := by
  by_cases hassert : c = .resetAsserted
  · subst hassert
    exact ⟨_, rfl⟩
  by_cases hreset : c = .powerOnReset
  · subst hreset
    exact ⟨_, rfl⟩
  exact ⟨_, (exec_eq_event hassert hreset s).trans (event_next _ s)⟩

/-- Settles O2. -/
theorem commandsAnswerNextAndTheResetPinHolds : Obligations.CommandsAnswerNextAndTheResetPinHolds := by
  refine ⟨fun c s => ?_, fun s => ⟨rfl, fun hheld => ⟨fun c hreset => ?_, fun p => if_pos hheld⟩⟩⟩
  · obtain ⟨t, ht⟩ := exec_answers c s
    refine ⟨t, ht, does_pending (exec_does (slotsTold_trivial s) ht), ?_⟩
    split
    · obtain rfl := Host.Outcome.next.inj ht
      rfl
    · obtain rfl := Host.Outcome.next.inj ht
      rfl
    · next hassert hreset => exact does_resetHeld hassert hreset (exec_does (slotsTold_trivial s) ht)
  · by_cases hassert : c = .resetAsserted
    · subst hassert
      exact congrArg Host.Outcome.next (by cases s; cases hheld; rfl)
    · rw [exec_eq_event hassert hreset, event_held _ s hheld]

/-! ## The contents of a bank (O20) -/

/-- Bank `b` has the same station entries, point records and label. -/
def SameContents (b : BankId) (s t : State) : Prop :=
  (t.bank b).stations = (s.bank b).stations ∧ (t.bank b).points = (s.bank b).points ∧
    (t.bank b).label = (s.bank b).label

theorem SameContents.of_eq {b : BankId} (h : t.bank b = s.bank b) : SameContents b s t := by
  simp [SameContents, h]

theorem SameContents.trans {b : BankId} {u : State} (h1 : SameContents b s t) (h2 : SameContents b t u) :
    SameContents b s u :=
  ⟨h2.1.trans h1.1, h2.2.1.trans h1.2.1, h2.2.2.trans h1.2.2⟩

theorem SameContents.setBank {b k : BankId} {v : Bank}
    (h : b = k → v.stations = (s.bank b).stations ∧ v.points = (s.bank b).points ∧ v.label = (s.bank b).label) :
    SameContents b s (s.setBank k v) := by
  unfold SameContents
  rw [State.setBank_bank]
  split
  · next hk => exact h hk
  · exact ⟨rfl, rfl, rfl⟩

theorem moves_contents (b : BankId) (h : Moves told sync s t) : SameContents b s t := by
  induction h with
  | refl s => exact .of_eq rfl
  | trans _ _ ih1 ih2 => exact ih1.trans ih2
  | emit h => exact .of_eq (State.emitOne_bank _ b h)
  | stamp s => exact .setBank fun h => h ▸ ⟨rfl, rfl, rfl⟩
  | unstamp s k => exact .setBank fun h => h ▸ ⟨rfl, rfl, rfl⟩
  | switch _ _ =>
    exact (SameContents.setBank fun h => h ▸ ⟨rfl, rfl, rfl⟩).trans (.setBank fun h => h ▸ ⟨rfl, rfl, rfl⟩)
  | cache s e => exact .of_eq rfl
  | _ => exact .of_eq (by simp)

section

variable {b : BankId} (hstandby : (s.bank b).state ≠ .standby)
  (hfilling : (s.bank b).state ≠ .filling)
include hstandby hfilling

theorem bankOp_contents (hone : OneActive s) (h : BankOp s t) : SameContents b s t := by
  cases h with
  | write hb _ _ _ => exact .setBank fun h => absurd (h ▸ hb) hstandby
  | @advance k hk =>
    refine .of_eq (State.copyAdvances_bank_other s b fun hb => ?_)
    have hactive := ((oneActive_iff s).1 hone).1
    rcases eq_active_or_standbyId s k with rfl | rfl
    · exact BankState.noConfusion (hk.symm.trans hactive)
    · exact hfilling (hb ▸ hk)
  | start h hst label n d =>
    exact (SameContents.setBank (v := _) fun hb => absurd (hb ▸ h) hstandby).trans (.of_eq rfl)
  | finish h _ _ _ hkept n k =>
    refine (SameContents.setBank fun hb => ?_).trans (.of_eq rfl)
    subst hb
    rcases h with h | h
    · exact absurd h hfilling
    · exact hkept h
  | withdraw h => exact .setBank fun hb => hb ▸ ⟨rfl, rfl, rfl⟩

theorem opRun_contents (hone : OneActive s) (h : OpRun told sync s t) : SameContents b s t := by
  rcases h with h | ⟨u, hop, h⟩
  · exact moves_contents b h
  · exact (bankOp_contents hstandby hfilling hone hop).trans (moves_contents b h)

theorem restartEffects_contents (d : Nat) : SameContents b s (s.restartEffects d) := by
  unfold SameContents
  rw [restartEffects_bank]
  obtain ⟨-, hlabel, ⟨hst, hpt⟩ | ⟨hf, rfl⟩⟩ := restartCopy_bank s b
  · exact ⟨hst, hpt, hlabel⟩
  · exact absurd hf hfilling

theorem does_contents {c : Instr} (hone : OneActive s) (hreset : c ≠ .powerOnReset) (h : Does told sync c s t) :
    SameContents b s t := by
  cases h with
  | asserts _ => exact .of_eq (by simp)
  | resets hc => exact absurd hc hreset
  | runs h => exact opRun_contents hstandby hfilling hone h
  | executes h => exact opRun_contents (s := dequeued s) hstandby hfilling hone h
  | clears _ g h =>
    exact (SameContents.of_eq (clearGroup_bank (dequeued s) g b)).trans (moves_contents b h)
  | clearsAll _ h => exact (SameContents.of_eq (s := s) (t := (dequeued s).clearAllGroups) rfl).trans (moves_contents b h)
  | restarts d h =>
    exact (restartEffects_contents (s := dequeued s) hstandby hfilling d).trans (moves_contents b h)
  | completes h _ _ hfreed =>
    have hkept := (moves_contents b h).trans ((SameContents.of_eq (by simp)).trans (moves_contents b hfreed))
    exact hkept.trans (.of_eq (by simp))

end

/-- Settles O20. -/
theorem bankContentsChangeOnlyInStandbyOrFilling : Obligations.BankContentsChangeOnlyInStandbyOrFilling :=
  fun _ s _ _ hone hexec hreset hstandby hfilling =>
    does_contents hstandby hfilling hone hreset (exec_does (slotsTold_trivial s) hexec)

/-! ## The ACTIVE bank (O19) -/

/-- From `s` to `t` the banks keep their roles, or have switched once, under a SYNC. -/
def SwitchesAtMostOnce (sync : Prop) (s t : State) : Prop :=
  t.active = s.active ∧ (t.standbyState = .pending → s.standbyState = .pending) ∨
  sync ∧ s.standbyState = .pending ∧ t.active = s.standbyId ∧ t.standbyState ≠ .pending

theorem SwitchesAtMostOnce.trans {u : State} (h1 : SwitchesAtMostOnce sync s t) (h2 : SwitchesAtMostOnce sync t u) :
    SwitchesAtMostOnce sync s u := by
  rcases h1 with ⟨hactive, hpending⟩ | ⟨hsync, hpending, hactive, hnot⟩
  · rcases h2 with ⟨hactive2, hpending2⟩ | ⟨hsync, hpending2, hactive2, hnot2⟩
    · exact .inl ⟨hactive2.trans hactive, fun h => hpending (hpending2 h)⟩
    · refine .inr ⟨hsync, hpending hpending2, ?_, hnot2⟩
      rw [hactive2, State.standbyId, hactive]
      rfl
  · rcases h2 with ⟨hactive2, hpending2⟩ | ⟨-, hpending2, -⟩
    · exact .inr ⟨hsync, hpending, hactive2.trans hactive, fun h => hnot (hpending2 h)⟩
    · exact absurd hpending2 hnot

/-- Whatever leaves ACTIVE banks ACTIVE, and makes neither an ACTIVE nor a PENDING one, switches nothing. -/
theorem SwitchesAtMostOnce.of_states (h : ∀ k, ((t.bank k).state = .active ↔ (s.bank k).state = .active) ∧
    ((t.bank k).state = .pending → (s.bank k).state = .pending)) : SwitchesAtMostOnce sync s t := by
  have hactive : t.active = s.active := active_congr fun k => (h k).1
  have hid : t.standbyId = s.standbyId := congrArg BankId.other hactive
  refine .inl ⟨hactive, fun hp => ?_⟩
  rw [State.standbyState, hid] at hp
  exact (h _).2 hp

theorem SwitchesAtMostOnce.of_bank_eq (h : ∀ k, t.bank k = s.bank k) : SwitchesAtMostOnce sync s t :=
  .of_states fun k => by rw [h k]; exact ⟨Iff.rfl, id⟩

theorem SwitchesAtMostOnce.setBank {b : BankId} {v : Bank}
    (h : (v.state = .active ↔ (s.bank b).state = .active) ∧ (v.state = .pending → (s.bank b).state = .pending)) :
    SwitchesAtMostOnce sync s (s.setBank b v) := by
  refine .of_states fun k => ?_
  rw [State.setBank_bank]
  split
  · next hk => exact hk ▸ h
  · exact ⟨Iff.rfl, id⟩

theorem SwitchesAtMostOnce.switch (hsync : sync) (hp : s.standbyState = .pending) :
    SwitchesAtMostOnce sync s ((s.setBankState s.standbyId .active).setBankState s.active
      (if (s.bank s.active).inFlight = 0 then .standby else .retiring)) := by
  have hne : s.standbyId ≠ s.active := other_ne _
  have hold : ∀ n : Nat, (if n = 0 then BankState.standby else .retiring) ≠ .active ∧
      (if n = 0 then BankState.standby else .retiring) ≠ .pending := fun n => by split <;> decide
  have hactive : ((s.setBankState s.standbyId .active).setBankState s.active
      (if (s.bank s.active).inFlight = 0 then .standby else .retiring)).active = s.standbyId := by
    refine active_eq ?_ ?_
    · rw [State.setBankState_bank_other _ _ _ _ hne, State.setBankState, State.setBank_bank_same]
    · rw [State.standbyId, other_other, State.setBankState, State.setBank_bank_same]
      exact (hold _).1
  have hid : ((s.setBankState s.standbyId .active).setBankState s.active
      (if (s.bank s.active).inFlight = 0 then .standby else .retiring)).standbyId = s.active := by
    rw [State.standbyId, hactive, State.standbyId, other_other]
  refine .inr ⟨hsync, hp, hactive, ?_⟩
  rw [State.standbyState, hid, State.setBankState, State.setBank_bank_same]
  exact (hold _).2

theorem moves_switches (h : Moves told sync s t) : SwitchesAtMostOnce sync s t := by
  induction h with
  | refl s => exact .of_bank_eq fun _ => rfl
  | trans _ _ ih1 ih2 => exact ih1.trans ih2
  | emit h => exact .of_bank_eq fun k => State.emitOne_bank _ k h
  | stamp s => exact .setBank ⟨Iff.rfl, id⟩
  | unstamp s b =>
    refine .setBank ?_
    unfold Bank.releaseOne
    split
    · next h => simp [h.1]
    · exact ⟨Iff.rfl, id⟩
  | switch hsync hp => exact .switch hsync hp
  | cache s e => exact .of_bank_eq fun _ => rfl
  | _ => exact .of_bank_eq fun k => by simp

theorem bankOp_active (h : BankOp s t) : t.active = s.active := by
  cases h with
  | write hb hv _ _ => exact active_setBank (by rw [hv, hb])
  | advance _ => exact active_setBank (v := (s.bank s.standbyId).copyFrom (s.bank s.active) _) Iff.rfl
  | @start hs st hst label n d =>
    refine active_setBank (v := { s.bank s.standbyId with state := st, label := label }) ?_
    have hs : (s.bank s.standbyId).state = .standby := hs
    rcases hst with rfl | rfl <;> simp [hs]
  | @finish hs v hv _ _ _ n k =>
    refine active_setBank (v := v) ?_
    have hs : (s.bank s.standbyId).state = .filling ∨ (s.bank s.standbyId).state = .checking := hs
    rcases hs with hs | hs <;> rcases hv with hv | ⟨hv, -⟩ <;> simp [hs, hv]
  | withdraw hp =>
    refine active_setBank (v := { s.bank s.standbyId with state := .standby }) ?_
    have hp : (s.bank s.standbyId).state = .pending := hp
    simp [hp]

theorem active_of_moves (h : Moves told sync s t) (hsync : ¬sync) : t.active = s.active := by
  rcases moves_switches h with ⟨hactive, -⟩ | ⟨hs, -⟩
  · exact hactive
  · exact absurd hs hsync

theorem active_of_opRun (h : OpRun told sync s t) (hsync : ¬sync) : t.active = s.active := by
  rcases h with h | ⟨u, hop, h⟩
  · exact active_of_moves h hsync
  · exact (active_of_moves h hsync).trans (bankOp_active hop)

theorem active_restartEffects (s : State) (d : Nat) : (s.restartEffects d).active = s.active := by
  refine active_congr fun k => ?_
  rw [restartEffects_bank]
  have hstate := (restartCopy_bank s k).1
  by_cases ha : (s.bank k).state = .active <;> simp [Bank.restart, hstate, ha]

theorem active_of_does {c : Instr} (h : Does told sync c s t) (hreset : c ≠ .powerOnReset) (hsync : ¬sync) :
    t.active = s.active := by
  cases h with
  | asserts _ => rfl
  | resets hc => exact absurd hc hreset
  | runs h => exact active_of_opRun h hsync
  | executes h => exact active_of_opRun (s := dequeued s) h hsync
  | clears _ g h =>
    exact (active_of_moves h hsync).trans (active_congr (s := s) fun k => by rw [clearGroup_bank]; rfl)
  | clearsAll _ h => exact active_of_moves (s := (dequeued s).clearAllGroups) h hsync
  | restarts d h => exact (active_of_moves h hsync).trans (active_restartEffects (dequeued s) d)
  | completes h _ _ hfreed =>
    have hu := active_of_moves h hsync
    have hv := (active_of_moves hfreed hsync).trans hu
    exact (active_congr fun k => by simp).trans hv

/-! ### The byte that switches -/

theorem moves_seen (h : Moves told sync s t) (hseen : s.cycle.seen = true) : t.cycle.seen = true := by
  induction h with
  | trans _ _ ih1 ih2 => exact ih2 (ih1 hseen)
  | emit h => rwa [State.emitOne_cycle _ h]
  | cycle s w => rfl
  | cache s e => exact hseen
  | _ => simpa using hseen

theorem newCycle_seen (s : State) (w : Word) : (s.newCycle w).cycle.seen = true := by
  simp [State.newCycle]

theorem admitSync_seen (s : State) (a : Arrival) : (s.admitSync a).cycle.seen = true := by
  unfold State.admitSync
  simp only
  split <;> simp [newCycle_seen]

/-- What a trunk arrival does to the ACTIVE bank, it does under an admitted SYNC. -/
theorem arriveTrunk_switch {a : Arrival} (h : (s.arriveTrunk a).active ≠ s.active) :
    a.isAdmittedSync ∧ s.standbyState = .pending ∧ (s.arriveTrunk a).active = s.standbyId := by
  rcases moves_switches (Moves.arriveTrunk (told := fun _ => True) s a) with ⟨hactive, -⟩ | ⟨hsync, hp, hactive, -⟩
  · exact absurd hactive h
  · exact ⟨hsync, hp, hactive⟩

theorem arriveTrunk_seen {a : Arrival} (h : a.isAdmittedSync) : (s.arriveTrunk a).cycle.seen = true := by
  obtain ⟨hsrc, hkind, hdest, hlen⟩ := h
  simp [State.arriveTrunk, hsrc, hkind, hdest, hlen, controllerAddr, broadcastAddr, admitSync_seen]

/-- A byte that changes the ACTIVE bank completes an admitted SYNC. -/
theorem receiveByte_switch {b : Byte} (h : (s.receiveByte .t b).active ≠ s.active) :
    ∃ buf a, s.portT.rx = .frame buf ∧ checkTelegram (buf ++ [b]) = .arrived a ∧ a.isAdmittedSync ∧
      s.standbyState = .pending ∧ (s.receiveByte .t b).active = s.standbyId ∧
      (s.receiveByte .t b).cycle.seen = true := by
  rcases receiveByte_cases s .t b with heq | ⟨r, heq⟩ | ⟨r, c, heq⟩ | ⟨buf, a, hrx, hcheck, heq⟩ <;> rw [heq] at h ⊢
  · exact absurd rfl h
  · exact absurd rfl h
  · exact absurd rfl h
  · obtain ⟨hsync, hp, hactive⟩ := arriveTrunk_switch (s := s.setRx .t .hunt) h
    exact ⟨buf, a, hrx, hcheck, hsync, hp, hactive, arriveTrunk_seen hsync⟩

/-- Among bytes that change the ACTIVE bank, one does it. -/
theorem receiveBytes_switch {bs : List Byte} (h : (s.receiveBytes .t bs).active ≠ s.active) :
    (s.receiveBytes .t bs).cycle.seen = true ∧ s.standbyState = .pending ∧
    ∃ pre b post buf a, bs = pre ++ b :: post ∧
      (s.receiveBytes .t pre).portT.rx = .frame buf ∧ checkTelegram (buf ++ [b]) = .arrived a ∧ a.isAdmittedSync ∧
      (s.receiveBytes .t pre).active = s.active ∧ (s.receiveBytes .t pre).standbyState = .pending ∧
      ((s.receiveBytes .t pre).receiveByte .t b).active = s.standbyId := by
  induction bs generalizing s with
  | nil => exact absurd rfl h
  | cons b bs ih =>
    by_cases hb : (s.receiveByte .t b).active = s.active
    · obtain ⟨hseen, hp, pre, b', post, buf, a, hbs, hrx, hcheck, hsync, hactive, hpend, hswitch⟩ :=
        ih (s := s.receiveByte .t b) (hb.symm ▸ h)
      have hid : (s.receiveByte .t b).standbyId = s.standbyId := congrArg BankId.other hb
      refine ⟨hseen, ?_, b :: pre, b', post, buf, a, congrArg (b :: ·) hbs, hrx, hcheck, hsync, hactive.trans hb, hpend,
        hswitch.trans hid⟩
      rcases moves_switches (receiveByte_moves (slotsTold_trivial s) .t b) with ⟨-, hback⟩ | ⟨-, hp, -⟩
      · exact hback hp
      · exact hp
    · obtain ⟨buf, a, hrx, hcheck, hsync, hp, hactive, hseen⟩ := receiveByte_switch hb
      exact ⟨moves_seen (receiveBytes_moves (slotsTold_trivial (s.receiveByte .t b)) .t bs) hseen, hp, [], b, bs, buf, a,
        rfl, hrx, hcheck, hsync, rfl, hp, hactive⟩

/-- A command that gives bytes to the receiver of port T gives it those bytes. -/
theorem exec_trunkBytes {c : Instr} (hc : TakesTrunkBytes c) (hexec : exec c s = .next t) :
    t = s ∨ t = s.receiveBytes .t (trunkBytes c) := by
  have hevent : event (fun s => s.receiveBytes .t (trunkBytes c)) s = .next t := by
    rcases hc with ⟨b, rfl⟩ | ⟨bs, rfl⟩ | ⟨bs, rfl⟩ <;> exact hexec
  rw [event_next] at hevent
  obtain rfl := Host.Outcome.next.inj hevent
  split
  · exact .inl rfl
  · exact .inr rfl

end

/-- Settles O19. -/
theorem activeBankChangesOnlyAtSync : Obligations.ActiveBankChangesOnlyAtSync := by
  refine ⟨fun c s t _ hexec hne => ?_, fun s a _ hne => arriveTrunk_switch hne⟩
  by_cases hreset : c = .powerOnReset
  · exact .inl hreset
  have htakes : TakesTrunkBytes c :=
    not_not.1 fun hnot => hne (active_of_does (exec_does (slotsTold_trivial s) hexec) hreset hnot)
  rcases exec_trunkBytes htakes hexec with rfl | rfl
  · exact absurd rfl hne
  · obtain ⟨hseen, hp, hbyte⟩ := receiveBytes_switch hne
    exact .inr ⟨hp, hseen, htakes, hbyte⟩

end Sys2Proof.Proofs.EventFrames
end

section
/-! PROOFS. The limits of the queues (O48) and the counts that never fall (O59). -/

namespace Sys2Proof.Proofs.QueueLimits

open Sys2Proof Sys2Proof.Machine Sys2Proof.Proofs.Updates Sys2Proof.Proofs.Commands Sys2Proof.Proofs.Invariants
  Sys2Proof.Proofs.BankInvariants

/-! ## The pending set and the answer cache -/

/-- One entry per subject, and the subject 0 is the bank's. -/
def PendingSubjects (es : List NoticeEntry) : Prop :=
  (es.map NoticeEntry.subject).Nodup ∧ ∀ e ∈ es, e.subject = 0 → e.isBank = true

theorem PendingSubjects.of_map {es fs : List NoticeEntry} (h : PendingSubjects es)
    (hsubject : fs.map NoticeEntry.subject = es.map NoticeEntry.subject)
    (hbank : ∀ e ∈ fs, e.subject = 0 → e.isBank = true) : PendingSubjects fs :=
  ⟨hsubject ▸ h.1, hbank⟩

theorem PendingSubjects.append {es : List NoticeEntry} {e : NoticeEntry} (h : PendingSubjects es)
    (hnew : e.subject ∉ es.map NoticeEntry.subject) (hbank : e.subject = 0 → e.isBank = true) :
    PendingSubjects (es ++ [e]) := by
  refine ⟨?_, ?_⟩
  · rw [List.map_append, List.nodup_append]
    refine ⟨h.1, List.nodup_singleton _, fun x hx y hy hxy => hnew ?_⟩
    rw [List.map_cons, List.map_nil, List.mem_singleton] at hy
    rwa [← hy, ← hxy]
  · intro x hx
    rcases List.mem_append.1 hx with hx | hx
    · exact h.2 x hx
    · rw [List.mem_singleton.1 hx]
      exact hbank

theorem PendingSubjects.tail {e : NoticeEntry} {es : List NoticeEntry} (h : PendingSubjects (e :: es)) :
    PendingSubjects es :=
  ⟨(List.nodup_cons.1 h.1).2, fun x hx => h.2 x (List.mem_cons_of_mem _ hx)⟩

theorem PendingSubjects.reportBank {es : List NoticeEntry} (h : PendingSubjects es) (b : BankId) (label w : Word)
    : PendingSubjects (reportBankIn b label w es) := by
  unfold reportBankIn
  split
  · refine h.of_map ?_ ?_
    · rw [List.map_map]
      exact List.map_congr_left fun e _ => by cases e <;> rfl
    · intro e he hzero
      obtain ⟨x, hx, rfl⟩ := List.mem_map.1 he
      cases x with
      | bank _ _ _ => rfl
      | station n c => exact h.2 _ hx hzero
  · next hnone =>
    refine h.append (fun hmem => hnone ?_) fun _ => rfl
    obtain ⟨x, hx, hzero⟩ := List.mem_map.1 hmem
    exact List.any_eq_true.2 ⟨x, hx, h.2 x hx hzero⟩

theorem PendingSubjects.reportStation {es : List NoticeEntry} (h : PendingSubjects es) {n : Nat} (hn : 1 ≤ n) :
    PendingSubjects (reportStationIn n es) := by
  unfold reportStationIn
  split
  · refine h.of_map ?_ ?_
    · rw [List.map_map]
      refine List.map_congr_left fun e _ => ?_
      cases e with
      | bank _ _ _ => rfl
      | station k c =>
        simp only [Function.comp_apply, updateStationEntry]
        split <;> rfl
    · intro e he hzero
      obtain ⟨x, hx, rfl⟩ := List.mem_map.1 he
      cases x with
      | bank _ _ _ => rfl
      | station k c =>
        have hk : k = 0 := by
          simp only [updateStationEntry] at hzero
          split at hzero <;> exact hzero
        exact absurd (h.2 _ hx hk) (by simp [NoticeEntry.isBank])
  · next hnone =>
    refine h.append (fun hmem => hnone ?_) fun hzero => ?_
    · obtain ⟨x, hx, hsubject⟩ := List.mem_map.1 hmem
      refine List.any_eq_true.2 ⟨x, hx, ?_⟩
      cases x with
      | bank _ _ _ =>
        have : (0 : Nat) = n := hsubject
        omega
      | station k c => exact decide_eq_true hsubject
    · have : n = 0 := hzero
      omega

theorem cacheAdd_law {es : List CacheEntry} (e : CacheEntry) (hnodup : (es.map fun x => x.seq).Nodup) :
    (cacheAdd es e).length ≤ 4 ∧ ((cacheAdd es e).map fun x => x.seq).Nodup := by
  unfold cacheAdd
  simp only
  refine ⟨?_, ?_⟩
  · simp only [List.length_drop, cacheSize]
    omega
  · rw [List.map_drop]
    refine List.Nodup.sublist (List.drop_sublist _ _) ?_
    rw [List.map_append, List.nodup_append]
    refine ⟨hnodup.sublist (List.Sublist.map _ List.filter_sublist), List.nodup_singleton _, fun x hx y hy hxy => ?_⟩
    obtain ⟨z, hz, rfl⟩ := List.mem_map.1 hx
    rw [List.map_cons, List.map_nil, List.mem_singleton] at hy
    exact of_decide_eq_true (List.mem_filter.1 hz).2 (hxy.trans hy)

/-! ## The limits under the single updates -/

/-- The limits of notices, requests, cached answers and pending subjects. -/
structure Limits (s : State) : Prop where
  notices : s.egress.noticeCount ≤ 2
  requests : s.agent.requests.length ≤ 4
  cache : CacheLaw s
  pendingSet : PendingSubjects s.notices.pendingSet

theorem Limits.of_eq {s t : State} (h : Limits s) (hcount : t.egress.noticeCount = s.egress.noticeCount := by simp)
    (hagent : t.agent = s.agent := by simp) (hnotices : t.notices = s.notices := by simp) : Limits t where
  notices := hcount ▸ h.notices
  requests := hagent ▸ h.requests
  cache := by unfold CacheLaw; exact hagent ▸ h.cache
  pendingSet := hnotices ▸ h.pendingSet

section

variable {told : Nat → Prop} {sync : Prop} {s t : State}

theorem Limits.moves (h : Moves told sync s t) (htold : ∀ n, told n → 1 ≤ n) (hs : Limits s) : Limits t := by
  induction h with
  | refl s => exact hs
  | trans _ _ ih1 ih2 => exact ih2 (ih1 hs)
  | emit h =>
    obtain ⟨e, rest, d, m, hp, hn, -, rfl⟩ := emitOne_eq_some h
    refine ⟨?_, ?_, ?_, ?_⟩
    · rw [State.joinEgress_egress]
      exact hn
    · rw [State.joinEgress_agent]
      exact hs.requests
    · simpa [CacheLaw] using hs.cache
    · rw [State.joinEgress_notices]
      exact (hp ▸ hs.pendingSet : PendingSubjects (e :: rest)).tail
  | join s d => exact hs.of_eq (by rw [State.joinEgress_egress])
  | reportBank s b label w => exact { hs with pendingSet := hs.pendingSet.reportBank b label w }
  | reportStation s h => exact { hs with pendingSet := hs.pendingSet.reportStation (htold _ h) }
  | cache s e => exact { hs with cache := cacheAdd_law e hs.cache.2 }
  | @enqueueRequest s d h =>
    refine { hs with requests := ?_ }
    rw [State.setAgent_agent, List.length_append]
    exact h
  | dequeue s =>
    refine { hs with requests := ?_ }
    rw [State.setAgent_agent, List.length_tail]
    exact (Nat.sub_le _ 1).trans hs.requests
  | _ => exact hs.of_eq

/-- The agent's queue and cache, the trunk egress queue and the pending set, which no action on a bank changes. -/
theorem bankOp_queues (h : BankOp s t) : t.egress = s.egress ∧ t.notices = s.notices ∧
    t.agent.requests = s.agent.requests ∧ t.agent.cache = s.agent.cache := by
  cases h <;> simp [State.openRequest]

theorem Limits.bankOp (h : BankOp s t) (hs : Limits s) : Limits t := by
  obtain ⟨hegress, hnotices, hrequests, hcache⟩ := bankOp_queues h
  exact ⟨hegress ▸ hs.notices, hrequests ▸ hs.requests, by unfold CacheLaw; exact hcache ▸ hs.cache,
    hnotices ▸ hs.pendingSet⟩

theorem Limits.opRun (h : OpRun told sync s t) (htold : ∀ n, told n → 1 ≤ n) (hs : Limits s) : Limits t := by
  rcases h with h | ⟨u, hop, h⟩
  · exact hs.moves h htold
  · exact (hs.bankOp hop).moves h htold

/-- With nothing queued, cached or pending, every limit holds. -/
theorem limits_empty (hcount : s.egress.noticeCount = 0) (hrequests : s.agent.requests = [])
    (hcache : s.agent.cache = []) (hpending : s.notices.pendingSet = []) : Limits s := by
  constructor <;> simp [hcount, hrequests, hcache, hpending, CacheLaw, PendingSubjects]

theorem clearGroup_egress (s : State) (g : Group) : (s.clearGroup g).egress = s.egress := by cases g <;> rfl

theorem clearGroup_notices (s : State) (g : Group) : (s.clearGroup g).notices = s.notices := by cases g <;> rfl

theorem Limits.does {c : Instr} (h : Does told sync c s t) (htold : ∀ n, told n → 1 ≤ n) (hs : Limits s) : Limits t := by
  have hpop : Limits (dequeued s) := hs.moves (.dequeue (told := told) (sync := sync) s) htold
  cases h with
  | asserts _ => exact hs.of_eq
  | resets _ => exact limits_empty rfl rfl rfl rfl
  | runs h => exact hs.opRun h htold
  | executes h => exact hpop.opRun h htold
  | clears _ g h =>
    exact (hpop.of_eq (by rw [clearGroup_egress]) (clearGroup_agent _ g) (clearGroup_notices _ g)).moves h htold
  | clearsAll _ h => exact Limits.moves h htold (hpop.of_eq rfl rfl rfl)
  | restarts d h => exact Limits.moves h htold (limits_empty rfl rfl rfl rfl)
  | completes h hqueue hn hfreed =>
    have hu := hs.moves h htold
    have hv := Limits.moves hfreed htold { hu with notices := hn.trans hu.notices }
    exact hv.of_eq (by rw [State.handHead_egress])

/-! ## The head of trunk egress (R153) -/

/-- Updates append to trunk egress, and hand its head when the first telegram joins. -/
theorem moves_egress (h : Moves told sync s t) : ∃ xs : List Nat,
    t.egress.queue = s.egress.queue ++ xs ∧ t.egress.handed = (s.egress.handed || !xs.isEmpty) := by
  induction h with
  | trans _ _ ih1 ih2 =>
    obtain ⟨xs, hq1, hh1⟩ := ih1
    obtain ⟨ys, hq2, hh2⟩ := ih2
    refine ⟨xs ++ ys, by rw [hq2, hq1, List.append_assoc], ?_⟩
    rw [hh2, hh1]
    cases xs <;> simp
  | emit h =>
    obtain ⟨e, rest, d, m, -, -, -, rfl⟩ := emitOne_eq_some h
    exact ⟨[d], by simp [State.joinEgress_egress]⟩
  | join s d => exact ⟨[d], by simp [State.joinEgress_egress]⟩
  | cache s e => exact ⟨[], by simp [State.cacheAnswer]⟩
  | _ => exact ⟨[], by simp⟩

/-- The head is handed whenever there is one. -/
def HeadHanded (s : State) : Prop := s.egress.handed = !s.egress.queue.isEmpty

theorem HeadHanded.moves (h : Moves told sync s t) (hs : HeadHanded s) : HeadHanded t := by
  obtain ⟨xs, hq, hh⟩ := moves_egress h
  unfold HeadHanded at hs ⊢
  rw [hh, hq, hs]
  cases s.egress.queue <;> simp

theorem HeadHanded.of_eq (hs : HeadHanded s) (h : t.egress = s.egress := by simp) : HeadHanded t := by
  unfold HeadHanded at hs ⊢
  rwa [h]

theorem HeadHanded.opRun (h : OpRun told sync s t) (hs : HeadHanded s) : HeadHanded t := by
  rcases h with h | ⟨u, hop, h⟩
  · exact hs.moves h
  · exact (hs.of_eq (bankOp_queues hop).1).moves h

theorem HeadHanded.does {c : Instr} (h : Does told sync c s t) (hs : HeadHanded s) : HeadHanded t := by
  cases h with
  | asserts _ => exact hs.of_eq
  | resets _ => rfl
  | runs h => exact hs.opRun h
  | executes h => exact HeadHanded.opRun h (hs.of_eq rfl)
  | clears _ g h => exact HeadHanded.moves h (hs.of_eq (clearGroup_egress _ g))
  | clearsAll _ h => exact HeadHanded.moves h (hs.of_eq rfl)
  | restarts d h => exact HeadHanded.moves h rfl
  | completes _ _ _ hfreed =>
    obtain ⟨xs, hq, hh⟩ := moves_egress hfreed
    unfold HeadHanded
    rw [State.handHead_egress]
    simp only [hh, hq, State.setEgress_egress]
    cases xs <;> simp

/-- Settles O48. -/
theorem queueLimitsKept : Obligations.QueueLimitsKept := by
  rintro s t _ ⟨hcount, hrequests, hcache, hnodup, hbank, hhanded⟩ hslots hstep
  have hs : Limits s := ⟨hcount, hrequests, hcache, hnodup, hbank⟩
  have hkept : Limits t ∧ HeadHanded t := by
    rcases step_cases hstep with rfl | ⟨c, rest, -, hexec⟩
    · exact ⟨hs, hhanded⟩
    · have hdoes := exec_does (told := fun n => 1 ≤ n) (s := { s with pending := rest })
        (fun g y => by cases g; exacts [hslots .a y, hslots .b y]) hexec
      have hs' : Limits { s with pending := rest } := hs.of_eq rfl rfl rfl
      have hh : HeadHanded { s with pending := rest } := hhanded
      exact ⟨hs'.does hdoes fun _ h => h, hh.does hdoes⟩
  obtain ⟨⟨hcount', hrequests', hcache', hnodup', hbank'⟩, hhanded'⟩ := hkept
  exact ⟨hcount', hrequests', hcache', hnodup', hbank', hhanded'⟩

end

end Sys2Proof.Proofs.QueueLimits
end

section
/-! PROOFS. No counter falls and no minimum rises, but at CLEAR_COUNTERS and at a power-on reset (O59). -/

namespace Sys2Proof.Proofs.CounterOrder

open Sys2Proof Sys2Proof.Machine Sys2Proof.Proofs.Updates Sys2Proof.Proofs.Commands Sys2Proof.Proofs.Invariants
  Sys2Proof.Proofs.BankInvariants

/-! ## The order of the counters -/

theorem trunk_le_refl (c : TrunkCounters) : c.le c := by simp [TrunkCounters.le]

theorem drop_le_refl (c : DropCounters) : c.le c := by simp [DropCounters.le]

theorem trunk_le_trans {c d e : TrunkCounters} (h1 : c.le d) (h2 : d.le e) : c.le e := by
  obtain ⟨a1, a2, a3, a4, a5, a6, a7⟩ := h1
  obtain ⟨b1, b2, b3, b4, b5, b6, b7⟩ := h2
  exact ⟨BitVec.le_trans a1 b1, BitVec.le_trans a2 b2, BitVec.le_trans a3 b3, BitVec.le_trans a4 b4,
    BitVec.le_trans a5 b5, BitVec.le_trans a6 b6, BitVec.le_trans a7 b7⟩

theorem drop_le_trans {c d e : DropCounters} (h1 : c.le d) (h2 : d.le e) : c.le e := by
  obtain ⟨a1, a2, a3, a4, a5, a6⟩ := h1
  obtain ⟨b1, b2, b3, b4, b5, b6⟩ := h2
  exact ⟨BitVec.le_trans a1 b1, BitVec.le_trans a2 b2, BitVec.le_trans a3 b3, BitVec.le_trans a4 b4,
    BitVec.le_trans a5 b5, BitVec.le_trans a6 b6⟩

theorem station_le_trans {c d e : StationCounters} (h1 : c.le d) (h2 : d.le e) : c.le e := by
  obtain ⟨a1, a2, a3, a4, a5, a6, a7, a8, a9⟩ := h1
  obtain ⟨b1, b2, b3, b4, b5, b6, b7, b8, b9⟩ := h2
  exact ⟨BitVec.le_trans a1 b1, BitVec.le_trans a2 b2, BitVec.le_trans a3 b3, BitVec.le_trans a4 b4,
    BitVec.le_trans a5 b5, BitVec.le_trans a6 b6, BitVec.le_trans a7 b7, BitVec.le_trans a8 b8, BitVec.le_trans a9 b9⟩

theorem trunk_le_bump (c : TrunkCounters) (p : PortCounter) : c.le (c.bump p) := by
  cases p <;> simp [TrunkCounters.le, TrunkCounters.bump, le_satInc]

theorem drop_le_bump (c : DropCounters) (p : PortCounter) : c.le (c.bump p) := by
  cases p <;> simp [DropCounters.le, DropCounters.bump, le_satInc]

/-- No counter of a bank of counters is below its counterpart. -/
structure CountersLe (c d : CounterBank) : Prop where
  trunk : c.trunk.le d.trunk
  dropA : c.dropA.le d.dropA
  dropB : c.dropB.le d.dropB
  duplicates : c.duplicates ≤ d.duplicates
  queueFull : c.queueFull ≤ d.queueFull
  stations : ∀ n, (Table.get StationCounters.zero c.stations n).le (Table.get StationCounters.zero d.stations n)

theorem CountersLe.refl (c : CounterBank) : CountersLe c c :=
  ⟨trunk_le_refl _, drop_le_refl _, drop_le_refl _, BitVec.le_refl _, BitVec.le_refl _, fun _ => le_refl_station _⟩

theorem CountersLe.trans {c d e : CounterBank} (h1 : CountersLe c d) (h2 : CountersLe d e) : CountersLe c e :=
  ⟨trunk_le_trans h1.trunk h2.trunk, drop_le_trans h1.dropA h2.dropA, drop_le_trans h1.dropB h2.dropB,
    BitVec.le_trans h1.duplicates h2.duplicates, BitVec.le_trans h1.queueFull h2.queueFull,
    fun n => station_le_trans (h1.stations n) (h2.stations n)⟩

theorem countersLe_countPort (s : State) (p : Port) (c : PortCounter) :
    CountersLe s.counters (s.countPort p c).counters := by
  cases p with
  | t => exact { CountersLe.refl s.counters with trunk := trunk_le_bump _ c }
  | a => exact { CountersLe.refl s.counters with dropA := drop_le_bump _ c }
  | b => exact { CountersLe.refl s.counters with dropB := drop_le_bump _ c }

theorem countersLe_countStation {s : State} (hwf : Table.wf StationCounters.zero s.counters.stations = true) (n : Nat)
    {f : StationCounters → StationCounters} (hf : ∀ c : StationCounters, c.le (f c)) :
    CountersLe s.counters (s.countStation n f).counters := by
  refine { CountersLe.refl s.counters with stations := fun k => ?_ }
  change _ ≤ _ ∧ _
  rw [State.countStation, State.setCounters_counters, Table.get_set (Table.wf_rising hwf)]
  split
  · next hk => exact hk ▸ hf _
  · exact le_refl_station _

/-! ## The minima (R34) -/

/-- No minimum rises. -/
def MinimaLe (m m' : TelegramMemory) : Prop := m'.minDescs ≤ m.minDescs ∧ m'.minBlocks ≤ m.minBlocks

theorem MinimaLe.refl (m : TelegramMemory) : MinimaLe m m := ⟨Nat.le_refl _, Nat.le_refl _⟩

theorem MinimaLe.trans {m m' m'' : TelegramMemory} (h1 : MinimaLe m m') (h2 : MinimaLe m' m'') : MinimaLe m m'' :=
  ⟨h2.1.trans h1.1, h2.2.trans h1.2⟩

theorem minimaLe_writeChain (m : TelegramMemory) (chain : List Nat) (ws : List Word) :
    MinimaLe m (m.writeChain chain ws) := by
  rw [TelegramMemory.writeChain_rest]
  exact .refl m

theorem minimaLe_allocate {m m' : TelegramMemory} {cls : AllocClass} {h : Header} {ws : List Word} {d : Nat}
    (ha : m.allocate cls h ws = some (d, m')) : MinimaLe m m' := by
  obtain ⟨-, -, rfl⟩ := TelegramMemory.allocate_eq_some.1 ha
  have htaken : MinimaLe m ((m.takeFree 1 (blocksFor ws.length)).setDesc d
      (h.descriptor ws.length (m.freeBlocks.take (blocksFor ws.length)))) :=
    ⟨Nat.min_le_left _ _, Nat.min_le_left _ _⟩
  exact htaken.trans (minimaLe_writeChain _ _ _)

theorem minimaLe_replaceChain (m : TelegramMemory) (d : Nat) (ws : List Word) : MinimaLe m (m.replaceChain d ws).2 := by
  unfold TelegramMemory.replaceChain
  simp only
  split
  · exact .refl m
  · split
    · refine MinimaLe.trans ?_ (minimaLe_writeChain _ _ _)
      exact ⟨Nat.min_le_left _ _, Nat.min_le_left _ _⟩
    · exact .refl m

theorem minimaLe_releaseAllBut (m : TelegramMemory) (keep : Nat) : MinimaLe m (m.releaseAllBut keep) := by
  unfold TelegramMemory.releaseAllBut
  induction m.inUse.filter (fun d => d ≠ keep) generalizing m with
  | nil => exact .refl m
  | cons d ds ih => exact ih (m.release d)

/-! ## Every command (O59) -/

/-- From `s` to `t` no counter falls and no minimum rises. -/
structure NeverFalls (s t : State) : Prop where
  counters : CountersLe s.counters t.counters
  minima : MinimaLe s.mem t.mem

theorem NeverFalls.trans {s t u : State} (h1 : NeverFalls s t) (h2 : NeverFalls t u) : NeverFalls s u :=
  ⟨h1.counters.trans h2.counters, h1.minima.trans h2.minima⟩

theorem NeverFalls.of_counters_eq {s t : State} (hm : MinimaLe s.mem t.mem)
    (hc : t.counters = s.counters := by simp) : NeverFalls s t :=
  ⟨hc ▸ .refl _, hm⟩

theorem NeverFalls.of_eq {s t : State} (hm : t.mem = s.mem := by simp) (hc : t.counters = s.counters := by simp) :
    NeverFalls s t :=
  .of_counters_eq (hm ▸ .refl _) hc

theorem NeverFalls.of_mem_eq {s t : State} (hc : CountersLe s.counters t.counters) (hm : t.mem = s.mem := by simp) :
    NeverFalls s t :=
  ⟨hc, hm ▸ .refl _⟩

/-- The station counters are in canonical form. -/
def CountersCanonical (s : State) : Prop := Table.wf StationCounters.zero s.counters.stations = true

theorem CountersCanonical.of_eq {s t : State} (h : CountersCanonical s)
    (hc : t.counters.stations = s.counters.stations := by simp) : CountersCanonical t := by
  unfold CountersCanonical at h ⊢
  rwa [hc]

section

variable {told : Nat → Prop} {sync : Prop} {s t : State}

theorem moves_neverFalls (h : Moves told sync s t) (hwf : CountersCanonical s) :
    NeverFalls s t ∧ CountersCanonical t := by
  induction h with
  | refl s => exact ⟨.of_eq rfl rfl, hwf⟩
  | trans _ _ ih1 ih2 =>
    obtain ⟨h1, hwf1⟩ := ih1 hwf
    obtain ⟨h2, hwf2⟩ := ih2 hwf1
    exact ⟨h1.trans h2, hwf2⟩
  | allocate ha => exact ⟨.of_counters_eq (minimaLe_allocate ha), hwf⟩
  | setDesc s d x => exact ⟨.of_counters_eq (.refl _), hwf⟩
  | replace s d ws => exact ⟨.of_counters_eq (minimaLe_replaceChain _ d ws), hwf⟩
  | release s d => exact ⟨.of_counters_eq (.refl _), hwf⟩
  | rewrite s d ws => exact ⟨.of_counters_eq (minimaLe_writeChain _ _ ws), hwf⟩
  | emit h =>
    obtain ⟨e, rest, d, m, -, -, ha, rfl⟩ := emitOne_eq_some h
    have hminima := minimaLe_allocate ha
    exact ⟨.of_counters_eq (by rw [State.joinEgress_mem]; exact hminima), hwf.of_eq⟩
  | countPort s p c => exact ⟨.of_mem_eq (countersLe_countPort s p c), hwf.of_eq (countPort_stations s p c)⟩
  | countStation s n hf => exact ⟨.of_mem_eq (countersLe_countStation hwf n hf), Table.wf_set hwf n _⟩
  | countDuplicate s =>
    exact ⟨.of_mem_eq { CountersLe.refl s.counters with duplicates := le_satInc _ }, hwf⟩
  | countQueueFull s =>
    exact ⟨.of_mem_eq { CountersLe.refl s.counters with queueFull := le_satInc _ }, hwf⟩
  | cache s e => exact ⟨.of_eq rfl rfl, hwf⟩
  | _ => exact ⟨.of_eq, hwf.of_eq⟩

theorem bankOp_counts (h : BankOp s t) : t.mem = s.mem ∧ t.counters = s.counters := by
  cases h <;> simp [State.openRequest]

theorem opRun_neverFalls (h : OpRun told sync s t) (hwf : CountersCanonical s) : NeverFalls s t := by
  rcases h with h | ⟨u, hop, h⟩
  · exact (moves_neverFalls h hwf).1
  · obtain ⟨hmem, hcounters⟩ := bankOp_counts hop
    exact (NeverFalls.of_eq hmem hcounters).trans (moves_neverFalls h (hwf.of_eq (by rw [hcounters]))).1

theorem restartCopy_counts (s : State) : s.restartCopy.mem = s.mem ∧ s.restartCopy.counters = s.counters := by
  unfold State.restartCopy
  split <;> simp

theorem restartEffects_neverFalls (s : State) (d : Nat) : NeverFalls s (s.restartEffects d) := by
  obtain ⟨hmem, hcounters⟩ := restartCopy_counts s
  refine .of_counters_eq ?_ hcounters
  have hminima : MinimaLe s.restartCopy.mem (s.restartEffects d).mem := minimaLe_releaseAllBut s.restartCopy.mem d
  rwa [hmem] at hminima

theorem does_neverFalls {c : Instr} (h : Does told sync c s t) (hclear : c ≠ .clearCounters)
    (hreset : c ≠ .powerOnReset) (hwf : CountersCanonical s) : NeverFalls s t := by
  have hpop : NeverFalls s (dequeued s) := .of_eq
  cases h with
  | asserts _ => exact .of_eq
  | resets hc => exact absurd hc hreset
  | runs h => exact opRun_neverFalls h hwf
  | executes h => exact hpop.trans (opRun_neverFalls (s := dequeued s) h hwf)
  | clears hc _ _ => exact absurd hc hclear
  | clearsAll hc _ => exact absurd hc hclear
  | restarts d h =>
    have hrestart := restartEffects_neverFalls (dequeued s) d
    have hcounters : ((dequeued s).restartEffects d).counters = s.counters := (restartCopy_counts (dequeued s)).2
    exact (hpop.trans hrestart).trans (moves_neverFalls h (hwf.of_eq (by rw [hcounters]))).1
  | @completes _ u v h d rest _ n _ hfreed =>
    obtain ⟨hu, hwfu⟩ := moves_neverFalls h hwf
    have hpopped : NeverFalls u (u.setEgress { queue := rest, handed := false, noticeCount := n }) := .of_eq
    have hv := (moves_neverFalls hfreed hwfu).1
    exact ((hu.trans hpopped).trans hv).trans .of_eq

end

/-- Settles O59. -/
theorem countersNeverFall : Obligations.CountersNeverFall := by
  intro c s t hwf hexec hclear hreset
  obtain ⟨⟨htrunk, hdropA, hdropB, hdup, hfull, hstations⟩, hminima⟩ :=
    does_neverFalls (exec_does (slotsTold_trivial s) hexec) hclear hreset hwf
  exact ⟨htrunk, hdropA, hdropB, hdup, hfull, hstations, hminima⟩

end Sys2Proof.Proofs.CounterOrder
end

section
/-! PROOFS. The receivers and the line (O8 to O12, O15): one byte, a telegram's bytes, what the bits on the line are received
as, and what a telegram that is discarded leaves. -/

namespace Sys2Proof.Proofs.Reception

open Sys2Proof Sys2Proof.Machine Sys2Proof.Proofs.LineCrc Sys2Proof.Proofs.Intake

/-! ## The line commands of a running part -/

section

variable {s : State} (hheld : s.resetHeld = false) (p : Port)
include hheld

theorem exec_leadByte (f : SerialByte) : exec (.leadByte p f) s = .next (s.receiveBytes p (takenBytes [f])) :=
  event_running (State.receiveSerial · p [f]) s hheld

theorem exec_countAbove32 (fs : List SerialByte) :
    exec (.countAbove32 p fs) s = .next (s.receiveBytes p (takenBytes fs)) :=
  event_running (State.receiveSerial · p fs) s hheld

theorem exec_receiveTelegram (fs : List SerialByte) :
    exec (.receiveTelegram p fs) s = .next (s.receiveBytes p (takenBytes fs)) :=
  event_running (State.receiveSerial · p fs) s hheld

theorem exec_truncation : exec (.truncation p) s = .next (s.truncate p) :=
  event_running (State.truncate · p) s hheld

theorem exec_discardSilence : exec (.discardSilence p) s = .next (s.discardEnds p) :=
  event_running (State.discardEnds · p) s hheld

theorem exec_spacingEnds : exec (.spacingEnds p) s = .next (s.spacingDone p) :=
  event_running (State.spacingDone · p) s hheld

/-- A telegram that a port sends is one arrival at the port that hunts for it. -/
theorem exec_receiveTelegram_lineSerial (q : Port) {t : Telegram} (hrx : (s.port p).rx = .hunt)
    (hwords : t.words.length ≤ 32) :
    exec (.receiveTelegram p (lineSerial q t)) s = .next (s.arrive p (arrivalOf t)) :=
  (exec_receiveTelegram hheld p _).trans (congrArg _ (receiveSerial_lineSerial hrx hwords q))

end

/-! ## One byte (R4, R6) -/

theorem dataByte_eq {f : SerialByte} {b : Byte} (h : ∀ i, i < 8 → f.getLsbD (i + 1) = b.getLsbD i) : dataByte f = b := by
  refine BitVec.eq_of_getLsbD_eq fun i hi => ?_
  rw [getLsbD_dataByte f hi, Nat.add_comm, h i hi]

theorem receiveByte_of_hunt {s : State} {p : Port} (hrx : (s.port p).rx = .hunt) (b : Byte) :
    s.receiveByte p b = if b = 0x5A then s.setRx p (.frame []) else s := by
  simp only [State.receiveByte, hrx]
  rfl

theorem receiveByte_of_discard {s : State} {p : Port} (hrx : (s.port p).rx = .discard) (b : Byte) :
    s.receiveByte p b = s := by
  simp only [State.receiveByte, hrx]

/-- A byte that ends neither an overlong header nor a telegram joins the buffer. -/
theorem receiveByte_of_open {s : State} {p : Port} {buf : List Byte} (hrx : (s.port p).rx = .frame buf) {b : Byte}
    (hheader : (buf ++ [b]).length = 6 → bufCount (buf ++ [b]) ≤ 32) (hopen : bufComplete (buf ++ [b]) = false) :
    s.receiveByte p b = s.setRx p (.frame (buf ++ [b])) := by
  have hshort : ¬((buf ++ [b]).length = 6 ∧ 32 < bufCount (buf ++ [b])) := fun h => absurd (hheader h.1) (by omega)
  simp only [State.receiveByte, hrx, if_neg hshort, hopen, Bool.false_eq_true, if_false]

/-- The sixth header byte with a count above 32 sends the receiver to DISCARD. -/
theorem receiveByte_of_overlong {s : State} {p : Port} {buf : List Byte} (hrx : (s.port p).rx = .frame buf)
    (hlen : buf.length = 5) {b : Byte} (hcount : 32 < b.toNat) :
    s.receiveByte p b = (s.setRx p .discard).countPort p .rxFormat := by
  have hlong : (buf ++ [b]).length = 6 ∧ 32 < bufCount (buf ++ [b]) := by
    refine ⟨by simp [hlen], ?_⟩
    rw [bufCount, bufByte_append_right (by omega), hlen]
    exact hcount
  simp only [State.receiveByte, hrx, if_pos hlong]

theorem receiveByte_of_short {s : State} {p : Port} {buf : List Byte} (hrx : (s.port p).rx = .frame buf)
    (hlen : buf.length < 5) (b : Byte) : s.receiveByte p b = s.setRx p (.frame (buf ++ [b])) := by
  refine receiveByte_of_open hrx (fun h => ?_) ?_
  · rw [List.length_append, List.length_singleton] at h
    omega
  · have hopen : ¬6 ≤ (buf ++ [b]).length := by
      rw [List.length_append, List.length_singleton]
      omega
    simp only [bufComplete, hopen, decide_false, Bool.false_and]

/-- Settles O8. -/
theorem receiverTakesOneByte : Obligations.ReceiverTakesOneByte := by
  constructor
  · intro s p f b hheld hstart hbits
    have hexec : exec (.leadByte p f) s = .next (s.receiveByte p b) := by
      rw [exec_leadByte hheld, takenBytes_cons, takenByte_of_low hstart, dataByte_eq hbits]
      rfl
    rw [hexec]
    refine ⟨fun hrx => ?_, fun hrx => ?_, fun buf hrx hlen => ?_, fun buf hrx hlen hcount => ?_,
      fun buf hrx hlen hopen => ?_⟩
    · rw [receiveByte_of_hunt hrx]
    · rw [receiveByte_of_discard hrx]
    · rw [receiveByte_of_short hrx hlen]
    · have hbuf : bufCount (buf ++ [b]) = b.toNat := by
        rw [bufCount, bufByte_append_right (by omega), hlen]
        rfl
      rw [receiveByte_of_open hrx (fun _ => hbuf ▸ hcount)]
      simp only [bufComplete, hbuf, List.length_append, List.length_singleton, hlen, Bool.and_eq_false_iff,
        decide_eq_false_iff_not]
      omega
    · have hbuf : bufCount (buf ++ [b]) = (buf.getD 5 0).toNat := bufCount_append_left hlen [b]
      have hlen' : (buf ++ [b]).length = buf.length + 1 := by simp
      rw [receiveByte_of_open hrx (fun h => by omega)]
      simp only [bufComplete, hbuf, hlen', Bool.and_eq_false_iff, decide_eq_false_iff_not]
      omega
  · intro s p f hheld hrest
    rw [exec_leadByte hheld, takenBytes_cons, takenByte_of_high hrest]
    rfl

/-! ## Overlong, truncated and damaged telegrams (R5 to R8) -/

theorem receiveBytes_append (s : State) (p : Port) (xs ys : List Byte) :
    s.receiveBytes p (xs ++ ys) = (s.receiveBytes p xs).receiveBytes p ys :=
  List.foldl_append

theorem receiveBytes_singleton (s : State) (p : Port) (b : Byte) : s.receiveBytes p [b] = s.receiveByte p b := rfl

/-- The rest of an overlong header, from any place in it. -/
theorem receiveBytes_of_overlong {s : State} {p : Port} {buf bytes : List Byte} (hrx : (s.port p).rx = .frame buf)
    (hlen : (buf ++ bytes).length = 5) {b : Byte} (hcount : 32 < b.toNat) :
    s.receiveBytes p (bytes ++ [b]) = (s.setRx p .discard).countPort p .rxFormat := by
  have hfits : Receiver.fits (.frame (buf ++ bytes)) = true := by simp [Receiver.fits, hlen]
  rw [receiveBytes_append, receiveBytes_of_fits hrx hfits, receiveBytes_singleton,
    receiveByte_of_overlong (State.setRx_port_same s p _ ▸ rfl) hlen hcount, State.setRx_setRx]

/-- A header of six bytes, split before its count byte. -/
theorem header_split {header : List Byte} (hlen : header.length = 6) :
    ∃ five : List Byte, ∃ b : Byte, header = five ++ [b] ∧ five.length = 5 ∧ header.getD 5 0 = b := by
  refine ⟨header.take 5, header.getD 5 0, ?_, by simp [hlen], rfl⟩
  have h5 : 5 < header.length := by omega
  rw [List.getD_eq_getElem _ _ h5, List.take_append_getElem, List.take_of_length_le (by omega)]

/-- Settles O9. -/
theorem overlongAndTruncatedTelegrams : Obligations.OverlongAndTruncatedTelegrams := by
  constructor
  · intro s p header fs hheld hlen hcount
    obtain ⟨five, b, rfl, hfive, hb⟩ := header_split hlen
    rw [hb] at hcount
    rw [exec_countAbove32 hheld]
    refine ⟨fun hrx htaken => ?_, fun k hk hrx htaken => ?_⟩
    · have hlead : s.receiveByte p 0x5A = s.setRx p (.frame []) := by rw [receiveByte_of_hunt hrx, if_pos rfl]
      have hrest := receiveBytes_of_overlong (s := s.setRx p (.frame [])) (p := p) (buf := [])
        (by rw [State.setRx_port_same]) hfive hcount
      rw [htaken]
      change Host.Outcome.next ((s.receiveByte p 0x5A).receiveBytes p (five ++ [b])) = _
      rw [hlead, hrest, State.setRx_setRx]
    · have htake : (five ++ [b]).take k = five.take k := List.take_append_of_le_length (by omega)
      have hdrop : (five ++ [b]).drop k = five.drop k ++ [b] := List.drop_append_of_le_length (by omega)
      rw [htaken, hdrop,
        receiveBytes_of_overlong (hrx.trans (by rw [htake])) (by rw [List.take_append_drop, hfive]) hcount]
  · intro s p hheld
    rw [exec_truncation hheld, exec_discardSilence hheld]
    refine ⟨fun buf hrx => ?_, fun hrx => ?_, fun hrx => ?_⟩ <;> simp [State.truncate, State.discardEnds, hrx]

theorem ofCode_eq_none {c : BitVec 4} (h : c.toNat = 0 ∨ 7 ≤ c.toNat) : Kind.ofCode c = none := by
  unfold Kind.ofCode
  split
  case h_7 => rfl
  all_goals omega

theorem checkTelegram_of_unknownKind {body : List Byte} {hi lo : Byte} (hlen : body.length = 6 + 2 * bufCount body)
    (hcrc : crc16 body = hi ++ lo) (hkind : Kind.ofCode ((bufByte body 2).setWidth 4) = none) :
    checkTelegram (body ++ [hi, lo]) = .unknownKind := by
  have hmatch := (not_congr (checkTelegram_append_pair_eq_crcMismatch_iff hi lo hlen)).2 (not_not.2 hcrc)
  have hbyte : bufByte (body ++ [hi, lo]) 2 = bufByte body 2 := bufByte_append_left (by omega) _
  unfold checkTelegram at hmatch ⊢
  simp only [hbyte, hkind] at hmatch ⊢
  split
  · rfl
  · next hne => exact absurd (if_neg hne) hmatch

/-- Settles O10. -/
theorem damagedTelegramsAreOnlyCounted : Obligations.DamagedTelegramsAreOnlyCounted := by
  intro s p body hi lo fs hheld hrx hcount hlen htaken
  have hcount' : bufCount (body ++ [hi]) = bufCount body := bufCount_append_left (by omega) [hi]
  have hbody : bufCount body = (body.getD 5 0).toNat := rfl
  have hlen' : (body ++ [hi]).length = body.length + 1 := by simp
  have hends : exec (.receiveTelegram p fs) s = .next (s.telegramEnds p (body ++ [hi, lo])) := by
    have hcomplete := receiveBytes_of_complete hrx (bytes := body ++ [hi]) (b := lo) (by omega) (by omega)
    rw [List.append_assoc] at hcomplete
    rw [exec_receiveTelegram hheld, htaken]
    exact congrArg _ hcomplete
  rw [hends, State.telegramEnds, setRx_of_rx hrx]
  refine ⟨fun hcrc => ?_, fun hcrc hkind => ?_⟩
  · simp only [(checkTelegram_append_pair_eq_crcMismatch_iff hi lo hlen).2 hcrc]
  · have hnone : Kind.ofCode ((bufByte body 2).setWidth 4) = none := ofCode_eq_none (by
      rw [BitVec.toNat_setWidth]
      exact hkind)
    simp only [checkTelegram_of_unknownKind hlen hcrc hnone]

/-! ## The line (R1, R2) -/

theorem serialBytes_flatMap (fs : List SerialByte) (h : ∀ f ∈ fs, f.getLsbD 0 = false) :
    serialBytes (fs.flatMap serialBits) = fs := by
  induction fs with
  | nil => rfl
  | cons f fs ih =>
    rw [List.flatMap_cons, serialBytes_serialBits (h f (List.mem_cons_self ..)),
      ih fun g hg => h g (List.mem_cons_of_mem _ hg)]

theorem serialBytes_lineBits (p : Port) (t : Telegram) : serialBytes (lineBits p t) = lineSerial p t := by
  refine serialBytes_flatMap _ fun f hf => ?_
  obtain ⟨b, -, rfl⟩ := List.mem_map.1 hf
  exact getLsbD_zero_serialOf b

theorem lineBits_eq (p : Port) (t : Telegram) : lineBits p t = (lineBytes p t).flatMap fun b =>
    [false, b.getLsbD 0, b.getLsbD 1, b.getLsbD 2, b.getLsbD 3, b.getLsbD 4, b.getLsbD 5, b.getLsbD 6, b.getLsbD 7,
      true] := by
  rw [lineBits, lineSerial, List.flatMap_map]
  exact congrArg (List.flatMap · _) (funext serialBits_serialOf)

theorem serialBytes_replicate_true (n : Nat) (bits : List Bool) :
    serialBytes (List.replicate n true ++ bits) = serialBytes bits := by
  induction n with
  | zero => rfl
  | succ n ih => rw [List.replicate_succ, List.cons_append, serialBytes_rest, ih]

/-- A line held low is received as zero bytes. -/
theorem takenBytes_replicate_false (n : Nat) :
    takenBytes (serialBytes (List.replicate (10 * n) false)) = List.replicate n 0 := by
  induction n with
  | zero => rfl
  | succ n ih =>
    have hten : List.replicate (10 * (n + 1)) false = serialBits 0 ++ List.replicate (10 * n) false := by
      rw [Nat.mul_succ, Nat.add_comm, List.replicate_add]
      rfl
    rw [hten, serialBytes_serialBits (by decide), takenBytes_cons, ih]
    rfl

/-- Settles O11. -/
theorem lineRoundTrip : Obligations.LineRoundTrip := by
  refine ⟨fun s p q t hheld hrx hwords => ?_, lineBits_eq, fun p t => ⟨serialBytes_lineBits p t, takenBytes_lineSerial p t⟩,
    ⟨takenBytes_nil, fun f fs => ⟨fun hhigh => ?_, fun hlow => ?_⟩⟩, fun s p fs gs htaken => ?_,
    serialBytes_replicate_true, fun f bits hlow => serialBytes_serialBits hlow bits, takenBytes_replicate_false,
    rfl, rfl, rfl, rfl, rfl, rfl, rfl, rfl, rfl, rfl, rfl⟩
  · rw [serialBytes_lineBits]
    exact exec_receiveTelegram_lineSerial hheld p q hrx hwords
  · rw [takenBytes_cons, takenByte_of_high hhigh]
    rfl
  · refine ⟨dataByte f, ?_, fun i hi => ?_⟩
    · rw [takenBytes_cons, takenByte_of_low hlow]
      rfl
    · rw [getLsbD_dataByte f hi, Nat.add_comm]
  · have hserial : (State.receiveSerial · p fs) = (State.receiveSerial · p gs) :=
      funext fun s => congrArg (s.receiveBytes p) htaken
    exact ⟨congrArg (event · s) hserial, congrArg (event · s) hserial⟩

/-! ## Arrivals that are only counted (R13 to R15) -/

theorem arriveTrunk_of_foreign (s : State) {a : Arrival} (hsrc : a.src ≠ 0) :
    s.arriveTrunk a = s.countPort .t .rxAddress :=
  if_pos hsrc

section

variable (s : State) {a : Arrival} (hsrc : a.src = 0)
include hsrc

theorem arriveTrunk_of_unexpected (h : a.kind = .reply ∨ a.kind = .mgmtAns ∨ a.kind = .notice) :
    s.arriveTrunk a = s.countPort .t .rxUnexpected := by
  unfold State.arriveTrunk
  rw [if_neg (show ¬a.src ≠ controllerAddr from not_not.2 hsrc)]
  rcases h with h | h | h <;> simp only [h]

theorem arriveTrunk_poll (h : a.kind = .poll) : s.arriveTrunk a =
    if 1 ≤ a.dest.toNat ∧ a.dest.toNat ≤ 61 then (s.countPort .t .rxGood).admitPoll a
    else s.countPort .t .rxAddress := by
  unfold State.arriveTrunk
  rw [if_neg (show ¬a.src ≠ controllerAddr from not_not.2 hsrc)]
  simp only [h]
  rfl

theorem arriveTrunk_sync (h : a.kind = .sync) : s.arriveTrunk a =
    if a.dest ≠ 63 then s.countPort .t .rxAddress
    else if a.words.length ≠ 1 then s.countPort .t .rxFormat
    else (s.countPort .t .rxGood).admitSync a := by
  unfold State.arriveTrunk
  rw [if_neg (show ¬a.src ≠ controllerAddr from not_not.2 hsrc)]
  simp only [h]
  rfl

theorem arriveTrunk_request (h : a.kind = .mgmtReq) : s.arriveTrunk a =
    if a.dest = 62 then (s.countPort .t .rxGood).intake a else s.countPort .t .rxAddress := by
  unfold State.arriveTrunk
  rw [if_neg (show ¬a.src ≠ controllerAddr from not_not.2 hsrc)]
  simp only [h]
  rfl

end

theorem accepts_eq_some_iff (s : State) (g : Segment) (src : Addr) (seq : Byte) (x : Transaction) :
    (s.seg g).accepts src seq = some x ↔ Matches s g x src seq := by
  unfold SegmentController.accepts
  split
  · next t hslot =>
    by_cases hfit : src = t.station ∧ seq = t.seq ∧
        ((s.seg g).state = .awaiting ∨ (s.seg g).state = .sending ∧ 2 ≤ t.triesMade)
    · rw [if_pos hfit]
      obtain ⟨rfl, rfl, hstate⟩ := hfit
      constructor
      · rintro ⟨⟩
        exact ⟨hslot, rfl, rfl, hstate⟩
      · rintro ⟨hslot', -⟩
        exact congrArg some (Slot.poll.inj (hslot.symm.trans hslot'))
    · rw [if_neg hfit]
      refine ⟨fun h => (nomatch h), fun ⟨hslot', hstation, hseq, hstate⟩ => absurd ?_ hfit⟩
      obtain rfl := Slot.poll.inj (hslot.symm.trans hslot')
      exact ⟨hstation.symm, hseq.symm, hstate⟩
  · next hslot => exact ⟨fun h => (nomatch h), fun h => (nomatch hslot.symm.trans h.1)⟩
  · next d hslot => exact ⟨fun h => (nomatch h), fun h => (nomatch hslot.symm.trans h.1)⟩

theorem arriveDrop_of_other (s : State) (g : Segment) {a : Arrival} (h : a.kind ≠ .reply) :
    s.arriveDrop g a = s.countPort (dropPort g) .rxStray :=
  if_pos h

theorem arriveDrop_of_address (s : State) (g : Segment) {a : Arrival} (hkind : a.kind = .reply)
    (h : a.dest ≠ 0 ∨ ¬(1 ≤ a.src.toNat ∧ a.src.toNat ≤ 61)) :
    s.arriveDrop g a = s.countPort (dropPort g) .rxAddress := by
  unfold State.arriveDrop
  rw [if_neg (not_not.2 hkind)]
  exact if_pos h

section

variable {s : State} {g : Segment} {a : Arrival} (hkind : a.kind = .reply) (hdest : a.dest = 0)
  (hsrc : 1 ≤ a.src.toNat ∧ a.src.toNat ≤ 61)
include hdest hsrc

theorem addressed_as_reply :
    ¬(a.dest ≠ controllerAddr ∨ ¬(1 ≤ a.src.toNat ∧ a.src.toNat ≤ Config.stations)) := by
  rintro (h | h)
  · exact h hdest
  · exact h hsrc

include hkind

theorem arriveDrop_of_match {x : Transaction} (h : Matches s g x a.src a.seq) :
    s.arriveDrop g a = (s.countPort (dropPort g) .rxGood).matchReply g x a.words := by
  unfold State.arriveDrop
  rw [if_neg (not_not.2 hkind), if_neg (addressed_as_reply hdest hsrc)]
  simp only [(accepts_eq_some_iff s g a.src a.seq x).2 h]

theorem arriveDrop_of_stray (h : ¬∃ x, Matches s g x a.src a.seq) :
    s.arriveDrop g a = s.countPort (dropPort g) .rxStray := by
  have hnone : (s.seg g).accepts a.src a.seq = none :=
    Option.eq_none_iff_forall_ne_some.2 fun x hx => h ⟨x, (accepts_eq_some_iff s g a.src a.seq x).1 hx⟩
  unfold State.arriveDrop
  rw [if_neg (not_not.2 hkind), if_neg (addressed_as_reply hdest hsrc)]
  simp only [hnone]

end

theorem arrive_dropPort (s : State) (g : Segment) (a : Arrival) : s.arrive (dropPort g) a = s.arriveDrop g a := by
  cases g <;> rfl

/-- Settles O12. -/
theorem discardedTelegramsAreOnlyCounted : Obligations.DiscardedTelegramsAreOnlyCounted := by
  constructor
  · intro s q t hheld hrx hwords
    rw [exec_receiveTelegram_lineSerial hheld .t q hrx hwords]
    change (_ → Host.Outcome.next (s.arriveTrunk (arrivalOf t)) = _) ∧ _
    refine ⟨fun hsrc => ?_, fun hsrc => ⟨fun hkind => ?_, fun hkind hdest => ?_, fun hkind hdest => ?_,
      fun hkind hdest hlen => ?_, fun hkind hdest => ?_⟩⟩
    · rw [arriveTrunk_of_foreign s (a := arrivalOf t) hsrc]
    · exact congrArg _ (arriveTrunk_of_unexpected s (a := arrivalOf t) hsrc hkind)
    · refine congrArg _ ((arriveTrunk_poll s (a := arrivalOf t) hsrc hkind).trans (if_neg fun h => ?_))
      have hrange : 1 ≤ t.dest.toNat ∧ t.dest.toNat ≤ 61 := h
      rcases hdest with hzero | hhigh
      · rw [hzero] at hrange
        exact absurd hrange.1 (by decide)
      · omega
    · exact congrArg _ ((arriveTrunk_sync s (a := arrivalOf t) hsrc hkind).trans (if_pos hdest))
    · refine congrArg _ ((arriveTrunk_sync s (a := arrivalOf t) hsrc hkind).trans ?_)
      exact (if_neg (not_not.2 hdest)).trans (if_pos hlen)
    · exact congrArg _ ((arriveTrunk_request s (a := arrivalOf t) hsrc hkind).trans (if_neg hdest))
  · intro s g q t hheld hrx hwords
    rw [exec_receiveTelegram_lineSerial hheld (dropPort g) q hrx hwords, arrive_dropPort]
    refine ⟨fun hkind => ?_, fun hkind => ⟨fun haddress => ?_, fun hdest hlow hhigh hnone => ?_⟩⟩
    · rw [arriveDrop_of_other s g (a := arrivalOf t) hkind]
    · refine congrArg _ (arriveDrop_of_address s g (a := arrivalOf t) hkind ?_)
      rcases haddress with hdest | hzero | hhigh
      · exact .inl hdest
      · exact .inr fun h => absurd (hzero ▸ h.1 : 1 ≤ (0 : Addr).toNat) (by decide)
      · exact .inr fun h => by have : t.src.toNat ≤ 61 := h.2; omega
    · exact congrArg _ (arriveDrop_of_stray (a := arrivalOf t) hkind hdest ⟨hlow, hhigh⟩ hnone)

/-! ## The end of SPACING (R10, R11) -/

/-- Settles O15. -/
theorem spacingEndsFreesOrStarts : Obligations.SpacingEndsFreesOrStarts := by
  intro s p hheld
  rw [exec_spacingEnds hheld]
  refine ⟨fun h => ?_, fun d h => ?_, fun h => ?_, fun x h => ?_⟩ <;> simp only [State.spacingDone, h]

end Sys2Proof.Proofs.Reception
end

section
/-! PROOFS. The requests an execution event is for (O60): an operation's number and count against the request table of
section 1.7, and the events that do not take place. -/

namespace Sys2Proof.Proofs.Requests

open Sys2Proof Sys2Proof.Machine Sys2Proof.Proofs.Commands

/-! ## The request table (R19, section 1.7) -/

/-- The operation code of word 0. -/
def opNumber : MgmtOp → Nat
  | .status => 1
  | .readStation => 2
  | .writeStation => 3
  | .readPoints => 4
  | .writePoints => 5
  | .setLabel => 6
  | .readImage => 7
  | .readStationState => 8
  | .readCounters => 9
  | .clearCounters => 10
  | .setMode => 11
  | .copy => 12
  | .commit => 13
  | .cancel => 14
  | .restart => 15

theorem ofCode_eq_some_iff (w : Word) (o : MgmtOp) : MgmtOp.ofCode w = some o ↔ w.toNat = opNumber o := by
  unfold MgmtOp.ofCode
  constructor
  · intro h
    split at h <;> cases h <;> assumption
  · intro h
    rw [h]
    cases o <;> rfl

theorem ofCode_eq_none_iff (w : Word) : MgmtOp.ofCode w = none ↔ w.toNat = 0 ∨ 15 < w.toNat := by
  unfold MgmtOp.ofCode
  split
  case h_16 => simp only [true_iff, imp_false] at *; omega
  all_goals simp only [reduceCtorEq, false_iff]; omega

/-- The pairs of an operation code and the count it requires; WRITE_POINTS has a count of its own. -/
abbrev countTable : List (Nat × Nat) :=
  [(1, 1), (2, 3), (3, 12), (4, 4), (6, 3), (7, 4), (8, 2), (9, 2), (10, 2), (11, 3), (12, 1), (13, 1), (14, 1), (15, 1)]

/-- A request that fits the operation it names. -/
abbrev FitsTable (ws : List Word) : Prop :=
  ((ws.getD 0 0).toNat, ws.length) ∈ countTable ∨
  (ws.getD 0 0).toNat = 5 ∧ 1 ≤ (ws.getD 3 0).toNat ∧ (ws.getD 3 0).toNat ≤ 4 ∧
    ws.length = 4 + 6 * (ws.getD 3 0).toNat

theorem fits_iff (o : MgmtOp) (ws : List Word) (ho : (ws.getD 0 0).toNat = opNumber o) :
    o.fits ws = true ↔ FitsTable ws := by
  unfold FitsTable
  rw [ho]
  cases o with
  | writePoints =>
    simp only [MgmtOp.fits, opNumber, argNat, Bool.and_eq_true, decide_eq_true_eq]
    constructor
    · rintro ⟨⟨-, hlow, hhigh⟩, hlen⟩
      exact .inr ⟨trivial, of_decide_eq_true hlow, of_decide_eq_true hhigh, of_decide_eq_true hlen⟩
    · rintro (h | ⟨-, hlow, hhigh, hlen⟩)
      · simp at h
      · exact ⟨⟨by omega, decide_eq_true hlow, decide_eq_true hhigh⟩, decide_eq_true hlen⟩
  | _ => simp [MgmtOp.fits, opNumber]

/-- A request names operation `o` and fits it. -/
theorem classifyRequest_eq_op_iff (ws : List Word) (o : MgmtOp) :
    classifyRequest ws = .op o ↔ (ws.getD 0 0).toNat = opNumber o ∧ FitsTable ws := by
  unfold classifyRequest
  split
  · refine ⟨fun h => (nomatch h), fun h => ?_⟩
    obtain ⟨hzero, -⟩ := h
    cases o <;> exact absurd hzero (by decide)
  · next w rest =>
    have hw : (w :: rest).getD 0 0 = w := rfl
    split
    · next hnone =>
      refine ⟨fun h => (nomatch h), fun h => ?_⟩
      rw [(ofCode_eq_some_iff w o).2 h.1] at hnone
      cases hnone
    · next o' ho' =>
      have hnumber := (ofCode_eq_some_iff w o').1 ho'
      split
      · next hfits =>
        constructor
        · rintro ⟨⟩
          exact ⟨hnumber, (fits_iff o (w :: rest) hnumber).1 hfits⟩
        · rintro ⟨h, -⟩
          obtain rfl := Option.some.inj (ho'.symm.trans ((ofCode_eq_some_iff w o).2 h))
          rfl
      · next hfits =>
        exact ⟨fun h => (nomatch h), fun h => absurd ((fits_iff o' (w :: rest) hnumber).2 h.2) hfits⟩

/-- A request that fits passes tests 1 to 3. -/
theorem not_malformed_of_fits {ws : List Word} (h : FitsTable ws) : (classifyRequest ws).isMalformed = false := by
  have hcode : ∃ o, (ws.getD 0 0).toNat = opNumber o := by
    cases ho : MgmtOp.ofCode (ws.getD 0 0) with
    | some o => exact ⟨o, (ofCode_eq_some_iff _ o).1 ho⟩
    | none =>
      have hout := (ofCode_eq_none_iff _).1 ho
      simp only [FitsTable, List.mem_cons, Prod.mk.injEq, List.not_mem_nil, or_false] at h
      omega
  obtain ⟨o, ho⟩ := hcode
  rw [(classifyRequest_eq_op_iff ws o).2 ⟨ho, h⟩]
  rfl

/-! ## Execution of a request that is not the one asked for (log entry 1) -/

theorem execute_of_empty {s : State} (h : s.agent.requests = []) (want : Request → Bool)
    (body : State → Nat → List Word → State) : s.execute want body = s := by
  simp only [State.execute, h]

theorem execute_of_unwanted {s : State} {d : Nat} (hd : s.agent.requests.head? = some d) {want : Request → Bool}
    (hw : want (classifyRequest (s.words d)) = false) (body : State → Nat → List Word → State) :
    s.execute want body = s := by
  unfold State.execute
  split
  · rfl
  · next d' rest hr =>
    rw [hr, List.head?_cons] at hd
    obtain rfl := Option.some.inj hd
    rw [hw]
    rfl

theorem executeOp_of_other {s : State} {d : Nat} (hd : s.agent.requests.head? = some d) {o : MgmtOp}
    (ho : ((s.words d).getD 0 0).toNat ≠ opNumber o ∨ ¬FitsTable (s.words d))
    (body : State → Nat → List Word → State) : s.executeOp o body = s := by
  refine execute_of_unwanted hd (decide_eq_false fun h => ?_) body
  obtain ⟨hnumber, hfits⟩ := (classifyRequest_eq_op_iff _ o).1 h
  exact ho.elim (fun hne => hne hnumber) fun hne => hne hfits

/-- The execution commands and the operations they execute. -/
inductive Executes : Instr → MgmtOp → (State → Nat → List Word → State) → Prop where
  | status : Executes .status .status opStatus
  | readStation : Executes .readStation .readStation opReadStation
  | writeStation : Executes .writeStation .writeStation opWriteStation
  | readPoints : Executes .readPoints .readPoints opReadPoints
  | writePoints : Executes .writePoints .writePoints opWritePoints
  | setLabel : Executes .setLabel .setLabel opSetLabel
  | readImage : Executes .readImage .readImage opReadImage
  | readStationState : Executes .readStationState .readStationState opReadStationState
  | readCounters : Executes .readCounters .readCounters opReadCounters
  | clearCounters : Executes .clearCounters .clearCounters opClearCounters
  | setMode : Executes .setMode .setMode opSetMode
  | copy : Executes .copy .copy opCopy
  | commit : Executes .commit .commit opCommit
  | cancel : Executes .cancel .cancel opCancel
  | restart : Executes .restart .restart opRestart

theorem Executes.exec {c : Instr} {o : MgmtOp} {body : State → Nat → List Word → State} (h : Executes c o body)
    {s : State} (hheld : s.resetHeld = false) : exec c s = .next (s.executeOp o body) := by
  cases h <;> exact exec_running (by simp) (by simp) hheld

theorem exec_malformedRequest {s : State} (hheld : s.resetHeld = false) :
    exec .malformedRequest s = .next (s.execute Request.isMalformed opMalformed) :=
  exec_running (by simp) (by simp) hheld

/-- The commands by the number of their operation. -/
theorem executes_of_mem {c : Instr} {o : Nat} (h : (c, o) ∈ [(.status, 1), (.readStation, 2), (.writeStation, 3),
    (.readPoints, 4), (.writePoints, 5), (.setLabel, 6), (.readImage, 7), (.readStationState, 8), (.readCounters, 9),
    (.clearCounters, 10), (.setMode, 11), (.copy, 12), (.commit, 13), (.cancel, 14), (.restart, 15)]) :
    ∃ op body, Executes c op body ∧ opNumber op = o := by
  simp only [List.mem_cons, Prod.mk.injEq, List.not_mem_nil, or_false] at h
  rcases h with ⟨rfl, rfl⟩ | ⟨rfl, rfl⟩ | ⟨rfl, rfl⟩ | ⟨rfl, rfl⟩ | ⟨rfl, rfl⟩ | ⟨rfl, rfl⟩ | ⟨rfl, rfl⟩ | ⟨rfl, rfl⟩ |
    ⟨rfl, rfl⟩ | ⟨rfl, rfl⟩ | ⟨rfl, rfl⟩ | ⟨rfl, rfl⟩ | ⟨rfl, rfl⟩ | ⟨rfl, rfl⟩ | ⟨rfl, rfl⟩
  exacts [⟨_, _, .status, rfl⟩, ⟨_, _, .readStation, rfl⟩, ⟨_, _, .writeStation, rfl⟩, ⟨_, _, .readPoints, rfl⟩,
    ⟨_, _, .writePoints, rfl⟩, ⟨_, _, .setLabel, rfl⟩, ⟨_, _, .readImage, rfl⟩, ⟨_, _, .readStationState, rfl⟩,
    ⟨_, _, .readCounters, rfl⟩, ⟨_, _, .clearCounters, rfl⟩, ⟨_, _, .setMode, rfl⟩, ⟨_, _, .copy, rfl⟩,
    ⟨_, _, .commit, rfl⟩, ⟨_, _, .cancel, rfl⟩, ⟨_, _, .restart, rfl⟩]

/-! ## The other events (R11, R85, R93, R52, R54) -/

theorem transmissionDone_of_silent {s : State} {p : Port} (h : ∀ x, (s.port p).tx ≠ .sending x) :
    s.transmissionDone p = s := by
  unfold State.transmissionDone
  split
  · next x hx => exact absurd hx (h x)
  · rfl
  · rfl

theorem take_of_busy {s : State} {g : Segment} (h : (s.seg g).state ≠ .idle ∨ (s.seg g).queue = []) : s.take g = s := by
  unfold State.take
  split
  · next d rest hstate hqueue =>
    rcases h with h | h
    · exact absurd hstate h
    · exact absurd (hqueue.symm.trans h) (List.cons_ne_nil _ _)
  · rfl

theorem windowExpiry_of_stopped {s : State} {g : Segment}
    (h : (s.seg g).state ≠ .awaiting ∨ (s.port (dropPort g)).tx ≠ .idle ∨ ∀ x, (s.seg g).slot ≠ .poll x) :
    s.windowExpiry g = s := by
  unfold State.windowExpiry
  split
  · next t hstate hslot htx =>
    rcases h with h | h | h
    · exact absurd hstate h
    · exact absurd htx h
    · exact absurd hslot (h t)
  · rfl

theorem engine_stopped {s : State} (hlaw : OpenSlotLaw s) (hopen : s.agent.openSlot = none) :
    s.standbyState ≠ .filling ∧ s.standbyState ≠ .checking := by
  unfold OpenSlotLaw at hlaw
  rw [hopen, State.engineRunning] at hlaw
  constructor <;> intro h <;> simp [h] at hlaw

theorem copyCompletes_of_not_filling {s : State} (h : s.standbyState ≠ .filling) : s.copyCompletes = s := if_neg h

theorem checkCompletes_of_not_checking {s : State} (h : s.standbyState ≠ .checking) : s.checkCompletes = s := if_neg h

theorem exec_copyCompletion {s : State} (hheld : s.resetHeld = false) :
    exec .copyCompletion s = .next s.copyCompletes :=
  exec_running (by simp) (by simp) hheld

theorem exec_checkCompletion {s : State} (hheld : s.resetHeld = false) :
    exec .checkCompletion s = .next s.checkCompletes :=
  exec_running (by simp) (by simp) hheld

/-- Settles O60. -/
theorem eventsWithoutTheirConditionDoNothing : Obligations.EventsWithoutTheirConditionDoNothing := by
  intro s hheld
  refine ⟨fun p h => ?_, fun g h => ?_, fun g h => ?_, fun h => ?_, fun h => ?_, fun d hd hfits => ?_,
    fun c o hmem => ?_⟩
  · exact (exec_running (by simp) (by simp) hheld).trans (congrArg _ (transmissionDone_of_silent h))
  · exact (exec_running (by simp) (by simp) hheld).trans (congrArg _ (take_of_busy h))
  · exact (exec_running (by simp) (by simp) hheld).trans (congrArg _ (windowExpiry_of_stopped h))
  · rw [exec_copyCompletion hheld,
      copyCompletes_of_not_filling (h.elim id fun ⟨hlaw, hopen⟩ => (engine_stopped hlaw hopen).1)]
  · rw [exec_checkCompletion hheld,
      checkCompletes_of_not_checking (h.elim id fun ⟨hlaw, hopen⟩ => (engine_stopped hlaw hopen).2)]
  · rw [exec_malformedRequest hheld, execute_of_unwanted hd (not_malformed_of_fits hfits)]
  · obtain ⟨op, body, hop, rfl⟩ := executes_of_mem hmem
    rw [hop.exec hheld, exec_malformedRequest hheld]
    refine ⟨fun hempty => ?_, fun d hd hother => ?_⟩
    · rw [State.executeOp, execute_of_empty hempty, execute_of_empty hempty]
      exact ⟨rfl, rfl⟩
    · rw [executeOp_of_other hd hother]

end Sys2Proof.Proofs.Requests
end

section
/-! PROOFS. Telegram Memory (O16, O17) and what a run keeps (O46). -/

namespace Sys2Proof.Proofs.MemoryAndRuns

open Sys2Proof Sys2Proof.Machine Sys2Proof.Proofs.StationAnswers Sys2Proof.Proofs.PointEngine

/-! ## Allocation by class (R25, R26) -/

theorem blocksFor_eq (n : Nat) : blocksFor n = (n + 7) / 8 := rfl

theorem admits_traffic_iff (m : TelegramMemory) (nd nb : Nat) : m.admits .traffic nd nb = true ↔
    nd + 8 ≤ m.freeDescs.length ∧ nb + 16 ≤ m.freeBlocks.length := by
  rw [TelegramMemory.admits, Bool.and_eq_true]
  exact and_congr decide_eq_true_iff decide_eq_true_iff

theorem admits_part_iff (m : TelegramMemory) (nd nb : Nat) : m.admits .part nd nb = true ↔
    nd ≤ m.freeDescs.length ∧ nb ≤ m.freeBlocks.length := by
  simp [TelegramMemory.admits]

theorem allocate_isSome_iff (m : TelegramMemory) (cls : AllocClass) (h : Header) (ws : List Word) :
    (m.allocate cls h ws).isSome = true ↔ m.freeDescs ≠ [] ∧ m.admits cls 1 (blocksFor ws.length) = true := by
  unfold TelegramMemory.allocate
  cases m.freeDescs with
  | nil => simp
  | cons d rest =>
    simp only [ne_eq, reduceCtorEq, not_false_iff, true_and]
    split
    · next ha => simp [ha]
    · next ha => simp [ha]

theorem allocate_traffic_isSome_iff (m : TelegramMemory) (h : Header) (ws : List Word) :
    (m.allocate .traffic h ws).isSome = true ↔
      9 ≤ m.freeDescs.length ∧ 16 + (ws.length + 7) / 8 ≤ m.freeBlocks.length := by
  rw [allocate_isSome_iff, admits_traffic_iff, ← List.length_pos_iff, blocksFor_eq]
  omega

theorem allocate_part_isSome_iff (m : TelegramMemory) (h : Header) (ws : List Word) :
    (m.allocate .part h ws).isSome = true ↔
      1 ≤ m.freeDescs.length ∧ (ws.length + 7) / 8 ≤ m.freeBlocks.length := by
  rw [allocate_isSome_iff, admits_part_iff, ← List.length_pos_iff, blocksFor_eq]
  omega

/-- What an allocation does to the free lists and the minima, whatever the rest of the memory holds. -/
theorem allocate_free {m m' : TelegramMemory} {cls : AllocClass} {h : Header} {ws : List Word} {d : Nat}
    (ha : m.allocate cls h ws = some (d, m')) :
    m'.freeDescs = m.freeDescs.drop 1 ∧ m'.freeBlocks = m.freeBlocks.drop ((ws.length + 7) / 8) ∧
    m'.minDescs = min m.minDescs m'.freeDescs.length ∧ m'.minBlocks = min m.minBlocks m'.freeBlocks.length := by
  obtain ⟨-, -, rfl⟩ := TelegramMemory.allocate_eq_some.1 ha
  rw [TelegramMemory.writeChain_rest]
  exact ⟨rfl, rfl, rfl, rfl⟩

theorem replaceChain_minima (m : TelegramMemory) (d : Nat) (ws : List Word) :
    (ws = [] ∨ (m.replaceChain d ws).1 = false →
      (m.replaceChain d ws).2.minDescs = m.minDescs ∧ (m.replaceChain d ws).2.minBlocks = m.minBlocks) ∧
    (ws ≠ [] → (m.replaceChain d ws).1 = true →
      (m.replaceChain d ws).2.minDescs = min m.minDescs (m.replaceChain d ws).2.freeDescs.length ∧
      (m.replaceChain d ws).2.minBlocks = min m.minBlocks (m.replaceChain d ws).2.freeBlocks.length) := by
  unfold TelegramMemory.replaceChain
  simp only
  split
  · next hnil => exact ⟨fun _ => ⟨rfl, rfl⟩, fun hne => absurd hnil hne⟩
  · next hne =>
    split
    · refine ⟨fun h => ?_, fun _ _ => ?_⟩
      · rcases h with h | h
        · exact absurd h hne
        · cases h
      · rw [TelegramMemory.writeChain_rest]
        exact ⟨rfl, rfl⟩
    · exact ⟨fun _ => ⟨rfl, rfl⟩, fun _ h => by cases h⟩

/-- Settles O16. -/
theorem trafficLeavesTheReserve : Obligations.TrafficLeavesTheReserve := by
  intro m h ws
  refine ⟨allocate_traffic_isSome_iff m h ws, allocate_part_isSome_iff m h ws, fun d m' ha => ?_,
    fun cls d m' ha => ?_, fun d => ⟨rfl, rfl⟩, fun d => replaceChain_minima m d ws⟩
  · obtain ⟨hdescs, hblocks⟩ := (allocate_traffic_isSome_iff m h ws).1 (ha ▸ rfl)
    obtain ⟨hfd, hfb, -⟩ := allocate_free ha
    rw [hfd, hfb, List.length_drop, List.length_drop]
    omega
  · have hblocks := TelegramMemory.admits_blocks (TelegramMemory.allocate_eq_some.1 ha).2.1
    have hdescs := ((allocate_isSome_iff m cls h ws).1 (ha ▸ rfl)).1
    rw [← List.length_pos_iff] at hdescs
    rw [blocksFor_eq] at hblocks
    obtain ⟨hfd, hfb, hminima⟩ := allocate_free ha
    refine ⟨?_, ?_, hminima⟩
    · rw [hfd, List.length_drop]
      omega
    · rw [hfb, List.length_drop]
      omega

/-! ## Four blocks for every descriptor (R22, R23) -/

theorem chains_length_le {t : Table Descriptor} (h : ∀ e ∈ t, e.2.chain.length ≤ 4) :
    (t.flatMap fun e => e.2.chain).length ≤ 4 * t.length := by
  induction t with
  | nil => simp
  | cons e t ih =>
    have htail := ih fun x hx => h x (List.mem_cons_of_mem _ hx)
    have hhead := h e (List.mem_cons_self ..)
    rw [List.flatMap_cons, List.length_append, List.length_cons]
    omega

/-- Settles O17: at most four blocks are in a chain, and there are four for every descriptor. -/
theorem replacementAlwaysFindsBlocks : Obligations.ReplacementAlwaysFindsBlocks := by
  intro m hm
  refine ⟨?_, fun d hd ws hlen => replaceChain_finds_blocks hm hd hlen⟩
  have hchains : (m.descs.flatMap fun e => e.2.chain).length ≤ 4 * m.descs.length := by
    refine chains_length_le fun e he => ?_
    obtain ⟨hcount, hchain⟩ := hm.2.2.2.2 e he
    rw [hchain, blocksFor_eq]
    omega
  have hblocks := hm.freeBlocks_length
  have hdescs := hm.freeDescs_length
  omega

/-! ## What a run keeps (R107, R108, R125, R126) -/

/-- Marks and counts that agree, over words `ws` and `n` records treated. -/
structure RunAgrees (ws : List Word) (n : Nat) (a : Applied) : Prop where
  length : a.words.length = ws.length
  faulted : a.faulted = true ↔ 0 < a.faults
  limited : a.limited = true ↔ 0 < a.limits
  transformed : a.faulted = true ∨ a.limited = true → a.transformed = true
  counts : a.faults + a.limits + a.skips ≤ n
  untouched : a.transformed = false → a.words = ws

section

variable {ws : List Word} {n : Nat} {a : Applied} (h : RunAgrees ws n a)
include h

theorem RunAgrees.skip : RunAgrees ws (n + 1) a.skip :=
  { h with counts := by have := h.counts; simp only [Applied.skip]; omega }

theorem RunAgrees.same : RunAgrees ws (n + 1) a := { h with counts := by have := h.counts; omega }

theorem RunAgrees.result {us : List Word} (hlen : us.length = a.words.length) (l : Bool) :
    RunAgrees ws (n + 1) (a.result us l) := by
  have hcounts := h.counts
  have hlimited := h.limited
  refine ⟨hlen.trans h.length, h.faulted, ?_, fun _ => rfl, ?_, fun hf => nomatch hf⟩
  · cases l <;> simp [Applied.result, hlimited]
  · cases l <;> simp only [Applied.result] <;> simp only [Bool.false_eq_true, if_false, if_true] <;> omega

theorem RunAgrees.fault {us : List Word} (hlen : us.length = a.words.length) : RunAgrees ws (n + 1) (a.fault us) := by
  have hcounts := h.counts
  refine ⟨hlen.trans h.length, ?_, h.limited, fun _ => rfl, ?_, fun hf => nomatch hf⟩
  · simp [Applied.fault]
  · simp only [Applied.fault]
    omega

theorem RunAgrees.treatRecord (img : ImageRecord) (r : PointRecord) :
    RunAgrees ws (n + 1) (treatRecord img a r) := by
  unfold Machine.treatRecord
  split
  · exact h.same
  · split
    · split
      · exact h.skip
      · split
        · exact h.result (by rw [List.length_set, List.length_set]) _
        · exact h.fault (by rw [List.length_set, List.length_set])
    · split
      · exact h.skip
      · split
        · exact h.result (List.length_set ..) _
        · exact h.fault (List.length_set ..)

theorem RunAgrees.foldl (img : ImageRecord) (rs : List PointRecord) :
    RunAgrees ws (n + rs.length) (rs.foldl (Machine.treatRecord img) a) := by
  induction rs generalizing n a with
  | nil => exact h
  | cons r rs ih =>
    have hrest := ih (h.treatRecord img r)
    rwa [Nat.add_assoc, Nat.add_comm 1] at hrest

end

theorem runAgrees_start (ws : List Word) : RunAgrees ws 0 (Applied.start ws) := by
  constructor <;> simp [Applied.start]

/-- A record changes only words it covers. -/
theorem treatRecord_word {img : ImageRecord} {a : Applied} {r : PointRecord} {i : Nat} (hi : i ∉ r.covers) :
    (treatRecord img a r).words[i]? = a.words[i]? := by
  unfold PointRecord.covers at hi
  unfold treatRecord
  split
  · rfl
  · split
    · next hpair =>
      rw [if_pos hpair, List.mem_cons, List.mem_singleton, not_or] at hi
      have hset : ∀ u v : Word, ((a.words.set r.index u).set (r.index + 1) v)[i]? = a.words[i]? := fun u v => by
        rw [List.getElem?_set_ne (Ne.symm hi.2), List.getElem?_set_ne (Ne.symm hi.1)]
      split
      · rfl
      · split <;> exact hset _ _
    · next hsingle =>
      rw [if_neg hsingle, List.mem_singleton] at hi
      have hset : ∀ u : Word, (a.words.set r.index u)[i]? = a.words[i]? := fun u =>
        List.getElem?_set_ne (Ne.symm hi)
      split
      · rfl
      · split <;> exact hset _

theorem foldl_treatRecord_word {img : ImageRecord} {rs : List PointRecord} {a : Applied} {i : Nat}
    (hi : ∀ r ∈ rs, i ∉ r.covers) : (rs.foldl (treatRecord img) a).words[i]? = a.words[i]? := by
  induction rs generalizing a with
  | nil => rfl
  | cons r rs ih =>
    rw [List.foldl_cons, ih fun x hx => hi x (List.mem_cons_of_mem _ hx), treatRecord_word (hi r (List.mem_cons_self ..))]

/-- A run keeps the number of words. -/
theorem applyRun_length (rs : List PointRecord) (img : ImageRecord) (ws : List Word) :
    (applyRun rs img ws).words.length = ws.length :=
  ((runAgrees_start ws).foldl img rs).length

/-- Settles O46. -/
theorem runsKeepWhatTheyDoNotCover : Obligations.RunsKeepWhatTheyDoNotCover := by
  intro rs img ws
  have hrun := (runAgrees_start ws).foldl img rs
  rw [Nat.zero_add] at hrun
  exact ⟨hrun.length, fun i hi => foldl_treatRecord_word hi, hrun.faulted, hrun.limited, hrun.transformed, hrun.counts,
    hrun.untouched⟩

end Sys2Proof.Proofs.MemoryAndRuns
end

section
/-! PROOFS. Commit validation (O26): the runs in their order, the three steps of the check one by one, and the first failure
it reports. -/

namespace Sys2Proof.Proofs.CommitCheck

open Sys2Proof Sys2Proof.Machine

/-! ## The runs (R55) -/

theorem mem_stationNumbers (n : Nat) : n ∈ stationNumbers ↔ 1 ≤ n ∧ n ≤ 61 := by
  simp only [stationNumbers, Config.stations, List.mem_map, List.mem_range]
  constructor
  · rintro ⟨k, hk, rfl⟩
    omega
  · intro h
    exact ⟨n - 1, by omega, by omega⟩

theorem mem_stationRuns (b : Bank) (n : Nat) (r : RunRef) : r ∈ b.stationRuns n ↔ r.station = n ∧
    (r.first, r.length) = if r.inbound then ((b.entry n).inFirst, (b.entry n).inLength)
      else ((b.entry n).outFirst, (b.entry n).outLength) := by
  obtain ⟨station, inbound, first, length⟩ := r
  cases inbound <;> simp [Bank.stationRuns]

theorem mem_runs_iff (b : Bank) (r : RunRef) : r ∈ b.runs ↔ 1 ≤ r.station ∧ r.station ≤ 61 ∧ r.length ≠ 0 ∧
    (r.first, r.length) = if r.inbound then ((b.entry r.station).inFirst, (b.entry r.station).inLength)
      else ((b.entry r.station).outFirst, (b.entry r.station).outLength) := by
  simp only [Bank.runs, List.mem_filter, List.mem_flatMap, mem_stationNumbers, mem_stationRuns, decide_eq_true_eq]
  constructor
  · rintro ⟨⟨n, ⟨hlow, hhigh⟩, rfl, hfields⟩, hlen⟩
    exact ⟨hlow, hhigh, hlen, hfields⟩
  · rintro ⟨hlow, hhigh, hlen, hfields⟩
    exact ⟨⟨r.station, ⟨hlow, hhigh⟩, rfl, hfields⟩, hlen⟩

theorem length_ne_zero {b : Bank} {r : RunRef} (h : r ∈ b.runs) : r.length ≠ 0 := ((mem_runs_iff b r).1 h).2.2.1

/-- The order of the runs: by station, the outbound run first. -/
abbrev RunRef.before (e r : RunRef) : Prop :=
  e.station < r.station ∨ e.station = r.station ∧ e.inbound = false ∧ r.inbound = true

theorem runs_ordered (b : Bank) : b.runs.Pairwise RunRef.before := by
  refine List.Pairwise.filter _ (List.pairwise_flatMap.2 ⟨fun n _ => ?_, ?_⟩)
  · exact List.pairwise_pair.2 (.inr ⟨rfl, rfl, rfl⟩)
  · have hrising : stationNumbers.Pairwise (· < ·) :=
      List.pairwise_map.2 (List.pairwise_lt_range.imp fun h => Nat.add_lt_add_right h 1)
    refine hrising.imp fun hlt x hx y hy => .inl ?_
    rwa [((mem_stationRuns b _ x).1 hx).1, ((mem_stationRuns b _ y).1 hy).1]

/-! ## The first step (R55) -/

/-- The failure that a run beyond the table makes. -/
abbrev rangeFailure (r : RunRef) : CheckFailure := ⟨0, r.station, if r.inbound then 2 else 1⟩

theorem checkRange_of_inTable {r : RunRef} (h : r.inTable) : checkRange r = none :=
  if_neg (Nat.not_lt.2 h)

theorem checkRange_of_beyond {r : RunRef} (h : ¬r.inTable) : checkRange r = some (rangeFailure r) :=
  if_pos (Nat.lt_of_not_le h)

theorem checkRange_eq_none_iff (r : RunRef) : checkRange r = none ↔ r.inTable := by
  by_cases h : r.inTable
  · simp [checkRange_of_inTable h, h]
  · simp [checkRange_of_beyond h, h]

theorem findSome_eq_of_first {α β : Type} {f : α → Option β} {before after : List α} {x : α} {y : β}
    (hbefore : ∀ e ∈ before, f e = none) (hx : f x = some y) : (before ++ x :: after).findSome? f = some y := by
  rw [List.findSome?_append, List.findSome?_eq_none_iff.2 hbefore, List.findSome?_cons, hx]
  rfl

/-! ## The second step (R56) -/

theorem shares_iff {r e : RunRef} (hr : r.length ≠ 0) (he : e.length ≠ 0) : r.shares e = true ↔ r.overlaps e := by
  unfold RunRef.shares
  rw [Bool.and_eq_true, decide_eq_true_eq, decide_eq_true_eq]
  constructor
  · intro h
    exact ⟨max r.first e.first, ⟨by omega, by omega⟩, by omega, by omega⟩
  · rintro ⟨k, ⟨h1, h2⟩, h3, h4⟩
    omega

theorem overlaps_symm {r e : RunRef} (h : r.overlaps e) : e.overlaps r := by
  obtain ⟨k, hr, he⟩ := h
  exact ⟨k, he, hr⟩

/-- Runs without a failure are passed over. -/
theorem checkShared_append {earlier before rest : List RunRef} (h : checkShared earlier before = none) :
    checkShared earlier (before ++ rest) = checkShared (earlier ++ before) rest := by
  induction before generalizing earlier with
  | nil => rw [List.nil_append, List.append_nil]
  | cons r before ih =>
    rw [checkShared] at h
    rw [List.cons_append, checkShared]
    split at h
    · cases h
    · next hno => rw [if_neg hno, ih h, List.append_assoc, List.singleton_append]

theorem checkShared_eq_none_iff {earlier rs : List RunRef} (hearlier : ∀ e ∈ earlier, e.length ≠ 0)
    (hrs : ∀ r ∈ rs, r.length ≠ 0) : checkShared earlier rs = none ↔
      (∀ r ∈ rs, ∀ e ∈ earlier, ¬r.overlaps e) ∧ rs.Pairwise fun e r => ¬r.overlaps e := by
  induction rs generalizing earlier with
  | nil => simp [checkShared]
  | cons r rs ih =>
    have hr := hrs r (List.mem_cons_self ..)
    have hshares : earlier.any r.shares = true ↔ ∃ e ∈ earlier, r.overlaps e := by
      rw [List.any_eq_true]
      exact exists_congr fun e => and_congr_right fun he => shares_iff hr (hearlier e he)
    have htail := ih (earlier := earlier ++ [r]) (by simpa [or_imp, forall_and, hr] using hearlier)
      fun x hx => hrs x (List.mem_cons_of_mem _ hx)
    rw [checkShared]
    split
    · next hany =>
      obtain ⟨e, he, hover⟩ := hshares.1 hany
      refine ⟨fun h => (nomatch h), fun h => absurd hover (h.1 r (List.mem_cons_self ..) e he)⟩
    · next hno =>
      have hclear : ∀ e ∈ earlier, ¬r.overlaps e := fun e he hover => hno (hshares.2 ⟨e, he, hover⟩)
      rw [htail, List.pairwise_cons]
      simp only [List.mem_append, List.mem_cons, List.not_mem_nil, or_false]
      constructor
      · rintro ⟨hall, hpair⟩
        refine ⟨?_, fun x hx => hall x hx r (.inr rfl), hpair⟩
        rintro x (rfl | hx) e he
        · exact hclear e he
        · exact hall x hx e (.inl he)
      · rintro ⟨hall, hhead, hpair⟩
        refine ⟨?_, hpair⟩
        rintro x hx e (he | rfl)
        · exact hall x (.inr hx) e he
        · exact hhead x hx

/-! ## The third step (R57) -/

/-- `covered` are the words that the records of run `r` before record `k` cover. -/
def CoveredBefore (b : Bank) (r : RunRef) (k : Nat) (covered : List Nat) : Prop :=
  ∀ w, w ∈ covered ↔ ∃ j, r.first ≤ j ∧ j < k ∧ w ∈ (b.point j).covers

section

variable {b : Bank} {r : RunRef} {k : Nat} {covered : List Nat}

theorem coveredBefore_start (b : Bank) (r : RunRef) : CoveredBefore b r r.first [] := by
  intro w
  simp only [List.not_mem_nil, false_iff]
  rintro ⟨j, hlow, hhigh, -⟩
  omega

theorem CoveredBefore.next (h : CoveredBefore b r k covered) (hk : r.first ≤ k) :
    CoveredBefore b r (k + 1) (covered ++ (b.point k).covers) := by
  intro w
  rw [List.mem_append, h w]
  constructor
  · rintro (⟨j, hlow, hhigh, hw⟩ | hw)
    · exact ⟨j, hlow, by omega, hw⟩
    · exact ⟨k, hk, by omega, hw⟩
  · rintro ⟨j, hlow, hhigh, hw⟩
    by_cases hj : j = k
    · exact .inr (hj ▸ hw)
    · exact .inl ⟨j, hlow, by omega, hw⟩

/-- The tests of one record are those of `recordReason`. -/
theorem checkRecord_eq (h : CoveredBefore b r k covered) : checkRecord covered k (b.point k) =
    if recordReason b r k = 0 then none else some ⟨1, k, BitVec.ofNat 16 (recordReason b r k)⟩ := by
  have hshared : (b.point k).covers.any covered.contains = true ↔
      ∃ j ∈ List.range k, r.first ≤ j ∧ ∃ w ∈ (b.point k).covers, w ∈ (b.point j).covers := by
    simp only [List.any_eq_true, List.contains_iff_mem, h _, List.mem_range]
    constructor
    · rintro ⟨w, hw, j, hlow, hhigh, hwj⟩
      exact ⟨j, hhigh, hlow, w, hw, hwj⟩
    · rintro ⟨j, hhigh, hlow, w, hw, hwj⟩
      exact ⟨w, hw, j, hlow, hhigh, hwj⟩
  have hscale : (b.point k).kind = .scale ∧ ¬(1 ≤ (b.point k).b.toInt ∧ (b.point k).b.toInt ≤ 32767) ↔
      (b.point k).kind = .scale ∧ ((b.point k).b.toInt < 1 ∨ 32767 < (b.point k).b.toInt) :=
    and_congr_right fun _ => by omega
  unfold checkRecord recordReason
  simp only [hshared, hscale]
  by_cases h5 : (b.point k).kind = .none
  · simp [h5]
  by_cases h6 : (b.point k).kind.isPair = true ∧ (b.point k).index = 31
  · simp [h5, h6]
  by_cases h7 : ∃ j ∈ List.range k, r.first ≤ j ∧ ∃ w ∈ (b.point k).covers, w ∈ (b.point j).covers
  · simp only [if_neg h5, if_neg h6, if_pos h7]
    rfl
  by_cases h8 : (b.point k).kind = .scale ∧ ((b.point k).b.toInt < 1 ∨ 32767 < (b.point k).b.toInt)
  · simp only [if_neg h5, if_neg h6, if_neg h7, if_pos h8]
    rfl
  by_cases h9 : ((b.point k).kind = .clamp ∨ (b.point k).kind = .range) ∧ (b.point k).b.toInt < (b.point k).a.toInt
  · simp only [if_neg h5, if_neg h6, if_neg h7, if_neg h8, if_pos h9]
    rfl
  · simp only [if_neg h5, if_neg h6, if_neg h7, if_neg h8, if_neg h9]
    rfl

theorem checkRun_eq_none_iff {n : Nat} (h : CoveredBefore b r k covered) (hk : r.first ≤ k) :
    b.checkRun covered k n = none ↔ ∀ j, k ≤ j → j < k + n → recordReason b r j = 0 := by
  induction n generalizing k covered with
  | zero => exact ⟨fun _ j h1 h2 => by omega, fun _ => rfl⟩
  | succ n ih =>
    have htail := ih (h.next hk) (by omega)
    rw [Bank.checkRun, checkRecord_eq h]
    by_cases hzero : recordReason b r k = 0
    · rw [if_pos hzero]
      change b.checkRun _ _ _ = none ↔ _
      rw [htail]
      constructor
      · intro hall j hlow hhigh
        by_cases hj : j = k
        · rwa [hj]
        · exact hall j (by omega) (by omega)
      · exact fun hall j hlow hhigh => hall j (by omega) (by omega)
    · rw [if_neg hzero]
      exact ⟨fun hnone => (nomatch hnone), fun hall => absurd (hall k (by omega) (by omega)) hzero⟩

theorem checkRun_eq_first {n m : Nat} (h : CoveredBefore b r k covered) (hk : r.first ≤ k) (hkm : k ≤ m)
    (hm : m < k + n) (hbefore : ∀ j, k ≤ j → j < m → recordReason b r j = 0) (hfail : recordReason b r m ≠ 0) :
    b.checkRun covered k n = some ⟨1, m, BitVec.ofNat 16 (recordReason b r m)⟩ := by
  induction n generalizing k covered with
  | zero => omega
  | succ n ih =>
    rw [Bank.checkRun, checkRecord_eq h]
    by_cases hmk : m = k
    · rw [if_neg (hmk ▸ hfail), hmk]
    · rw [if_pos (hbefore k (by omega) (by omega))]
      exact ih (h.next hk) (by omega) (by omega) (by omega) fun j hlow hhigh => hbefore j (by omega) hhigh

end

/-- Run `r` of bank `b` has no record that fails a test. -/
abbrev CleanRun (b : Bank) (r : RunRef) : Prop := ∀ k, r.has k → recordReason b r k = 0

theorem checkRun_run_eq_none_iff (b : Bank) (r : RunRef) : b.checkRun [] r.first r.length = none ↔ CleanRun b r := by
  rw [checkRun_eq_none_iff (coveredBefore_start b r) (Nat.le_refl _)]
  exact forall_congr' fun k => and_imp.symm

/-! ## The whole check (R54) -/

section

variable {b : Bank}

theorem ranges_eq_none_iff : b.runs.findSome? checkRange = none ↔ ∀ r ∈ b.runs, r.inTable := by
  rw [List.findSome?_eq_none_iff]
  exact forall₂_congr fun r _ => checkRange_eq_none_iff r

theorem shared_eq_none_iff : checkShared [] b.runs = none ↔ b.runs.Pairwise fun e r => ¬r.overlaps e := by
  rw [checkShared_eq_none_iff (by simp) fun r hr => length_ne_zero hr]
  simp

theorem check_of_shared {f : CheckFailure} (h : ∀ r ∈ b.runs, r.inTable) (hs : checkShared [] b.runs = some f) :
    b.check = some f := by
  simp only [Bank.check, ranges_eq_none_iff.2 h, hs]

theorem check_of_disjoint (h : ∀ r ∈ b.runs, r.inTable) (hd : b.runs.Pairwise fun e r => ¬r.overlaps e) :
    b.check = b.runs.findSome? fun r => b.checkRun [] r.first r.length := by
  simp only [Bank.check, ranges_eq_none_iff.2 h, shared_eq_none_iff.2 hd]

/-- A bank passes exactly when every step finds nothing. -/
theorem check_eq_none_iff : b.check = none ↔ (∀ r ∈ b.runs, r.inTable) ∧
    (b.runs.Pairwise fun e r => ¬r.overlaps e) ∧ ∀ r ∈ b.runs, CleanRun b r := by
  constructor
  · intro h
    have hranges : ∀ r ∈ b.runs, r.inTable := by
      rw [← ranges_eq_none_iff, Option.eq_none_iff_forall_ne_some]
      intro f hf
      simp only [Bank.check, hf] at h
      cases h
    have hshared : b.runs.Pairwise fun e r => ¬r.overlaps e := by
      rw [← shared_eq_none_iff, Option.eq_none_iff_forall_ne_some]
      intro f hf
      rw [check_of_shared hranges hf] at h
      cases h
    rw [check_of_disjoint hranges hshared, List.findSome?_eq_none_iff] at h
    exact ⟨hranges, hshared, fun r hr => (checkRun_run_eq_none_iff b r).1 (h r hr)⟩
  · rintro ⟨hranges, hshared, hclean⟩
    rw [check_of_disjoint hranges hshared, List.findSome?_eq_none_iff]
    exact fun r hr => (checkRun_run_eq_none_iff b r).2 (hclean r hr)

variable {before after : List RunRef} {r : RunRef} (hruns : b.runs = before ++ r :: after)
include hruns

theorem check_eq_range (hbefore : ∀ e ∈ before, e.inTable) (hr : ¬r.inTable) : b.check = some (rangeFailure r) := by
  have hfound : b.runs.findSome? checkRange = some (rangeFailure r) := by
    rw [hruns]
    exact findSome_eq_of_first (fun e he => checkRange_of_inTable (hbefore e he)) (checkRange_of_beyond hr)
  rw [Bank.check, hfound]

theorem check_eq_shared (hranges : ∀ r ∈ b.runs, r.inTable) (hbefore : before.Pairwise fun e r => ¬r.overlaps e)
    (hr : ∃ e ∈ before, r.overlaps e) : b.check = some ⟨0, r.station, if r.inbound then 4 else 3⟩ := by
  have hlen : ∀ e ∈ before ++ r :: after, e.length ≠ 0 := fun e he => length_ne_zero (hruns ▸ he)
  have hlenBefore : ∀ e ∈ before, e.length ≠ 0 := fun e he => hlen e (List.mem_append_left _ he)
  have hpassed : checkShared [] before = none :=
    (checkShared_eq_none_iff (by simp) hlenBefore).2 ⟨by simp, hbefore⟩
  have hany : before.any r.shares = true := by
    obtain ⟨e, he, hover⟩ := hr
    exact List.any_eq_true.2 ⟨e, he, (shares_iff (hlen r (by simp)) (hlenBefore e he)).2 hover⟩
  have hfound : checkShared [] b.runs = some ⟨0, r.station, if r.inbound then 4 else 3⟩ := by
    rw [hruns, checkShared_append hpassed, List.nil_append, checkShared, if_pos hany]
  exact check_of_shared hranges hfound

theorem check_eq_record (hranges : ∀ r ∈ b.runs, r.inTable) (hshared : b.runs.Pairwise fun e r => ¬r.overlaps e)
    (hbefore : ∀ e ∈ before, CleanRun b e) {k : Nat} (hk : r.has k)
    (hrecords : ∀ j, r.first ≤ j → j < k → recordReason b r j = 0) (hfail : recordReason b r k ≠ 0) :
    b.check = some ⟨1, k, BitVec.ofNat 16 (recordReason b r k)⟩ := by
  rw [check_of_disjoint hranges hshared, hruns]
  exact findSome_eq_of_first (fun e he => (checkRun_run_eq_none_iff b e).2 (hbefore e he))
    (checkRun_eq_first (coveredBefore_start b r) (Nat.le_refl _) hk.1 hk.2 hrecords hfail)

end

/-- What a record that fails no test is. -/
theorem sound_of_recordReason_eq_zero {b : Bank} {r : RunRef} {k : Nat} (h : recordReason b r k = 0) :
    (b.point k).kind ≠ .none ∧ ((b.point k).kind.isPair = true → (b.point k).index ≠ 31) ∧
    ((b.point k).kind = .scale → 1 ≤ (b.point k).b.toInt) ∧
    ((b.point k).kind = .clamp ∨ (b.point k).kind = .range → (b.point k).a.toInt ≤ (b.point k).b.toInt) ∧
    ∀ j, r.first ≤ j → j < k → ∀ w ∈ (b.point k).covers, w ∉ (b.point j).covers := by
  unfold recordReason at h
  simp only at h
  split at h
  · cases h
  next h5 =>
  split at h
  · cases h
  next h6 =>
  split at h
  · cases h
  next h7 =>
  split at h
  · cases h
  next h8 =>
  split at h
  · cases h
  next h9 =>
  refine ⟨h5, fun hpair hindex => h6 ⟨hpair, hindex⟩, fun hscale => ?_, fun hkind => ?_, fun j hlow hhigh w hw hwj => ?_⟩
  · by_contra hlt
    exact h8 ⟨hscale, .inl (by omega)⟩
  · by_contra hlt
    exact h9 ⟨hkind, by omega⟩
  · exact h7 ⟨j, List.mem_range.2 hhigh, hlow, w, hw, hwj⟩

/-- Settles O26. -/
theorem passedCheckMeansSoundRuns : Obligations.PassedCheckMeansSoundRuns := by
  constructor
  · intro b hcheck
    obtain ⟨hranges, hshared, hclean⟩ := check_eq_none_iff.1 hcheck
    refine ⟨hranges, fun i j hij hj r e hr he k hk => ?_, fun r hr k hlow hhigh =>
      sound_of_recordReason_eq_zero (hclean r hr k ⟨hlow, hhigh⟩)⟩
    obtain ⟨hi, rfl⟩ := List.getElem?_eq_some_iff.1 hr
    obtain ⟨hj', rfl⟩ := List.getElem?_eq_some_iff.1 he
    obtain ⟨hk1, hk2, hk3, hk4⟩ := hk
    exact List.pairwise_iff_getElem.1 hshared i j hi hj' hij ⟨k, ⟨hk3, hk4⟩, hk1, hk2⟩
  · intro b
    refine ⟨mem_runs_iff b, runs_ordered b, fun hranges hshared hclean => check_eq_none_iff.2 ⟨hranges, hshared, hclean⟩,
      fun before after r hruns => ⟨check_eq_range hruns, check_eq_shared hruns, ?_⟩⟩
    exact fun hranges hshared hbefore k hk hrecords hfail =>
      check_eq_record hruns hranges hshared hbefore hk hrecords hfail

end Sys2Proof.Proofs.CommitCheck
end

section
/-! PROOFS. Answers ahead of which an operation has changed other parts of the state (O23, O24, O25, O27, O52). -/

namespace Sys2Proof.Proofs.Answers

open Sys2Proof Sys2Proof.Machine Sys2Proof.Proofs.BankWrites Sys2Proof.Proofs.StationAnswers Sys2Proof.Proofs.Requests
  Sys2Proof.Proofs.BankInvariants Sys2Proof.Proofs.Commands

/-! ## What an answer reads -/

/-- `u` has the telegrams, the trunk egress, the pending set, the stations and port T's transmitter of `s`. -/
structure SameTraffic (s u : State) : Prop where
  mem : u.mem = s.mem
  egress : u.egress = s.egress
  notices : u.notices = s.notices
  runtime : u.runtime = s.runtime
  tx : u.portT.tx = s.portT.tx

theorem SameTraffic.joins {s u t : State} (h : SameTraffic s u) {ns tail : List Nat} (hj : JoinsEgress u t ns tail) :
    JoinsEgress s t ns tail := by
  unfold JoinsEgress HandsTheHead at hj ⊢
  rwa [h.mem, h.egress, h.notices, h.tx, noticeTelegrams_congr h.runtime] at hj

theorem SameTraffic.desc {s u : State} (h : SameTraffic s u) (k : Nat) : u.desc k = s.desc k :=
  congrArg (TelegramMemory.desc · k) h.mem

theorem SameTraffic.words {s u : State} (h : SameTraffic s u) (k : Nat) : u.words k = s.words k :=
  congrArg (TelegramMemory.words · k) h.mem

theorem SameTraffic.setBank (s : State) (b : BankId) (v : Bank) : SameTraffic s (s.setBank b v) := by
  cases b <;> exact ⟨rfl, rfl, rfl, rfl, rfl⟩

theorem SameTraffic.trans {s t u : State} (h1 : SameTraffic s t) (h2 : SameTraffic t u) : SameTraffic s u :=
  ⟨h2.mem.trans h1.mem, h2.egress.trans h1.egress, h2.notices.trans h1.notices, h2.runtime.trans h1.runtime,
    h2.tx.trans h1.tx⟩

/-- What the answer to request `d` leaves, with the notices `ns` of its emission attempt ahead of it. -/
structure Gives (s t : State) (d : Nat) (st : AnswerStatus) (ws : List Word) (ns : List Nat) : Prop where
  answer : AnsweredWith s t d st ws
  kept : OthersKept s t [d]
  heldBack : HeldBackLaw t
  law : MemoryLaw t.mem
  joins : JoinsEgress s t ns [d]
  freeDescs : t.mem.freeDescs = s.mem.freeDescs.drop ns.length
  inUse : ∀ k ∈ s.mem.inUse, k ∈ t.mem.inUse

/-- The answer to a request, from a state with the traffic of `s`. -/
theorem answer_gives {s u : State} (h : SameTraffic s u) (hm : MemoryLaw s.mem) {d : Nat} (hd : d ∈ s.mem.inUse)
    (st : AnswerStatus) {ws : List Word} (hw : ws.length ≤ 32) :
    (∃ ns, Gives s (u.answer d st ws) d st ws ns) ∧
    (u.answer d st ws).agent = { u.agent with cache := cacheAdd u.agent.cache ⟨(s.desc d).seq, st, ws⟩ } ∧
    OnlyEgress (u.setAgent (u.answer d st ws).agent) (u.answer d st ws) := by
  have hmu : MemoryLaw u.mem := h.mem ▸ hm
  have hdu : d ∈ u.mem.inUse := h.mem ▸ hd
  obtain ⟨hans, hkept, hagent, hlaw, hheld, honly, ns, hjoins, hfree, hinUse, -⟩ :=
    State.answer_spec hmu hdu (st := st) hw (replaceChain_finds_blocks hmu hdu hw)
  refine ⟨⟨ns, ?_, fun k hk hkd => ?_, hheld, hlaw, h.joins hjoins, h.mem ▸ hfree, fun k hk => ?_⟩, ?_, honly⟩
  · unfold AnsweredWith at hans ⊢
    rwa [h.desc] at hans
  · rw [← h.desc, ← h.words]
    exact hkept k (h.mem ▸ hk) hkd
  · exact (hinUse k).2 (.inr (h.mem ▸ hk))
  · rwa [h.desc] at hagent

theorem Gives.answered {s t : State} {d : Nat} {st : AnswerStatus} {ws : List Word} {ns : List Nat}
    (h : Gives s t d st ws ns) (hagent : t.agent =
      ⟨s.agent.requests.tail, s.agent.openSlot, cacheAdd s.agent.cache ⟨(s.desc d).seq, st, ws⟩⟩) :
    Answered s t d st ws :=
  ⟨h.answer, h.kept, h.heldBack, hagent, ns, h.joins, h.freeDescs⟩

section

variable {s : State} {d : Nat} {ws : List Word}

/-- A short operation that has changed `withoutHead s` into `u` is answered like any other. -/
theorem answered_from (h : Executing s d ws) {u : State} (hu : SameTraffic s u) (hagent : u.agent = (withoutHead s).agent)
    (st : AnswerStatus) {as : List Word} (hlen : as.length ≤ 32) :
    Answered s (u.answer d st as) d st as ∧ OnlyEgress (u.setAgent (u.answer d st as).agent) (u.answer d st as) := by
  obtain ⟨⟨-, hmem, -⟩, -, hd, -⟩ := h
  obtain ⟨⟨ns, hgives⟩, hag, honly⟩ := answer_gives hu hmem hd st hlen
  exact ⟨hgives.answered (by rw [hag, hagent]; rfl), honly⟩

theorem sameTraffic_withoutHead (s : State) : SameTraffic s (withoutHead s) := ⟨rfl, rfl, rfl, rfl, rfl⟩

end

/-! ## Reads of a bank (R42, R52) -/

/-- The progress of the copy of `s` at its next observation. -/
def copyReached (s : State) : Nat := min copyLength (s.copyDone + Config.copyAdvance s.freeTick)

/-- The target of the copy of `s` at its next observation. -/
def copyTarget (s : State) : Bank := (s.bank s.standbyId).copyFrom (s.bank s.active) (copyReached s)

theorem copyAdvances_eq (s : State) :
    s.copyAdvances = ((s.setBank s.standbyId (copyTarget s)).setCopyDone (copyReached s)).tickFree := rfl

theorem sameTraffic_copyAdvances (s : State) : SameTraffic s s.copyAdvances := by
  rw [copyAdvances_eq]
  cases s.standbyId <;> exact ⟨rfl, rfl, rfl, rfl, rfl⟩

section

variable {s : State} (h : TablesCanonical s)
include h

theorem banks_canonical (k : BankId) : CanonicalBank (s.bank k) := ((Invariants.canonical_iff s).1 h).banks k

theorem copyTarget_entry (i : Nat) : (copyTarget s).entry i =
    if i ≤ min (copyReached s) 61 then (s.bank s.active).entry i else (s.bank s.standbyId).entry i := by
  refine (Table.get_splice (banks_canonical h _).1 (banks_canonical h _).1 _ i).trans ?_
  exact if_congr Nat.lt_succ_iff rfl rfl

theorem copyTarget_point (i : Nat) : (copyTarget s).point i =
    if i < copyReached s - 61 then (s.bank s.active).point i else (s.bank s.standbyId).point i :=
  Table.get_splice (banks_canonical h _).2 (banks_canonical h _).2 _ i

end

theorem standbyId_of_not_active {s : State} (hone : OneActive s) {k : BankId} (hk : (s.bank k).state ≠ .active) :
    k = s.standbyId :=
  (eq_active_or_standbyId s k).resolve_left fun h => hk (h ▸ ((oneActive_iff s).1 hone).1)

/-- From `s` to `t` the copy into bank `k` has advanced as a read observes it, and nothing else has changed but the agent and
the telegrams. -/
abbrev CopyHasReached (s t : State) (k : BankId) : Prop :=
  (∀ i, (t.bank k).entry i = if i ≤ min t.copyDone 61 then (s.bank s.active).entry i else (s.bank k).entry i) ∧
  (∀ i, (t.bank k).point i = if i < t.copyDone - 61 then (s.bank s.active).point i else (s.bank k).point i) ∧
  min s.copyDone 1085 ≤ t.copyDone ∧ t.copyDone ≤ 1085 ∧
  OnlyEgress ((((s.setAgent t.agent).setBank k
    { s.bank k with stations := (t.bank k).stations, points := (t.bank k).points }).setCopyDone t.copyDone).tickFree) t

/-- The answer to a read of bank `k`, which first lets a copy into it advance. -/
theorem read_answers {s : State} {d : Nat} {ws : List Word} (hone : OneActive s) (h : Executing s d ws) (k : BankId)
    {words : Bank → List Word} (hlen : ∀ b, (words b).length ≤ 32) {t : State}
    (ht : t = ((withoutHead s).observeCopy k).answer d .done (words (((withoutHead s).observeCopy k).bank k))) :
    ((s.bank k).state ≠ .filling → Answered s t d .done (words (s.bank k)) ∧ OnlyEgress (s.setAgent t.agent) t) ∧
    ((s.bank k).state = .filling → Answered s t d .done (words (t.bank k)) ∧ CopyHasReached s t k) := by
  constructor
  · intro hk
    have hobserve : (withoutHead s).observeCopy k = withoutHead s := if_neg hk
    rw [ht, hobserve]
    exact answered_from h (sameTraffic_withoutHead s) rfl .done (hlen _)
  · intro hk
    have htables := h.1.2.2
    have hstandby : k = s.standbyId := standbyId_of_not_active hone (by rw [hk]; decide)
    subst hstandby
    have hobserve : (withoutHead s).observeCopy s.standbyId =
        (((withoutHead s).setBank s.standbyId (copyTarget s)).setCopyDone (copyReached s)).tickFree := if_pos hk
    have hsame : SameTraffic s ((withoutHead s).observeCopy s.standbyId) :=
      hobserve ▸ (sameTraffic_withoutHead s).trans (sameTraffic_copyAdvances (withoutHead s))
    obtain ⟨hans, honly⟩ := answered_from h hsame (by rw [State.observeCopy_agent]) .done (hlen _)
    rw [← ht] at hans honly
    have hbank : t.bank s.standbyId = copyTarget s := by
      rw [ht, State.answer_bank, hobserve, State.tickFree_bank, State.setCopyDone_bank, State.setBank_bank_same]
    have hdone : t.copyDone = copyReached s := by rw [ht, State.answer_copyDone, hobserve]; rfl
    rw [hobserve, State.tickFree_bank, State.setCopyDone_bank, State.setBank_bank_same] at hans
    refine ⟨hbank ▸ hans, ?_, ?_, ?_, ?_, ?_⟩
    · rw [hbank, hdone]
      exact copyTarget_entry htables
    · rw [hbank, hdone]
      exact copyTarget_point htables
    · rw [hdone, copyReached, copyLength, Config.stations, Config.points]
      omega
    · rw [hdone, copyReached, copyLength, Config.stations, Config.points]
      omega
    · have hfields : { s.bank s.standbyId with
          stations := (t.bank s.standbyId).stations, points := (t.bank s.standbyId).points } = copyTarget s := by
        rw [hbank]
        rfl
      rw [hfields, hdone]
      rw [hobserve] at honly
      revert honly
      cases s.standbyId <;> exact id

theorem toWords_length (e : StationEntry) : e.toWords.length = 9 := rfl

theorem pointWords_eq (b : Bank) (k n : Nat) :
    b.pointWords k n = (List.range n).flatMap fun i => (b.point (k + i)).toWords := by
  rw [Bank.pointWords, Bank.runRecords, List.flatMap_map]

theorem pointWords_length (b : Bank) (k n : Nat) : (b.pointWords k n).length = 6 * n := by
  rw [pointWords_eq, List.length_flatMap]
  simp [PointRecord.toWords, Nat.mul_comm]

theorem opReadStation_of_inRange (s : State) (d : Nat) (k : BankId) {n : Word} (hn : 1 ≤ n.toNat ∧ n.toNat ≤ 61) :
    opReadStation s d [2, k.code, n] =
      (s.observeCopy k).answer d .done (((s.observeCopy k).bank k).entry n.toNat).toWords := by
  have hb : bankArg (arg [2, k.code, n] 1) = some k := bankArg_code k
  have hs : stationArg (arg [2, k.code, n] 2) = some n.toNat := stationArg_of_inRange hn
  rw [opReadStation, hb, hs]

theorem opReadStation_badArgument (s : State) (d : Nat) {b n : Word}
    (h : ¬(b.toNat ≤ 1 ∧ 1 ≤ n.toNat ∧ n.toNat ≤ 61)) :
    opReadStation s d [2, b, n] = s.answer d .badArgument [] := by
  unfold opReadStation
  split
  · next k m hb hn =>
    refine absurd ⟨(bankArg_isSome b).1 ?_, (stationArg_isSome n).1 ?_⟩ h
    · exact Option.isSome_iff_exists.2 ⟨k, hb⟩
    · exact Option.isSome_iff_exists.2 ⟨m, hn⟩
  · rfl

theorem opReadPoints_of_inRange (s : State) (d : Nat) (k : BankId) {f c : Word}
    (h : 1 ≤ c.toNat ∧ c.toNat ≤ 4 ∧ f.toNat + c.toNat ≤ 1024) : opReadPoints s d [4, k.code, f, c] =
      (s.observeCopy k).answer d .done (((s.observeCopy k).bank k).pointWords f.toNat c.toNat) := by
  have hb : bankArg (arg [4, k.code, f, c] 1) = some k := bankArg_code k
  have hrange : argNat [4, k.code, f, c] 2 ≤ 1023 ∧ 1 ≤ argNat [4, k.code, f, c] 3 ∧ argNat [4, k.code, f, c] 3 ≤ 4 ∧
      argNat [4, k.code, f, c] 2 + argNat [4, k.code, f, c] 3 ≤ Config.points := by
    change f.toNat ≤ 1023 ∧ 1 ≤ c.toNat ∧ c.toNat ≤ 4 ∧ f.toNat + c.toNat ≤ 1024
    omega
  simp only [opReadPoints, hb, if_pos hrange]
  rfl

theorem opReadPoints_badArgument (s : State) (d : Nat) {b f c : Word}
    (h : ¬(b.toNat ≤ 1 ∧ 1 ≤ c.toNat ∧ c.toNat ≤ 4 ∧ f.toNat + c.toNat ≤ 1024)) :
    opReadPoints s d [4, b, f, c] = s.answer d .badArgument [] := by
  unfold opReadPoints
  split
  · next k hb =>
    have hb1 : b.toNat ≤ 1 := (bankArg_isSome b).1 (Option.isSome_iff_exists.2 ⟨k, hb⟩)
    refine if_neg fun hrange => h ?_
    have hrange : f.toNat ≤ 1023 ∧ 1 ≤ c.toNat ∧ c.toNat ≤ 4 ∧ f.toNat + c.toNat ≤ 1024 := hrange
    exact ⟨hb1, hrange.2⟩
  · rfl

/-- Settles O23. -/
theorem bankReadsAnswerTheContents : Obligations.BankReadsAnswerTheContents := by
  refine ⟨fun s d b n hone h => ⟨_, event_executeOp_eq h rfl opReadStation, ?_⟩,
    fun s d b f c hone h => ⟨_, event_executeOp_eq h rfl opReadPoints, ?_⟩⟩
  · by_cases hrange : b.toNat ≤ 1 ∧ 1 ≤ n.toNat ∧ n.toNat ≤ 61
    · rw [if_pos hrange]
      rintro k rfl
      exact read_answers hone h k (words := fun b => (b.entry n.toNat).toWords)
        (fun b => (toWords_length _).le.trans (by decide)) (opReadStation_of_inRange _ d k hrange.2)
    · rw [if_neg hrange, opReadStation_badArgument _ d hrange]
      exact answered_without_write h .badArgument
  · by_cases hrange : b.toNat ≤ 1 ∧ 1 ≤ c.toNat ∧ c.toNat ≤ 4 ∧ f.toNat + c.toNat ≤ 1024
    · rw [if_pos hrange]
      rintro k rfl
      have hread := read_answers hone h k (words := fun b => b.pointWords f.toNat c.toNat)
        (fun b => (pointWords_length b _ _).le.trans (by omega)) (opReadPoints_of_inRange _ d k hrange.2)
      simp only [pointWords_eq] at hread
      exact hread
    · rw [if_neg hrange, opReadPoints_badArgument _ d hrange]
      exact answered_without_write h .badArgument

/-! ## COPY and COMMIT (R51, R53, R174) -/

theorem standbyState_ne_active {s : State} (hone : OneActive s) : s.standbyState ≠ .active := ((oneActive_iff s).1 hone).2

theorem engineRefusal_busy {s : State} (h : s.standbyState = .filling ∨ s.standbyState = .checking) :
    s.engineRefusal = some .engineBusy := by
  rcases h with h | h <;> simp [State.engineRefusal, State.engineRunning, h]

theorem engineRefusal_notStandby {s : State} (h : s.standbyState = .pending ∨ s.standbyState = .retiring) :
    s.engineRefusal = some .notStandby := by
  rcases h with h | h <;> simp [State.engineRefusal, State.engineRunning, h]

theorem engineRefusal_none {s : State} (h : s.standbyState = .standby) : s.engineRefusal = none := by
  simp [State.engineRefusal, State.engineRunning, h]

theorem opCopy_of_refused {s : State} {st : AnswerStatus} (h : s.engineRefusal = some st) (d : Nat) (ws : List Word) :
    opCopy s d ws = s.answer d st [] := by
  simp only [opCopy, h]

theorem opCommit_of_refused {s : State} {st : AnswerStatus} (h : s.engineRefusal = some st) (d : Nat) (ws : List Word) :
    opCommit s d ws = s.answer d st [] := by
  simp only [opCommit, h]

/-- Settles O24. -/
theorem copyAndCommitOpenTheOperation : Obligations.CopyAndCommitOpenTheOperation := by
  refine fun s d _ => ⟨fun h => ⟨_, event_executeOp_eq h rfl opCopy, fun hs => ?_, fun hs => ?_, fun hs => ?_⟩,
    fun h => ⟨_, event_executeOp_eq h rfl opCommit, fun hs => ?_, fun hs => ?_, fun hs => ?_⟩⟩
  · rw [opCopy_of_refused (s := withoutHead s) (engineRefusal_busy hs)]
    exact answered_without_write h .engineBusy
  · rw [opCopy_of_refused (s := withoutHead s) (engineRefusal_notStandby hs)]
    exact answered_without_write h .notStandby
  · simp only [opCopy, engineRefusal_none (s := withoutHead s) hs]
    change (((withoutHead s).setBank s.standbyId
      { s.bank s.standbyId with state := .filling, label := 65535 }).setCopyDone 0).openRequest d = _
    cases s.standbyId <;> rfl
  · rw [opCommit_of_refused (s := withoutHead s) (engineRefusal_busy hs)]
    exact answered_without_write h .engineBusy
  · rw [opCommit_of_refused (s := withoutHead s) (engineRefusal_notStandby hs)]
    exact answered_without_write h .notStandby
  · simp only [opCommit, engineRefusal_none (s := withoutHead s) hs]
    change ((withoutHead s).setBank s.standbyId { s.bank s.standbyId with state := .checking }).openRequest d = _
    cases s.standbyId <;> rfl

/-! ## Completions (R52, R54) -/

theorem answerOpen_of_some {s : State} {d : Nat} (h : s.agent.openSlot = some d) (st : AnswerStatus) (ws : List Word) :
    s.answerOpen st ws = (s.setAgent { s.agent with openSlot := none }).answer d st ws := by
  simp only [State.answerOpen, h]

/-- The answer to the open request, from a state with the traffic and the agent of `s`. -/
theorem answerOpen_gives {s u : State} (h : SameTraffic s u) (hagent : u.agent = s.agent) (hm : MemoryLaw s.mem) {d : Nat}
    (hopen : s.agent.openSlot = some d) (hd : d ∈ s.mem.inUse) (st : AnswerStatus) {ws : List Word}
    (hw : ws.length ≤ 32) :
    (∃ ns, Gives s (u.answerOpen st ws) d st ws ns) ∧
    (u.answerOpen st ws).agent =
      { s.agent with openSlot := none, cache := cacheAdd s.agent.cache ⟨(s.desc d).seq, st, ws⟩ } ∧
    OnlyEgress (u.setAgent (u.answerOpen st ws).agent) (u.answerOpen st ws) := by
  rw [answerOpen_of_some (hagent ▸ hopen)]
  have hsame : SameTraffic s (u.setAgent { u.agent with openSlot := none }) :=
    h.trans ⟨rfl, rfl, rfl, rfl, rfl⟩
  obtain ⟨hgives, hag, honly⟩ := answer_gives hsame hm hd st hw
  refine ⟨hgives, ?_, honly⟩
  rw [hag, State.setAgent_agent, hagent]

theorem checkFailure_words_length (f : CheckFailure) : f.words.length ≤ 32 := (by decide : 3 ≤ 32)

/-- Settles O25. -/
theorem completionsAnswerTheOpenRequest : Obligations.CompletionsAnswerTheOpenRequest := by
  refine ⟨fun s hheld => ⟨fun h => ?_, fun h => ?_⟩, fun s d hrun hopen hd hs => ?_, fun s d hrun hopen hd hs => ?_⟩
  · rw [exec_copyCompletion hheld, copyCompletes_of_not_filling h]
  · rw [exec_checkCompletion hheld, checkCompletes_of_not_checking h]
  · obtain ⟨hheld, hm, -⟩ := hrun
    have hsame := (SameTraffic.setBank s s.standbyId { s.bank s.standbyId with
      stations := (s.bank s.active).stations, points := (s.bank s.active).points,
      label := (s.bank s.active).label, state := .standby }).trans (u := State.setCopyDone _ 0) ⟨rfl, rfl, rfl, rfl, rfl⟩
    obtain ⟨⟨ns, hgives⟩, hagent, honly⟩ := answerOpen_gives hsame (by simp) hm hopen hd .done (ws := []) (by decide)
    refine ⟨_, ns, (exec_copyCompletion hheld).trans (congrArg _ (if_pos hs)), hgives.answer, hgives.kept, hgives.joins,
      hagent, ?_⟩
    revert honly
    cases s.standbyId <;> exact id
  · obtain ⟨hheld, hm, -⟩ := hrun
    have hcheck : ∀ (st : BankState) (as : AnswerStatus) (ws : List Word), ws.length ≤ 32 → ∃ ns,
        Gives s ((s.setBankState s.standbyId st).answerOpen as ws) d as ws ns ∧
        ((s.setBankState s.standbyId st).answerOpen as ws).agent =
          { s.agent with openSlot := none, cache := cacheAdd s.agent.cache ⟨(s.desc d).seq, as, ws⟩ } ∧
        OnlyEgress ((s.setAgent ((s.setBankState s.standbyId st).answerOpen as ws).agent).setBank s.standbyId
          { s.bank s.standbyId with state := st }) ((s.setBankState s.standbyId st).answerOpen as ws) := by
      intro st as ws hw
      obtain ⟨⟨ns, hgives⟩, hagent, honly⟩ := answerOpen_gives (SameTraffic.setBank s s.standbyId _)
        (State.setBank_agent ..) hm hopen hd as hw
      refine ⟨ns, hgives, hagent, ?_⟩
      revert honly
      unfold State.setBankState
      cases s.standbyId <;> exact id
    have hexec : exec .checkCompletion s = .next s.checkCompletes := exec_checkCompletion hheld
    unfold State.checkCompletes at hexec
    rw [if_pos hs] at hexec
    cases hc : (s.bank s.standbyId).check with
    | none =>
      obtain ⟨ns, hgives, hagent, honly⟩ := hcheck .pending .done [] (by decide)
      simp only [hc] at hexec
      exact ⟨_, ns, _, _, hexec, hgives.answer, hgives.kept, hgives.joins, hagent, fun _ => ⟨rfl, rfl, honly⟩,
        fun f hf => (nomatch hf)⟩
    | some f =>
      obtain ⟨ns, hgives, hagent, honly⟩ := hcheck .standby .checkFailed f.words (checkFailure_words_length f)
      simp only [hc] at hexec
      refine ⟨_, ns, _, _, hexec, hgives.answer, hgives.kept, hgives.joins, hagent, fun h => (nomatch h), ?_⟩
      rintro f' ⟨⟩
      exact ⟨rfl, rfl, honly⟩

/-! ## CANCEL (R58, R176) -/

/-- Two answers, one after the other, from a state with the traffic of `s`. -/
theorem twoAnswers {s u v : State} (h : SameTraffic s u) (hm : MemoryLaw s.mem) {o d : Nat} (ho : o ∈ s.mem.inUse)
    (hd : d ∈ s.mem.inUse) (hne : o ≠ d) (st1 st2 : AnswerStatus) (hv : v = (u.answer o st1 []).answer d st2 []) :
    AnsweredWith s v o st1 [] ∧ AnsweredWith s v d st2 [] ∧ OthersKept s v [o, d] ∧
    (∃ ns ms, v.egress.queue = s.egress.queue ++ ns ++ [o] ++ ms ++ [d]) ∧
    v.agent = { u.agent with cache := cacheAdd (cacheAdd u.agent.cache ⟨(s.desc o).seq, st1, []⟩) ⟨(s.desc d).seq, st2, []⟩ } ∧
    OnlyEgress (u.setAgent v.agent) v := by
  obtain ⟨⟨ns, h1⟩, hagent1, honly1⟩ := answer_gives h hm ho st1 (ws := []) (by decide)
  obtain ⟨⟨ms, h2⟩, hagent2, honly2⟩ :=
    answer_gives (s := u.answer o st1 []) ⟨rfl, rfl, rfl, rfl, rfl⟩ h1.law (h1.inUse d hd) st2 (ws := []) (by decide)
  rw [← hv] at h2 hagent2 honly2
  have hd1 := h1.kept d hd (by simpa using hne.symm)
  have ho2 := h2.kept o (h1.inUse o ho) (by simpa using hne)
  refine ⟨?_, ?_, fun k hk hkod => ?_, ⟨ns, ms, ?_⟩, ?_, ?_⟩
  · have hsame : v.telegram o = (u.answer o st1 []).telegram o := by
      rw [State.telegram, ho2.1, ho2.2]
      rfl
    exact hsame.trans h1.answer
  · have hanswer := h2.answer
    unfold AnsweredWith at hanswer ⊢
    rwa [hd1.1] at hanswer
  · simp only [List.mem_cons, List.not_mem_nil, or_false, not_or] at hkod
    have hk1 := h1.kept k hk (by simpa using hkod.1)
    have hk2 := h2.kept k (h1.inUse k hk) (by simpa using hkod.2)
    exact ⟨hk2.1.trans hk1.1, hk2.2.trans hk1.2⟩
  · rw [h2.joins.1, h1.joins.1]
  · rw [hagent2, hagent1, hd1.1]
  · have honly1' : OnlyEgress (u.setAgent v.agent) ((u.answer o st1 []).setAgent v.agent) := by
      unfold OnlyEgress at honly1 ⊢
      rw [honly1]
      rfl
    exact honly1'.trans honly2

section

variable {s : State} {d : Nat}

theorem opCancel_of_filling (h : s.standbyState = .filling) (ws : List Word) :
    opCancel s d ws = (s.endCopy.answerOpen .cancelled []).answer d .done [] := by
  simp only [opCancel, h]

theorem opCancel_of_checking (h : s.standbyState = .checking) (ws : List Word) :
    opCancel s d ws = ((s.setBankState s.standbyId .standby).answerOpen .cancelled []).answer d .done [] := by
  simp only [opCancel, h]

theorem opCancel_of_pending (h : s.standbyState = .pending) (ws : List Word) :
    opCancel s d ws = (s.setBankState s.standbyId .standby).answer d .done [] := by
  simp only [opCancel, h]

theorem opCancel_of_idle (h : s.standbyState = .standby ∨ s.standbyState = .retiring) (ws : List Word) :
    opCancel s d ws = s.answer d .nothingPending [] := by
  rcases h with h | h <;> simp only [opCancel, h]

theorem endCopy_eq (s : State) : s.endCopy =
    ((s.setBank s.standbyId { copyTarget s with state := .standby }).setCopyDone 0).tickFree := by
  unfold State.endCopy State.setBankState
  rw [copyAdvances_eq]
  generalize copyTarget s = v
  cases s.standbyId <;> rfl

theorem sameTraffic_endCopy (s : State) : SameTraffic s s.endCopy := by
  rw [endCopy_eq]
  cases s.standbyId <;> exact ⟨rfl, rfl, rfl, rfl, rfl⟩

/-- The two answers of a CANCEL that ends a long operation, once the bank has been changed. -/
theorem cancel_answers {ws : List Word} (h : Executing s d ws) {v : State} (hv : SameTraffic s v)
    (hagent : v.agent = (withoutHead s).agent) {o : Nat} (hopen : s.agent.openSlot = some o) (ho : o ∈ s.mem.inUse)
    (hne : o ≠ d) {t : State} (ht : t = (v.answerOpen .cancelled []).answer d .done []) :
    AnsweredWith s t o .cancelled [] ∧ AnsweredWith s t d .done [] ∧ OthersKept s t [o, d] ∧
    (∃ ns ms, t.egress.queue = s.egress.queue ++ ns ++ [o] ++ ms ++ [d]) ∧
    t.agent = ⟨s.agent.requests.tail, none,
      cacheAdd (cacheAdd s.agent.cache ⟨(s.desc o).seq, .cancelled, []⟩) ⟨(s.desc d).seq, .done, []⟩⟩ ∧
    OnlyEgress (v.setAgent t.agent) t := by
  obtain ⟨⟨-, hm, -⟩, -, hd, -⟩ := h
  have hopen' : v.agent.openSlot = some o := by rw [hagent]; exact hopen
  rw [answerOpen_of_some hopen'] at ht
  have hsame : SameTraffic s (v.setAgent { v.agent with openSlot := none }) := hv.trans ⟨rfl, rfl, rfl, rfl, rfl⟩
  obtain ⟨hcancelled, hdone, hkept, hqueue, hag, honly⟩ := twoAnswers hsame hm ho hd hne .cancelled .done ht
  rw [State.setAgent_agent, hagent] at hag
  exact ⟨hcancelled, hdone, hkept, hqueue, hag, honly⟩

end

/-- Settles O27. -/
theorem cancelEndsTheOperation : Obligations.CancelEndsTheOperation := by
  intro s d _ h
  refine ⟨_, event_executeOp_eq h rfl opCancel, fun hs => ?_, fun hs => ?_, fun o hopen ho hne hs => ?_⟩
  · rw [opCancel_of_idle (s := withoutHead s) hs]
    exact answered_without_write h .nothingPending
  · rw [opCancel_of_pending (s := withoutHead s) hs]
    exact answered_after_setBank h s.standbyId { s.bank s.standbyId with state := .standby } .done
  · obtain ⟨t, ht⟩ : ∃ t, t = opCancel (withoutHead s) d [14] := ⟨_, rfl⟩
    rw [← ht]
    rcases hs with hs | hs
    · rw [opCancel_of_filling (s := withoutHead s) hs] at ht
      obtain ⟨hcancelled, hdone, hkept, hqueue, hagent, honly⟩ := cancel_answers h
        ((sameTraffic_withoutHead s).trans (sameTraffic_endCopy _)) (State.endCopy_agent _) hopen ho hne ht
      have hbank : t.bank s.standbyId = { copyTarget s with state := .standby } := by
        rw [ht, State.answer_bank, State.answerOpen_bank, endCopy_eq, State.tickFree_bank, State.setCopyDone_bank]
        exact State.setBank_bank_same ..
      have htables := h.1.2.2
      refine ⟨hcancelled, hdone, hkept, hqueue, hagent, by rw [hbank], by rw [hbank]; rfl, by rw [hbank]; rfl,
        fun hc => absurd (hs.symm.trans hc) (by decide), fun _ => ⟨fun n => ?_, fun k => ?_, ?_⟩⟩
      · have hentry : (t.bank s.standbyId).entry n = (copyTarget s).entry n := by rw [hbank]; rfl
        rw [hentry, copyTarget_entry htables]
        split
        · exact .inr rfl
        · exact .inl rfl
      · have hpoint : (t.bank s.standbyId).point k = (copyTarget s).point k := by rw [hbank]; rfl
        rw [hpoint, copyTarget_point htables]
        split
        · exact .inr rfl
        · exact .inl rfl
      · rw [hbank]
        rw [endCopy_eq] at honly
        revert honly
        change OnlyEgress ((((((withoutHead s).setBank s.standbyId { copyTarget s with state := .standby }).setCopyDone
          0).tickFree).setAgent t.agent)) t → _
        cases s.standbyId <;> exact id
    · rw [opCancel_of_checking (s := withoutHead s) hs] at ht
      obtain ⟨hcancelled, hdone, hkept, hqueue, hagent, honly⟩ := cancel_answers h
        ((sameTraffic_withoutHead s).trans (SameTraffic.setBank _ _ _)) (State.setBank_agent ..) hopen ho hne ht
      have hbank : t.bank s.standbyId = { s.bank s.standbyId with state := .standby } := by
        rw [ht, State.answer_bank, State.answerOpen_bank]
        exact State.setBank_bank_same ..
      refine ⟨hcancelled, hdone, hkept, hqueue, hagent, by rw [hbank], by rw [hbank], by rw [hbank], fun _ => ?_,
        fun hc => absurd (hs.symm.trans hc) (by decide)⟩
      revert honly
      change OnlyEgress (((withoutHead s).setBank s.standbyId
        { s.bank s.standbyId with state := .standby }).setAgent t.agent) t → _
      cases s.standbyId <;> exact id

/-! ## Malformed requests (R166) -/

/-- A request whose tests 1 to 3 give `st` is answered with it. -/
theorem malformed_answers {s : State} {d : Nat} {ws : List Word} (h : Executing s d ws) {st : AnswerStatus}
    (hclass : classifyRequest ws = .malformed st) :
    ∃ t, exec .malformedRequest s = .next t ∧ Answered s t d st [] ∧ OnlyEgress (s.setAgent t.agent) t := by
  obtain ⟨⟨hheld, -, -⟩, hhead, -, hws⟩ := id h
  have hbody : opMalformed (withoutHead s) d ws = (withoutHead s).answer d st [] := by
    rw [opMalformed, hclass]
    rfl
  refine ⟨(withoutHead s).answer d st [], ?_, answered_without_write h st⟩
  rw [exec_malformedRequest hheld, State.execute_head hhead (by rw [hws, hclass]; rfl), hws]
  exact congrArg _ hbody

theorem classifyRequest_of_noOperation {w : Word} (rest : List Word) (h : w = 0 ∨ 15 < w.toNat) :
    classifyRequest (w :: rest) = .malformed .badOperation := by
  have hnone : MgmtOp.ofCode w = none := (ofCode_eq_none_iff w).2 (h.imp_left fun h => by rw [h]; rfl)
  simp only [classifyRequest, hnone]

/-- An operation that is named, by a request that does not fit it. -/
theorem classifyRequest_of_misfit {ws : List Word} {o : MgmtOp} (hne : ws ≠ []) (ho : (ws.getD 0 0).toNat = opNumber o)
    (hmisfit : ¬FitsTable ws) : classifyRequest ws = .malformed .format := by
  cases ws with
  | nil => exact absurd rfl hne
  | cons w rest =>
    have hcode : MgmtOp.ofCode w = some o := (ofCode_eq_some_iff w o).2 ho
    simp only [classifyRequest, hcode]
    exact if_neg fun hfits => hmisfit ((fits_iff o (w :: rest) ho).1 hfits)

/-- A row of the request table names an operation that is not WRITE_POINTS, with the one count it requires. -/
theorem opNumber_of_mem_countTable {o n : Nat} (h : (o, n) ∈ countTable) :
    (∃ op, opNumber op = o) ∧ o ≠ 5 ∧ ∀ m, (o, m) ∈ countTable → m = n := by
  have hrows : ∀ row ∈ countTable, (∃ op, opNumber op = row.1) ∧ row.1 ≠ 5 ∧
      ∀ other ∈ countTable, other.1 = row.1 → other.2 = row.2 := by
    simp only [countTable, List.forall_mem_cons]
    refine ⟨⟨⟨.status, rfl⟩, ?_⟩, ⟨⟨.readStation, rfl⟩, ?_⟩, ⟨⟨.writeStation, rfl⟩, ?_⟩, ⟨⟨.readPoints, rfl⟩, ?_⟩,
      ⟨⟨.setLabel, rfl⟩, ?_⟩, ⟨⟨.readImage, rfl⟩, ?_⟩, ⟨⟨.readStationState, rfl⟩, ?_⟩, ⟨⟨.readCounters, rfl⟩, ?_⟩,
      ⟨⟨.clearCounters, rfl⟩, ?_⟩, ⟨⟨.setMode, rfl⟩, ?_⟩, ⟨⟨.copy, rfl⟩, ?_⟩, ⟨⟨.commit, rfl⟩, ?_⟩, ⟨⟨.cancel, rfl⟩, ?_⟩,
      ⟨⟨.restart, rfl⟩, ?_⟩, List.forall_mem_nil _⟩
    all_goals simp
  obtain ⟨hop, hne, hcount⟩ := hrows (o, n) h
  exact ⟨hop, hne, fun m hm => hcount (o, m) hm rfl⟩

/-- Settles O52. -/
theorem malformedRequestsAreAnswered : Obligations.MalformedRequestsAreAnswered := by
  intro s d ws h
  refine ⟨?_, ?_⟩
  · rintro rfl
    exact malformed_answers h rfl
  · rintro w rest rfl
    refine ⟨fun hw => malformed_answers h (classifyRequest_of_noOperation rest hw), fun o n hmem hw hlen => ?_,
      fun hw hmisfit => ?_⟩
    · obtain ⟨⟨op, hop⟩, hne, hcount⟩ := opNumber_of_mem_countTable hmem
      refine malformed_answers h (classifyRequest_of_misfit (List.cons_ne_nil _ _) (o := op) (hw.trans hop.symm) ?_)
      rintro (hrow | ⟨hfive, -⟩)
      · exact hlen (hcount _ (hw ▸ hrow))
      · exact hne (hw.symm.trans hfive)
    · refine malformed_answers h (classifyRequest_of_misfit (List.cons_ne_nil _ _) (o := .writePoints) hw ?_)
      rintro (hrow | ⟨-, hlow, hhigh, hlen⟩)
      · have hrow5 : (5, (w :: rest).length) ∈ countTable := hw ▸ hrow
        exact (opNumber_of_mem_countTable hrow5).2.1 rfl
      · rcases hmisfit with hm | hm | hm | hm
        · omega
        · rw [hm] at hlow
          exact absurd hlow (by decide)
        · omega
        · exact hm hlen

end Sys2Proof.Proofs.Answers
end

section
/-! PROOFS. CLEAR_COUNTERS (O56) and RESTART (O58): the free lists and minima under an answer without data, and what is left
when every descriptor but one is released. -/

namespace Sys2Proof.Proofs.ClearAndRestart

open Sys2Proof Sys2Proof.Machine Sys2Proof.Proofs.BankWrites Sys2Proof.Proofs.StationAnswers
  Sys2Proof.Proofs.CounterGroups Sys2Proof.Proofs.BankInvariants Sys2Proof.Proofs.EventFrames
  Sys2Proof.Proofs.CounterOrder Sys2Proof.Proofs.Answers Sys2Proof.Proofs.Resets

/-! ## An answer without data (R27, R34) -/

/-- The state in which the header of an answer without data is written. -/
def emptied (s : State) (d : Nat) : State := (s.setMem (s.mem.emptyChain d)).emissionAttempt

theorem answer_nil_eq (s : State) (d : Nat) (st : AnswerStatus) : s.answer d st [] =
    (((emptied s d).modDesc d (Descriptor.toAnswer st)).joinEgress d).cacheAnswer ⟨(s.desc d).seq, st, []⟩ := rfl

/-- The free lists and the minima after an answer without data: its blocks come back, then its notices are allocated. -/
theorem answer_nil_free {s : State} (hm : MemoryLaw s.mem) {d : Nat} (hd : d ∈ s.mem.inUse) (st : AnswerStatus) :
    ∃ ns : List Nat, ns.length ≤ s.notices.pendingSet.length ∧
      (s.answer d st []).mem.freeDescs = s.mem.freeDescs.drop ns.length ∧
      (s.answer d st []).mem.freeBlocks = (s.mem.freeBlocks ++ (s.desc d).chain).drop ns.length ∧
      MinimaAfter s (s.answer d st []) ns := by
  obtain ⟨ns, hemits, -⟩ := State.emissionAttempt_spec (s := s.setMem (s.mem.emptyChain d)) (hm.emptyChain hd)
  have hmem : (s.answer d st []).mem = ((emptied s d).modDesc d (Descriptor.toAnswer st)).mem := by
    rw [answer_nil_eq]
    simp [State.cacheAnswer]
  refine ⟨ns, hemits.le_pending, ?_, ?_, ?_⟩
  · rw [hmem]
    exact hemits.freeDescs
  · rw [hmem]
    exact hemits.freeBlocks
  · have hminima := hemits.minima
    unfold MinimaAfter at hminima ⊢
    rw [hmem]
    exact hminima

/-! ## CLEAR_COUNTERS (R196) -/

/-- The minima `x` and `y`, set ahead of an answer, as the answer's notices leave them. -/
structure MinimaFrom (s t : State) (x y : Nat) : Prop where
  quiet : s.notices.pendingSet = [] → t.mem.minDescs = x ∧ t.mem.minBlocks = y
  descs : x ≤ s.mem.freeDescs.length → t.mem.minDescs = min x t.mem.freeDescs.length
  blocks : y ≤ s.mem.freeBlocks.length → t.mem.minBlocks = min y t.mem.freeBlocks.length
  freeDescs : t.mem.freeDescs.length ≤ s.mem.freeDescs.length

section

variable {s : State} {d : Nat} {ws : List Word}

theorem minimaFrom_answer (h : Executing s d ws) (x y : Nat) (c : CounterBank) (st : AnswerStatus) :
    MinimaFrom s ((withCounts (withoutHead s) x y c).answer d st []) x y := by
  obtain ⟨⟨-, hm, -⟩, -, hd, -⟩ := h
  obtain ⟨ns, hpending, hdescs, hblocks, hminDescs, hminBlocks⟩ :=
    answer_nil_free (s := withCounts (withoutHead s) x y c) hm hd st
  have hdescs' := congrArg List.length hdescs
  have hblocks' := congrArg List.length hblocks
  rw [List.length_drop] at hdescs' hblocks'
  rw [List.length_append] at hblocks'
  change _ = s.mem.freeDescs.length - ns.length at hdescs'
  change _ = s.mem.freeBlocks.length + _ - ns.length at hblocks'
  change _ = if ns = [] then x else min x _ at hminDescs
  change _ = if ns = [] then y else min y _ at hminBlocks
  by_cases hnone : ns = []
  · rw [if_pos hnone] at hminDescs hminBlocks
    rw [hnone, List.length_nil] at hdescs' hblocks'
    exact ⟨fun _ => ⟨hminDescs, hminBlocks⟩, fun _ => by omega, fun _ => by omega, by omega⟩
  · rw [if_neg hnone] at hminDescs hminBlocks
    refine ⟨fun hempty => absurd ?_ hnone, fun _ => hminDescs, fun _ => hminBlocks, by omega⟩
    have hzero : ns.length ≤ s.notices.pendingSet.length := hpending
    rw [hempty] at hzero
    exact List.eq_nil_of_length_eq_zero (Nat.le_zero.1 hzero)

/-- A clear answers DONE, with the counters `c` and the minima from `x` and `y`. -/
structure Clears (s t : State) (d x y : Nat) (c : CounterBank) : Prop where
  answered : Answered s t d .done []
  only : OnlyEgress ((s.setAgent t.agent).setCounters c) t
  minima : MinimaFrom s t x y
  counters : t.counters = c

theorem clears_of_eq (h : Executing s d ws) {x y : Nat} {c : CounterBank} {t : State}
    (ht : t = (withCounts (withoutHead s) x y c).answer d .done []) : Clears s t d x y c := by
  subst ht
  obtain ⟨hanswered, honly⟩ := answered_after_withCounts h x y c .done
  exact ⟨hanswered, honly, minimaFrom_answer h x y c .done, by rw [State.answer_counters]; rfl⟩

variable {g : Word} {t : State} (h : Executing s d [10, g]) (ht : t = opClearCounters (withoutHead s) d [10, g])
include h ht

theorem clears_all (hg : g = 255) :
    Clears s t d s.mem.freeDescs.length s.mem.freeBlocks.length CounterBank.reset := by
  subst hg
  exact clears_of_eq h ht

theorem clears_group {k : Group} (hall : g ≠ 255) (hg : groupArg g = some k) {x y : Nat} {c : CounterBank}
    (hk : (withoutHead s).clearGroup k = withCounts (withoutHead s) x y c) : Clears s t d x y c := by
  refine clears_of_eq h ?_
  rw [ht, opClearCounters_of_group _ d hall hg, hk]

theorem clears_memoryAgent (hg : g = 3) : Clears s t d s.mem.freeDescs.length s.mem.freeBlocks.length
    { s.counters with duplicates := 0, queueFull := 0 } := by
  subst hg
  exact clears_group h ht (k := .memoryAgent) (by decide) rfl rfl

/-- A clear of another group, or of none, leaves the minima as they were but for its notices. -/
theorem minimaFrom_other (hall : g ≠ 255) (hagent : g ≠ 3) : MinimaFrom s t s.mem.minDescs s.mem.minBlocks := by
  cases hg : groupArg g with
  | none =>
    rw [ht, opClearCounters_badArgument _ d hall hg]
    exact minimaFrom_answer h s.mem.minDescs s.mem.minBlocks s.counters .badArgument
  | some k =>
    cases k with
    | trunk => exact (clears_group h ht hall hg (k := .trunk) rfl).minima
    | dropA => exact (clears_group h ht hall hg (k := .dropA) rfl).minima
    | dropB => exact (clears_group h ht hall hg (k := .dropB) rfl).minima
    | station n => exact (clears_group h ht hall hg (k := .station n) rfl).minima
    | memoryAgent =>
      refine absurd (BitVec.eq_of_toNat_eq ?_) hagent
      unfold groupArg at hg
      split at hg
      case h_4 h3 => exact h3
      case h_5 => split at hg <;> cases hg
      all_goals cases hg

theorem clears_station {n : Nat} (hg : g.toNat = 16 + n) (hlow : 1 ≤ n) (hhigh : n ≤ 61) :
    Clears s t d s.mem.minDescs s.mem.minBlocks { s.counters with
      stations := Table.set StationCounters.zero s.counters.stations n StationCounters.zero } := by
  have hall : g ≠ 255 := by
    rintro rfl
    have : (255 : Nat) = 16 + n := hg
    omega
  exact clears_group h ht hall (groupArg_of_station hg hlow hhigh) rfl

end

/-- Settles O56. -/
theorem clearCountersClearsTheGroup : Obligations.ClearCountersClearsTheGroup := by
  intro s d g h
  obtain ⟨t, ht⟩ : ∃ t, t = opClearCounters (withoutHead s) d [10, g] := ⟨_, rfl⟩
  refine ⟨t, (event_executeOp_eq h rfl opClearCounters).trans (congrArg _ ht.symm), ?_⟩
  have hwf : Table.wf StationCounters.zero s.counters.stations = true := h.1.2.2.2.2.2.2.2.2.2.2.2
  refine ⟨fun hg => ?_, fun hg => ?_, fun hg => ?_, fun hg => ?_, fun hg => ?_, fun hg => ?_, fun hagent hall => ?_,
    fun n hg hlow hhigh => ?_, fun hlow hout hall => ?_⟩
  · have hc := clears_group h ht (k := .trunk) (by rw [hg]; decide) (by rw [hg]; rfl) rfl
    exact ⟨hc.answered, hc.only⟩
  · have hc := clears_group h ht (k := .dropA) (by rw [hg]; decide) (by rw [hg]; rfl) rfl
    exact ⟨hc.answered, hc.only⟩
  · have hc := clears_group h ht (k := .dropB) (by rw [hg]; decide) (by rw [hg]; rfl) rfl
    exact ⟨hc.answered, hc.only⟩
  · have hc := clears_memoryAgent h ht hg
    exact ⟨hc.answered, hc.only⟩
  · have hc := clears_all h ht hg
    refine ⟨funext fun n => ?_, hc.answered, ?_⟩
    · rw [State.stationCounters, hc.counters]
      rfl
    · rw [hc.counters]
      exact hc.only
  · have hminima : MinimaFrom s t s.mem.freeDescs.length s.mem.freeBlocks.length :=
      hg.elim (fun hg => (clears_memoryAgent h ht hg).minima) fun hg => (clears_all h ht hg).minima
    refine ⟨hminima.quiet, ?_, hminima.blocks (Nat.le_refl _)⟩
    rw [hminima.descs (Nat.le_refl _)]
    exact Nat.min_eq_right hminima.freeDescs
  · have hminima := minimaFrom_other h ht hall hagent
    exact ⟨hminima.quiet, fun hlaw => ⟨hminima.descs hlaw.1, hminima.blocks hlaw.2⟩⟩
  · have hc := clears_station h ht hg hlow hhigh
    have hget : ∀ k, t.stationCounters k = if k = n then StationCounters.zero else s.stationCounters k := fun k => by
      rw [State.stationCounters, hc.counters]
      exact Table.get_set (dflt := StationCounters.zero) (Table.wf_rising hwf) n k StationCounters.zero
    refine ⟨(hget n).trans (if_pos rfl), fun k hk => (hget k).trans (if_neg hk), hc.answered, ?_⟩
    rw [hc.counters]
    exact hc.only
  · rw [ht, opClearCounters_badArgument _ d hall (groupArg_eq_none hlow hout)]
    exact answered_without_write h .badArgument

/-! ## Every descriptor but one is released (R36) -/

theorem mem_inUse_release {m : TelegramMemory} (hm : MemoryLaw m) (d k : Nat) :
    k ∈ (m.release d).inUse ↔ k ∈ m.inUse ∧ k ≠ d := by
  have hrising : Table.rising (m.release d).descs = true := Table.rising_erase hm.1 d
  have hlookup := Table.lookup_erase hm.1 d k
  rw [TelegramMemory.mem_inUse hrising, TelegramMemory.mem_inUse hm.1]
  by_cases hk : k = d
  · have hnone : Table.lookup (m.release d).descs k = none := hlookup.trans (if_pos hk)
    rw [hnone]
    simp [hk]
  · have hsame : Table.lookup (m.release d).descs k = Table.lookup m.descs k := hlookup.trans (if_neg hk)
    rw [hsame, (TelegramMemory.release_spec hm d).2.1 k hk]
    exact (and_iff_left hk).symm

/-- Releasing the descriptors `ds`, all in use, keeps the laws, the minima and every other descriptor. -/
theorem foldl_release {m : TelegramMemory} (hm : MemoryLaw m) {ds : List Nat} (hds : ∀ d ∈ ds, d ∈ m.inUse)
    (hnodup : ds.Nodup) :
    MemoryLaw (ds.foldl TelegramMemory.release m) ∧
    (∀ k, k ∈ (ds.foldl TelegramMemory.release m).inUse ↔ k ∈ m.inUse ∧ k ∉ ds) ∧
    (∀ k, k ∉ ds → (ds.foldl TelegramMemory.release m).desc k = m.desc k) ∧
    (ds.foldl TelegramMemory.release m).minDescs = m.minDescs ∧
    (ds.foldl TelegramMemory.release m).minBlocks = m.minBlocks := by
  induction ds generalizing m with
  | nil => exact ⟨hm, by simp, fun _ _ => rfl, rfl, rfl⟩
  | cons d ds ih =>
    obtain ⟨hdNot, hnodup'⟩ := List.nodup_cons.1 hnodup
    have hd : d ∈ m.inUse := hds d (List.mem_cons_self ..)
    have hrest : ∀ x ∈ ds, x ∈ (m.release d).inUse := fun x hx =>
      (mem_inUse_release hm d x).2 ⟨hds x (List.mem_cons_of_mem _ hx), fun hxd => hdNot (hxd ▸ hx)⟩
    obtain ⟨hlaw, hinUse, hdesc, hminD, hminB⟩ := ih (hm.release hd) hrest hnodup'
    refine ⟨hlaw, fun k => ?_, fun k hk => ?_, hminD, hminB⟩
    · rw [List.foldl_cons, hinUse, mem_inUse_release hm, List.mem_cons, not_or, and_assoc]
    · rw [List.mem_cons, not_or] at hk
      exact (hdesc k hk.2).trans ((TelegramMemory.release_spec hm d).2.1 k hk.1)

theorem inUse_nodup {m : TelegramMemory} (hm : MemoryLaw m) : m.inUse.Nodup := Table.rising_nodup hm.1

theorem inUse_eq_singleton {m : TelegramMemory} (hm : MemoryLaw m) {d : Nat} (h : ∀ k, k ∈ m.inUse ↔ k = d) :
    m.inUse = [d] := by
  refine List.perm_singleton.1 ((List.perm_ext_iff_of_nodup (inUse_nodup hm) (List.nodup_singleton d)).2 fun k => ?_)
  rw [h, List.mem_singleton]

theorem releaseAllBut_spec {m : TelegramMemory} (hm : MemoryLaw m) {d : Nat} (hd : d ∈ m.inUse) :
    MemoryLaw (m.releaseAllBut d) ∧ (m.releaseAllBut d).inUse = [d] ∧ (m.releaseAllBut d).desc d = m.desc d ∧
    (m.releaseAllBut d).minDescs = m.minDescs ∧ (m.releaseAllBut d).minBlocks = m.minBlocks := by
  obtain ⟨hlaw, hinUse, hdesc, hminima⟩ := foldl_release hm (ds := m.inUse.filter fun x => x ≠ d)
    (fun x hx => List.mem_of_mem_filter hx) ((inUse_nodup hm).filter _)
  refine ⟨hlaw, inUse_eq_singleton hlaw fun k => ?_, hdesc d (by simp), hminima⟩
  refine (hinUse k).trans ?_
  by_cases hk : k = d
  · simp [hk, hd]
  · simp [hk]

/-- With one descriptor in use, the rest of the memory is free. -/
theorem free_of_singleton {m : TelegramMemory} (hm : MemoryLaw m) {d : Nat} (h : m.inUse = [d]) :
    m.freeDescs.length = 159 ∧ m.freeBlocks.length + (m.desc d).chain.length = 640 := by
  have hd : d ∈ m.inUse := h ▸ List.mem_singleton_self d
  have hdescs : m.descs = [(d, m.desc d)] := by
    obtain ⟨e, he, -⟩ := List.map_eq_singleton_iff.1 h
    have hmem := (Table.lookup_eq_some hm.1 d (m.desc d)).1 ((TelegramMemory.mem_inUse hm.1 d).1 hd)
    rw [he] at hmem ⊢
    rw [List.mem_singleton.1 hmem]
  have hfree := hm.freeDescs_length
  have hblocks := hm.freeBlocks_length
  rw [hdescs] at hfree hblocks
  rw [List.flatMap_singleton] at hblocks
  exact ⟨Nat.succ.inj hfree, hblocks⟩

/-! ## RESTART (R179, R180) -/

theorem restartCopy_rest (s : State) : s.restartCopy = { s with
    bank0 := s.restartCopy.bank0, bank1 := s.restartCopy.bank1, copyDone := s.restartCopy.copyDone,
    freeTick := s.restartCopy.freeTick } := by
  unfold State.restartCopy
  split
  · rw [copyAdvances_eq]
    generalize copyTarget s = v
    cases s.standbyId <;> rfl
  · rfl

theorem restartCopy_inImages (s : State) : s.restartCopy.inImages = s.inImages := by
  have h := congrArg State.inImages (restartCopy_rest s)
  exact h

theorem restartCopy_outImages (s : State) : s.restartCopy.outImages = s.outImages := by
  have h := congrArg State.outImages (restartCopy_rest s)
  exact h

theorem restartCopy_mem (s : State) : s.restartCopy.mem = s.mem := by
  have h := congrArg State.mem (restartCopy_rest s)
  exact h

theorem restartCopy_portT (s : State) : s.restartCopy.portT = s.portT := by
  have h := congrArg State.portT (restartCopy_rest s)
  exact h

theorem restartCopy_portA (s : State) : s.restartCopy.portA = s.portA := by
  have h := congrArg State.portA (restartCopy_rest s)
  exact h

theorem restartCopy_portB (s : State) : s.restartCopy.portB = s.portB := by
  have h := congrArg State.portB (restartCopy_rest s)
  exact h

theorem restartCopy_cycle (s : State) : s.restartCopy.cycle = s.cycle := by
  have h := congrArg State.cycle (restartCopy_rest s)
  exact h

theorem restartCopy_counters (s : State) : s.restartCopy.counters = s.counters := by
  have h := congrArg State.counters (restartCopy_rest s)
  exact h

theorem restartCopy_notices (s : State) : s.restartCopy.notices = s.notices := by
  have h := congrArg State.notices (restartCopy_rest s)
  exact h

theorem restartCopy_active (s : State) : s.restartCopy.bank s.active = s.bank s.active := by
  unfold State.restartCopy
  split
  · rw [State.setCopyDone_bank, State.copyAdvances_bank_other]
    exact (other_ne _).symm
  · rfl

theorem restartEffects_images {s : State} (h : TablesCanonical s) (d n : Nat) :
    (s.restartEffects d).inImage n = { s.inImage n with valid := false } ∧
    (s.restartEffects d).outImage n = { s.outImage n with valid := false } := by
  have hcanonical := (Invariants.canonical_iff s).1 h
  have hin : s.restartCopy.inImages = s.inImages := restartCopy_inImages s
  have hout : s.restartCopy.outImages = s.outImages := restartCopy_outImages s
  constructor
  · refine (congrArg (fun t => Table.get ImageRecord.default (invalidateImages t) n) hin).trans ?_
    exact Table.get_mapValues (Table.wf_rising hcanonical.inImages) _ rfl n
  · refine (congrArg (fun t => Table.get ImageRecord.default (invalidateImages t) n) hout).trans ?_
    exact Table.get_mapValues (Table.wf_rising hcanonical.outImages) _ rfl n

theorem restartEffects_mem (s : State) (d : Nat) : (s.restartEffects d).mem = s.mem.releaseAllBut d :=
  congrArg (TelegramMemory.releaseAllBut · d) (restartCopy_mem s)

theorem restartEffects_port (s : State) (d : Nat) (p : Port) : (s.restartEffects d).port p = (s.port p).restart := by
  cases p with
  | t => exact congrArg LinePort.restart (restartCopy_portT s)
  | a => exact congrArg LinePort.restart (restartCopy_portA s)
  | b => exact congrArg LinePort.restart (restartCopy_portB s)

theorem withdraw_of_not_idle {x : Transmitter} (h : x ≠ .idle) : x.withdraw = .spacing none := by
  cases x with
  | idle => exact absurd rfl h
  | sending _ => rfl
  | spacing _ => rfl

/-- What the answer to a RESTART adds to its effects: the one telegram there is, handed to port T. -/
theorem restart_answer {s : State} (hm : MemoryLaw s.mem) {d : Nat} (hd : d ∈ s.mem.inUse) {t : State}
    (ht : t = (s.restartEffects d).answer d .done []) :
    AnsweredWith s t d .done [] ∧ t.mem.inUse = [d] ∧ t.mem.freeDescs.length = 159 ∧ t.mem.freeBlocks.length = 640 ∧
    t.mem.minDescs = s.mem.minDescs ∧ t.mem.minBlocks = s.mem.minBlocks ∧ t.egress = ⟨[d], true, 0⟩ ∧
    t.agent = ⟨[], none, [⟨(s.desc d).seq, .done, []⟩]⟩ ∧ t.notices = ⟨[], s.notices.number⟩ ∧
    t.portT = ⟨s.portT.rx, s.portT.tx.withdraw.afterHanding d (t.telegram d)⟩ := by
  obtain ⟨u, hu⟩ : ∃ u, u = s.restartEffects d := ⟨_, rfl⟩
  obtain ⟨hlaw, hinUse, hdesc, hminD, hminB⟩ := releaseAllBut_spec hm hd
  rw [← restartEffects_mem, ← hu] at hlaw hinUse hdesc hminD hminB
  rw [← hu] at ht
  have hdu : d ∈ u.mem.inUse := hinUse ▸ List.mem_singleton_self d
  have hdesc : u.desc d = s.desc d := hdesc
  have hpending : u.notices.pendingSet = [] := hu ▸ rfl
  have hnumber : u.notices.number = s.notices.number := by
    rw [hu]
    change s.restartCopy.notices.number = _
    rw [restartCopy_notices]
  have hegress : u.egress = ⟨[], false, 0⟩ := hu ▸ rfl
  have hagentU : u.agent = ⟨[], none, []⟩ := hu ▸ rfl
  have hportU : u.portT = s.portT.restart := hu ▸ restartEffects_port s d .t
  obtain ⟨hans, -, hagent, hlawT, -, honly, ns, hjoins, -, hinUseT, -⟩ :=
    State.answer_spec hlaw hdu (st := .done) (ws := []) (by decide) rfl
  obtain ⟨ms, hms, -, hblocks, hminDT, hminBT⟩ := answer_nil_free hlaw hdu .done
  rw [← ht] at hans hagent hlawT honly hjoins hinUseT hblocks hminDT hminBT
  obtain ⟨hqueue, -, hns, hpendingT, hnumberT, hcount, -, -, hhanded, -, hhead⟩ := hjoins
  rw [hpending] at hns hms
  obtain rfl := List.eq_nil_of_length_eq_zero (Nat.le_zero.1 hns)
  obtain rfl := List.eq_nil_of_length_eq_zero (Nat.le_zero.1 hms)
  have hsingle : t.mem.inUse = [d] := inUse_eq_singleton hlawT fun k => by rw [hinUseT, hinUse]; simp
  obtain ⟨-, hfreeU⟩ := free_of_singleton hlaw hinUse
  refine ⟨?_, hsingle, (free_of_singleton hlawT hsingle).1, ?_, ?_, ?_, ?_, ?_, ?_, ?_⟩
  · unfold AnsweredWith at hans ⊢
    rwa [hdesc] at hans
  · rw [hblocks, List.length_nil, List.drop_zero, List.length_append]
    exact hfreeU
  · exact hminDT.trans ((if_pos rfl).trans hminD)
  · exact hminBT.trans ((if_pos rfl).trans hminB)
  · rw [hegress] at hqueue hcount hhanded
    have heta : t.egress = ⟨t.egress.queue, t.egress.handed, t.egress.noticeCount⟩ := rfl
    rw [heta, hqueue, hhanded, hcount]
    rfl
  · rw [hagent, hagentU, hdesc]
    rfl
  · have heta : t.notices = ⟨t.notices.pendingSet, t.notices.number⟩ := rfl
    rw [heta, hpendingT, hnumberT, hpending, hnumber]
    exact congrArg (NoticeUnit.mk []) (BitVec.add_zero _)
  · have hrx : t.portT.rx = u.portT.rx := congrArg (fun x => x.portT.rx) honly
    have htx := hhead d rfl (by rw [hegress]) (by rw [hegress])
    have heta : t.portT = ⟨t.portT.rx, t.portT.tx⟩ := rfl
    rw [heta, hrx, htx, hportU]
    rfl

/-- Settles O58. -/
theorem restartLeavesOneAnswer : Obligations.RestartLeavesOneAnswer := by
  intro s d hone h
  obtain ⟨⟨-, hm, htables⟩, -, hd, -⟩ := id h
  obtain ⟨t, ht⟩ : ∃ t, t = opRestart (withoutHead s) d [15] := ⟨_, rfl⟩
  refine ⟨t, (event_executeOp_eq h rfl opRestart).trans (congrArg _ ht.symm), ?_⟩
  have ht : t = ((withoutHead s).restartEffects d).answer d .done [] := ht
  obtain ⟨hans, hinUse, hfreeD, hfreeB, hminD, hminB, hegress, hagent, hnotices, hportT⟩ :=
    restart_answer (s := withoutHead s) hm hd ht
  have hport : ∀ p, p ≠ .t → t.port p = (s.port p).restart := fun p hp => by
    rw [ht, State.answer_port_other _ _ _ _ _ hp]
    exact restartEffects_port (withoutHead s) d p
  have hbank : ∀ k, t.bank k = ((withoutHead s).restartCopy.bank k).restart := fun k => by
    rw [ht, State.answer_bank, restartEffects_bank]
  have hstates := ((oneActive_iff s).1 hone)
  obtain ⟨hstate, hlabel, hcontents⟩ := restartCopy_bank (withoutHead s) s.standbyId
  refine ⟨hans, hinUse, hfreeD, hfreeB, hminD, hminB, hegress, hagent, hnotices, fun g => ?_, fun p => ?_,
    fun p hp hidle => ?_, fun p hp hbusy => ?_, fun hidle => ?_, fun hbusy => ?_, ?_, ?_, ?_, ?_, ?_, fun hfill => ?_, ?_, ?_,
    fun n => ?_, fun n => ?_⟩
  · rw [ht, State.answer_seg]
    cases g <;> rfl
  · by_cases hp : p = .t
    · subst hp
      have hrx := congrArg LinePort.rx hportT
      exact hrx
    · rw [hport p hp]
      rfl
  · rw [hport p hp]
    exact congrArg Transmitter.withdraw hidle
  · rw [hport p hp]
    exact withdraw_of_not_idle hbusy
  · refine (congrArg LinePort.tx hportT).trans ?_
    change s.portT.tx.withdraw.afterHanding d (t.telegram d) = _
    rw [hidle]
    rfl
  · refine (congrArg LinePort.tx hportT).trans ?_
    change s.portT.tx.withdraw.afterHanding d (t.telegram d) = _
    rw [withdraw_of_not_idle hbusy]
    rfl
  · rw [ht]
    exact (active_congr fun k => by rw [State.answer_bank]).trans (active_restartEffects (withoutHead s) d)
  · rw [hbank]
    have hactive : (withoutHead s).restartCopy.bank s.active = s.bank s.active := restartCopy_active (withoutHead s)
    rw [hactive, Bank.restart, if_pos hstates.1, ← hstates.1]
  · rw [hbank]
    exact if_neg (hstate ▸ hstates.2)
  · rw [hbank]
    rfl
  · rw [hbank]
    exact hlabel
  · rw [hbank]
    rcases hcontents with hsame | ⟨hf, -⟩
    · exact hsame
    · exact absurd hf hfill
  · rw [ht, State.answer_cycle]
    exact restartCopy_cycle (withoutHead s)
  · rw [ht, State.answer_counters]
    exact restartCopy_counters (withoutHead s)
  · rw [State.station, ht, State.answer_runtime]
    rfl
  · rw [State.inImage, State.outImage, ht, State.answer_inImages, State.answer_outImages]
    exact restartEffects_images (s := withoutHead s) htables d n

end Sys2Proof.Proofs.ClearAndRestart
end

section
/-! PROOFS. Telegrams under way to trunk egress: what the part does to the descriptors `ds` and to no other telegram, while
the notices of emission attempts join trunk egress; then the replies of chapter 8. -/

namespace Sys2Proof.Proofs.Carriage

open Sys2Proof Sys2Proof.Machine Sys2Proof.Proofs.BankWrites Sys2Proof.Proofs.StationAnswers
  Sys2Proof.Proofs.MemoryAndRuns Sys2Proof.Proofs.Answers

/-! ## States that differ in few fields -/

theorem onlyEgress_of_fields {s t : State} (hrx : t.portT.rx = s.portT.rx) (hport : ∀ p, p ≠ .t → t.port p = s.port p)
    (hbank : ∀ k, t.bank k = s.bank k) (hcopy : t.copyDone = s.copyDone) (hcycle : t.cycle = s.cycle)
    (hseg : ∀ g, t.seg g = s.seg g) (hruntime : t.runtime = s.runtime) (hin : t.inImages = s.inImages)
    (hout : t.outImages = s.outImages) (hagent : t.agent = s.agent) (hcounters : t.counters = s.counters)
    (hheld : t.resetHeld = s.resetHeld) (htick : t.freeTick = s.freeTick) (hpending : t.pending = s.pending) :
    OnlyEgress s t := by
  have ha := hport .a (by decide)
  have hb := hport .b (by decide)
  have h0 := hbank .bank0
  have h1 := hbank .bank1
  have hsa := hseg .a
  have hsb := hseg .b
  obtain ⟨⟨_, _⟩, _⟩ := s
  obtain ⟨⟨_, _⟩, _⟩ := t
  simp only [State.port, State.bank, State.seg] at *
  subst hrx ha hb h0 h1 hcopy hcycle hsa hsb hruntime hin hout hagent hcounters hheld htick hpending
  rfl

/-- What joins trunk egress from `u` joins it from `s`, which has less in use and the same queue, notices and stations. -/
theorem joinsEgress_from {s u t : State} (hegress : u.egress = s.egress) (hnotices : u.notices = s.notices)
    (hruntime : u.runtime = s.runtime) (htx : u.portT.tx = s.portT.tx) (hinUse : ∀ k ∈ s.mem.inUse, k ∈ u.mem.inUse)
    {ns tail : List Nat} (h : JoinsEgress u t ns tail) : JoinsEgress s t ns tail := by
  unfold JoinsEgress HandsTheHead at h ⊢
  rw [hegress, hnotices, htx, noticeTelegrams_congr hruntime] at h
  obtain ⟨hqueue, htwo, hle, hpending, hnumber, hcount, htel, hfresh, hhands⟩ := h
  exact ⟨hqueue, htwo, hle, hpending, hnumber, hcount, htel,
    fun k hk => ⟨fun hin => (hfresh k hk).1 (hinUse k hin), (hfresh k hk).2⟩, hhands⟩

/-! ## Carriage -/

/-- From `s` to `t` only the descriptors `ds` are worked on, and the notices `ns` of emission attempts join trunk egress. -/
structure Carries (s t : State) (ds ns : List Nat) : Prop where
  rx : t.portT.rx = s.portT.rx
  runtime : t.runtime = s.runtime
  law : MemoryLaw t.mem
  kept : OthersKept s t ds
  inUse : ∀ k, k ∈ t.mem.inUse ↔ k ∈ ns ∨ k ∈ s.mem.inUse
  fresh : ∀ k ∈ ns, k ∉ s.mem.inUse ∧ (t.desc k).kind = .notice ∧ (t.desc k).stamp = none ∧ (t.desc k).holders = 1
  queue : t.egress.queue = s.egress.queue ++ ns
  noticeCount : t.egress.noticeCount = s.egress.noticeCount + ns.length
  le_pending : ns.length ≤ s.notices.pendingSet.length
  pendingSet : t.notices.pendingSet = s.notices.pendingSet.drop ns.length
  number : t.notices.number = s.notices.number + BitVec.ofNat 8 ns.length
  freeDescs : t.mem.freeDescs = s.mem.freeDescs.drop ns.length
  telegrams : ns.map t.telegram = noticeTelegrams s s.notices.number (s.notices.pendingSet.take ns.length)
  hands : HandsTheHead s t ns

section

variable {s t u : State} {d : Nat} {ds ns ms : List Nat}

theorem rx_of_onlyEgress (h : OnlyEgress s t) : t.portT.rx = s.portT.rx := by
  unfold OnlyEgress at h
  rw [h]

theorem carries_of_emits (h : Emits s t ns) : Carries s t ds ns where
  rx := rx_of_onlyEgress h.only
  runtime := h.only.runtime
  law := h.law
  kept k hk _ := h.kept k hk
  inUse := h.inUse
  fresh := h.fresh
  queue := h.queue
  noticeCount := h.noticeCount
  le_pending := h.le_pending
  pendingSet := h.pendingSet
  number := h.number
  freeDescs := h.freeDescs
  telegrams := h.telegrams
  hands := h.hands

theorem carries_of_replaces {ws : List Word} (h : Replaces s t d ws ns) : Carries s t [d] ns where
  rx := rx_of_onlyEgress h.only
  runtime := h.only.runtime
  law := h.law
  kept k hk hkd := h.kept k hk fun he => hkd (List.mem_singleton.2 he)
  inUse := h.inUse
  fresh := h.fresh
  queue := h.queue
  noticeCount := h.noticeCount
  le_pending := h.le_pending
  pendingSet := h.pendingSet
  number := h.number
  freeDescs := h.freeDescs
  telegrams := h.telegrams
  hands := h.hands

/-- Work on the descriptors `ds` alone. -/
theorem Carries.quiet (hrx : t.portT.rx = s.portT.rx) (htx : t.portT.tx = s.portT.tx) (hruntime : t.runtime = s.runtime)
    (hegress : t.egress = s.egress) (hnotices : t.notices = s.notices) (hlaw : MemoryLaw t.mem)
    (hkept : OthersKept s t ds) (hinUse : ∀ k, k ∈ t.mem.inUse ↔ k ∈ s.mem.inUse)
    (hfree : t.mem.freeDescs = s.mem.freeDescs) : Carries s t ds [] where
  rx := hrx
  runtime := hruntime
  law := hlaw
  kept := hkept
  inUse k := by rw [hinUse]; simp
  fresh := by simp
  queue := by rw [hegress, List.append_nil]
  noticeCount := by rw [hegress]; rfl
  le_pending := Nat.zero_le _
  pendingSet := by rw [hnotices]; rfl
  number := by rw [hnotices]; exact (BitVec.add_zero _).symm
  freeDescs := hfree
  telegrams := rfl
  hands := by
    unfold HandsTheHead
    rw [hegress, htx]
    exact ⟨by simp, fun _ => rfl, by simp⟩

theorem Carries.trans (h1 : Carries s t ds ns) (h2 : Carries t u ds ms) (hds : ∀ d ∈ ds, d ∈ s.mem.inUse) :
    Carries s u ds (ns ++ ms) := by
  have hnot : ∀ k ∈ ns, k ∉ ds := fun k hk hkd => (h1.fresh k hk).1 (hds k hkd)
  have hstay : ∀ k ∈ ns, u.desc k = t.desc k ∧ u.words k = t.words k := fun k hk =>
    h2.kept k ((h1.inUse k).2 (.inl hk)) (hnot k hk)
  have htel : ∀ k ∈ ns, u.telegram k = t.telegram k := fun k hk => by
    unfold State.telegram
    rw [(hstay k hk).1, (hstay k hk).2]
  exact {
    rx := h2.rx.trans h1.rx
    runtime := h2.runtime.trans h1.runtime
    law := h2.law
    kept := fun k hk hkd => by
      obtain ⟨hdesc, hwords⟩ := h1.kept k hk hkd
      obtain ⟨hdesc', hwords'⟩ := h2.kept k ((h1.inUse k).2 (.inr hk)) hkd
      exact ⟨hdesc'.trans hdesc, hwords'.trans hwords⟩
    inUse := fun k => by
      rw [h2.inUse, h1.inUse, List.mem_append]
      tauto
    fresh := fun k hk => by
      rcases List.mem_append.1 hk with hk | hk
      · rw [(hstay k hk).1]
        exact h1.fresh k hk
      · obtain ⟨hnew, hrest⟩ := h2.fresh k hk
        exact ⟨fun h => hnew ((h1.inUse k).2 (.inr h)), hrest⟩
    queue := by rw [h2.queue, h1.queue, List.append_assoc]
    noticeCount := by rw [h2.noticeCount, h1.noticeCount, List.length_append, Nat.add_assoc]
    le_pending := by
      have h1le := h1.le_pending
      have h2le := h2.le_pending
      rw [h1.pendingSet, List.length_drop] at h2le
      rw [List.length_append]
      omega
    pendingSet := by rw [h2.pendingSet, h1.pendingSet, List.drop_drop, List.length_append]
    number := by rw [h2.number, h1.number, List.length_append, BitVec.add_assoc, ← BitVec.ofNat_add]
    freeDescs := by rw [h2.freeDescs, h1.freeDescs, List.drop_drop, List.length_append]
    telegrams := by
      have hlen : (s.notices.pendingSet.take ns.length).length = ns.length :=
        List.length_take_of_le h1.le_pending
      rw [List.map_append, List.map_congr_left htel, h1.telegrams, h2.telegrams, h1.pendingSet, h1.number,
        List.length_append, List.take_add, noticeTelegrams_append, hlen, noticeTelegrams_congr h1.runtime]
    hands := h1.hands.trans h1.queue h2.hands htel }

theorem Carries.joins (h : Carries s t ds ns) (hlen : ns.length ≤ 2) : JoinsEgress s t ns [] := by
  refine ⟨by rw [h.queue, List.append_nil], hlen, h.le_pending, h.pendingSet, h.number, h.noticeCount, h.telegrams,
    fun k hk => ?_, by rw [List.append_nil]; exact h.hands⟩
  obtain ⟨hnew, hrest⟩ := h.fresh k hk
  exact ⟨hnew, List.not_mem_nil, hrest⟩

/-- A telegram carried to trunk egress joins it behind the notices. -/
theorem Carries.join (h : Carries s t ds ns) (hds : d ∈ s.mem.inUse) (hlen : ns.length ≤ 2) :
    JoinsEgress s (t.joinEgress d) ns [d] := by
  have hnot : ∀ k ∈ ns, k ≠ d := fun k hk hkd => (h.fresh k hk).1 (hkd ▸ hds)
  have htel : ∀ k, (t.joinEgress d).telegram k = t.telegram k := State.telegram_congr (State.joinEgress_mem t d)
  have hdesc : ∀ k, (t.joinEgress d).desc k = t.desc k := fun k =>
    congrArg (TelegramMemory.desc · k) (State.joinEgress_mem t d)
  refine ⟨?_, hlen, h.le_pending, ?_, ?_, ?_, ?_, fun k hk => ?_, ?_⟩
  · rw [State.joinEgress_egress, h.queue]
  · rw [State.joinEgress_notices, h.pendingSet]
  · rw [State.joinEgress_notices, h.number]
  · rw [State.joinEgress_egress]
    exact h.noticeCount
  · rw [← h.telegrams]
    exact List.map_congr_left fun k _ => htel k
  · obtain ⟨hnew, hrest⟩ := h.fresh k hk
    rw [hdesc, List.mem_singleton]
    exact ⟨hnew, hnot k hk, hrest⟩
  · exact h.hands.trans h.queue (State.joinEgress_hands t d) fun k _ => htel k

/-- Once joined, the telegram is one in use like the others. -/
theorem Carries.joined (h : Carries s t ds ns) :
    OthersKept s (t.joinEgress d) ds ∧ MemoryLaw (t.joinEgress d).mem ∧
    (t.joinEgress d).mem.freeDescs = s.mem.freeDescs.drop ns.length ∧
    ∀ k, k ∈ (t.joinEgress d).mem.inUse ↔ k ∈ ns ∨ k ∈ s.mem.inUse := by
  have hmem := State.joinEgress_mem t d
  refine ⟨?_, ?_, ?_, ?_⟩
  · unfold OthersKept State.desc State.words
    rw [hmem]
    exact h.kept
  · rw [hmem]
    exact h.law
  · rw [hmem]
    exact h.freeDescs
  · rw [hmem]
    exact h.inUse

theorem Carries.mono (h : Carries s t ds ns) {es : List Nat} (hsub : ∀ k ∈ ds, k ∈ es) : Carries s t es ns :=
  { h with kept := fun k hk hke => h.kept k hk fun hkd => hke (hsub k hkd) }

/-! ## Work on one descriptor -/

theorem othersKept_singleton (h : ∀ k, k ≠ d → t.desc k = s.desc k ∧ t.words k = s.words k) : OthersKept s t [d] :=
  fun k _ hkd => h k fun he => hkd (List.mem_singleton.2 he)

theorem Carries.sameTraffic (hm : MemoryLaw s.mem) (h : SameTraffic s t) (hrx : t.portT.rx = s.portT.rx) :
    Carries s t ds [] :=
  Carries.quiet hrx h.tx h.runtime h.egress h.notices (h.mem ▸ hm) (fun k _ _ => ⟨h.desc k, h.words k⟩)
    (fun k => by rw [h.mem]) (by rw [h.mem])

theorem Carries.modDesc (hm : MemoryLaw s.mem) (hd : d ∈ s.mem.inUse) {f : Descriptor → Descriptor}
    (hf : ∀ x, (f x).count = x.count ∧ (f x).chain = x.chain) : Carries s (s.modDesc d f) [d] [] := by
  obtain ⟨-, hother, hwords⟩ := State.modDesc_spec s d f hf
  obtain ⟨hlaw, hinUse⟩ := State.modDesc_law hm hd f hf
  exact Carries.quiet rfl rfl rfl rfl rfl hlaw (othersKept_singleton fun k hk => ⟨hother k hk, hwords k⟩) hinUse rfl

theorem hold_eq_modDesc (s : State) (d : Nat) : s.hold d = s.modDesc d fun x => { x with holders := x.holders + 1 } := rfl

theorem Carries.countStation (h : Carries s t ds ns) (n : Nat) (f : StationCounters → StationCounters) :
    Carries s (t.countStation n f) ds ns :=
  ⟨h.rx, h.runtime, h.law, h.kept, h.inUse, h.fresh, h.queue, h.noticeCount, h.le_pending, h.pendingSet, h.number,
    h.freeDescs, h.telegrams, h.hands⟩

/-- The words of `d` rewritten in its chain. -/
theorem rewriteWords_spec (hm : MemoryLaw s.mem) (hd : d ∈ s.mem.inUse) (ws : List Word) :
    Carries s (s.setMem (s.mem.rewriteWords d ws)) [d] [] ∧
    (∀ k, (s.setMem (s.mem.rewriteWords d ws)).desc k = s.desc k) ∧
    (ws.length = (s.desc d).count → (s.setMem (s.mem.rewriteWords d ws)).words d = ws) := by
  obtain ⟨m, hmeq⟩ : ∃ m, m = s.mem.rewriteWords d ws := ⟨_, rfl⟩
  rw [← hmeq]
  have hrest : m = { s.mem with blocks := m.blocks } := by
    rw [hmeq]
    exact TelegramMemory.writeChain_rest _ _ _
  have hdesc : ∀ k, m.desc k = s.mem.desc k := fun k => by rw [hrest]; rfl
  refine ⟨Carries.quiet rfl rfl rfl rfl rfl (hmeq ▸ hm.writeChain _ _) (fun k hk hkd => ⟨hdesc k, ?_⟩)
    (fun k => by rw [hrest]; rfl) (by rw [hrest]; rfl), hdesc, fun hlen => ?_⟩
  · have hkd : k ≠ d := fun h => hkd (List.mem_singleton.2 h)
    refine TelegramMemory.words_congr (hdesc k) fun c hc j hj => ?_
    rw [State.setMem_mem, hmeq]
    exact TelegramMemory.word_writeChain_other _ _ hm.2.1 hj (hm.chains_disjoint hd hk hkd hc)
  · obtain ⟨-, hfits⟩ := hm.fits hd
    have hle : (s.mem.desc d).count ≤ Config.blockWords * (s.mem.desc d).chain.length :=
      hfits ▸ le_blocksFor (s.mem.desc d).count
    have hread := TelegramMemory.readChain_writeChain _ (hm.chain_nodup hd) ws (s.mem.desc d).count hm.2.1 hle
      (Nat.le_of_eq hlen.symm)
    change m.words d = ws
    rw [TelegramMemory.words, hdesc, hmeq]
    exact hread.trans (List.take_of_length_le (Nat.le_of_eq hlen))

/-- The words of `d` rewritten in its chain, its marks raised, and what the run counts. -/
theorem putApplied_spec (hm : MemoryLaw s.mem) (hd : d ∈ s.mem.inUse) (n : Nat) {r : Applied}
    (hlen : r.words.length = (s.desc d).count) :
    Carries s (s.putApplied d n r) [d] [] ∧
    (s.putApplied d n r).desc d =
      { s.desc d with marks := (s.desc d).marks.add r.transformed r.faulted r.limited } ∧
    (s.putApplied d n r).words d = r.words := by
  obtain ⟨hcarries, hdesc, hwords⟩ := rewriteWords_spec hm hd r.words
  obtain ⟨v, hv⟩ : ∃ v, v = s.setMem (s.mem.rewriteWords d r.words) := ⟨_, rfl⟩
  have hput : s.putApplied d n r = (v.modDesc d
      fun x => { x with marks := x.marks.add r.transformed r.faulted r.limited }).countStation n
      fun c => c.addPoints r.faults r.limits r.skips := by rw [hv]; rfl
  rw [← hv] at hcarries hdesc hwords
  have hf : ∀ x : Descriptor,
      ({ x with marks := x.marks.add r.transformed r.faulted r.limited } : Descriptor).count = x.count ∧
      ({ x with marks := x.marks.add r.transformed r.faulted r.limited } : Descriptor).chain = x.chain :=
    fun _ => ⟨rfl, rfl⟩
  have hmod := Carries.modDesc hcarries.law ((hcarries.inUse d).2 (.inr hd)) hf
  obtain ⟨hself, -, hsame⟩ := State.modDesc_spec v d _ hf
  rw [hput]
  refine ⟨?_, hself.trans (by rw [hdesc]), (hsame d).trans (hwords hlen)⟩
  exact (hcarries.trans hmod (by simpa using hd)).countStation n _

/-! ## Replies (R143, R147) -/

theorem toReply_keeps (st : ReplyStatus) (x : Descriptor) :
    (x.toReply st).count = x.count ∧ (x.toReply st).chain = x.chain := ⟨rfl, rfl⟩

theorem unstamp_keeps (x : Descriptor) :
    ({ x with stamp := none } : Descriptor).count = x.count ∧ ({ x with stamp := none } : Descriptor).chain = x.chain :=
  ⟨rfl, rfl⟩

/-- A stamp released is one rewriting of the descriptor and one of its bank. -/
theorem releaseStamp_desc (s : State) (d : Nat) :
    (s.releaseStamp d).desc d = { s.desc d with stamp := none } ∧ (s.releaseStamp d).words d = s.words d := by
  obtain ⟨hnone, hsome⟩ := State.releaseStamp_spec s d
  cases hstamp : (s.desc d).stamp with
  | none =>
    rw [hnone hstamp, ← hstamp]
    exact ⟨rfl, rfl⟩
  | some b =>
    obtain ⟨hself, -, hwords⟩ := State.modDesc_spec s d (fun x => { x with stamp := none }) unstamp_keeps
    have hbank := SameTraffic.setBank (s.modDesc d fun x => { x with stamp := none }) b (s.bank b).releaseOne
    rw [(hsome b hstamp).1, hbank.desc, hbank.words]
    exact ⟨hself, hwords d⟩

theorem releaseStamp_carries (hm : MemoryLaw s.mem) (hd : d ∈ s.mem.inUse) : Carries s (s.releaseStamp d) [d] [] := by
  obtain ⟨hnone, hsome⟩ := State.releaseStamp_spec s d
  cases hstamp : (s.desc d).stamp with
  | none =>
    rw [hnone hstamp]
    exact Carries.sameTraffic hm ⟨rfl, rfl, rfl, rfl, rfl⟩ rfl
  | some b =>
    have hmod := Carries.modDesc hm hd unstamp_keeps
    have hbank := SameTraffic.setBank (s.modDesc d fun x => { x with stamp := none }) b (s.bank b).releaseOne
    rw [(hsome b hstamp).1]
    exact hmod.trans (Carries.sameTraffic hmod.law hbank (by cases b <;> rfl)) (by simpa using hd)

/-- The header of `d` becomes a reply's; its stamp, if it carries one, is released. -/
theorem buildReply_desc (s : State) (d : Nat) (st : ReplyStatus) :
    (s.buildReply d st).desc d = { (s.desc d).toReply st with stamp := none } ∧
    (s.buildReply d st).words d = s.words d := by
  obtain ⟨hself, -, hwords⟩ := State.modDesc_spec s d (Descriptor.toReply st) (toReply_keeps st)
  obtain ⟨hdesc, hwords'⟩ := releaseStamp_desc (s.modDesc d (Descriptor.toReply st)) d
  exact ⟨hdesc.trans (by rw [hself]), hwords'.trans (hwords d)⟩

theorem buildReply_carries (hm : MemoryLaw s.mem) (hd : d ∈ s.mem.inUse) (st : ReplyStatus) :
    Carries s (s.buildReply d st) [d] [] := by
  have hmod := Carries.modDesc hm hd (toReply_keeps st)
  exact hmod.trans (releaseStamp_carries hmod.law ((hmod.inUse d).2 (.inr hd))) (by simpa using hd)

theorem buildReply_bank (s : State) {b : BankId} (h : (s.desc d).stamp = some b) (st : ReplyStatus) (k : BankId) :
    (s.buildReply d st).bank k = afterRelease s b k := by
  have hself : (s.modDesc d (Descriptor.toReply st)).desc d = (s.desc d).toReply st :=
    (State.modDesc_spec s d (Descriptor.toReply st) (toReply_keeps st)).1
  have hstamp : ((s.modDesc d (Descriptor.toReply st)).desc d).stamp = some b := by rw [hself]; exact h
  refine (((State.releaseStamp_spec _ d).2 b hstamp).2 k).trans ?_
  unfold afterRelease
  rw [State.modDesc_bank, State.modDesc_bank]

theorem buildReply_bank_of_unstamped (s : State) (h : (s.desc d).stamp = none) (st : ReplyStatus) (k : BankId) :
    (s.buildReply d st).bank k = s.bank k := by
  have hself : (s.modDesc d (Descriptor.toReply st)).desc d = (s.desc d).toReply st :=
    (State.modDesc_spec s d (Descriptor.toReply st) (toReply_keeps st)).1
  have hstamp : ((s.modDesc d (Descriptor.toReply st)).desc d).stamp = none := by rw [hself]; exact h
  exact (congrArg (State.bank · k) ((State.releaseStamp_spec _ d).1 hstamp)).trans (State.modDesc_bank _ _ _ _)

theorem afterRelease_congr {s t : State} (h : ∀ k, t.bank k = s.bank k) (b k : BankId) :
    afterRelease t b k = afterRelease s b k := by
  unfold afterRelease
  rw [h, h]

/-- The reply that `d` has become in `t`, a poll in `s`, with nothing else done but the notices `ns`. -/
structure Replies (s t : State) (d : Nat) (st : ReplyStatus) (marks : Marks) (ws : List Word) (ns : List Nat) : Prop where
  carries : Carries s t [d] ns
  desc : ∃ count chain, t.desc d = { s.desc d with
    dest := 0, src := (s.desc d).dest, kind := .reply, marks := marks, status := st.code, count := count, chain := chain,
    stamp := none }
  words : t.words d = ws
  two : ns.length ≤ 2

theorem Replies.telegram {st : ReplyStatus} {marks : Marks} {ws : List Word} (h : Replies s t d st marks ws ns) :
    RepliedWith s t d st marks ws := by
  obtain ⟨count, chain, hdesc⟩ := h.desc
  unfold RepliedWith State.telegram
  rw [hdesc, h.words]
  exact ⟨rfl, rfl⟩

theorem repliedWith_congr {st : ReplyStatus} {marks : Marks} {ws : List Word} (hdesc : u.desc d = t.desc d)
    (hwords : u.words d = t.words d) (h : RepliedWith s t d st marks ws) : RepliedWith s u d st marks ws := by
  unfold RepliedWith State.telegram at h ⊢
  rwa [hdesc, hwords]

theorem Replies.joined {st : ReplyStatus} {marks : Marks} {ws : List Word} (h : Replies s t d st marks ws ns)
    (hd : d ∈ s.mem.inUse) :
    RepliedWith s (t.joinEgress d) d st marks ws ∧ OthersKept s (t.joinEgress d) [d] ∧
    JoinsEgress s (t.joinEgress d) ns [d] := by
  have hmem := State.joinEgress_mem t d
  exact ⟨repliedWith_congr (congrArg (TelegramMemory.desc · d) hmem) (congrArg (TelegramMemory.words · d) hmem) h.telegram,
    h.carries.joined.1, h.carries.join hd h.two⟩

theorem Replies.countStation {st : ReplyStatus} {marks : Marks} {ws : List Word} (h : Replies s t d st marks ws ns)
    (n : Nat) (f : StationCounters → StationCounters) : Replies s (t.countStation n f) d st marks ws ns :=
  ⟨h.carries.countStation n f, h.desc, h.words, h.two⟩

/-- Quiet work on the marks of `d` ahead of the reply. -/
theorem Replies.after {st : ReplyStatus} {marks : Marks} {ws : List Word} (hcarries : Carries s t [d] [])
    (hd : d ∈ s.mem.inUse) (hmarks : ∃ marks, t.desc d = { s.desc d with marks := marks })
    (h : Replies t u d st marks ws ns) : Replies s u d st marks ws ns := by
  obtain ⟨count, chain, hdesc⟩ := h.desc
  obtain ⟨old, hold⟩ := hmarks
  exact ⟨hcarries.trans h.carries (by simpa using hd), ⟨count, chain, by rw [hdesc, hold]⟩, h.words, h.two⟩

/-- The header is written once marks and words are in place. -/
theorem replies_of_carries (hd : d ∈ s.mem.inUse) (h : Carries s t [d] ns) {marks : Marks} (hdesc : ∃ count chain,
    t.desc d = { s.desc d with marks := marks, count := count, chain := chain }) (htwo : ns.length ≤ 2)
    (st : ReplyStatus) : Replies s (t.buildReply d st) d st marks (t.words d) ns := by
  have hdt : d ∈ t.mem.inUse := (h.inUse d).2 (.inr hd)
  have hbuilt := buildReply_carries h.law hdt st
  obtain ⟨hdesc', hwords⟩ := buildReply_desc t d st
  obtain ⟨count, chain, hdesc⟩ := hdesc
  refine ⟨?_, ⟨count, chain, by rw [hdesc', hdesc]; rfl⟩, hwords, htwo⟩
  have hcarries := h.trans hbuilt (by simpa using hd)
  rwa [List.append_nil] at hcarries

/-- What a chain replacement leaves in `d`: the words, and every field but count and chain. -/
structure Rewrites (s t : State) (d : Nat) (ws : List Word) (ns : List Nat) : Prop where
  carries : Carries s t [d] ns
  desc : ∃ count chain, t.desc d = { s.desc d with count := count, chain := chain }
  words : t.words d = ws
  two : ns.length ≤ 2

theorem replaceChain_rewrites (hm : MemoryLaw s.mem) (hd : d ∈ s.mem.inUse) {ws : List Word} (hlen : ws.length ≤ 32) :
    (s.replaceChain d ws).1 = true ∧ ∃ ns, Rewrites s (s.replaceChain d ws).2 d ws ns := by
  obtain ⟨hok, ns, hr⟩ := State.replaceChain_spec hm hd hlen (replaceChain_finds_blocks hm hd hlen)
  exact ⟨hok, ns, carries_of_replaces hr, hr.desc, hr.words, hr.length⟩

theorem replaceChain_onlyEgress (hm : MemoryLaw s.mem) (hd : d ∈ s.mem.inUse) {ws : List Word} (hlen : ws.length ≤ 32) :
    OnlyEgress s (s.replaceChain d ws).2 := by
  obtain ⟨-, ns, hr⟩ := State.replaceChain_spec hm hd hlen (replaceChain_finds_blocks hm hd hlen)
  exact hr.only

/-- New marks ahead of the header. -/
theorem Rewrites.marked {ws : List Word} (h : Rewrites s t d ws ns) (hd : d ∈ s.mem.inUse) (f : Marks → Marks) :
    Carries s (t.modDesc d fun x => { x with marks := f x.marks }) [d] ns ∧
    (∃ count chain, (t.modDesc d fun x => { x with marks := f x.marks }).desc d =
      { s.desc d with marks := f (s.desc d).marks, count := count, chain := chain }) ∧
    (t.modDesc d fun x => { x with marks := f x.marks }).words d = ws := by
  have hdt : d ∈ t.mem.inUse := (h.carries.inUse d).2 (.inr hd)
  have hf : ∀ x : Descriptor, ({ x with marks := f x.marks } : Descriptor).count = x.count ∧
      ({ x with marks := f x.marks } : Descriptor).chain = x.chain := fun _ => ⟨rfl, rfl⟩
  obtain ⟨hself, -, hwords⟩ := State.modDesc_spec t d (fun x => { x with marks := f x.marks }) hf
  obtain ⟨count, chain, hdesc⟩ := h.desc
  refine ⟨?_, ⟨count, chain, by rw [hself, hdesc]⟩, (hwords d).trans h.words⟩
  have hcarries := h.carries.trans (Carries.modDesc h.carries.law hdt hf) (by simpa using hd)
  rwa [List.append_nil] at hcarries

/-- A reply without data (R144). -/
theorem buildEmptyReply_replies (hm : MemoryLaw s.mem) (hd : d ∈ s.mem.inUse) (st : ReplyStatus) :
    ∃ ns, Replies s (s.buildEmptyReply d st) d st (s.desc d).marks [] ns := by
  obtain ⟨-, ns, hr⟩ := replaceChain_rewrites (ws := []) hm hd (Nat.zero_le _)
  have h := replies_of_carries hd hr.carries hr.desc hr.two st
  rw [hr.words] at h
  exact ⟨ns, h⟩

theorem buildEmptyReply_bank (hm : MemoryLaw s.mem) (hd : d ∈ s.mem.inUse) {b : BankId}
    (hstamp : (s.desc d).stamp = some b) (st : ReplyStatus) (k : BankId) :
    (s.buildEmptyReply d st).bank k = afterRelease s b k := by
  obtain ⟨-, ns, hr⟩ := replaceChain_rewrites (ws := []) hm hd (Nat.zero_le _)
  obtain ⟨count, chain, hdesc⟩ := hr.desc
  refine (buildReply_bank _ (by rw [hdesc]; exact hstamp) st k).trans (afterRelease_congr (fun k => ?_) b k)
  exact State.replaceChain_bank s d [] k

theorem buildEmptyReply_onlyEgress (hm : MemoryLaw s.mem) (hd : d ∈ s.mem.inUse) (hstamp : (s.desc d).stamp = none)
    (st : ReplyStatus) : OnlyEgress s (s.buildEmptyReply d st) := by
  obtain ⟨-, ns, hr⟩ := replaceChain_rewrites (ws := []) hm hd (Nat.zero_le _)
  obtain ⟨count, chain, hdesc⟩ := hr.desc
  obtain ⟨v, hv⟩ : ∃ v, v = (s.replaceChain d []).2.modDesc d (Descriptor.toReply st) := ⟨_, rfl⟩
  have hself : v.desc d = _ := hv ▸ (State.modDesc_spec _ d (Descriptor.toReply st) (toReply_keeps st)).1
  have hbuilt : s.buildEmptyReply d st = v := by
    rw [State.buildEmptyReply, State.buildReply, ← hv, (State.releaseStamp_spec v d).1]
    rw [hself, hdesc]
    exact hstamp
  rw [hbuilt, hv]
  exact (replaceChain_onlyEgress hm hd (Nat.zero_le _)).trans (OnlyEgress.modDesc _ d _)

end

end Sys2Proof.Proofs.Carriage
end

section
/-! PROOFS. The health machine (O39), the takes and tries that use the drop (O33, O35), and the transmission completes (O13,
O14). -/

namespace Sys2Proof.Proofs.TakesAndTries

open Sys2Proof Sys2Proof.Machine Sys2Proof.Proofs.Commands Sys2Proof.Proofs.ClearAndRestart Sys2Proof.Proofs.Carriage

/-! ## One station's runtime and counters -/

section

variable {s : State}

theorem station_setStation (h : Table.rising s.runtime = true) (n k : Nat) (r : StationRuntime) :
    (s.setStation n r).station k = if k = n then r else s.station k :=
  Table.get_set (dflt := StationRuntime.default) h n k r

theorem stationCounters_countStation (h : Table.rising s.counters.stations = true) (n k : Nat)
    (f : StationCounters → StationCounters) :
    (s.countStation n f).stationCounters k = if k = n then f (s.stationCounters n) else s.stationCounters k :=
  Table.get_set (dflt := StationCounters.zero) h n k (f (s.stationCounters n))

/-! ## Reports (R183, R185) -/

theorem updateStationEntry_of_other {n : Nat} {e : NoticeEntry} (h : e.isStation n = false) :
    updateStationEntry n e = e := by
  cases e with
  | bank b label cycle => rfl
  | station k c => exact if_neg (of_decide_eq_false h)

theorem map_updateStationEntry {n : Nat} {es : List NoticeEntry} (h : ∀ e ∈ es, e.isStation n = false) :
    es.map (updateStationEntry n) = es :=
  (List.map_congr_left fun e he => updateStationEntry_of_other (h e he)).trans (List.map_id _)

theorem reportStationIn_reports (n : Nat) (ps : List NoticeEntry) : ReportsStation n ps (reportStationIn n ps) := by
  refine ⟨fun hnone => ?_, fun pre post c hps hothers => ?_⟩
  · have hany : ps.any (NoticeEntry.isStation n) = false := by simpa using hnone
    rw [reportStationIn, hany]
    rfl
  · have hany : ps.any (NoticeEntry.isStation n) = true :=
      List.any_eq_true.2 ⟨.station n c, by rw [hps]; simp, decide_eq_true rfl⟩
    have hentry : updateStationEntry n (.station n c) = .station n (min 65535 (c + 1)) := if_pos rfl
    rw [reportStationIn, hany, if_pos rfl, hps, List.map_append, List.map_append,
      map_updateStationEntry fun e he => hothers e (List.mem_append_left _ he),
      map_updateStationEntry fun e he => hothers e (List.mem_append_right _ he), List.map_singleton, hentry]

/-- Station `n` is reported between `s` and `t`, and the emission attempt that follows is made (R185, R187). -/
abbrev Reported (s t : State) (n : Nat) : Prop :=
  ∃ ps ns, ReportsStation n s.notices.pendingSet ps ∧
    JoinsEgress ((s.setRuntime t.runtime).setNotices { s.notices with pendingSet := ps }) t ns [] ∧ HeldBackLaw t ∧
    OthersKept s t [] ∧ OnlyEgress (s.setRuntime t.runtime) t ∧
    (2 ≤ s.egress.noticeCount → t = (s.setRuntime t.runtime).setNotices { s.notices with pendingSet := ps })

theorem reportStation_reported (hm : MemoryLaw s.mem) (rt : Table StationRuntime) (n : Nat) :
    Reported s ((s.setRuntime rt).reportStation n) n := by
  obtain ⟨u, hu⟩ : ∃ u, u = (s.setRuntime rt).setNotices
    { s.notices with pendingSet := reportStationIn n s.notices.pendingSet } := ⟨_, rfl⟩
  have ht : (s.setRuntime rt).reportStation n = u.emissionAttempt := by rw [hu]; rfl
  have hmu : MemoryLaw u.mem := hu ▸ hm
  have hru : u.runtime = rt := hu ▸ rfl
  obtain ⟨ns, hemits, hlen⟩ := State.emissionAttempt_spec hmu
  have hlimit : 2 ≤ u.egress.noticeCount → u.emissionAttempt = u := State.emissionAttempt_of_limit
  refine ⟨_, ns, reportStationIn_reports n s.notices.pendingSet, ?_⟩
  rw [ht, hemits.only.runtime, hru, ← hu]
  refine ⟨(carries_of_emits (ds := []) hemits).joins hlen, State.emissionAttempt_heldBack hmu, fun k hk _ => ?_, ?_,
    fun hcount => hlimit (hu ▸ hcount)⟩
  · subst hu
    exact hemits.kept k hk
  · subst hu
    exact (OnlyEgress.setNotices _ _).trans hemits.only

/-! ## The health machine (R102, R103) -/

/-- The station's runtime after an outcome, and the report made of it, if there is one. -/
structure Told (s t : State) (n : Nat) (r : StationRuntime) (reports : Prop) : Prop where
  station : t.station n = r
  others : ∀ k, k ≠ n → t.station k = s.station k
  silent : ¬reports → t = s.setRuntime t.runtime
  reported : reports → Reported s t n

section

variable {n : Nat} {r : StationRuntime} {t : State} {reports : Prop}

theorem Told.kept (h : Told s t n r reports) : OthersKept s t [] := by
  by_cases hr : reports
  · obtain ⟨ps, ms, -, -, -, hkept, -⟩ := h.reported hr
    exact hkept
  · rw [h.silent hr]
    exact fun _ _ _ => ⟨rfl, rfl⟩

theorem Told.queue (h : Told s t n r reports) : ∃ ms, t.egress.queue = s.egress.queue ++ ms := by
  by_cases hr : reports
  · obtain ⟨ps, ms, -, hjoins, -⟩ := h.reported hr
    exact ⟨ms, hjoins.1.trans (List.append_nil _)⟩
  · rw [h.silent hr]
    exact ⟨[], (List.append_nil _).symm⟩

end

theorem told_of_eq (hr : Table.rising s.runtime = true) (hm : MemoryLaw s.mem) {n : Nat} {r : StationRuntime} {t : State}
    {reports : Prop} (hsilent : ¬reports → t = s.setStation n r)
    (hreports : reports → t = (s.setStation n r).reportStation n) : Told s t n r reports := by
  have hruntime : t.runtime = Table.set StationRuntime.default s.runtime n r := by
    by_cases h : reports
    · rw [hreports h, State.reportStation_runtime]
      rfl
    · rw [hsilent h]
      rfl
  have hstation : ∀ k, t.station k = if k = n then r else s.station k := fun k => by
    rw [State.station, hruntime]
    exact station_setStation hr n k r
  refine ⟨(hstation n).trans (if_pos rfl), fun k hk => (hstation k).trans (if_neg hk), fun h => ?_, fun h => ?_⟩
  · rw [hruntime]
    exact hsilent h
  · rw [hreports h]
    exact reportStation_reported hm _ n

theorem success_told (hr : Table.rising s.runtime = true) (hm : MemoryLaw s.mem) (n : Nat) :
    Told s (s.success n) n { s.station n with health := .up, failCount := 0 } ((s.station n).health = .down) := by
  refine told_of_eq hr hm (fun h => ?_) fun h => ?_
  · exact if_neg h
  · exact if_pos h

theorem failed_health_eq_down_iff (r : StationRuntime) (t : Nat) :
    (r.failed t).health = .down ↔ r.health = .down ∨ t ≤ min 15 (r.failCount + 1) := by
  change (if r.health = .down ∨ t ≤ min 15 (r.failCount + 1) then Health.down else .failing) = .down ↔ _
  by_cases h : r.health = .down ∨ t ≤ min 15 (r.failCount + 1)
  · exact iff_of_true (if_pos h) h
  · exact iff_of_false (by rw [if_neg h]; decide) h

theorem failure_told (hr : Table.rising s.runtime = true) (hm : MemoryLaw s.mem) (n thr : Nat) :
    Told s (s.failure n thr) n ((s.station n).failed thr)
      ((s.station n).health ≠ .down ∧ thr ≤ min 15 ((s.station n).failCount + 1)) := by
  have hiff : ((s.station n).health ≠ .down ∧ ((s.station n).failed thr).health = .down) ↔
      ((s.station n).health ≠ .down ∧ thr ≤ min 15 ((s.station n).failCount + 1)) := by
    rw [failed_health_eq_down_iff]
    tauto
  refine told_of_eq hr hm (fun h => ?_) fun h => ?_
  · exact if_neg (hiff.not.2 h)
  · exact if_pos (hiff.2 h)

end

/-- Settles O39. -/
theorem healthFollowsTheOutcomes : Obligations.HealthFollowsTheOutcomes := by
  refine ⟨fun s n hr hm => ?_, fun s n thr hr hm => ?_⟩
  · have h := success_told hr hm n
    exact ⟨h.station, h.others, h.silent, h.reported⟩
  · have h := failure_told hr hm n thr
    refine ⟨h.station, h.others, fun hquiet => h.silent ?_, fun hup hfails => h.reported ⟨hup, hfails⟩⟩
    rintro ⟨hup, hfails⟩
    exact hquiet.elim hup fun hlow => Nat.not_lt.2 hfails hlow

/-! ## Handing (R10) -/

theorem setTx_of_tx {s : State} {p : Port} {x : Transmitter} (h : (s.port p).tx = x) : s.setTx p x = s := by
  subst h
  cases p <;> rfl

theorem handTx_eq (s : State) (p : Port) (d : Nat) :
    s.handTx p d = s.setTx p ((s.port p).tx.afterHanding d (s.telegram d)) := by
  cases h : (s.port p).tx with
  | idle => simp only [State.handTx, h, Transmitter.afterHanding]
  | sending y => simp only [State.handTx, h, Transmitter.afterHanding, setTx_of_tx h]
  | spacing o => simp only [State.handTx, h, Transmitter.afterHanding]

/-! ## The take of a SYNC, and of a poll in NORMAL mode (R85, R88, R91) -/

section

variable {s : State} {g : Segment} {d : Nat} {rest : List Nat}

theorem exec_take (hheld : s.resetHeld = false) (g : Segment) : exec (.take g) s = .next (s.take g) :=
  exec_running (by simp) (by simp) hheld

variable (hstate : (s.seg g).state = .idle) (hqueue : (s.seg g).queue = d :: rest)
include hstate hqueue

theorem take_of_sync (h : (s.desc d).kind = .sync) :
    s.take g = (s.setSeg g { s.seg g with queue := rest }).takeSync g d := by
  simp only [State.take, hstate, hqueue, h, if_true]

section

variable (h : (s.desc d).kind = .poll)
include h

theorem take_of_normal (hmode : (s.station (s.desc d).dest.toNat).mode = .normal) :
    s.take g = (s.setSeg g { s.seg g with queue := rest }).startTransaction g d := by
  simp [State.take, hstate, hqueue, h, State.stationOf, hmode]

theorem take_of_isolated (hmode : (s.station (s.desc d).dest.toNat).mode = .isolated) :
    s.take g = (s.setSeg g { s.seg g with queue := rest }).answerIsolated d := by
  simp [State.take, hstate, hqueue, h, State.stationOf, hmode]

theorem take_of_echo (hmode : (s.station (s.desc d).dest.toNat).mode = .echo) :
    s.take g = (s.setSeg g { s.seg g with queue := rest }).answerEcho d := by
  simp [State.take, hstate, hqueue, h, State.stationOf, hmode]

end

end

theorem takeSync_eq (s : State) (g : Segment) (d : Nat) (rest : List Nat) :
    (s.setSeg g { s.seg g with queue := rest }).takeSync g d =
      (s.setSeg g ⟨rest, .sync d, none, .sending⟩).setTx (dropPort g)
        ((s.port (dropPort g)).tx.afterHanding d (s.telegram d)) := by
  unfold State.takeSync
  rw [handTx_eq]
  cases g <;> rfl

/-- Transaction `y` takes the slot of segment `g`, whose queue is now `q`, and its try is handed and counted. -/
def startTry (s : State) (g : Segment) (q : List Nat) (y : Transaction) (f : StationCounters → StationCounters) : State :=
  ((s.setSeg g ⟨q, .poll y, none, .sending⟩).setTx (dropPort g)
    ((s.port (dropPort g)).tx.afterHanding y.desc (s.telegram y.desc))).countStation y.station.toNat f

/-- The parts of the state that a try changes. -/
theorem startTry_parts {s : State} (h : Table.rising s.counters.stations = true) (g : Segment) (q : List Nat)
    (y : Transaction) (f : StationCounters → StationCounters) :
    (startTry s g q y f).seg g = ⟨q, .poll y, none, .sending⟩ ∧
    ((startTry s g q y f).port (dropPort g)).tx =
      (s.port (dropPort g)).tx.afterHanding y.desc (s.telegram y.desc) ∧
    (startTry s g q y f).stationCounters y.station.toNat = f (s.stationCounters y.station.toNat) ∧
    ∀ n, n ≠ y.station.toNat → (startTry s g q y f).stationCounters n = s.stationCounters n := by
  have hcount : ∀ n, (startTry s g q y f).stationCounters n =
      if n = y.station.toNat then f (s.stationCounters y.station.toNat) else s.stationCounters n := fun n => by
    cases g <;> exact stationCounters_countStation h y.station.toNat n f
  refine ⟨?_, ?_, (hcount _).trans (if_pos rfl), fun n hn => (hcount n).trans (if_neg hn)⟩
  · cases g <;> rfl
  · cases g <;> rfl

theorem startTry_rest (s : State) (g : Segment) (q : List Nat) (y : Transaction) (f : StationCounters → StationCounters) :
    startTry s g q y f = ((s.setSeg g ⟨q, .poll y, none, .sending⟩).setTx (dropPort g)
      ((s.port (dropPort g)).tx.afterHanding y.desc (s.telegram y.desc))).setCounters
        { s.counters with stations := (startTry s g q y f).counters.stations } := by
  cases g <;> rfl

/-- The take of poll `d`, stamped with bank `b`: its transaction's record, its image and its first try. -/
theorem startTransaction_eq (s : State) (g : Segment) {d : Nat} (rest : List Nat) {b : BankId}
    (hstamp : (s.desc d).stamp = some b) :
    (s.setSeg g { s.seg g with queue := rest }).startTransaction g d =
      (startTry s g rest ⟨(s.desc d).dest, (s.desc d).seq, d, b,
          if (s.station (s.desc d).dest.toNat).health = .down then 1
            else 1 + ((s.bank b).entry (s.desc d).dest.toNat).retryLimit, 1, false⟩
        StationCounters.bumpTransmissions).captureOut (s.desc d).dest.toNat d := by
  have hb : s.stampedBank d = b := by rw [State.stampedBank, hstamp]; rfl
  subst hb
  unfold State.startTransaction State.handTry startTry
  rw [handTx_eq]
  cases g <;> rfl

theorem outImage_captureOut {s : State} (h : Table.rising s.outImages = true) (n d k : Nat) :
    (s.captureOut n d).outImage k = if k = n then s.imageOf d else s.outImage k :=
  Table.get_set (dflt := ImageRecord.default) h n k (s.imageOf d)

/-- Settles O33. -/
theorem takesThatUseTheDrop : Obligations.TakesThatUseTheDrop := by
  refine ⟨fun s g d rest ⟨hrun, hstate, hqueue, _⟩ hkind => ?_, fun s g d rest b ⟨hrun, hstate, hqueue, _⟩ hkind hstamp
    hmode => ?_⟩
  · rw [exec_take hrun.1, take_of_sync hstate hqueue hkind, takeSync_eq]
    refine ⟨fun htx => ?_, fun x htx => ?_⟩
    · rw [htx]
      rfl
    · rw [htx]
      rfl
  · obtain ⟨-, -, -, -, -, -, -, -, hout, hcounters⟩ := hrun.2.2
    refine ⟨_, exec_take hrun.1 g, ?_⟩
    rw [take_of_normal hstate hqueue hkind hmode, startTransaction_eq s g rest hstamp]
    generalize hy : Transaction.mk (s.desc d).dest (s.desc d).seq d b _ 1 false = y
    have hdesc : y.desc = d := hy ▸ rfl
    have hstation : y.station = (s.desc d).dest := hy ▸ rfl
    obtain ⟨hseg, htx, hself, hother⟩ := startTry_parts (Table.wf_rising hcounters) g rest y
      StationCounters.bumpTransmissions
    have hrest := startTry_rest s g rest y StationCounters.bumpTransmissions
    have himages : Table.rising (startTry s g rest y StationCounters.bumpTransmissions).outImages = true := by
      rw [hrest]
      simpa using Table.wf_rising hout
    rw [hdesc] at htx
    rw [hstation] at hself hother
    refine ⟨?_, fun h => ?_, fun x h => ?_, ?_, fun n hn => ⟨?_, hother n hn⟩, hself, ?_⟩
    · exact hseg.trans (hy ▸ rfl)
    · exact htx.trans (congrArg (·.afterHanding d (s.telegram d)) h)
    · exact htx.trans (congrArg (·.afterHanding d (s.telegram d)) h)
    · refine (outImage_captureOut himages _ d _).trans ((if_pos rfl).trans ?_)
      cases g <;> rfl
    · refine (outImage_captureOut himages _ d n).trans ((if_neg hn).trans ?_)
      cases g <;> rfl
    · cases g <;> rfl

/-! ## The retransmission (R93) -/

section

variable {s : State} {g : Segment} {x : Transaction} (hslot : (s.seg g).slot = .poll x)
  (hstate : (s.seg g).state = .awaiting) (htx : (s.port (dropPort g)).tx = .idle)
include hslot hstate htx

theorem windowExpiry_of_tries_left (h : x.triesMade < x.triesAllowed) : s.windowExpiry g = s.retransmit g x := by
  simp only [State.windowExpiry, hstate, hslot, htx, if_pos h]

theorem windowExpiry_of_last (h : x.triesAllowed ≤ x.triesMade) : s.windowExpiry g = s.failTransaction g x := by
  simp only [State.windowExpiry, hstate, hslot, htx, if_neg (Nat.not_lt.2 h)]

end

theorem exec_replyWindowExpiry {s : State} (hheld : s.resetHeld = false) (g : Segment) :
    exec (.replyWindowExpiry g) s = .next (s.windowExpiry g) :=
  exec_running (by simp) (by simp) hheld

theorem set_set {α : Type} [DecidableEq α] {dflt : α} {t : Table α} (h : Table.wf dflt t = true) (n : Nat) (v w : α) :
    Table.set dflt (Table.set dflt t n v) n w = Table.set dflt t n w := by
  have hset := Table.wf_set h n v
  refine Table.ext_of_wf (Table.wf_set hset n w) (Table.wf_set h n w) fun k => ?_
  rw [Table.get_set (Table.wf_rising hset), Table.get_set (Table.wf_rising h), Table.get_set (Table.wf_rising h)]
  by_cases hk : k = n <;> simp [hk]

theorem countStation_countStation {s : State} (h : Table.wf StationCounters.zero s.counters.stations = true) (n : Nat)
    (f f' : StationCounters → StationCounters) :
    (s.countStation n f).countStation n f' = s.countStation n fun c => f' (f c) := by
  have hself : (s.countStation n f).stationCounters n = f (s.stationCounters n) :=
    (stationCounters_countStation (Table.wf_rising h) n n f).trans (if_pos rfl)
  rw [State.countStation, hself]
  exact congrArg (fun t => s.setCounters { s.counters with stations := t }) (set_set h n _ _)

theorem retransmit_eq {s : State} (h : Table.wf StationCounters.zero s.counters.stations = true) (g : Segment)
    (x : Transaction) : s.retransmit g x =
      startTry s g (s.seg g).queue x.retry fun c => c.bumpRetries.bumpTransmissions := by
  unfold State.retransmit State.handTry startTry
  rw [handTx_eq, Transaction.retry, countStation_countStation h]
  cases g <;> rfl

/-- Settles O35. -/
theorem windowExpiryRetransmits : Obligations.WindowExpiryRetransmits := by
  intro s g x ⟨hrun, hslot, _⟩ hstate htx htries
  have hcounters : Table.wf StationCounters.zero s.counters.stations = true := hrun.2.2.2.2.2.2.2.2.2.2.2
  refine ⟨_, exec_replyWindowExpiry hrun.1 g, ?_⟩
  rw [windowExpiry_of_tries_left hslot hstate htx htries, retransmit_eq hcounters]
  obtain ⟨-, -, hself, hother⟩ := startTry_parts (Table.wf_rising hcounters) g (s.seg g).queue x.retry
    fun c => c.bumpRetries.bumpTransmissions
  refine ⟨hself, hother, ?_⟩
  have hrest := startTry_rest s g (s.seg g).queue x.retry fun c => c.bumpRetries.bumpTransmissions
  rw [htx] at hrest
  exact hrest

end Sys2Proof.Proofs.TakesAndTries
end

section
/-! PROOFS. TRANSMISSION_COMPLETE on a drop (O13) and on port T (O14): a release and its emission attempt, and an attempt made
while the next head of trunk egress waits to be handed. -/

namespace Sys2Proof.Proofs.TransmissionCompletes

open Sys2Proof Sys2Proof.Machine Sys2Proof.Proofs.Commands Sys2Proof.Proofs.ClearAndRestart Sys2Proof.Proofs.Carriage
  Sys2Proof.Proofs.TakesAndTries

/-! ## A release and its emission attempt (R29, R187) -/

section

variable {s u : State} {d : Nat}

/-- What the notices `ns` leave of the memory from which `d` has been released. -/
structure Released (s t : State) (d : Nat) (ns : List Nat) : Prop where
  kept : OthersKept s t [d]
  gone : d ∉ ns → d ∉ t.mem.inUse
  freeDescs : t.mem.freeDescs = (s.mem.freeDescs ++ [d]).drop ns.length
  freeBlocks : t.mem.freeBlocks = (s.mem.freeBlocks ++ (s.desc d).chain).drop ns.length
  minima : MinimaAfter s t ns

theorem released_of_emits (hm : MemoryLaw s.mem) (hu : u.mem = s.mem.release d) {t : State} {ns : List Nat}
    (h : Emits u t ns) : Released s t d ns := by
  have hin := mem_inUse_release hm d
  rw [← hu] at hin
  obtain ⟨-, hdesc, hwords, hfreeD, hfreeB⟩ := TelegramMemory.release_spec hm d
  rw [← hu] at hdesc hwords hfreeD hfreeB
  refine ⟨fun k hk hkd => ?_, fun hnew hstays => ?_, hfreeD ▸ h.freeDescs, hfreeB ▸ h.freeBlocks, ?_⟩
  · have hkd : k ≠ d := fun he => hkd (List.mem_singleton.2 he)
    obtain ⟨hdesc', hwords'⟩ := h.kept k ((hin k).2 ⟨hk, hkd⟩)
    exact ⟨hdesc'.trans (hdesc k hkd), hwords'.trans (hwords k hkd)⟩
  · exact ((h.inUse d).1 hstays).elim hnew fun hold => ((hin d).1 hold).2 rfl
  · have hminima := h.minima
    unfold MinimaAfter at hminima ⊢
    rwa [hu] at hminima

end

/-! ## TRANSMISSION_COMPLETE (R11) -/

section

variable {s : State}

theorem exec_transmissionComplete (hheld : s.resetHeld = false) (p : Port) :
    exec (.transmissionComplete p) s = .next (s.transmissionDone p) :=
  exec_running (by simp) (by simp) hheld

/-- Port `p` has sent its telegram: TX_DONE, and SPACING with nothing in hand. -/
def sent (s : State) (p : Port) : State := (s.countPort p .txDone).setTx p (.spacing none)

theorem transmissionDone_of_sending {p : Port} {x : Telegram} (h : (s.port p).tx = .sending x) :
    s.transmissionDone p = (sent s p).completeReported p := by
  have hsent : (s.setTx p (.spacing none)).countPort p .txDone = sent s p := by cases p <;> rfl
  simp only [State.transmissionDone, h, hsent]

/-! ## On a drop (R86, R92, R100) -/

section

variable {g : Segment}

theorem dropComplete_of_sync {d : Nat} (h : (s.seg g).slot = .sync d) :
    s.dropComplete g = (s.setSeg g { s.seg g with slot := .empty, timer := none, state := .idle }).unhold d := by
  simp only [State.dropComplete, h]

theorem dropComplete_of_poll {y : Transaction} (h : (s.seg g).slot = .poll y) : s.dropComplete g =
    s.setSeg g { s.seg g with
      timer := some (windowTime ((s.bank y.bank).entry y.station.toNat).window), state := .awaiting } := by
  simp only [State.dropComplete, h]

theorem dropComplete_of_empty (h : (s.seg g).slot = .empty) :
    s.dropComplete g = s.setSeg g { s.seg g with timer := none, state := .idle } := by
  simp only [State.dropComplete, h]

theorem completeReported_dropPort (s : State) (g : Segment) : s.completeReported (dropPort g) = s.dropComplete g := by
  cases g <;> rfl

theorem sent_seg (s : State) (p : Port) (g : Segment) : (sent s p).seg g = s.seg g := by
  cases p <;> rfl

theorem sent_bank (s : State) (p : Port) (k : BankId) : (sent s p).bank k = s.bank k := by
  cases p <;> rfl

end

end

/-- Settles O13. -/
theorem dropTransmissionComplete : Obligations.DropTransmissionComplete := by
  intro s g x hrun htx
  have hexec : exec (.transmissionComplete (dropPort g)) s = .next ((sent s (dropPort g)).dropComplete g) := by
    rw [exec_transmissionComplete hrun.1, transmissionDone_of_sending htx, completeReported_dropPort]
  have hseg := sent_seg s (dropPort g) g
  refine ⟨fun d hslot hd => ?_, fun y hslot => ?_, fun hslot => ?_⟩
  · obtain ⟨u, hu⟩ : ∃ u, u = (sent s (dropPort g)).setSeg g
      { s.seg g with slot := .empty, timer := none, state := .idle } := ⟨_, rfl⟩
    have hdone : (sent s (dropPort g)).dropComplete g = u.unhold d := by
      rw [dropComplete_of_sync (hseg ▸ hslot), hseg, hu]
    have hmem : u.mem = s.mem := by rw [hu]; cases g <;> rfl
    have hdesc : u.desc d = s.desc d := congrArg (TelegramMemory.desc · d) hmem
    rw [hexec, hdone, State.unhold_eq, hdesc, hmem]
    refine ⟨fun hheld => ?_, fun hlast => ?_⟩
    · rw [if_neg (by omega), hu]
      rfl
    · rw [if_pos hlast]
      have hm : MemoryLaw (u.setMem (s.mem.release d)).mem := hrun.2.1.release hd
      obtain ⟨ns, hemits, hlen⟩ := State.emissionAttempt_spec hm
      have hreleased := released_of_emits hrun.2.1 rfl hemits
      refine ⟨_, ns, rfl, ?_, State.emissionAttempt_heldBack hm, hreleased.kept, hreleased.gone, hreleased.freeDescs,
        hreleased.freeBlocks, hreleased.minima, ?_⟩
      · refine joinsEgress_from (s := s.setMem (s.mem.release d)) (u := u.setMem (s.mem.release d)) ?_ ?_ ?_ ?_
          (fun _ hk => hk) ((carries_of_emits (ds := []) hemits).joins hlen)
        all_goals rw [hu]; cases g <;> rfl
      · exact hu ▸ (OnlyEgress.setMem u _).trans hemits.only
  · rw [hexec, dropComplete_of_poll (hseg ▸ hslot), hseg, sent_bank]
    rfl
  · rw [hexec, dropComplete_of_empty (hseg ▸ hslot), hseg]
    rfl

/-! ## An emission attempt ahead of the hand-over of the head (R153, R154, R187) -/

section

variable {s : State}

theorem handHead_of_empty (h : s.egress.queue = []) : s.handHead = s := by
  simp only [State.handHead, h]

theorem handHead_of_handed (h : s.egress.handed = true) : s.handHead = s := by
  cases hqueue : s.egress.queue <;> simp only [State.handHead, h, hqueue]

theorem handHead_of_waiting {d : Nat} {q : List Nat} (hqueue : s.egress.queue = d :: q) (h : s.egress.handed = false) :
    s.handHead = (s.setEgress { s.egress with handed := true }).handTx .t d := by
  simp only [State.handHead, hqueue, h]

/-- The head of a queue handed to port T in SPACING. -/
theorem handHead_in_spacing {d : Nat} {q : List Nat} (hqueue : s.egress.queue = d :: q) (h : s.egress.handed = false)
    {o : Option Nat} (htx : s.portT.tx = .spacing o) :
    s.handHead = (s.setEgress { s.egress with handed := true }).setTx .t (.spacing (some d)) := by
  rw [handHead_of_waiting hqueue h, handTx_eq]
  change State.setTx _ .t (s.portT.tx.afterHanding d _) = _
  rw [htx]
  rfl

theorem joinEgress_of_handed (h : s.egress.handed = true) (k : Nat) :
    s.joinEgress k = s.setEgress { s.egress with queue := s.egress.queue ++ [k] } :=
  handHead_of_handed h

theorem joinEgress_in_spacing {d : Nat} {q : List Nat} (hqueue : s.egress.queue = d :: q) (h : s.egress.handed = false)
    {o : Option Nat} (htx : s.portT.tx = .spacing o) (k : Nat) :
    s.joinEgress k = (s.setEgress { s.egress with queue := s.egress.queue ++ [k], handed := true }).setTx .t
      (.spacing (some d)) :=
  handHead_in_spacing (s := s.setEgress { s.egress with queue := s.egress.queue ++ [k] })
    (congrArg (· ++ [k]) hqueue) h htx

/-- The part after an emission that has taken descriptor `d`, but for the joining of trunk egress. -/
def noticed (s : State) (rest : List NoticeEntry) (d : Nat) (m : TelegramMemory) : State :=
  ((s.setMem (m.hold d)).setNotices { pendingSet := rest, number := s.notices.number + 1 }).setEgress
    { s.egress with noticeCount := s.egress.noticeCount + 1 }

theorem emitOne_eq {e : NoticeEntry} {rest : List NoticeEntry} (hpending : s.notices.pendingSet = e :: rest)
    (hcount : s.egress.noticeCount < 2) : s.emitOne =
      (s.mem.allocate .part (noticeHeader s.notices.number) (noticeWords s e)).map fun p =>
        (noticed s rest p.1 p.2).joinEgress p.1 := by
  cases halloc : s.mem.allocate .part (noticeHeader s.notices.number) (noticeWords s e) <;>
    simp only [State.emitOne, hpending, if_pos hcount, halloc, Option.map] <;> rfl

theorem emitOne_eq_none (h : s.notices.pendingSet = [] ∨ 2 ≤ s.egress.noticeCount) : s.emitOne = none := by
  cases hpending : s.notices.pendingSet with
  | nil => simp only [State.emitOne, hpending]
  | cons e rest =>
    have hcount : ¬ s.egress.noticeCount < 2 := by
      rw [hpending] at h
      exact h.elim (nomatch ·) Nat.not_lt.2
    simp only [State.emitOne, hpending, if_neg hcount]

/-- Where a head waits to be handed to port T in SPACING, it makes no difference to an emission whether it has been. -/
theorem emitOne_handHead {d : Nat} {q : List Nat} (hqueue : s.egress.queue = d :: q) (h : s.egress.handed = false)
    {o : Option Nat} (htx : s.portT.tx = .spacing o) : s.handHead.emitOne = s.emitOne := by
  rw [handHead_in_spacing hqueue h htx]
  obtain ⟨v, hv⟩ : ∃ v, v = (s.setEgress { s.egress with handed := true }).setTx .t (.spacing (some d)) := ⟨_, rfl⟩
  have hegress : v.egress = { s.egress with handed := true } := hv ▸ rfl
  have hnotices : v.notices = s.notices := hv ▸ rfl
  rw [← hv]
  by_cases hwaits : s.notices.pendingSet = [] ∨ 2 ≤ s.egress.noticeCount
  · rw [emitOne_eq_none hwaits, emitOne_eq_none]
    rwa [hnotices, hegress]
  · obtain ⟨hsome, hcount⟩ := not_or.1 hwaits
    obtain ⟨e, rest, hpending⟩ := List.exists_cons_of_ne_nil hsome
    have hcount := Nat.not_le.1 hcount
    have hwords : noticeWords v e = noticeWords s e := by
      rw [hv]
      cases e <;> rfl
    rw [emitOne_eq hpending hcount, emitOne_eq (hnotices ▸ hpending) (hegress ▸ hcount), hwords, hnotices,
      show v.mem = s.mem from hv ▸ rfl]
    congr 1
    funext p
    rw [joinEgress_in_spacing (s := noticed s rest p.1 p.2) hqueue h htx,
      joinEgress_of_handed (s := noticed v rest p.1 p.2) (hv ▸ rfl), hv]
    rfl

theorem emissionAttempt_of_none (h : s.emitOne = none) : s.emissionAttempt = s := by
  simp only [State.emissionAttempt, h]

theorem emissionAttempt_congr {v : State} (h : v.emitOne = s.emitOne) (hsome : s.emitOne ≠ none) :
    v.emissionAttempt = s.emissionAttempt := by
  cases hemit : s.emitOne with
  | none => exact absurd hemit hsome
  | some w => simp only [State.emissionAttempt, h, hemit]

/-- An emission attempt and the hand-over of the head to port T in SPACING, in either order. -/
theorem emissionAttempt_handHead (hm : MemoryLaw s.mem) (h : s.egress.handed = false) {o : Option Nat}
    (htx : s.portT.tx = .spacing o) : s.emissionAttempt.handHead = s.handHead.emissionAttempt := by
  cases hqueue : s.egress.queue with
  | nil =>
    rw [handHead_of_empty hqueue]
    obtain ⟨ns, hemits, -⟩ := State.emissionAttempt_spec hm
    have hhanded := hemits.handed
    have hjoined := hemits.queue
    rw [hqueue, List.nil_append] at hjoined
    rw [h, Bool.false_or] at hhanded
    cases ns with
    | nil => exact handHead_of_empty hjoined
    | cons n ns => exact handHead_of_handed hhanded
  | cons d q =>
    have hsame := emitOne_handHead hqueue h htx
    have hhanded : s.handHead.egress.handed = true := by rw [State.handHead_egress, hqueue, h]; rfl
    by_cases hnone : s.emitOne = none
    · rw [emissionAttempt_of_none hnone, emissionAttempt_of_none (hsame.trans hnone)]
    · rw [← emissionAttempt_congr hsame hnone]
      obtain ⟨ns, hemits, -⟩ := State.emissionAttempt_spec (s := s.handHead) (by rwa [State.handHead_mem])
      exact handHead_of_handed (by rw [hemits.handed, hhanded]; rfl)

end

/-! ## On port T (R154) -/

/-- Trunk egress once its handed head `d` is gone, ahead of the emission attempt. -/
def headGone (s : State) (d : Nat) (rest : List Nat) : State :=
  (s.setEgress ⟨rest, false,
    if (s.desc d).kind = .notice then s.egress.noticeCount - 1 else s.egress.noticeCount⟩).setMem (s.mem.release d)

theorem egressComplete_eq {s : State} {d : Nat} {rest : List Nat} (hqueue : s.egress.queue = d :: rest)
    (hholders : (s.desc d).holders = 1) : s.egressComplete = ((headGone s d rest).emissionAttempt).handHead := by
  have hdrop : s.mem.dropRef d = s.mem.release d :=
    (TelegramMemory.dropRef_eq _ _).trans (if_pos (Nat.le_of_eq hholders))
  simp only [State.egressComplete, hqueue, hdrop]
  rfl

/-- The transmitter in SPACING and the flag, once the head of `rest`, if there is one, is handed. -/
theorem handHead_headGone {s : State} {d : Nat} {rest : List Nat} (htx : s.portT.tx = .spacing none) :
    (headGone s d rest).handHead.portT.tx = .spacing rest.head? ∧
    (headGone s d rest).handHead.egress = ⟨rest, !rest.isEmpty,
      if (s.desc d).kind = .notice then s.egress.noticeCount - 1 else s.egress.noticeCount⟩ := by
  cases rest with
  | nil =>
    rw [handHead_of_empty rfl]
    exact ⟨htx, rfl⟩
  | cons k rest =>
    rw [handHead_in_spacing (s := headGone s d (k :: rest)) rfl rfl htx]
    exact ⟨rfl, rfl⟩

/-- Settles O14. -/
theorem trunkTransmissionComplete : Obligations.TrunkTransmissionComplete := by
  intro s x d rest hrun htx hqueue hd hholders
  obtain ⟨u, hu⟩ : ∃ u, u = (headGone (sent s .t) d rest).handHead := ⟨_, rfl⟩
  have hm : MemoryLaw (headGone (sent s .t) d rest).mem := hrun.2.1.release hd
  have hexec : exec (.transmissionComplete .t) s = .next u.emissionAttempt := by
    rw [exec_transmissionComplete hrun.1, transmissionDone_of_sending (p := .t) htx, hu,
      ← emissionAttempt_handHead hm rfl rfl]
    exact congrArg _ (egressComplete_eq (s := sent s .t) hqueue hholders)
  have hmem : u.mem = s.mem.release d := by rw [hu, State.handHead_mem]; rfl
  obtain ⟨htxu, hegress⟩ := handHead_headGone (s := sent s .t) (d := d) (rest := rest) rfl
  rw [← hu] at htxu hegress
  obtain ⟨ns, hemits, hlen⟩ := State.emissionAttempt_spec (s := u) (hmem ▸ hm)
  have hreleased := released_of_emits hrun.2.1 hmem hemits
  have hjoins := (carries_of_emits (ds := []) hemits).joins hlen
  obtain ⟨hhanded, hstays, hhead⟩ := hemits.hands
  refine ⟨_, ns, hexec, ?_, ?_, joinsEgress_from (u := u) ?_ ?_ ?_ ?_ (fun k hk => hmem ▸ hk) hjoins,
    State.emissionAttempt_heldBack (hmem ▸ hm), hreleased.kept, hreleased.gone, hreleased.freeDescs,
    hreleased.freeBlocks, hreleased.minima, ?_⟩
  · have heta : u.emissionAttempt.egress = ⟨u.emissionAttempt.egress.queue, u.emissionAttempt.egress.handed,
      u.emissionAttempt.egress.noticeCount⟩ := rfl
    rw [heta, hemits.queue, hemits.noticeCount, hemits.handed, hegress]
    cases rest <;> rfl
  · cases rest with
    | cons k rest => exact (hstays (.inl (by rw [hegress]; rfl))).trans htxu
    | nil =>
      cases ns with
      | nil => exact (hstays (.inr rfl)).trans htxu
      | cons n ns =>
        refine (hhead n rfl (by rw [hegress]; rfl) (by rw [hegress])).trans ?_
        rw [htxu]
        rfl
  · rw [hegress]
    rfl
  · rw [hu, State.handHead_notices]
    rfl
  · rw [hu, State.handHead_runtime]
    rfl
  · exact htxu
  · refine OnlyEgress.trans ?_ hemits.only
    have honly : OnlyEgress (s.countPort .t .txDone) (headGone (sent s .t) d rest) := rfl
    exact hu ▸ honly.trans (OnlyEgress.handHead _)

end Sys2Proof.Proofs.TransmissionCompletes
end

section
/-! PROOFS. The ends of a transaction: the substitution rule (O34, O36), the matched reply (O37), and the reply that finds no
blocks (O38). -/

namespace Sys2Proof.Proofs.TransactionEnds

open Sys2Proof Sys2Proof.Machine Sys2Proof.Proofs.Commands Sys2Proof.Proofs.Intake Sys2Proof.Proofs.Reception
  Sys2Proof.Proofs.Images Sys2Proof.Proofs.StationAnswers Sys2Proof.Proofs.MemoryAndRuns Sys2Proof.Proofs.Answers
  Sys2Proof.Proofs.Carriage Sys2Proof.Proofs.TakesAndTries

/-! ## The substitution rule (R136 to R138) -/

section

variable {s : State} {d : Nat} {b : BankId}

theorem inImage_length_le (h : ImagesLaw s) (hr : Table.rising s.inImages = true) (n : Nat) :
    (s.inImage n).words.length ≤ 32 := by
  unfold State.inImage Table.get
  cases hlookup : Table.lookup s.inImages n with
  | none => exact Nat.zero_le _
  | some v => exact h.1 (n, v) ((Table.lookup_eq_some hr n v).1 hlookup)

theorem stampedBank_eq (hstamp : (s.desc d).stamp = some b) : s.stampedBank d = b := by
  rw [State.stampedBank, hstamp]
  rfl

theorem substitution_of_serving (hstamp : (s.desc d).stamp = some b) (h : s.substitutable d = true) (retried : Bool) :
    substitution s (s.desc d).dest.toNat b retried =
      (.subst, ⟨false, (s.inImage (s.desc d).dest.toNat).faulted, false, retried⟩,
        (s.inImage (s.desc d).dest.toNat).words) := by
  rw [substitutable_iff, imageAge_eq_mod, State.stampedEntry, stampedBank_eq hstamp] at h
  exact if_pos h

theorem substitution_of_useless (hstamp : (s.desc d).stamp = some b) (h : ¬ s.substitutable d = true) (retried : Bool) :
    substitution s (s.desc d).dest.toNat b retried = (.noreply, ⟨false, false, false, retried⟩, []) := by
  rw [substitutable_iff, imageAge_eq_mod, State.stampedEntry, stampedBank_eq hstamp] at h
  exact if_neg h

theorem substitute_of_useless (h : ¬ s.substitutable d = true) : s.substitute d = s.buildEmptyReply d .noreply :=
  if_neg h

theorem substitute_of_serving (h : s.substitutable d = true)
    (hok : (s.replaceChain d (s.inImage (s.stationOf d)).words).1 = true) :
    s.substitute d = (((s.replaceChain d (s.inImage (s.stationOf d)).words).2.modDesc d fun x =>
      { x with marks := { x.marks with faulted := x.marks.faulted || (s.inImage (s.stationOf d)).faulted } }).buildReply d
        .subst).countStation (s.stationOf d) StationCounters.bumpSubstitutions := by
  have hpair : s.replaceChain d (s.inImage (s.stationOf d)).words =
      (true, (s.replaceChain d (s.inImage (s.stationOf d)).words).2) := Prod.ext hok rfl
  rw [State.substitute, if_pos h, hpair]

/-- What the substitution rule makes of the poll `d` of `s`, stamped with bank `b`, with the answer `a`. -/
structure Substitutes (s t : State) (d : Nat) (b : BankId) (a : ReplyStatus × Marks × List Word) (ns : List Nat) :
    Prop where
  replies : Replies s t d a.1 a.2.1 a.2.2 ns
  bank : ∀ k, t.bank k = afterRelease s b k
  counters : t.counters = if a.1 = .subst
    then (s.countStation (s.desc d).dest.toNat StationCounters.bumpSubstitutions).counters else s.counters

theorem substitute_substitutes (hm : MemoryLaw s.mem) (hd : d ∈ s.mem.inUse) (hstamp : (s.desc d).stamp = some b)
    (himage : (s.inImage (s.desc d).dest.toNat).words.length ≤ 32) {retried : Bool}
    (hmarks : (s.desc d).marks = ⟨false, false, false, retried⟩) :
    ∃ ns, Substitutes s (s.substitute d) d b (substitution s (s.desc d).dest.toNat b retried) ns := by
  by_cases h : s.substitutable d = true
  · obtain ⟨hok, ns, hr⟩ := replaceChain_rewrites hm hd himage
    have himages : (s.replaceChain d (s.inImage (s.desc d).dest.toNat).words).2.counters = s.counters :=
      State.replaceChain_counters s d _
    have hbanks := State.replaceChain_bank s d (s.inImage (s.desc d).dest.toNat).words
    rw [substitution_of_serving hstamp h, substitute_of_serving h hok]
    change Rewrites s (s.replaceChain d (s.inImage (s.stationOf d)).words).2 d _ ns at hr
    change (s.replaceChain d (s.inImage (s.stationOf d)).words).2.counters = _ at himages
    change ∀ k, (s.replaceChain d (s.inImage (s.stationOf d)).words).2.bank k = _ at hbanks
    generalize (s.replaceChain d (s.inImage (s.stationOf d)).words).2 = v at hr himages hbanks
    obtain ⟨hcarries, hdesc, hwords⟩ := hr.marked hd
      fun m => { m with faulted := m.faulted || (s.inImage (s.stationOf d)).faulted }
    generalize hw : (v.modDesc d fun x => { x with marks :=
      { x.marks with faulted := x.marks.faulted || (s.inImage (s.stationOf d)).faulted } }) = w at hcarries hdesc hwords
    have hreplies := replies_of_carries hd hcarries hdesc hr.two .subst
    rw [hwords, hmarks] at hreplies
    obtain ⟨count, chain, hdesc⟩ := hdesc
    refine ⟨ns, hreplies.countStation _ _, fun k => ?_, ?_⟩
    · rw [State.countStation_bank, buildReply_bank w (by rw [hdesc]; exact hstamp)]
      exact afterRelease_congr (fun k => by rw [← hw, State.modDesc_bank, hbanks]) b k
    · have hcounters : (w.buildReply d .subst).counters = s.counters := by
        rw [State.buildReply_counters, ← hw, State.modDesc_counters, himages]
      rw [if_pos rfl, State.countStation, State.countStation, State.stationCounters, State.stationCounters, hcounters]
      rfl
  · obtain ⟨ns, hreplies⟩ := buildEmptyReply_replies hm hd .noreply
    rw [substitution_of_useless hstamp h, substitute_of_useless h]
    rw [hmarks] at hreplies
    refine ⟨ns, hreplies, buildEmptyReply_bank hm hd hstamp .noreply, ?_⟩
    rw [if_neg (by simp)]
    exact (State.buildReply_counters _ _ _).trans (State.replaceChain_counters _ _ _)

theorem substitution_congr {t : State} (hin : t.inImages = s.inImages) (hcycle : t.cycle = s.cycle)
    (hbank : ∀ k, t.bank k = s.bank k) (n : Nat) (b : BankId) (retried : Bool) :
    substitution t n b retried = substitution s n b retried := by
  unfold substitution State.inImage
  rw [hin, hcycle, hbank]

theorem sameTraffic_setSeg (s : State) (g : Segment) (c : SegmentController) : SameTraffic s (s.setSeg g c) := by
  cases g <;> exact ⟨rfl, rfl, rfl, rfl, rfl⟩

theorem setSeg_rx (s : State) (g : Segment) (c : SegmentController) : (s.setSeg g c).portT.rx = s.portT.rx := by
  cases g <;> rfl

theorem setBank_rx (s : State) (b : BankId) (v : Bank) : (s.setBank b v).portT.rx = s.portT.rx := by
  cases b <;> rfl

/-- The rule applied once the segment has let go of the poll `d`, whose point marks are cleared. -/
theorem substitute_after (hm : MemoryLaw s.mem) (hd : d ∈ s.mem.inUse) (hstamp : (s.desc d).stamp = some b)
    (himage : (s.inImage (s.desc d).dest.toNat).words.length ≤ 32) (g : Segment) (c : SegmentController)
    {f : Marks → Marks} {retried : Bool} (hf : f (s.desc d).marks = ⟨false, false, false, retried⟩) :
    ∃ ns, Substitutes s (((s.setSeg g c).modDesc d fun x => { x with marks := f x.marks }).substitute d) d b
      (substitution s (s.desc d).dest.toNat b retried) ns := by
  have htraffic := sameTraffic_setSeg s g c
  have hlet : Rewrites s (s.setSeg g c) d ((s.setSeg g c).words d) [] :=
    ⟨Carries.sameTraffic hm htraffic (setSeg_rx s g c), ⟨_, _, htraffic.desc d⟩, rfl, Nat.zero_le _⟩
  obtain ⟨hcarries, ⟨count, chain, hdesc⟩, -⟩ := hlet.marked hd f
  have hself : ((s.setSeg g c).modDesc d fun x => { x with marks := f x.marks }).desc d =
      { s.desc d with marks := f (s.desc d).marks } := by
    refine (State.modDesc_spec (s.setSeg g c) d (fun x => { x with marks := f x.marks }) fun _ => ⟨rfl, rfl⟩).1.trans ?_
    rw [htraffic.desc]
  generalize hv : ((s.setSeg g c).modDesc d fun x => { x with marks := f x.marks }) = v at hcarries hself
  have hin : v.inImages = s.inImages := by rw [← hv]; simp
  have hbank : ∀ k, v.bank k = s.bank k := fun k => by rw [← hv]; simp
  have hcycle : v.cycle = s.cycle := by rw [← hv]; simp
  have hcounters : v.counters = s.counters := by rw [← hv]; simp
  have hdest : (v.desc d).dest = (s.desc d).dest := by rw [hself]
  obtain ⟨ns, hsub⟩ := substitute_substitutes (s := v) hcarries.law ((hcarries.inUse d).2 (.inr hd))
    (by rw [hself]; exact hstamp) (by rw [hdest, State.inImage, hin]; exact himage) (by rw [hself]; exact hf)
  have hcounted := hsub.counters
  rw [hdest, substitution_congr hin hcycle hbank] at hsub hcounted
  refine ⟨ns, Replies.after hcarries hd ⟨_, hself⟩ hsub.replies, fun k => ?_, ?_⟩
  · rw [hsub.bank, afterRelease_congr hbank]
  · rw [hcounted, State.countStation, State.countStation, State.stationCounters, State.stationCounters, hcounters]
    rfl

/-- The counters of the stations after the rule. -/
theorem Substitutes.stationCounters {t : State} {a : ReplyStatus × Marks × List Word} {ns : List Nat}
    (h : Substitutes s t d b a ns) (hcounters : Table.rising s.counters.stations = true) (n : Nat) :
    t.stationCounters n = if n = (s.desc d).dest.toNat ∧ a.1 = .subst then (s.stationCounters n).bumpSubstitutions
      else s.stationCounters n := by
  rw [State.stationCounters, h.counters]
  by_cases hsubst : a.1 = .subst
  · rw [if_pos hsubst]
    refine (stationCounters_countStation hcounters _ n _).trans ?_
    by_cases hn : n = (s.desc d).dest.toNat
    · rw [if_pos hn, if_pos ⟨hn, hsubst⟩, hn]
    · rw [if_neg hn, if_neg fun hboth => hn hboth.1]
  · rw [if_neg hsubst, if_neg fun hboth => hsubst hboth.2]
    rfl

theorem Substitutes.counters_rising {t : State} {a : ReplyStatus × Marks × List Word} {ns : List Nat}
    (h : Substitutes s t d b a ns) (hcounters : Table.wf StationCounters.zero s.counters.stations = true) :
    Table.rising t.counters.stations = true := by
  rw [h.counters]
  by_cases hsubst : a.1 = .subst
  · rw [if_pos hsubst]
    exact Table.wf_rising (Table.wf_set hcounters _ _)
  · rw [if_neg hsubst]
    exact Table.wf_rising hcounters

theorem Substitutes.counters_eq {t : State} {a : ReplyStatus × Marks × List Word} {ns : List Nat}
    (h : Substitutes s t d b a ns) : t.counters = { s.counters with stations := t.counters.stations } := by
  rw [h.counters]
  by_cases hsubst : a.1 = .subst
  · rw [if_pos hsubst]
    rfl
  · rw [if_neg hsubst]

theorem bank_setBank_of_afterRelease {t : State} (h : ∀ k, t.bank k = afterRelease s b k) (k : BankId) :
    t.bank k = (s.setBank b (t.bank b)).bank k := by
  by_cases hk : k = b
  · rw [hk, State.setBank_bank_same]
  · rw [State.setBank_bank_other _ _ _ _ hk, h, afterRelease, if_neg hk]

end

/-! ## The take in ECHO and in ISOLATED mode (R89, R90) -/

/-- Settles O34. -/
theorem takeInEchoOrIsolatedModeAnswers : Obligations.TakeInEchoOrIsolatedModeAnswers := by
  intro s g d rest b ⟨hrun, hstate, hqueue, hd⟩ hkind hstamp himages
  have hm : MemoryLaw s.mem := hrun.2.1
  refine ⟨fun hmode => ?_, fun hmode => ?_⟩
  · refine ⟨_, exec_take hrun.1 g, ?_⟩
    rw [take_of_echo hstate hqueue hkind hmode, State.answerEcho]
    generalize hv : s.setSeg g { s.seg g with queue := rest } = v
    have htraffic : SameTraffic s v := hv ▸ sameTraffic_setSeg s g _
    have hreplies := replies_of_carries hd (Carries.sameTraffic hm htraffic (hv ▸ setSeg_rx s g _))
      (marks := (s.desc d).marks) ⟨_, _, htraffic.desc d⟩ (Nat.zero_le _) .echo
    rw [htraffic.words] at hreplies
    have hbank : ∀ k, ((v.buildReply d .echo).joinEgress d).bank k = afterRelease s b k := fun k => by
      rw [State.joinEgress_bank, buildReply_bank v (by rw [htraffic.desc]; exact hstamp)]
      exact afterRelease_congr (fun k => by rw [← hv]; simp) b k
    obtain ⟨htel, hkept, hjoins⟩ := hreplies.joined hd
    refine ⟨htel, hkept, hjoins, hbank, OnlyEgress.trans ?_ (OnlyEgress.joinEgress _ d)⟩
    have hheld : ∀ k, (v.buildReply d .echo).bank k = (v.setBank b (((v.buildReply d .echo).joinEgress d).bank b)).bank k := by
      rw [State.joinEgress_bank]
      exact bank_setBank_of_afterRelease fun k => buildReply_bank v (by rw [htraffic.desc]; exact hstamp) .echo k
    have hrx : (v.buildReply d .echo).portT = v.portT := State.buildReply_port v d .echo .t
    exact onlyEgress_of_fields (by simp [hrx, setBank_rx]) (by simp) hheld (by simp) (by simp) (by simp) (by simp) (by simp) (by simp)
      (by simp) (by simp) (by simp) (by simp) (by simp)
  · have himage := inImage_length_le himages (Table.wf_rising hrun.2.2.2.2.2.2.2.2.2.1) (s.desc d).dest.toNat
    obtain ⟨ns, hsub⟩ := substitute_after hm hd hstamp himage g { s.seg g with queue := rest } (f := Marks.clearPoint) rfl
    refine ⟨_, ns, exec_take hrun.1 g, ?_⟩
    rw [take_of_isolated hstate hqueue hkind hmode, State.answerIsolated]
    have hcarries := hsub.replies.carries
    generalize hu : State.substitute _ d = u at hsub hcarries
    obtain ⟨htel, hkept, hjoins⟩ := hsub.replies.joined hd
    refine ⟨htel, hkept, hjoins, fun k => by rw [State.joinEgress_bank, hsub.bank], fun n => ?_,
      OnlyEgress.trans ?_ (OnlyEgress.joinEgress _ d)⟩
    · rw [State.stationCounters, State.joinEgress_counters]
      exact hsub.stationCounters (Table.wf_rising hrun.2.2.2.2.2.2.2.2.2.2.2) n
    · have hheld : ∀ k, u.bank k = (s.setBank b ((u.joinEgress d).bank b)).bank k := by
        rw [State.joinEgress_bank]
        exact bank_setBank_of_afterRelease hsub.bank
      have hcounters : u.counters = { s.counters with stations := (u.joinEgress d).counters.stations } := by
        rw [State.joinEgress_counters]
        exact hsub.counters_eq
      refine onlyEgress_of_fields ?_ ?_ (fun k => (hheld k).trans ?_) ?_ ?_ ?_ ?_ ?_ ?_ ?_ hcounters ?_ ?_ ?_
      · exact hcarries.rx.trans (((setBank_rx _ _ _).trans (setSeg_rx s g _)).symm)
      · intro p hp
        rw [← hu, State.substitute_port_other _ _ _ hp]
        simp
      · simp only [State.setCounters_bank, State.setBank_bank, State.setSeg_bank]
      all_goals rw [← hu]; simp

/-! ## What the health machine does after a reply has joined trunk egress -/

section

variable {s v w t : State} {d n : Nat} {ns : List Nat} {r : StationRuntime} {reports : Prop}

/-- The reply `d` joins trunk egress in `v`, then the station's outcome is told. -/
theorem replied_then_told {st : ReplyStatus} {marks : Marks} {ws : List Word} (h : Replies s v d st marks ws ns)
    (hd : d ∈ s.mem.inUse) (hmem : w.mem = (v.joinEgress d).mem) (hegress : w.egress = (v.joinEgress d).egress)
    (htold : Told w t n r reports) : RepliedWith s t d st marks ws ∧ OthersKept s t [d] ∧
      ∃ ns ms, t.egress.queue = s.egress.queue ++ ns ++ [d] ++ ms := by
  have hin : ∀ k ∈ s.mem.inUse, k ∈ w.mem.inUse := fun k hk => by
    rw [hmem, State.joinEgress_mem]
    exact (h.carries.inUse k).2 (.inr hk)
  have hdesc : ∀ k ∈ s.mem.inUse, t.desc k = v.desc k ∧ t.words k = v.words k := fun k hk => by
    obtain ⟨htdesc, htwords⟩ := htold.kept k (hin k hk) List.not_mem_nil
    rw [State.joinEgress_mem] at hmem
    exact ⟨htdesc.trans (congrArg (TelegramMemory.desc · k) hmem), htwords.trans (congrArg (TelegramMemory.words · k) hmem)⟩
  obtain ⟨ms, hqueue⟩ := htold.queue
  refine ⟨repliedWith_congr (hdesc d hd).1 (hdesc d hd).2 h.telegram, fun k hk hkd => ?_, ns, ms, ?_⟩
  · obtain ⟨hvdesc, hvwords⟩ := h.carries.kept k hk hkd
    exact ⟨(hdesc k hk).1.trans hvdesc, (hdesc k hk).2.trans hvwords⟩
  · rw [hqueue, hegress, State.joinEgress_egress, h.carries.queue]

end

/-! ## The last expiry (R94) -/

/-- Settles O36. -/
theorem lastWindowExpiryFailsTheTransaction : Obligations.LastWindowExpiryFailsTheTransaction := by
  intro s g x ⟨hrun, hslot, hd, hdest, hseq, hstamp⟩ himages hstate htx htries
  have hcanonical := (Invariants.canonical_iff s).1 hrun.2.2
  have himage := inImage_length_le himages (Table.wf_rising hcanonical.inImages) (s.desc x.desc).dest.toNat
  have hcounters := Table.wf_rising hcanonical.counters
  obtain ⟨ns, hsub⟩ := substitute_after hrun.2.1 hd hstamp himage g { s.seg g with slot := .empty, timer := none, state := .idle }
    (f := fun m => { m.clearPoint with retried := m.retried || x.retried }) rfl
  generalize hu : State.substitute _ x.desc = u at hsub
  have hcarries := hsub.replies.carries
  obtain ⟨w, hw⟩ : ∃ w, w = (u.joinEgress x.desc).countStation x.station.toNat StationCounters.bumpFailures := ⟨_, rfl⟩
  have hexec : exec (.replyWindowExpiry g) s =
      .next (w.failure x.station.toNat ((s.bank x.bank).entry x.station.toNat).downThreshold) := by
    rw [exec_replyWindowExpiry hrun.1, windowExpiry_of_last hslot hstate htx htries, hw, ← hu]
    rfl
  have hmem : w.mem = (u.joinEgress x.desc).mem := hw ▸ rfl
  have hruntime : w.runtime = s.runtime := by rw [hw, State.countStation_runtime, State.joinEgress_runtime, hcarries.runtime]
  have htold := failure_told (s := w) (by rw [hruntime]; exact Table.wf_rising hcanonical.runtime)
    (by rw [hmem, State.joinEgress_mem]; exact hcarries.law) x.station.toNat
    ((s.bank x.bank).entry x.station.toNat).downThreshold
  have hstation : ∀ k, w.station k = s.station k := fun k => by rw [State.station, hruntime]; rfl
  have hcounts : ∀ k, w.stationCounters k = if k = x.station.toNat then (u.stationCounters k).bumpFailures
      else u.stationCounters k := fun k => by
    refine (congrArg (State.stationCounters · k) hw).trans ((stationCounters_countStation ?_ _ k _).trans ?_)
    · rw [State.joinEgress_counters]
      exact hsub.counters_rising hcanonical.counters
    · by_cases hk : k = x.station.toNat
      · rw [if_pos hk, if_pos hk, hk, State.stationCounters, State.joinEgress_counters]
        rfl
      · rw [if_neg hk, if_neg hk, State.stationCounters, State.joinEgress_counters]
        rfl
  obtain ⟨hreplied, hkept, hqueue⟩ := replied_then_told hsub.replies hd hmem (by rw [hw]; rfl) htold
  have husub := hsub.stationCounters (Table.wf_rising hcanonical.counters)
  generalize ht : w.failure _ _ = t at hexec htold hreplied hkept hqueue
  rw [hdest] at hreplied husub
  have hcounters : ∀ k, t.stationCounters k = w.stationCounters k := fun k => by
    rw [← ht, State.stationCounters, State.failure_counters]
    rfl
  refine ⟨t, hexec, hreplied, hkept, hqueue, ?_, fun j hj => ?_, fun k => ?_, ?_, fun k hk => ⟨?_, ?_⟩, ?_, ?_, ?_⟩
  · rw [← ht, hw, ← hu]
    simp
  · rw [← ht, hw, ← hu]
    simp [hj]
  · rw [← hsub.bank, ← ht, hw]
    simp
  · rw [htold.station, hstation]
    rfl
  · rw [htold.others k hk, hstation]
  · rw [hcounters, hcounts, if_neg hk, husub, if_neg fun hboth => hk hboth.1]
  · rw [hcounters, hcounts, if_pos rfl, husub]
    simp only [true_and]
  · rw [← ht, hw, ← hu]
    simp
  · rw [← ht, hw, ← hu]
    simp

end Sys2Proof.Proofs.TransactionEnds
end

section
/-! PROOFS. The matched reply (O37), and the matched reply that finds too few blocks (O38). -/

namespace Sys2Proof.Proofs.MatchedReplies

open Sys2Proof Sys2Proof.Machine Sys2Proof.Proofs.Commands Sys2Proof.Proofs.Intake Sys2Proof.Proofs.Reception
  Sys2Proof.Proofs.MemoryAndRuns Sys2Proof.Proofs.Answers Sys2Proof.Proofs.Carriage Sys2Proof.Proofs.TakesAndTries
  Sys2Proof.Proofs.TransactionEnds

theorem sameTraffic_countPort (s : State) (p : Port) (c : PortCounter) : SameTraffic s (s.countPort p c) := by
  cases p <;> exact ⟨rfl, rfl, rfl, rfl, rfl⟩

theorem countStation_counters_congr {s t : State} (h : t.counters = s.counters) (n : Nat)
    (f : StationCounters → StationCounters) : (t.countStation n f).counters = (s.countStation n f).counters := by
  rw [State.countStation, State.countStation, State.stationCounters, State.stationCounters, h]
  rfl

/-! ## Arrival (R95, R96) -/

section

variable {s : State} {g : Segment} {q : Port} {x : Transaction} {t : Telegram}

theorem exec_reply (hheld : s.resetHeld = false) (hrx : (s.port (dropPort g)).rx = .hunt) (hkind : t.kind = .reply)
    (hdest : t.dest = 0) (hlow : 1 ≤ t.src.toNat) (hhigh : t.src.toNat ≤ 61) (hlen : t.words.length ≤ 32)
    (hmatch : Matches s g x t.src t.seq) : exec (.receiveTelegram (dropPort g) (lineSerial q t)) s =
      .next ((s.countPort (dropPort g) .rxGood).matchReply g x t.words) := by
  rw [exec_receiveTelegram_lineSerial hheld (dropPort g) q hrx hlen, arrive_dropPort]
  exact congrArg _ (arriveDrop_of_match (a := arrivalOf t) hkind hdest ⟨hlow, hhigh⟩ hmatch)

/-- The segment lets the transaction go, and the marks of its poll become the reply's. -/
def letGo (s : State) (g : Segment) (x : Transaction) : State :=
  (s.setSeg g (s.seg g).matched).transactionMarks x.desc x.retried

theorem matchReply_of_blocks {ws : List Word} (h : ((letGo s g x).replaceChain x.desc ws).1 = true) :
    s.matchReply g x ws = (((letGo s g x).replaceChain x.desc ws).2.buildOk x).success x.station.toNat := by
  have hpair : (letGo s g x).replaceChain x.desc ws = (true, ((letGo s g x).replaceChain x.desc ws).2) := Prod.ext h rfl
  rw [letGo] at hpair
  simp only [State.matchReply]
  rw [hpair]
  rfl

theorem matchReply_of_no_blocks {ws : List Word} (h : ((letGo s g x).replaceChain x.desc ws).1 = false) :
    s.matchReply g x ws = ((((letGo s g x).replaceChain x.desc ws).2.buildReply x.desc .overrun).joinEgress
      x.desc).success x.station.toNat := by
  have hpair : (letGo s g x).replaceChain x.desc ws = (false, ((letGo s g x).replaceChain x.desc ws).2) :=
    Prod.ext h rfl
  rw [letGo] at hpair
  simp only [State.matchReply]
  rw [hpair]
  rfl

theorem letGo_desc (s : State) (g : Segment) (x : Transaction) : (letGo s g x).desc x.desc =
    { s.desc x.desc with marks := ⟨false, false, false, (s.desc x.desc).marks.retried || x.retried⟩ } := by
  refine (State.modDesc_spec (s.setSeg g (s.seg g).matched) x.desc
    (fun y => { y with marks := { y.marks.clearPoint with retried := y.marks.retried || x.retried } })
    fun _ => ⟨rfl, rfl⟩).1.trans ?_
  rw [(sameTraffic_setSeg s g (s.seg g).matched).desc]
  rfl

theorem letGo_carries (hm : MemoryLaw s.mem) (hd : x.desc ∈ s.mem.inUse) :
    Carries s (letGo s g x) [x.desc] [] := by
  have htraffic := sameTraffic_setSeg s g (s.seg g).matched
  have hset : Carries s (s.setSeg g (s.seg g).matched) [x.desc] [] :=
    Carries.sameTraffic hm htraffic (setSeg_rx s g (s.seg g).matched)
  exact hset.trans (Carries.modDesc (s := s.setSeg g (s.seg g).matched) hset.law ((hset.inUse _).2 (.inr hd))
    (f := fun y => { y with marks := { y.marks.clearPoint with retried := y.marks.retried || x.retried } })
    fun _ => ⟨rfl, rfl⟩) (by simpa using hd)

end

/-! ## The inbound run and the capture (R96, R132) -/

section

variable {s : State} {g : Segment} {x : Transaction} {ws : List Word}

/-- The poll's descriptor with the matched reply's words, ahead of the run. -/
def refilled (s : State) (g : Segment) (x : Transaction) (ws : List Word) : State :=
  ((letGo s g x).replaceChain x.desc ws).2

/-- The reply as the run leaves it, captured as the station's inbound image. -/
def captured (s : State) (g : Segment) (x : Transaction) (ws : List Word) : State :=
  ((refilled s g x ws).applyInbound x.desc x.station.toNat x.bank).captureIn x.station.toNat x.desc

theorem refilled_bank (k : BankId) : (refilled s g x ws).bank k = s.bank k := by
  simp [refilled, letGo]

theorem refilled_inImages : (refilled s g x ws).inImages = s.inImages := by
  simp [refilled, letGo]

theorem refilled_counters : (refilled s g x ws).counters = s.counters := by
  simp [refilled, letGo]

theorem applyInbound_refilled (hwords : (refilled s g x ws).words x.desc = ws) :
    (refilled s g x ws).applyInbound x.desc x.station.toNat x.bank =
      (refilled s g x ws).putApplied x.desc x.station.toNat (runOf s x.station.toNat x.bank true ws) := by
  unfold State.applyInbound runOf State.inImage
  rw [hwords, refilled_bank, refilled_inImages]
  rfl

/-- The reply that ends transaction `x` of segment `g`, up to its header. -/
structure Captures (s t : State) (x : Transaction) (r : Applied) (ns : List Nat) : Prop where
  carries : Carries s t [x.desc] ns
  desc : ∃ count chain, t.desc x.desc = { s.desc x.desc with
    marks := r.marks ((s.desc x.desc).marks.retried || x.retried), count := count, chain := chain }
  words : t.words x.desc = r.words
  two : ns.length ≤ 2
  inImages : t.inImages =
    Table.set ImageRecord.default s.inImages x.station.toNat ⟨true, r.words, s.cycle.number, r.faulted⟩
  counters : t.counters = (s.countStation x.station.toNat fun c => c.addPoints r.faults r.limits r.skips).counters

theorem captured_captures (hm : MemoryLaw s.mem) (hd : x.desc ∈ s.mem.inUse) (hlen : ws.length ≤ 32) :
    ((letGo s g x).replaceChain x.desc ws).1 = true ∧
    ∃ ns, Captures s (captured s g x ws) x (runOf s x.station.toNat x.bank true ws) ns := by
  obtain ⟨r, hr⟩ : ∃ r, r = runOf s x.station.toNat x.bank true ws := ⟨_, rfl⟩
  have hgone := letGo_carries (g := g) hm hd
  have hdgone : x.desc ∈ (letGo s g x).mem.inUse := (hgone.inUse _).2 (.inr hd)
  obtain ⟨hok, ns, hrewrites⟩ := replaceChain_rewrites (s := letGo s g x) hgone.law hdgone hlen
  refine ⟨hok, ns, ?_⟩
  have hrewrites : Rewrites (letGo s g x) (refilled s g x ws) x.desc ws ns := hrewrites
  have hdv : x.desc ∈ (refilled s g x ws).mem.inUse := (hrewrites.carries.inUse _).2 (.inr hdgone)
  have hrlen : r.words.length = ((refilled s g x ws).desc x.desc).count := by
    refine Eq.trans ?_ (hrewrites.carries.law.words_length hdv)
    refine Eq.trans ?_ (congrArg List.length hrewrites.words).symm
    rw [hr]
    exact applyRun_length _ _ ws
  obtain ⟨hput, hdesc, hwords⟩ := putApplied_spec hrewrites.carries.law hdv x.station.toNat hrlen
  have hcaptured : captured s g x ws =
      ((refilled s g x ws).putApplied x.desc x.station.toNat r).captureIn x.station.toNat x.desc := by
    rw [captured, applyInbound_refilled hrewrites.words, hr]
  have hcarries := (hgone.trans (hrewrites.carries.trans hput (by simpa using hdgone)) (by simpa using hd))
  rw [List.append_nil, List.nil_append] at hcarries
  have hcounters : ((refilled s g x ws).putApplied x.desc x.station.toNat r).counters =
      (s.countStation x.station.toNat fun c => c.addPoints r.faults r.limits r.skips).counters := by
    unfold State.putApplied
    exact countStation_counters_congr (by simp [refilled_counters]) _ _
  have hcycle : ((refilled s g x ws).putApplied x.desc x.station.toNat r).cycle = s.cycle := by
    simp [refilled, letGo]
  have hinImages : ((refilled s g x ws).putApplied x.desc x.station.toNat r).inImages = s.inImages :=
    (State.putApplied_inImages _ _ _ _).trans refilled_inImages
  rw [hcaptured, ← hr]
  obtain ⟨count, chain, hcount⟩ := hrewrites.desc
  rw [hcount, letGo_desc] at hdesc
  generalize (refilled s g x ws).putApplied x.desc x.station.toNat r = v at *
  have htraffic : SameTraffic v (v.captureIn x.station.toNat x.desc) := ⟨rfl, rfl, rfl, rfl, rfl⟩
  have hmarks : (v.desc x.desc).marks.faulted = r.faulted := by
    rw [hdesc]
    exact Bool.false_or _
  refine ⟨?_, ⟨count, chain, ?_⟩, hwords, hrewrites.two, ?_, hcounters⟩
  · have h := hcarries.trans (Carries.sameTraffic hcarries.law htraffic rfl) (by simpa using hd)
    rwa [List.append_nil] at h
  · refine (htraffic.desc _).trans (hdesc.trans ?_)
    simp [Marks.add, Applied.marks]
  · change Table.set ImageRecord.default v.inImages x.station.toNat (v.imageOf x.desc) = _
    rw [State.imageOf, hwords, hcycle, hinImages, hmarks]

end

/-! ## The reply is built OK (R96) -/

section

variable {s : State} {g : Segment} {x : Transaction} {ws : List Word}

/-- The part when the OK reply has joined trunk egress and REPLIES_OK is counted. -/
def repliedOk (s : State) (g : Segment) (x : Transaction) (ws : List Word) : State :=
  (((captured s g x ws).buildReply x.desc .ok).joinEgress x.desc).countStation x.station.toNat
    StationCounters.bumpRepliesOk

theorem repliedOk_seg_same : (repliedOk s g x ws).seg g = (s.seg g).matched := by
  simp [repliedOk, captured, refilled, letGo]

theorem repliedOk_seg_other {j : Segment} (hj : j ≠ g) : (repliedOk s g x ws).seg j = s.seg j := by
  simp [repliedOk, captured, refilled, letGo, hj]

theorem repliedOk_outImages : (repliedOk s g x ws).outImages = s.outImages := by
  simp [repliedOk, captured, refilled, letGo]

variable (hm : MemoryLaw s.mem) (hd : x.desc ∈ s.mem.inUse) (hlen : ws.length ≤ 32)
include hm hd hlen

theorem matchReply_eq_success : s.matchReply g x ws = (repliedOk s g x ws).success x.station.toNat := by
  obtain ⟨hok, -⟩ := captured_captures (g := g) hm hd hlen
  exact matchReply_of_blocks hok

theorem captured_replies : ∃ ns, Replies s ((captured s g x ws).buildReply x.desc .ok) x.desc .ok
    ((runOf s x.station.toNat x.bank true ws).marks ((s.desc x.desc).marks.retried || x.retried))
    (runOf s x.station.toNat x.bank true ws).words ns := by
  obtain ⟨-, ns, hcap⟩ := captured_captures (g := g) hm hd hlen
  have h := replies_of_carries hd hcap.carries hcap.desc hcap.two .ok
  rw [hcap.words] at h
  exact ⟨ns, h⟩

theorem repliedOk_bank (hstamp : (s.desc x.desc).stamp = some x.bank) (k : BankId) :
    (repliedOk s g x ws).bank k = afterRelease s x.bank k := by
  obtain ⟨-, ns, hcap⟩ := captured_captures (g := g) hm hd hlen
  obtain ⟨count, chain, hdesc⟩ := hcap.desc
  rw [repliedOk, State.countStation_bank, State.joinEgress_bank, buildReply_bank _ (by rw [hdesc]; exact hstamp)]
  exact afterRelease_congr (fun k => by simp [captured, refilled_bank]) x.bank k

theorem repliedOk_inImages : (repliedOk s g x ws).inImages = Table.set ImageRecord.default s.inImages x.station.toNat
    ⟨true, (runOf s x.station.toNat x.bank true ws).words, s.cycle.number,
      (runOf s x.station.toNat x.bank true ws).faulted⟩ := by
  obtain ⟨-, ns, hcap⟩ := captured_captures (g := g) hm hd hlen
  rw [repliedOk, State.countStation_inImages, State.joinEgress_inImages, State.buildReply_inImages, hcap.inImages]

theorem repliedOk_counters (hwf : Table.wf StationCounters.zero s.counters.stations = true) :
    (repliedOk s g x ws).counters = (s.countStation x.station.toNat fun c =>
      (c.addPoints (runOf s x.station.toNat x.bank true ws).faults (runOf s x.station.toNat x.bank true ws).limits
        (runOf s x.station.toNat x.bank true ws).skips).bumpRepliesOk).counters := by
  obtain ⟨-, ns, hcap⟩ := captured_captures (g := g) hm hd hlen
  rw [repliedOk, ← countStation_countStation hwf]
  refine countStation_counters_congr ?_ _ _
  rw [State.joinEgress_counters, State.buildReply_counters, hcap.counters]

end

theorem runOf_congr {s t : State} (hbank : ∀ k, t.bank k = s.bank k) (hin : t.inImages = s.inImages) (n : Nat)
    (b : BankId) (ws : List Word) : runOf t n b true ws = runOf s n b true ws := by
  unfold runOf State.inImage
  rw [hbank, hin]
  rfl

/-- Settles O37. -/
theorem matchedReplyIsBuiltOk : Obligations.MatchedReplyIsBuiltOk := by
  intro s g q x t hheldx hrx hkind htdest hlow hhigh hlen hmatch
  obtain ⟨hrun, -, hd, hdest, hseq, hstamp⟩ := hheldx
  have hcanonical := (Invariants.canonical_iff s).1 hrun.2.2
  obtain ⟨y, hy⟩ : ∃ y, y = s.countPort (dropPort g) .rxGood := ⟨_, rfl⟩
  have htraffic : SameTraffic s y := hy ▸ sameTraffic_countPort s _ _
  have hybank : ∀ k, y.bank k = s.bank k := fun k => by rw [hy]; simp
  have hyin : y.inImages = s.inImages := by rw [hy]; simp
  have hystations : y.counters.stations = s.counters.stations := by rw [hy]; cases g <;> rfl
  have hwf : Table.wf StationCounters.zero y.counters.stations = true := hystations ▸ hcanonical.counters
  have hm : MemoryLaw y.mem := htraffic.mem ▸ hrun.2.1
  have hdy : x.desc ∈ y.mem.inUse := htraffic.mem ▸ hd
  obtain ⟨w, hw⟩ : ∃ w, w = repliedOk y g x t.words := ⟨_, rfl⟩
  have hexec : exec (.receiveTelegram (dropPort g) (lineSerial q t)) s = .next (w.success x.station.toNat) := by
    rw [exec_reply hrun.1 hrx hkind htdest hlow hhigh hlen hmatch, ← hy, matchReply_eq_success hm hdy hlen, hw]
  obtain ⟨ns, hreplies⟩ := captured_replies (g := g) hm hdy hlen
  have hinImages := repliedOk_inImages (g := g) hm hdy hlen
  have hcounters := repliedOk_counters (g := g) hm hdy hlen hwf
  rw [runOf_congr hybank hyin] at hreplies hinImages hcounters
  rw [htraffic.desc] at hreplies
  have hreplies := Replies.after (Carries.sameTraffic (ds := [x.desc]) hrun.2.1 htraffic (by rw [hy]; cases g <;> rfl)) hd
    ⟨(s.desc x.desc).marks, htraffic.desc x.desc⟩ hreplies
  have hmem : w.mem = (((captured y g x t.words).buildReply x.desc .ok).joinEgress x.desc).mem := by
    rw [hw, repliedOk, State.countStation_mem]
  have hegress : w.egress = (((captured y g x t.words).buildReply x.desc .ok).joinEgress x.desc).egress := by
    rw [hw, repliedOk, State.countStation_egress]
  have hruntime : w.runtime = s.runtime := by
    rw [hw, repliedOk, State.countStation_runtime, State.joinEgress_runtime, hreplies.carries.runtime]
  have htold := success_told (s := w) (by rw [hruntime]; exact Table.wf_rising hcanonical.runtime)
    (by rw [hmem, State.joinEgress_mem]; exact hreplies.carries.law) x.station.toNat
  have hstation : ∀ k, w.station k = s.station k := fun k => by rw [State.station, hruntime]; rfl
  obtain ⟨hreplied, hkept, hqueue⟩ := replied_then_told hreplies hd hmem hegress htold
  rw [← hw, ← State.success_counters w x.station.toNat] at hcounters
  rw [← hw, ← State.success_inImages w x.station.toNat, hyin, show y.cycle = s.cycle by rw [hy]; simp] at hinImages
  have himage : ∀ k, (w.success x.station.toNat).inImage k = if k = x.station.toNat then _ else s.inImage k := fun k =>
    (congrArg (Table.get ImageRecord.default · k) hinImages).trans
      (Table.get_set (dflt := ImageRecord.default) (Table.wf_rising hcanonical.inImages) _ k _)
  have hcounts : ∀ f, (w.success x.station.toNat).counters = (y.countStation x.station.toNat f).counters →
      ∀ k, (w.success x.station.toNat).stationCounters k = if k = x.station.toNat
        then f (s.stationCounters x.station.toNat) else s.stationCounters k := fun f hf k => by
    have hycounts : ∀ k, y.stationCounters k = s.stationCounters k := fun k =>
      congrArg (Table.get StationCounters.zero · k) hystations
    rw [State.stationCounters, hf, ← hycounts, ← hycounts]
    exact stationCounters_countStation (Table.wf_rising hwf) _ k f
  refine ⟨_, hexec, hreplied, hkept, hqueue, (himage _).trans (if_pos rfl), fun k hk => (himage k).trans (if_neg hk),
    ?_, ?_, fun j hj => ?_, fun k => ?_, htold.station.trans ?_, fun k hk => (htold.others k hk).trans (hstation k),
    (hcounts _ hcounters _).trans (if_pos rfl), fun k hk => (hcounts _ hcounters k).trans (if_neg hk), ?_⟩
  · rw [State.success_outImages, hw, repliedOk_outImages, hy]
    simp
  · rw [State.success_seg, hw, repliedOk_seg_same, hy, State.countPort_seg]
    rfl
  · rw [State.success_seg, hw, repliedOk_seg_other hj, hy, State.countPort_seg]
  · rw [State.success_bank, hw, repliedOk_bank hm hdy hlen (by rw [htraffic.desc]; exact hstamp)]
    exact afterRelease_congr hybank x.bank k
  · rw [hstation]
  · rw [hcounters, ← hy, ← hystations]
    rfl

/-! ## Too few blocks (R97) -/

theorem replaceChain_of_short {m : TelegramMemory} {d : Nat} {ws : List Word}
    (h : m.freeBlocks.length + (m.desc d).chain.length < blocksFor ws.length) :
    m.replaceChain d ws = (false, m.emptyChain d) := by
  have hne : ws ≠ [] := by
    rintro rfl
    exact absurd h (Nat.not_lt_zero _)
  have hrefused : ¬ (m.emptyChain d).admits .part 0 (blocksFor ws.length) = true := fun hadmits => by
    have hfound : blocksFor ws.length ≤ (m.freeBlocks ++ (m.desc d).chain).length := ((admits_part_iff _ _ _).1 hadmits).2
    rw [List.length_append] at hfound
    omega
  simp only [TelegramMemory.replaceChain, if_neg hne, if_neg hrefused]

/-- A telegram joins trunk egress, whatever has been done to memory. -/
theorem joinEgress_joins {s t u : State} {d : Nat} (hegress : t.egress = s.egress)
    (htx : t.portT.tx = s.portT.tx) (hmem : u.mem = t.mem) (hjoined : u.egress = (t.joinEgress d).egress)
    (hpending : u.notices = s.notices) (htxu : u.portT.tx = (t.joinEgress d).portT.tx) : JoinsEgress s u [] [d] := by
  obtain ⟨hhanded, hstays, hhead⟩ := State.joinEgress_hands t d
  have htel : ∀ k, u.telegram k = (t.joinEgress d).telegram k :=
    State.telegram_congr (hmem.trans (State.joinEgress_mem t d).symm)
  rw [hegress, htx] at hstays hhead
  rw [hegress] at hhanded
  unfold JoinsEgress HandsTheHead
  rw [hjoined, hpending, htxu, State.joinEgress_egress, hegress]
  rw [State.joinEgress_egress] at hhanded
  refine ⟨by simp, Nat.zero_le _, Nat.zero_le _, rfl, (BitVec.add_zero _).symm, rfl, rfl, fun _ hk => absurd hk
    List.not_mem_nil, by simp, hstays, fun k hk hno hempty => ?_⟩
  rw [htel]
  exact hhead k hk hno hempty

section

variable {s : State} {g : Segment} {x : Transaction} {ws : List Word}

/-- The poll's chain given back, with nothing pending that could be emitted. -/
def unfilled (s : State) (g : Segment) (x : Transaction) : State :=
  (letGo s g x).setMem ((letGo s g x).mem.emptyChain x.desc)

variable (hshort : s.mem.freeBlocks.length + (s.desc x.desc).chain.length < (ws.length + 7) / 8)
  (hpending : s.notices.pendingSet = [])
include hshort hpending

theorem replaceChain_unfilled : (letGo s g x).replaceChain x.desc ws = (false, unfilled s g x) := by
  have hfree : (letGo s g x).mem.freeBlocks = s.mem.freeBlocks := by
    cases g <;> rfl
  have hchain : ((letGo s g x).mem.desc x.desc).chain = (s.desc x.desc).chain := by
    have hdesc := congrArg Descriptor.chain (letGo_desc s g x)
    exact hdesc
  have hnone : ((letGo s g x).setMem ((letGo s g x).mem.emptyChain x.desc)).notices.pendingSet = [] := by
    rw [State.setMem_notices, letGo, State.transactionMarks_notices, State.setSeg_notices, hpending]
  unfold State.replaceChain
  rw [replaceChain_of_short (by rwa [hfree, hchain, blocksFor_eq]), State.emissionAttempt_of_empty hnone]
  rfl

theorem matchReply_unfilled : s.matchReply g x ws =
    (((unfilled s g x).buildReply x.desc .overrun).joinEgress x.desc).success x.station.toNat := by
  have hreplaced := replaceChain_unfilled (g := g) hshort hpending
  rw [matchReply_of_no_blocks (by rw [hreplaced]), hreplaced]

end

theorem unfilled_desc (s : State) (g : Segment) (x : Transaction) : (unfilled s g x).desc x.desc =
    { s.desc x.desc with marks := ⟨false, false, false, (s.desc x.desc).marks.retried || x.retried⟩, count := 0,
                         chain := [] } := by
  refine (TelegramMemory.desc_setDesc_same _ _ _).trans ?_
  change ({ (letGo s g x).desc x.desc with count := 0, chain := [] } : Descriptor) = _
  rw [letGo_desc]

theorem unfilled_words (s : State) (g : Segment) (x : Transaction) : (unfilled s g x).words x.desc = [] := by
  have hdesc : (unfilled s g x).mem.desc x.desc = _ := unfilled_desc s g x
  unfold State.words TelegramMemory.words
  rw [hdesc]
  rfl

/-- Settles O38. -/
theorem matchedReplyWithoutBlocksIsOverrun : Obligations.MatchedReplyWithoutBlocksIsOverrun := by
  intro s g q x t hheld hcanonical hpending hrx hkind hdest hlow hhigh hlen hmatch _ hstation hstamp hup hshort
  have hcanonical := (Invariants.canonical_iff s).1 hcanonical
  obtain ⟨y, hy⟩ : ∃ y, y = s.countPort (dropPort g) .rxGood := ⟨_, rfl⟩
  have htraffic : SameTraffic s y := hy ▸ sameTraffic_countPort s _ _
  obtain ⟨v, hv⟩ : ∃ v, v = unfilled y g x := ⟨_, rfl⟩
  have hvdesc := unfilled_desc y g x
  have hvwords := unfilled_words y g x
  rw [← hv] at hvdesc hvwords
  rw [htraffic.desc] at hvdesc
  obtain ⟨hzdesc, hzwords⟩ := buildReply_desc v x.desc .overrun
  rw [hvdesc] at hzdesc
  rw [hvwords] at hzwords
  obtain ⟨z, hz⟩ : ∃ z, z = v.buildReply x.desc .overrun := ⟨_, rfl⟩
  rw [← hz] at hzdesc hzwords
  have hruntime : z.runtime = s.runtime := by rw [hz, hv, hy]; simp [unfilled, letGo]
  have hstations : ∀ k, (z.joinEgress x.desc).station k = s.station k := fun k => by
    rw [State.station, State.joinEgress_runtime, hruntime]
    rfl
  have hsuccess : (z.joinEgress x.desc).success x.station.toNat = (z.joinEgress x.desc).setStation x.station.toNat
      { s.station x.station.toNat with health := .up, failCount := 0 } := by
    rw [← hstations]
    exact if_neg (by rw [hstations]; exact hup)
  refine ⟨_, exec_reply hheld hrx hkind hdest hlow hhigh hlen hmatch, ?_⟩
  rw [← hy, matchReply_unfilled (by rw [htraffic.mem, htraffic.desc]; exact hshort) (by rw [htraffic.notices, hpending]), ← hv,
    ← hz, hsuccess]
  refine ⟨?_, joinEgress_joins (t := z) ?_ ?_ ?_ rfl ?_ rfl, ?_, ?_, fun k => ?_, ?_, fun k hk => ?_, ?_⟩
  · have hreplied : RepliedWith s z x.desc .overrun
        ⟨false, false, false, (s.desc x.desc).marks.retried || x.retried⟩ [] := by
      unfold RepliedWith State.telegram
      rw [hzdesc, hzwords]
      exact ⟨rfl, rfl⟩
    have hmem := State.joinEgress_mem z x.desc
    exact repliedWith_congr (congrArg (TelegramMemory.desc · x.desc) hmem) (congrArg (TelegramMemory.words · x.desc) hmem)
      hreplied
  · rw [hz, hv, hy]
    simp [unfilled, letGo]
  · have hport : z.portT = v.portT := hz ▸ State.buildReply_port v x.desc .overrun .t
    rw [hport, hv, hy]
    cases g <;> rfl
  · exact State.joinEgress_mem z x.desc
  · rw [State.setStation, State.setRuntime_notices, State.joinEgress_notices, hz, hv, hy]
    simp [unfilled, letGo]
  · rw [State.setStation, State.setRuntime_inImages, State.joinEgress_inImages, hz, hv, hy]
    simp [unfilled, letGo]
  · rw [State.setStation, State.setRuntime_outImages, State.joinEgress_outImages, hz, hv, hy]
    simp [unfilled, letGo]
  · rw [State.setStation, State.setRuntime_bank, State.joinEgress_bank, hz,
      buildReply_bank v (by rw [hvdesc]; exact hstamp), hv, hy]
    exact afterRelease_congr (fun k => by simp [unfilled, letGo]) x.bank k
  · refine (station_setStation ?_ _ _ _).trans (if_pos rfl)
    rw [State.joinEgress_runtime, hruntime]
    exact Table.wf_rising hcanonical.runtime
  · refine (station_setStation ?_ _ _ _).trans ((if_neg hk).trans (hstations k))
    rw [State.joinEgress_runtime, hruntime]
    exact Table.wf_rising hcanonical.runtime
  · rw [State.setStation, State.setRuntime_counters, State.joinEgress_counters, hz, hv, hy]
    simp [unfilled, letGo]

end Sys2Proof.Proofs.MatchedReplies
end

section
/-! PROOFS. What arrives and takes memory: the request that is admitted (O50) or answered from the cache (O51), and the poll
answered at its admission (O28). -/

namespace Sys2Proof.Proofs.Admissions

open Sys2Proof Sys2Proof.Machine Sys2Proof.Proofs.Commands Sys2Proof.Proofs.Intake Sys2Proof.Proofs.Reception
  Sys2Proof.Proofs.StationAnswers Sys2Proof.Proofs.MemoryAndRuns Sys2Proof.Proofs.Answers Sys2Proof.Proofs.Carriage
  Sys2Proof.Proofs.MatchedReplies

/-! ## Memory taken for an arrival (R24, R25) -/

section

variable {s t u : State} {d : Nat} {h : Header} {ws : List Word}

theorem allocate_of_room (hroom : HasRoom s ws.length) (hd : s.mem.freeDescs.head? = some d) (h : Header) :
    ∃ m, s.mem.allocate .traffic h ws = some (d, m) := by
  obtain ⟨⟨k, m⟩, hk⟩ := Option.isSome_iff_exists.1 ((allocate_traffic_isSome_iff s.mem h ws).2 hroom)
  obtain ⟨hhead, -⟩ := TelegramMemory.allocate_eq_some.1 hk
  cases hhead.symm.trans hd
  exact ⟨m, hk⟩

theorem allocate_of_no_room (hroom : ¬HasRoom s ws.length) (h : Header) : s.mem.allocate .traffic h ws = none :=
  Option.not_isSome_iff_eq_none.1 fun hsome => hroom ((allocate_traffic_isSome_iff s.mem h ws).1 hsome)

/-- From `s` to `u` the descriptor `d` is taken for a telegram with header `h` and data words `ws`, and held `n` times. -/
structure Takes (s u : State) (d : Nat) (h : Header) (ws : List Word) (n : Nat) : Prop where
  law : MemoryLaw u.mem
  desc : ∃ chain, u.desc d = { h.descriptor ws.length chain with holders := n }
  chain : (u.desc d).chain = s.mem.freeBlocks.take ((ws.length + 7) / 8)
  words : u.words d = ws
  new : d ∉ s.mem.inUse
  kept : OthersKept s u []
  inUse : ∀ k, k ∈ u.mem.inUse ↔ k = d ∨ k ∈ s.mem.inUse
  freeDescs : u.mem.freeDescs = s.mem.freeDescs.drop 1
  freeBlocks : u.mem.freeBlocks = s.mem.freeBlocks.drop ((ws.length + 7) / 8)
  minDescs : u.mem.minDescs = min s.mem.minDescs u.mem.freeDescs.length
  minBlocks : u.mem.minBlocks = min s.mem.minBlocks u.mem.freeBlocks.length

theorem takes_of_allocate (hm : MemoryLaw s.mem) (hlen : ws.length ≤ 32) {cls : AllocClass} {m : TelegramMemory}
    (ha : s.mem.allocate cls h ws = some (d, m)) : Takes s (s.setMem m) d h ws 0 := by
  obtain ⟨hdesc, hwords, hother, hkept, hnew, hinUse, -⟩ := TelegramMemory.allocate_spec hm ha
  obtain ⟨hfreeD, hfreeB, hminD, hminB⟩ := allocate_free ha
  have hchain : ((s.setMem m).desc d).chain = s.mem.freeBlocks.take ((ws.length + 7) / 8) :=
    (congrArg Descriptor.chain hdesc).trans (by rw [blocksFor_eq]; rfl)
  exact ⟨hm.allocate hlen ha, ⟨_, hdesc⟩, hchain, hwords, hnew,
    fun k hk _ => ⟨hother k fun hkd => hnew (hkd ▸ hk), hkept k hk⟩, hinUse, hfreeD, hfreeB, hminD, hminB⟩

/-- A holder takes its reference to the telegram. -/
theorem Takes.hold {n : Nat} (htakes : Takes s u d h ws n) : Takes s (u.hold d) d h ws (n + 1) := by
  have hd : d ∈ u.mem.inUse := (htakes.inUse d).2 (.inl rfl)
  have hf : ∀ x : Descriptor, ({ x with holders := x.holders + 1 } : Descriptor).count = x.count ∧
      ({ x with holders := x.holders + 1 } : Descriptor).chain = x.chain := fun _ => ⟨rfl, rfl⟩
  obtain ⟨hself, hother, hwords⟩ := State.modDesc_spec u d (fun x => { x with holders := x.holders + 1 }) hf
  obtain ⟨hlaw, hinUse⟩ := State.modDesc_law htakes.law hd (fun x => { x with holders := x.holders + 1 }) hf
  obtain ⟨chain, hdesc⟩ := htakes.desc
  refine ⟨hlaw, ⟨chain, hself.trans (by rw [hdesc])⟩, (congrArg Descriptor.chain hself).trans htakes.chain, (hwords d).trans htakes.words, htakes.new, fun k hk hkd => ?_,
    fun k => (hinUse k).trans (htakes.inUse k), htakes.freeDescs, htakes.freeBlocks, htakes.minDescs, htakes.minBlocks⟩
  obtain ⟨hkdesc, hkwords⟩ := htakes.kept k hk hkd
  exact ⟨(hother k fun he => htakes.new (he ▸ hk)).trans hkdesc, (hwords k).trans hkwords⟩

theorem Takes.from {n : Nat} (hs : SameTraffic s t) (htakes : Takes t u d h ws n) : Takes s u d h ws n := by
  obtain ⟨hlaw, hdesc, hchain, hwords, hnew, hkept, hinUse, hfreeD, hfreeB, hminD, hminB⟩ := htakes
  rw [hs.mem] at hchain hnew hinUse hfreeD hfreeB hminD hminB
  refine ⟨hlaw, hdesc, hchain, hwords, hnew, fun k hk hkd => ?_, hinUse, hfreeD, hfreeB, hminD, hminB⟩
  obtain ⟨hkdesc, hkwords⟩ := hkept k (hs.mem ▸ hk) hkd
  exact ⟨hkdesc.trans (hs.desc k), hkwords.trans (hs.words k)⟩

/-- The work on the telegram taken leaves every telegram of `s` as it was. -/
theorem Takes.kept_after {n : Nat} {ns : List Nat} (htakes : Takes s u d h ws n) (hc : Carries u t [d] ns) :
    OthersKept s t [] := fun k hk hkd => by
  obtain ⟨hdesc, hwords⟩ := htakes.kept k hk hkd
  obtain ⟨hdesc', hwords'⟩ := hc.kept k ((htakes.inUse k).2 (.inr hk)) fun he =>
    htakes.new (List.mem_singleton.1 he ▸ hk)
  exact ⟨hdesc'.trans hdesc, hwords'.trans hwords⟩

theorem Takes.joins {n : Nat} {ns tail : List Nat} (htakes : Takes s u d h ws n) (hegress : u.egress = s.egress)
    (hnotices : u.notices = s.notices) (hruntime : u.runtime = s.runtime) (htx : u.portT.tx = s.portT.tx)
    (hjoins : JoinsEgress u t ns tail) : JoinsEgress s t ns tail :=
  joinsEgress_from hegress hnotices hruntime htx (fun k hk => (htakes.inUse k).2 (.inr hk)) hjoins

end

/-! ## Requests (R161, R164) -/

section

variable {s : State} {a : Arrival}

theorem intake_of_cached {e : CacheEntry} (hnodup : (s.agent.cache.map fun e => e.seq).Nodup) (he : e ∈ s.agent.cache)
    (hseq : e.seq = a.seq) : s.intake a = s.answerFromCache a e := by
  have hfind : s.agent.cache.find? (fun e => e.seq = a.seq) = some e := by
    obtain ⟨f, hf⟩ := Option.isSome_iff_exists.1
      (List.find?_isSome (p := fun e => decide (e.seq = a.seq)) |>.2 ⟨e, he, decide_eq_true hseq⟩)
    have hfseq : f.seq = a.seq := of_decide_eq_true (List.find?_some (p := fun e : CacheEntry => decide (e.seq = a.seq)) hf)
    rw [hf, List.inj_on_of_nodup_map hnodup (List.mem_of_find?_eq_some hf) he (hfseq.trans hseq.symm)]
  simp only [State.intake, hfind]

theorem intake_of_admissible (hcache : ∀ e ∈ s.agent.cache, e.seq ≠ a.seq) (hheld : a.seq ∉ s.heldSeqs)
    (hroom : s.agent.requests.length ≤ 3) : s.intake a = s.admitRequest a := by
  have hnot : ¬ s.heldSeqs.contains a.seq = true := fun h => hheld (List.contains_iff_mem.1 h)
  have hfew : ¬ requestLimit ≤ s.agent.requests.length := by
    unfold requestLimit
    omega
  rw [intake_of_not_cached hcache, if_neg hnot, if_neg hfew]

theorem admitRequest_of_no_room (h : ¬HasRoom s a.words.length) : s.admitRequest a = s.countPort .t .rxNoroom := by
  simp only [State.admitRequest, allocate_of_no_room h]

theorem admitRequest_of_allocate {d : Nat} {m : TelegramMemory}
    (h : s.mem.allocate .traffic a.header a.words = some (d, m)) : s.admitRequest a =
      ((s.setMem m).hold d).setAgent { s.agent with requests := s.agent.requests ++ [d] } := by
  simp only [State.admitRequest, h]
  rfl

theorem answerFromCache_of_no_room (h : ¬HasRoom s a.words.length) (e : CacheEntry) :
    s.answerFromCache a e = s.countPort .t .rxNoroom := by
  simp only [State.answerFromCache, allocate_of_no_room h]

theorem answerFromCache_of_allocate {d : Nat} {m : TelegramMemory}
    (h : s.mem.allocate .traffic a.header a.words = some (d, m)) (e : CacheEntry) :
    s.answerFromCache a e = (((s.setMem m).hold d).buildAnswer d e.status e.words).2 := by
  simp only [State.answerFromCache, h]
  rfl

theorem buildAnswer_of_blocks {d : Nat} {ws : List Word} (h : (s.replaceChain d ws).1 = true) (st : AnswerStatus) :
    (s.buildAnswer d st ws).2 = ((s.replaceChain d ws).2.modDesc d (Descriptor.toAnswer st)).joinEgress d := by
  have hpair : s.replaceChain d ws = (true, (s.replaceChain d ws).2) := Prod.ext h rfl
  rw [State.buildAnswer, hpair]

end

/-- A request taken in, with its header. -/
theorem telegram_of_takes {s u : State} {d : Nat} {t : Telegram} {n : Nat}
    (h : Takes s u d (arrivalOf t).header t.words n) :
    u.telegram d = { dest := t.dest, src := t.src, kind := t.kind, marks := Marks.clear, seq := t.seq, status := 0,
                     words := t.words } ∧ (u.desc d).holders = n ∧ (u.desc d).stamp = none := by
  obtain ⟨chain, hdesc⟩ := h.desc
  unfold State.telegram
  rw [hdesc, h.words]
  exact ⟨rfl, rfl, rfl⟩

/-- Settles O50. -/
theorem intakeAdmitsARequest : Obligations.IntakeAdmitsARequest := by
  intro s q t hears hkind hdest hcache hheld hfew
  obtain ⟨hrun, -, hsrc, hlen⟩ := id hears
  obtain ⟨y, hy⟩ : ∃ y, y = s.countPort .t .rxGood := ⟨_, rfl⟩
  have htraffic : SameTraffic s y := hy ▸ sameTraffic_countPort s _ _
  have hexec : exec (.receiveTelegram .t (lineSerial q t)) s = .next (y.admitRequest (arrivalOf t)) := by
    rw [receiveTelegram_request hears hkind hdest, ← hy, intake_of_admissible]
    · rw [hy]
      exact hcache
    · rw [hy]
      rintro hmem
      obtain ⟨k, hk, hseq⟩ := (mem_heldSeqs_iff _ _).1 hmem
      exact hheld k hk hseq
    · rw [hy]
      exact hfew
  refine ⟨_, hexec, fun hno => ?_, fun d hroom hd => ?_⟩
  · rw [admitRequest_of_no_room (by rwa [HasRoom, htraffic.mem]), hy]
  · obtain ⟨m, ha⟩ := allocate_of_room (s := y) (by rwa [HasRoom, htraffic.mem]) (htraffic.mem ▸ hd) (arrivalOf t).header
    have htakes := Takes.from htraffic (takes_of_allocate (htraffic.mem ▸ hrun.2.1) hlen ha).hold
    obtain ⟨htel, hholders, hstamp⟩ := telegram_of_takes htakes
    rw [hdest, hsrc, hkind] at htel
    rw [admitRequest_of_allocate ha]
    refine ⟨?_, htel, hholders, hstamp, htakes.kept, htakes.freeDescs, htakes.freeBlocks⟩
    rw [hy]
    rfl

/-- Settles O51. -/
theorem cachedAnswersAreRepeated : Obligations.CachedAnswersAreRepeated := by
  intro s q t e hears hkind hdest hlaw he hseq hwords
  obtain ⟨hrun, -, hsrc, hlen⟩ := id hears
  obtain ⟨y, hy⟩ : ∃ y, y = s.countPort .t .rxGood := ⟨_, rfl⟩
  have htraffic : SameTraffic s y := hy ▸ sameTraffic_countPort s _ _
  have hexec : exec (.receiveTelegram .t (lineSerial q t)) s = .next (y.answerFromCache (arrivalOf t) e) := by
    rw [receiveTelegram_request hears hkind hdest, ← hy]
    exact congrArg _ (intake_of_cached (hy ▸ hlaw.2) (hy ▸ he) hseq)
  refine ⟨_, hexec, fun hno => ?_, fun d hroom hd => ?_⟩
  · rw [answerFromCache_of_no_room (by rwa [HasRoom, htraffic.mem]), hy]
  · obtain ⟨m, ha⟩ := allocate_of_room (s := y) (by rwa [HasRoom, htraffic.mem]) (htraffic.mem ▸ hd) (arrivalOf t).header
    have htakes := Takes.from htraffic (takes_of_allocate (htraffic.mem ▸ hrun.2.1) hlen ha).hold
    rw [answerFromCache_of_allocate ha]
    obtain ⟨v, hv⟩ : ∃ v, v = (y.setMem m).hold d := ⟨_, rfl⟩
    rw [← hv] at htakes ⊢
    have hdv : d ∈ v.mem.inUse := (htakes.inUse d).2 (.inl rfl)
    obtain ⟨hok, ns, hr⟩ := replaceChain_rewrites htakes.law hdv hwords
    rw [buildAnswer_of_blocks hok]
    obtain ⟨w, hw⟩ : ∃ w, w = (v.replaceChain d e.words).2 := ⟨_, rfl⟩
    rw [← hw] at hr ⊢
    have hdw : d ∈ w.mem.inUse := (hr.carries.inUse d).2 (.inr hdv)
    have hf : ∀ x, (Descriptor.toAnswer e.status x).count = x.count ∧ (Descriptor.toAnswer e.status x).chain = x.chain :=
      fun _ => ⟨rfl, rfl⟩
    have hcarries := hr.carries.trans (Carries.modDesc hr.carries.law hdw hf) (by simpa using hdv)
    rw [List.append_nil] at hcarries
    obtain ⟨hself, -, hwmod⟩ := State.modDesc_spec w d (Descriptor.toAnswer e.status) hf
    have hmem := State.joinEgress_mem (w.modDesc d (Descriptor.toAnswer e.status)) d
    refine ⟨?_, ?_, ⟨ns, ?_⟩, ?_⟩
    · obtain ⟨chain, hdesc⟩ := htakes.desc
      obtain ⟨count, chain', hdesc'⟩ := hr.desc
      rw [State.telegram_congr hmem]
      unfold State.telegram
      rw [hself, hwmod, hr.words, hdesc', hdesc]
      rfl
    · have hkept := htakes.kept_after hcarries
      unfold OthersKept State.desc State.words at hkept ⊢
      rwa [hmem]
    · refine htakes.joins ?_ ?_ ?_ ?_ (hcarries.join hdv hr.two)
      all_goals rw [hv, hy]; rfl
    · have honly : OnlyEgress y v := hv ▸ OnlyEgress.setMem y _
      have hreplaced : OnlyEgress v w := hw ▸ replaceChain_onlyEgress htakes.law hdv hwords
      exact hy ▸ (honly.trans hreplaced).trans ((OnlyEgress.modDesc w d _).trans (OnlyEgress.joinEgress _ d))

/-! ## Polls (R31, R67, R68) -/

section

variable {s : State} {a : Arrival}

theorem refusedHeader_eq (a : Arrival) : a.refusedHeader = ⟨0, a.dest, .reply, a.seq, 3⟩ := rfl

theorem admitPoll_of_no_room (h : ¬HasRoom s a.words.length) : s.admitPoll a = s.refusePoll a := by
  simp only [State.admitPoll, allocate_of_no_room h]

theorem refusePoll_of_no_descriptor (h : s.mem.freeDescs = []) : s.refusePoll a = s.countPort .t .rxNoroom := by
  have hnone : (s.countPort .t .rxNoroom).mem.allocate .part a.refusedHeader [] = none :=
    TelegramMemory.allocate_eq_none.2 (.inl h)
  simp only [State.refusePoll, hnone]

theorem refusePoll_of_allocate {d : Nat} {m : TelegramMemory}
    (h : s.mem.allocate .part a.refusedHeader [] = some (d, m)) :
    s.refusePoll a = (((s.countPort .t .rxNoroom).setMem m).hold d).joinEgress d := by
  have h : (s.countPort .t .rxNoroom).mem.allocate .part a.refusedHeader [] = some (d, m) := h
  simp only [State.refusePoll, h]
  rfl

theorem admitPoll_of_unrouted {d : Nat} {m : TelegramMemory}
    (h : s.mem.allocate .traffic a.header a.words = some (d, m))
    (hroute : ((s.bank s.active).entry a.dest.toNat).route = .none) : s.admitPoll a = (s.setMem m).answerUnrouted d := by
  simp only [State.admitPoll, h, hroute]

theorem admitPoll_of_routed {d : Nat} {m : TelegramMemory}
    (h : s.mem.allocate .traffic a.header a.words = some (d, m)) {g : Segment}
    (hroute : ((s.bank s.active).entry a.dest.toNat).route = routeOf g) :
    s.admitPoll a = (s.setMem m).admitRouted g d := by
  cases g <;> simp only [State.admitPoll, h, hroute, routeOf]

end

theorem exec_poll {s : State} {q : Port} {t : Telegram} (hears : HearsTrunk s t) (hkind : t.kind = .poll)
    (hlow : 1 ≤ t.dest.toNat) (hhigh : t.dest.toNat ≤ 61) : exec (.receiveTelegram .t (lineSerial q t)) s =
      .next ((s.countPort .t .rxGood).admitPoll (arrivalOf t)) := by
  obtain ⟨hrun, hrx, hsrc, hlen⟩ := hears
  rw [exec_receiveTelegram_lineSerial hrun.1 .t q hrx hlen]
  exact congrArg _ ((arriveTrunk_poll s (a := arrivalOf t) hsrc hkind).trans (if_pos ⟨hlow, hhigh⟩))

/-- A telegram of no words taken from the part's own class joins trunk egress. -/
theorem takes_joined {s y u : State} (htraffic : SameTraffic s y) {d : Nat} {h : Header}
    (htakes : Takes y u d h [] 1) (hu : u = y.setMem u.mem) :
    OthersKept s (u.joinEgress d) [] ∧ JoinsEgress s (u.joinEgress d) [] [d] ∧
    OnlyEgress y (u.joinEgress d) := by
  have hd : d ∈ u.mem.inUse := (htakes.inUse d).2 (.inl rfl)
  have hquiet : Carries u u [d] [] := Carries.sameTraffic htakes.law ⟨rfl, rfl, rfl, rfl, rfl⟩ rfl
  have hmem := State.joinEgress_mem u d
  have hkept := (Takes.from htraffic htakes).kept
  refine ⟨?_, htraffic.joins (htakes.joins ?_ ?_ ?_ ?_ (hquiet.join hd (Nat.zero_le _))),
    OnlyEgress.trans (hu ▸ OnlyEgress.setMem y u.mem) (OnlyEgress.joinEgress u d)⟩
  · unfold OthersKept State.desc State.words at hkept ⊢
    rwa [hmem]
  all_goals rw [hu]; rfl

/-- Settles O28. -/
theorem pollsAnsweredAtAdmission : Obligations.PollsAnsweredAtAdmission := by
  refine ⟨fun s q t hears hkind hlow hhigh hno => ?_, fun s q t hears hkind hlow hhigh hroom hroute d hd => ?_⟩
  · obtain ⟨y, hy⟩ : ∃ y, y = s.countPort .t .rxGood := ⟨_, rfl⟩
    have htraffic : SameTraffic s y := hy ▸ sameTraffic_countPort s _ _
    refine ⟨_, exec_poll hears hkind hlow hhigh, ?_⟩
    rw [← hy, admitPoll_of_no_room (a := arrivalOf t) (by rwa [HasRoom, htraffic.mem])]
    refine ⟨fun hnone => refusePoll_of_no_descriptor (htraffic.mem ▸ hnone), fun d rest hd => ?_⟩
    have hfound : (y.mem.allocate .part (arrivalOf t).refusedHeader []).isSome = true := by
      rw [allocate_part_isSome_iff, htraffic.mem, hd]
      exact ⟨Nat.succ_le_succ (Nat.zero_le _), Nat.zero_le _⟩
    obtain ⟨⟨k, m⟩, ha⟩ := Option.isSome_iff_exists.1 hfound
    obtain ⟨hhead, -⟩ := TelegramMemory.allocate_eq_some.1 ha
    rw [htraffic.mem, hd] at hhead
    cases hhead
    rw [refusePoll_of_allocate ha]
    obtain ⟨z, hz⟩ : ∃ z, z = y.countPort .t .rxNoroom := ⟨_, rfl⟩
    have hzt : SameTraffic s z := htraffic.trans (hz ▸ sameTraffic_countPort y _ _)
    have htakes := (takes_of_allocate (s := z) (hzt.mem ▸ hears.1.2.1) (Nat.zero_le _) (by rw [hz]; exact ha)).hold
    rw [← hz]
    obtain ⟨hkept, hjoins, honly⟩ := takes_joined hzt htakes rfl
    have hmem := State.joinEgress_mem ((z.setMem m).hold d) d
    obtain ⟨chain, hdesc⟩ := htakes.desc
    have hdesc' : (((z.setMem m).hold d).joinEgress d).desc d = _ := (congrArg (TelegramMemory.desc · d) hmem).trans hdesc
    refine ⟨?_, by rw [hdesc']; rfl, by rw [hdesc'], hkept, hjoins, ?_, ?_, ?_⟩
    · rw [State.telegram_congr hmem]
      unfold State.telegram
      rw [hdesc, htakes.words]
      rfl
    · rw [hmem, htakes.freeDescs, hzt.mem, hd]
      rfl
    · rw [hmem, htakes.freeBlocks, hzt.mem]
      rfl
    · rw [hz, hy] at honly ⊢
      exact honly
  · obtain ⟨hrun, hrx, hsrc, hlen⟩ := id hears
    obtain ⟨y, hy⟩ : ∃ y, y = s.countPort .t .rxGood := ⟨_, rfl⟩
    have htraffic : SameTraffic s y := hy ▸ sameTraffic_countPort s _ _
    obtain ⟨m, ha⟩ := allocate_of_room (s := y) (by rwa [HasRoom, htraffic.mem]) (htraffic.mem ▸ hd) (arrivalOf t).header
    have htakes := Takes.from htraffic (takes_of_allocate (htraffic.mem ▸ hrun.2.1) hlen ha).hold
    obtain ⟨v, hv⟩ : ∃ v, v = (y.setMem m).hold d := ⟨_, rfl⟩
    have hexec : exec (.receiveTelegram .t (lineSerial q t)) s =
        .next ((v.buildEmptyReply d .unrouted).joinEgress d) := by
      rw [exec_poll hears hkind hlow hhigh, ← hy, admitPoll_of_unrouted ha (by rw [hy]; exact hroute), hv]
      rfl
    rw [← hv] at htakes
    have hdv : d ∈ v.mem.inUse := (htakes.inUse d).2 (.inl rfl)
    obtain ⟨ns, hreplies⟩ := buildEmptyReply_replies htakes.law hdv .unrouted
    obtain ⟨chain, hdesc⟩ := htakes.desc
    obtain ⟨⟨htel, hstamp⟩, -, hjoins⟩ := hreplies.joined hdv
    have hmem := State.joinEgress_mem (v.buildEmptyReply d .unrouted) d
    refine ⟨_, ns, hexec, ?_, hstamp, ?_, ?_, htakes.joins ?_ ?_ ?_ ?_ hjoins, ?_, ?_⟩
    · rw [htel, hdesc]
      rfl
    · obtain ⟨count, chain', hreply⟩ := hreplies.desc
      refine (congrArg (fun m => (m.desc d).holders) hmem).trans ?_
      exact (congrArg Descriptor.holders hreply).trans (by rw [hdesc])
    · have hkept := htakes.kept_after hreplies.carries
      unfold OthersKept State.desc State.words at hkept ⊢
      rwa [hmem]
    · rw [hv, hy]
      rfl
    · rw [hv, hy]
      rfl
    · rw [hv, hy]
      rfl
    · rw [hv, hy]
      rfl
    · rw [hmem, hreplies.carries.freeDescs, htakes.freeDescs, List.drop_drop]
    · have honly : OnlyEgress y v := hv ▸ OnlyEgress.setMem y _
      have hbuilt := buildEmptyReply_onlyEgress htakes.law hdv (by rw [hdesc]; rfl) .unrouted
      exact hy ▸ (honly.trans hbuilt).trans (OnlyEgress.joinEgress _ d)

end Sys2Proof.Proofs.Admissions
end

section
/-! PROOFS. The routed poll: its stamp and outbound run, and its place in the segment queue (O29, O30). -/

namespace Sys2Proof.Proofs.RoutedPolls

open Sys2Proof Sys2Proof.Machine Sys2Proof.Proofs.Commands Sys2Proof.Proofs.Intake Sys2Proof.Proofs.Reception
  Sys2Proof.Proofs.MemoryAndRuns Sys2Proof.Proofs.Answers Sys2Proof.Proofs.Carriage Sys2Proof.Proofs.TakesAndTries
  Sys2Proof.Proofs.TransactionEnds Sys2Proof.Proofs.MatchedReplies Sys2Proof.Proofs.Admissions
  Sys2Proof.Proofs.BankInvariants

/-! ## Free lists that stay -/

/-- `t` has the free lists and minima of `s`. -/
structure SameFree (s t : State) : Prop where
  freeDescs : t.mem.freeDescs = s.mem.freeDescs
  freeBlocks : t.mem.freeBlocks = s.mem.freeBlocks
  minDescs : t.mem.minDescs = s.mem.minDescs
  minBlocks : t.mem.minBlocks = s.mem.minBlocks

theorem SameFree.trans {s t u : State} (h1 : SameFree s t) (h2 : SameFree t u) : SameFree s u :=
  ⟨h2.freeDescs.trans h1.freeDescs, h2.freeBlocks.trans h1.freeBlocks, h2.minDescs.trans h1.minDescs,
    h2.minBlocks.trans h1.minBlocks⟩

theorem sameFree_rewriteWords (s : State) (d : Nat) (ws : List Word) :
    SameFree s (s.setMem (s.mem.rewriteWords d ws)) := by
  have hrest : s.mem.rewriteWords d ws = { s.mem with blocks := (s.mem.rewriteWords d ws).blocks } :=
    TelegramMemory.writeChain_rest _ _ _
  constructor <;> rw [State.setMem_mem, hrest]

/-! ## Stamp and outbound run (R46, R69) -/

/-- The poll `d` stamped with bank `b`, the outcome `r` of the outbound run of station `n` in it. -/
def admitted (s : State) (d : Nat) (b : BankId) (n : Nat) (r : Applied) : State :=
  ((s.modDesc d fun x => { x with stamp := some b }).setBank b
    { s.bank b with inFlight := (s.bank b).inFlight + 1 }).putApplied d n r

section

variable {s : State} {d : Nat} {b : BankId} {n : Nat} {r : Applied}

theorem admitted_bank (k : BankId) : (admitted s d b n r).bank k =
    if k = b then { s.bank b with inFlight := (s.bank b).inFlight + 1 } else s.bank k := by
  rw [admitted, State.putApplied_bank, State.setBank_bank]
  rfl

theorem admitted_counters : (admitted s d b n r).counters =
    (s.countStation n fun c => c.addPoints r.faults r.limits r.skips).counters := by
  unfold admitted State.putApplied
  exact countStation_counters_congr (by simp) _ _

theorem admitted_sameFree : SameFree s (admitted s d b n r) := by
  obtain ⟨v, hv⟩ : ∃ v, v = (s.modDesc d fun x => { x with stamp := some b }).setBank b
    { s.bank b with inFlight := (s.bank b).inFlight + 1 } := ⟨_, rfl⟩
  have hstamped : SameFree s v := by
    constructor <;> rw [hv, State.setBank_mem] <;> rfl
  obtain ⟨hfreeD, hfreeB, hminD, hminB⟩ := sameFree_rewriteWords v d r.words
  rw [admitted, ← hv]
  exact hstamped.trans ⟨hfreeD, hfreeB, hminD, hminB⟩

theorem admitted_spec (hm : MemoryLaw s.mem) (hd : d ∈ s.mem.inUse) (hlen : r.words.length = (s.desc d).count) :
    Carries s (admitted s d b n r) [d] [] ∧
    (admitted s d b n r).desc d =
      { s.desc d with marks := (s.desc d).marks.add r.transformed r.faulted r.limited, stamp := some b } ∧
    (admitted s d b n r).words d = r.words := by
  have hf : ∀ x : Descriptor, ({ x with stamp := some b } : Descriptor).count = x.count ∧
      ({ x with stamp := some b } : Descriptor).chain = x.chain := fun _ => ⟨rfl, rfl⟩
  have hmod := Carries.modDesc hm hd hf
  obtain ⟨hself, -, -⟩ := State.modDesc_spec s d (fun x => { x with stamp := some b }) hf
  have hbank := SameTraffic.setBank (s.modDesc d fun x => { x with stamp := some b }) b
    { s.bank b with inFlight := (s.bank b).inFlight + 1 }
  have hset := hmod.trans (Carries.sameTraffic hmod.law hbank (setBank_rx _ _ _)) (by simpa using hd)
  obtain ⟨v, hv⟩ : ∃ v, v = (s.modDesc d fun x => { x with stamp := some b }).setBank b
    { s.bank b with inFlight := (s.bank b).inFlight + 1 } := ⟨_, rfl⟩
  have hvdesc : v.desc d = { s.desc d with stamp := some b } := hv ▸ (hbank.desc d).trans hself
  rw [← hv] at hset
  obtain ⟨hput, hdesc, hwords⟩ := putApplied_spec hset.law ((hset.inUse d).2 (.inr hd)) n
    (r := r) (by rw [hvdesc]; exact hlen)
  rw [admitted, ← hv]
  exact ⟨hset.trans hput (by simpa using hd), by rw [hdesc, hvdesc], hwords⟩

theorem applyOutbound_stamp (s : State) (d : Nat) : (s.stamp d).applyOutbound d =
    admitted s d s.active (s.stationOf d) (runOf s (s.stationOf d) s.active false (s.words d)) := by
  have hf : ∀ x : Descriptor, ({ x with stamp := some s.active } : Descriptor).count = x.count ∧
      ({ x with stamp := some s.active } : Descriptor).chain = x.chain := fun _ => ⟨rfl, rfl⟩
  obtain ⟨hself, -, hwords⟩ := State.modDesc_spec s d (fun x => { x with stamp := some s.active }) hf
  have hbank := SameTraffic.setBank (s.modDesc d fun x => { x with stamp := some s.active }) s.active
    { s.bank s.active with inFlight := (s.bank s.active).inFlight + 1 }
  have hdesc : (s.stamp d).desc d = { s.desc d with stamp := some s.active } := (hbank.desc d).trans hself
  have hstation : (s.stamp d).stationOf d = s.stationOf d := by
    unfold State.stationOf
    rw [hdesc]
  have hstamped : (s.stamp d).stampedBank d = s.active := by
    unfold State.stampedBank
    rw [hdesc]
    rfl
  have hown : (s.stamp d).bank s.active = { s.bank s.active with inFlight := (s.bank s.active).inFlight + 1 } :=
    State.setBank_bank_same _ _ _
  have hread : (s.stamp d).words d = s.words d := (hbank.words d).trans (hwords d)
  have himage : (s.stamp d).outImage (s.stationOf d) = s.outImage (s.stationOf d) := by
    rw [State.outImage, State.stamp_outImages]
    rfl
  simp only [State.applyOutbound, State.stampedEntry, hstation, hstamped, hown, hread, himage]
  rfl

end

/-! ## The place in the queue (R70, R71) -/

section

variable {s : State} {g : Segment} {n d : Nat}

theorem place_of_no_waiting (h : s.waitingPoll g n = none) : s.place g n d = s.joinQueue g d := by
  simp only [State.place, h]

theorem place_of_waiting {old : Nat} (h : s.waitingPoll g n = some old) :
    s.place g n d = (s.takePlace g old d).answerSuperseded n old := by
  simp only [State.place, h]

theorem isPollFor_iff (s : State) (n k : Nat) :
    s.isPollFor n k = true ↔ (s.desc k).kind = .poll ∧ (s.desc k).dest.toNat = n := by
  rw [State.isPollFor, Bool.and_eq_true]
  exact and_congr decide_eq_true_iff decide_eq_true_iff

end

/-- A poll of telegram `t` routed to segment `g` and taken into descriptor `d`, ahead of its place in the queue. -/
structure Routed (s u : State) (t : Telegram) (d : Nat) : Prop where
  takes : ∃ v, Takes s v d (arrivalOf t).header t.words 0 ∧ SameFree v u ∧ Carries v u [d] []
  desc : ∃ chain, u.desc d = { (arrivalOf t).header.descriptor t.words.length chain with
    marks := (runOf s t.dest.toNat s.active false t.words).marks false, stamp := some s.active }
  words : u.words d = (runOf s t.dest.toNat s.active false t.words).words

/-- The part after stamp and run of the poll. -/
def routed (s : State) (t : Telegram) (d : Nat) (m : TelegramMemory) : State :=
  admitted ((s.countPort .t .rxGood).setMem m) d s.active t.dest.toNat (runOf s t.dest.toNat s.active false t.words)

theorem routed_eq (s : State) (t : Telegram) (d : Nat) (m : TelegramMemory) : routed s t d m =
    (((s.countPort .t .rxGood).setBank s.active { s.bank s.active with inFlight := (s.bank s.active).inFlight + 1 }).setMem
      (routed s t d m).mem).setCounters
        { (s.countPort .t .rxGood).counters with stations := (routed s t d m).counters.stations } := by
  unfold routed admitted
  generalize s.active = b
  cases b <;> rfl

theorem routed_stationCounters {s : State} (h : Table.rising s.counters.stations = true) (t : Telegram) (d : Nat)
    (m : TelegramMemory) (k : Nat) : (routed s t d m).stationCounters k = if k = t.dest.toNat
      then (s.stationCounters t.dest.toNat).addPoints (runOf s t.dest.toNat s.active false t.words).faults
        (runOf s t.dest.toNat s.active false t.words).limits (runOf s t.dest.toNat s.active false t.words).skips
      else s.stationCounters k := by
  rw [State.stationCounters, routed, admitted_counters]
  exact stationCounters_countStation (s := (s.countPort .t .rxGood).setMem m) h t.dest.toNat k _

theorem routed_routed {s : State} (hm : MemoryLaw s.mem) {t : Telegram} (hlen : t.words.length ≤ 32) {d : Nat}
    {m : TelegramMemory} (ha : s.mem.allocate .traffic (arrivalOf t).header t.words = some (d, m)) :
    Routed s (routed s t d m) t d := by
  have htraffic := sameTraffic_countPort s .t .rxGood
  have htakes := Takes.from htraffic
    (takes_of_allocate (s := s.countPort .t .rxGood) (htraffic.mem ▸ hm) hlen (htraffic.mem ▸ ha))
  obtain ⟨chain, hdesc⟩ := htakes.desc
  obtain ⟨hcarries, hdesc', hwords⟩ := admitted_spec (b := s.active) (n := t.dest.toNat)
    (r := runOf s t.dest.toNat s.active false t.words) htakes.law ((htakes.inUse d).2 (.inl rfl))
    (by rw [hdesc]; exact applyRun_length _ _ _)
  refine ⟨⟨_, htakes, admitted_sameFree, hcarries⟩, ⟨chain, ?_⟩, hwords⟩
  rw [routed, hdesc', hdesc]
  simp [Header.descriptor, Marks.add, Marks.clear, Applied.marks]

theorem exec_routed {s : State} {q : Port} {t : Telegram} {g : Segment} (hears : HearsTrunk s t) (hkind : t.kind = .poll)
    (hlow : 1 ≤ t.dest.toNat) (hhigh : t.dest.toNat ≤ 61)
    (hroute : ((s.bank s.active).entry t.dest.toNat).route = routeOf g) {d : Nat} {m : TelegramMemory}
    (ha : s.mem.allocate .traffic (arrivalOf t).header t.words = some (d, m)) :
    exec (.receiveTelegram .t (lineSerial q t)) s = .next ((routed s t d m).place g t.dest.toNat d) := by
  obtain ⟨hrun, -, -, hlen⟩ := id hears
  have htakes := takes_of_allocate hrun.2.1 hlen ha
  obtain ⟨chain, hdesc⟩ := htakes.desc
  have hstation : ((s.countPort .t .rxGood).setMem m).stationOf d = t.dest.toNat := by
    have hdesc' : ((s.countPort .t .rxGood).setMem m).desc d = _ := hdesc
    rw [State.stationOf, hdesc']
    rfl
  have hwords : ((s.countPort .t .rxGood).setMem m).words d = t.words := htakes.words
  rw [exec_poll hears hkind hlow hhigh, admitPoll_of_routed (s := s.countPort .t .rxGood) (a := arrivalOf t) ha hroute,
    State.admitRouted, applyOutbound_stamp, hstation, hwords]
  rfl

/-- The queue takes its reference to the poll. -/
theorem Routed.held {s u : State} {t : Telegram} {d : Nat} (h : Routed s u t d) :
    (u.hold d).telegram d = ⟨t.dest, t.src, t.kind, (runOf s t.dest.toNat s.active false t.words).marks false, t.seq, 0,
      (runOf s t.dest.toNat s.active false t.words).words⟩ ∧
    ((u.hold d).desc d).stamp = some s.active ∧ ((u.hold d).desc d).holders = 1 ∧ OthersKept s (u.hold d) [] := by
  obtain ⟨⟨v, htakes, hfree, hcarries⟩, ⟨chain, hdesc⟩, hwords⟩ := h
  have hf : ∀ x : Descriptor, ({ x with holders := x.holders + 1 } : Descriptor).count = x.count ∧
      ({ x with holders := x.holders + 1 } : Descriptor).chain = x.chain := fun _ => ⟨rfl, rfl⟩
  have hdv : d ∈ v.mem.inUse := (htakes.inUse d).2 (.inl rfl)
  obtain ⟨hself, -, hsame⟩ := State.modDesc_spec u d (fun x => { x with holders := x.holders + 1 }) hf
  rw [← hold_eq_modDesc] at hself hsame
  have hheld := hcarries.trans (Carries.modDesc hcarries.law ((hcarries.inUse d).2 (.inr hdv)) hf) (by simpa using hdv)
  refine ⟨?_, ?_, ?_, htakes.kept_after hheld⟩
  · unfold State.telegram
    rw [hself, hsame, hdesc, hwords]
    rfl
  · rw [hself, hdesc]
  · rw [hself, hdesc]
    rfl

/-- Settles O29. -/
theorem pollJoinsItsQueue : Obligations.PollJoinsItsQueue := by
  intro s q t g hears hkind hlow hhigh hroom hroute hqueue d hd
  obtain ⟨hrun, -, hsrc, hlen⟩ := id hears
  obtain ⟨m, ha⟩ := allocate_of_room hroom hd (arrivalOf t).header
  have hrouted := routed_routed hrun.2.1 hlen ha
  have hseg : ∀ j, (routed s t d m).seg j = s.seg j := fun j => by simp [routed, admitted]
  obtain ⟨⟨v, htakes, hfree, hcarries⟩, ⟨chain, hdesc⟩, hwords⟩ := hrouted
  have hkept : ∀ k ∈ s.mem.inUse, (routed s t d m).desc k = s.desc k := fun k hk =>
    (htakes.kept_after hcarries k hk List.not_mem_nil).1
  have hnone : (routed s t d m).waitingPoll g t.dest.toNat = none := by
    refine List.find?_eq_none.2 fun k hk hpoll => ?_
    rw [hseg] at hk
    obtain ⟨hin, hother⟩ := hqueue k hk
    rw [isPollFor_iff, hkept k hin] at hpoll
    exact hother ⟨hpoll.1, BitVec.eq_of_toNat_eq hpoll.2⟩
  have hexec := exec_routed (q := q) hears hkind hlow hhigh hroute ha
  obtain ⟨htel, hstamp, hholders, hkept⟩ := (routed_routed hrun.2.1 hlen ha).held
  rw [hkind, hsrc] at htel
  obtain ⟨w, hw⟩ : ∃ w, w = ((routed s t d m).hold d).setSeg g { s.seg g with queue := (s.seg g).queue ++ [d] } := ⟨_, rfl⟩
  rw [place_of_no_waiting hnone, State.joinQueue, hseg, ← hw] at hexec
  have hmem : w.mem = ((routed s t d m).hold d).mem := by rw [hw, State.setSeg_mem]
  have hcounters : w.counters = (routed s t d m).counters := by rw [hw, State.setSeg_counters, State.hold_counters]
  have hrising := Table.wf_rising ((Invariants.canonical_iff s).1 hrun.2.2).counters
  have hfreeD : w.mem.freeDescs = s.mem.freeDescs.drop 1 := by
    rw [hmem]
    exact hfree.freeDescs.trans htakes.freeDescs
  have hfreeB : w.mem.freeBlocks = s.mem.freeBlocks.drop ((t.words.length + 7) / 8) := by
    rw [hmem]
    exact hfree.freeBlocks.trans htakes.freeBlocks
  refine ⟨w, hexec, ?_, ?_, ?_, ?_, hfreeD, hfreeB, ?_, ?_, ?_, fun n hn => ?_, ?_⟩
  · exact (State.telegram_congr hmem d).trans htel
  · exact (congrArg (fun m => (m.desc d).stamp) hmem).trans hstamp
  · exact (congrArg (fun m => (m.desc d).holders) hmem).trans hholders
  · unfold OthersKept State.desc State.words at hkept ⊢
    rwa [hmem]
  · rw [hfreeD, hmem]
    exact hfree.minDescs.trans (htakes.minDescs.trans (by rw [htakes.freeDescs]))
  · rw [hfreeB, hmem]
    exact hfree.minBlocks.trans (htakes.minBlocks.trans (by rw [htakes.freeBlocks]))
  · rw [State.stationCounters, hcounters]
    exact (routed_stationCounters hrising t d m _).trans (if_pos rfl)
  · rw [State.stationCounters, hcounters]
    exact (routed_stationCounters hrising t d m n).trans (if_neg hn)
  · refine hw.trans ?_
    rw [hmem, hcounters]
    conv_lhs => rw [routed_eq]
    cases g <;> rfl

/-! ## The superseded poll (R71) -/

/-- A bank that is ACTIVE, with one stamp more and one less, is as it was. -/
theorem afterRelease_of_stamped {s u : State} {b : BankId} (hbank : ∀ k, u.bank k =
    if k = b then { s.bank b with inFlight := (s.bank b).inFlight + 1 } else s.bank k)
    (hactive : (s.bank b).state = .active) (k : BankId) : afterRelease u b k = s.bank k := by
  unfold afterRelease
  by_cases hk : k = b
  · subst hk
    rw [if_pos rfl, hbank, if_pos rfl]
    simp only [hactive, reduceCtorEq, false_and, if_false, Nat.add_sub_cancel]
    rw [← hactive]
  · rw [if_neg hk, hbank, if_neg hk]

section

variable {s u : State} {t : Telegram} {g : Segment} {d old : Nat}

/-- The reply SUPERSEDED to the poll whose place is taken, ahead of its count. -/
def superseded (u : State) (g : Segment) (old d : Nat) : State :=
  ((u.takePlace g old d).modDesc old fun x => { x with marks := Marks.clear }).buildEmptyReply old .superseded

theorem answerSuperseded_eq (u : State) (g : Segment) (n old d : Nat) :
    (u.takePlace g old d).answerSuperseded n old =
      ((superseded u g old d).joinEgress old).countStation n StationCounters.bumpSuperseded := rfl

theorem map_replace_of_not_mem {l : List Nat} (h : old ∉ l) : (l.map fun k => if k = old then d else k) = l :=
  (List.map_congr_left fun k hk => if_neg fun he : k = old => h (he ▸ hk)).trans (List.map_id _)

theorem superseded_seg_same {u : State} {pre post : List Nat} (hqueue : (u.seg g).queue = pre ++ [old] ++ post)
    (hpre : old ∉ pre) (hpost : old ∉ post) :
    (superseded u g old d).seg g = { u.seg g with queue := pre ++ [d] ++ post } := by
  have hmap : ((u.seg g).queue.map fun k => if k = old then d else k) = pre ++ [d] ++ post := by
    rw [hqueue, List.map_append, List.map_append, map_replace_of_not_mem hpre, map_replace_of_not_mem hpost]
    simp
  rw [← hmap]
  simp [superseded, State.takePlace]

theorem superseded_seg_other (u : State) {j : Segment} (hj : j ≠ g) : (superseded u g old d).seg j = u.seg j := by
  simp [superseded, State.takePlace, hj]

theorem superseded_counters (u : State) : (superseded u g old d).counters = u.counters := by
  simp [superseded, State.takePlace]

/-- What the supersede does: the new poll is held in the place of the old one, which becomes a reply. -/
structure Supersedes (s u : State) (old d : Nat) (ns : List Nat) : Prop where
  carries : Carries s u [d, old] ns
  two : ns.length ≤ 2
  replied : RepliedWith s u old .superseded Marks.clear []
  desc : u.desc d = { s.desc d with holders := (s.desc d).holders + 1 }
  words : u.words d = s.words d
  bank : ∀ b, (s.desc old).stamp = some b → ∀ k, u.bank k = afterRelease s b k

/-- The new poll is held in the old one's place. -/
theorem takePlace_spec (hm : MemoryLaw s.mem) (hd : d ∈ s.mem.inUse) (g : Segment) (old : Nat) :
    Carries s (s.takePlace g old d) [d] [] ∧
    (s.takePlace g old d).desc d = { s.desc d with holders := (s.desc d).holders + 1 } ∧
    (s.takePlace g old d).words d = s.words d ∧
    ∀ k, k ≠ d → (s.takePlace g old d).desc k = s.desc k := by
  have hf : ∀ x : Descriptor, ({ x with holders := x.holders + 1 } : Descriptor).count = x.count ∧
      ({ x with holders := x.holders + 1 } : Descriptor).chain = x.chain := fun _ => ⟨rfl, rfl⟩
  obtain ⟨hself, hother, hwords⟩ := State.modDesc_spec s d (fun x => { x with holders := x.holders + 1 }) hf
  have hmod := Carries.modDesc hm hd hf
  rw [← hold_eq_modDesc] at hself hother hwords hmod
  have htraffic : SameTraffic (s.hold d) (s.takePlace g old d) := sameTraffic_setSeg _ _ _
  exact ⟨hmod.trans (Carries.sameTraffic hmod.law htraffic (setSeg_rx _ _ _)) (by simpa using hd),
    (htraffic.desc d).trans hself, (htraffic.words d).trans (hwords d),
    fun k hk => (htraffic.desc k).trans (hother k hk)⟩

theorem superseded_supersedes (hm : MemoryLaw s.mem) (hd : d ∈ s.mem.inUse) (hold : old ∈ s.mem.inUse) (hne : d ≠ old) :
    ∃ ns, Supersedes s (superseded s g old d) old d ns := by
  have hclear : ∀ x : Descriptor, ({ x with marks := Marks.clear } : Descriptor).count = x.count ∧
      ({ x with marks := Marks.clear } : Descriptor).chain = x.chain := fun _ => ⟨rfl, rfl⟩
  obtain ⟨hplaced, hdesc, hwords, hother⟩ := takePlace_spec hm hd g old
  have hbanks := State.takePlace_bank s g old d
  obtain ⟨v, hv⟩ : ∃ v, v = s.takePlace g old d := ⟨_, rfl⟩
  rw [← hv] at hplaced hdesc hwords hother hbanks
  have holdv : old ∈ v.mem.inUse := (hplaced.inUse old).2 (.inr hold)
  have hdv : d ∈ v.mem.inUse := (hplaced.inUse d).2 (.inr hd)
  have hoDesc := hother old (Ne.symm hne)
  obtain ⟨hcself, -, -⟩ := State.modDesc_spec v old (fun x => { x with marks := Marks.clear }) hclear
  have hcleared := Carries.modDesc hplaced.law holdv hclear
  have hwbank := State.modDesc_bank v old fun x => { x with marks := Marks.clear }
  have hbuilt : superseded s g old d =
      (v.modDesc old fun x => { x with marks := Marks.clear }).buildEmptyReply old .superseded := by rw [hv, superseded]
  rw [hbuilt]
  generalize v.modDesc old (fun x => { x with marks := Marks.clear }) = w at hcself hcleared hwbank
  have holdw : old ∈ w.mem.inUse := (hcleared.inUse old).2 (.inr holdv)
  obtain ⟨ns, hreplies⟩ := buildEmptyReply_replies hcleared.law holdw .superseded
  rw [hcself] at hreplies
  have hreplies := Replies.after hcleared holdv ⟨_, hcself⟩ hreplies
  obtain ⟨hddesc, hdwords⟩ := hreplies.carries.kept d hdv fun h => hne (List.mem_singleton.1 h)
  refine ⟨ns, ?_, hreplies.two, ?_, hddesc.trans hdesc, hdwords.trans hwords, fun b hstamp k => ?_⟩
  · exact (hplaced.mono (by simp)).trans (hreplies.carries.mono (by simp)) (by simp [hd, hold])
  · have h := hreplies.telegram
    unfold RepliedWith at h ⊢
    rwa [hoDesc] at h
  · rw [buildEmptyReply_bank hcleared.law holdw (by rw [hcself, hoDesc]; exact hstamp)]
    exact afterRelease_congr (fun k => (hwbank k).trans (hbanks k)) b k

end

/-- Settles O30. -/
theorem pollSupersedesTheWaitingPoll : Obligations.PollSupersedesTheWaitingPoll := by
  intro s q t g pre post old b hone hears hkind hlow hhigh hroom hroute hqueue hin hpre hpost hothers holdkind holddest
    holdstamp d hd
  obtain ⟨hrun, -, hsrc, hlen⟩ := id hears
  obtain ⟨m, ha⟩ := allocate_of_room hroom hd (arrivalOf t).header
  have hold : old ∈ s.mem.inUse := hin old (by rw [hqueue]; simp)
  have hrising := Table.wf_rising ((Invariants.canonical_iff s).1 hrun.2.2).counters
  have hcounts := routed_stationCounters hrising t d m
  obtain ⟨r, hr⟩ : ∃ r, r = routed s t d m := ⟨_, rfl⟩
  obtain ⟨⟨v, htakes, hfree, hcarries⟩, ⟨chain, hdesc⟩, hwords⟩ := routed_routed hrun.2.1 hlen ha
  have hne : d ≠ old := fun h => htakes.new (h ▸ hold)
  have hseg : ∀ j, r.seg j = s.seg j := fun j => by rw [hr]; simp [routed, admitted]
  have hbank : ∀ k, r.bank k = if k = s.active
      then { s.bank s.active with inFlight := (s.bank s.active).inFlight + 1 } else s.bank k := fun k => by
    rw [hr, routed, admitted_bank]
    simp
  have hexec := exec_routed (q := q) hears hkind hlow hhigh hroute ha
  rw [← hr] at hexec hcarries hdesc hwords hcounts
  have hkept := htakes.kept_after hcarries
  have hwaiting : r.waitingPoll g t.dest.toNat = some old := by
    refine List.find?_eq_some_iff_append.2 ⟨?_, pre, post, ?_, fun k hk => ?_⟩
    · rw [isPollFor_iff, (hkept old hold List.not_mem_nil).1, holddest]
      exact ⟨holdkind, rfl⟩
    · rw [hseg, hqueue, List.append_assoc]
      rfl
    · have hkin : k ∈ s.mem.inUse := hin k (by rw [hqueue]; simp [hk])
      rw [Bool.not_eq_true', Bool.eq_false_iff, ne_eq, isPollFor_iff, (hkept k hkin List.not_mem_nil).1]
      exact fun hpoll => hothers k hk ⟨hpoll.1, BitVec.eq_of_toNat_eq hpoll.2⟩
  have hdr : d ∈ r.mem.inUse := (hcarries.inUse d).2 (.inr ((htakes.inUse d).2 (.inl rfl)))
  have holdr : old ∈ r.mem.inUse := (hcarries.inUse old).2 (.inr ((htakes.inUse old).2 (.inr hold)))
  obtain ⟨ns, hsup⟩ := superseded_supersedes (g := g) hcarries.law hdr holdr hne
  obtain ⟨z, hz⟩ : ∃ z, z = superseded r g old d := ⟨_, rfl⟩
  rw [place_of_waiting hwaiting, answerSuperseded_eq, ← hz] at hexec
  rw [← hz] at hsup
  have hmem := State.joinEgress_mem z old
  have hactive : (s.bank s.active).state = .active := ((oneActive_iff s).1 hone).1
  have hubank : ∀ k, (((z.joinEgress old).countStation t.dest.toNat StationCounters.bumpSuperseded).bank k) =
      afterRelease r b k := fun k => by
    rw [State.countStation_bank, State.joinEgress_bank,
      hsup.bank b (by rw [(hkept old hold List.not_mem_nil).1]; exact holdstamp)]
  have hzcounters : (z.joinEgress old).counters = r.counters := by
    rw [State.joinEgress_counters, hz, superseded_counters]
  have hrwf : Table.rising r.counters.stations = true := by
    rw [hr, routed, admitted_counters]
    exact Table.wf_rising (Table.wf_set ((Invariants.canonical_iff s).1 hrun.2.2).counters _ _)
  have hucounts : ∀ k, ((z.joinEgress old).countStation t.dest.toNat StationCounters.bumpSuperseded).stationCounters k =
      if k = t.dest.toNat then (r.stationCounters t.dest.toNat).bumpSuperseded else r.stationCounters k := fun k => by
    rw [State.stationCounters, countStation_counters_congr hzcounters]
    exact stationCounters_countStation hrwf t.dest.toNat k StationCounters.bumpSuperseded
  refine ⟨_, ns, hexec, ?_, fun j hj => ?_, ?_, ?_, ?_, ?_, ?_, fun hb k => ?_, fun hb => ⟨?_, ?_⟩, ?_, fun n hn => ?_⟩
  · rw [State.countStation_seg, State.joinEgress_seg, hz, superseded_seg_same (by rw [hseg]; exact hqueue) hpre hpost, hseg]
  · rw [State.countStation_seg, State.joinEgress_seg, hz, superseded_seg_other r hj, hseg]
  · refine (State.telegram_congr hmem d).trans ?_
    unfold State.telegram
    rw [hsup.desc, hsup.words, hdesc, hwords, ← hkind, ← hsrc]
    rfl
  · refine (congrArg (fun m => (m.desc d).stamp) hmem).trans ?_
    exact (congrArg Descriptor.stamp hsup.desc).trans (by rw [hdesc])
  · have hreplied := hsup.replied
    unfold RepliedWith at hreplied
    rw [(hkept old hold List.not_mem_nil).1] at hreplied
    exact repliedWith_congr (congrArg (TelegramMemory.desc · old) hmem) (congrArg (TelegramMemory.words · old) hmem)
      hreplied
  · intro k hk hkold
    have hkr : k ∈ r.mem.inUse := (hcarries.inUse k).2 (.inr ((htakes.inUse k).2 (.inr hk)))
    have hkd : k ≠ d := fun h => htakes.new (h ▸ hk)
    obtain ⟨hzdesc, hzwords⟩ := hsup.carries.kept k hkr (by simp_all)
    obtain ⟨hrdesc, hrwords⟩ := hkept k hk List.not_mem_nil
    exact ⟨(congrArg (TelegramMemory.desc · k) hmem).trans (hzdesc.trans hrdesc),
      (congrArg (TelegramMemory.words · k) hmem).trans (hzwords.trans hrwords)⟩
  · have hjoins := hsup.carries.join holdr hsup.two
    refine joinsEgress_from (u := r) ?_ ?_ ?_ ?_ (fun k hk => (hcarries.inUse k).2 (.inr ((htakes.inUse k).2 (.inr hk)))) hjoins
    · rw [hr]
      simp [routed, admitted]
    · rw [hr]
      simp [routed, admitted]
    · rw [hr]
      simp [routed, admitted]
    · have hport : r.port .t = s.port .t := by
        rw [hr, routed, admitted, State.putApplied_port, State.setBank_port]
        rfl
      exact congrArg LinePort.tx hport
  · exact (hubank k).trans (hb ▸ afterRelease_of_stamped (hb ▸ hbank) (hb ▸ hactive) k)
  · refine (hubank _).trans ((if_neg fun h => hb h.symm).trans ?_)
    rw [hbank, if_pos rfl]
  · rw [hubank]
    unfold afterRelease
    rw [hbank, if_neg hb]
  · exact (hucounts _).trans ((if_pos rfl).trans (congrArg StationCounters.bumpSuperseded ((hcounts _).trans (if_pos rfl))))
  · exact (hucounts n).trans ((if_neg hn).trans ((hcounts n).trans (if_neg hn)))

end Sys2Proof.Proofs.RoutedPolls
end

section
/-! PROOFS. Sync admission (O31, O32): the switch and its report, the distribution to the two queues, and the release of a
SYNC that both have coalesced. -/

namespace Sys2Proof.Proofs.SyncAdmission

open Sys2Proof Sys2Proof.Machine Sys2Proof.Proofs.Commands Sys2Proof.Proofs.Intake Sys2Proof.Proofs.Reception
  Sys2Proof.Proofs.MemoryAndRuns Sys2Proof.Proofs.BankInvariants Sys2Proof.Proofs.ClearAndRestart Sys2Proof.Proofs.Answers
  Sys2Proof.Proofs.Carriage Sys2Proof.Proofs.TransactionEnds Sys2Proof.Proofs.MatchedReplies Sys2Proof.Proofs.Admissions
  Sys2Proof.Proofs.RoutedPolls Sys2Proof.Proofs.TransmissionCompletes

/-! ## Two notices at most (R187) -/

theorem emissionAttempt_limit {s : State} (hm : MemoryLaw s.mem) :
    ∃ ns, Emits s s.emissionAttempt ns ∧ (ns = [] ∨ s.egress.noticeCount + ns.length ≤ 2) := by
  cases h1 : s.emitOne with
  | none =>
    rw [emissionAttempt_of_none h1]
    exact ⟨[], Emits.refl hm, .inl rfl⟩
  | some t =>
    obtain ⟨d, hemits, -, hcount⟩ := State.emitOne_spec hm h1
    cases h2 : t.emitOne with
    | none =>
      have hattempt : s.emissionAttempt = t := by simp only [State.emissionAttempt, h1, h2]
      rw [hattempt]
      exact ⟨[d], hemits, .inr hcount⟩
    | some u =>
      have hattempt : s.emissionAttempt = u := by simp only [State.emissionAttempt, h1, h2]
      obtain ⟨k, hemits', -, hcount'⟩ := State.emitOne_spec hemits.law h2
      rw [hemits.noticeCount] at hcount'
      rw [hattempt]
      exact ⟨[d] ++ [k], hemits.trans hemits', .inr hcount'⟩

/-! ## The switch (R60, R66) -/

section

variable {s : State} {w : Word}

theorem afterSwitch_of_pending (h : s.standbyState = .pending) (w : Word) : afterSwitch s w =
    ((s.setBank s.standbyId { s.bank s.standbyId with state := .active }).setBank s.active
      { s.bank s.active with state := if (s.bank s.active).inFlight = 0 then .standby else .retiring }).setNotices
      { s.notices with
        pendingSet := reportBankIn s.standbyId (s.bank s.standbyId).label w s.notices.pendingSet } :=
  if_pos h

theorem afterSwitch_of_not_pending (h : s.standbyState ≠ .pending) (w : Word) : afterSwitch s w = s :=
  if_neg h

theorem newCycle_of_pending (h : s.standbyState = .pending) (w : Word) :
    s.newCycle w = ((afterSwitch s w).setCycle ⟨w, true⟩).emissionAttempt := by
  have hcheck : (s.setCycle ⟨w, true⟩).switchCheck = _ := if_pos h
  rw [afterSwitch_of_pending h, State.newCycle, hcheck, State.reportBank]
  congr 1
  unfold State.setBankState State.standbyId
  have hactive : (s.setCycle ⟨w, true⟩).active = s.active := rfl
  rw [hactive]
  generalize s.active = b
  cases b <;> rfl

theorem newCycle_of_not_pending (h : s.standbyState ≠ .pending) (w : Word) : s.newCycle w = s.setCycle ⟨w, true⟩ :=
  if_neg h

/-- Cycle register and switch check, with the notices `ns` of the report's emission attempt. -/
structure Switches (s t : State) (w : Word) (ns : List Nat) : Prop where
  emits : Emits ((afterSwitch s w).setCycle ⟨w, true⟩) t ns
  limit : ns = [] ∨ s.egress.noticeCount + ns.length ≤ 2
  heldBack : s.standbyState = .pending → HeldBackLaw t
  still : s.standbyState ≠ .pending → ns = [] ∧ t = s.setCycle ⟨w, true⟩

/-- What the switch leaves alone. -/
theorem afterSwitch_rest (s : State) (w : Word) : afterSwitch s w = { s with
    bank0 := (afterSwitch s w).bank0, bank1 := (afterSwitch s w).bank1, notices := (afterSwitch s w).notices } := by
  by_cases h : s.standbyState = .pending
  · rw [afterSwitch_of_pending h]
    unfold State.standbyId
    generalize s.active = b
    cases b <;> rfl
  · rw [afterSwitch_of_not_pending h]

@[simp] theorem afterSwitch_mem (s : State) (w : Word) : (afterSwitch s w).mem = s.mem := by
  have h := congrArg State.mem (afterSwitch_rest s w)
  exact h

@[simp] theorem afterSwitch_runtime (s : State) (w : Word) : (afterSwitch s w).runtime = s.runtime := by
  have h := congrArg State.runtime (afterSwitch_rest s w)
  exact h

@[simp] theorem afterSwitch_egress (s : State) (w : Word) : (afterSwitch s w).egress = s.egress := by
  have h := congrArg State.egress (afterSwitch_rest s w)
  exact h

theorem newCycle_switches (hm : MemoryLaw s.mem) (w : Word) : ∃ ns, Switches s (s.newCycle w) w ns := by
  by_cases h : s.standbyState = .pending
  · rw [newCycle_of_pending h]
    have hmem : ((afterSwitch s w).setCycle ⟨w, true⟩).mem = s.mem := afterSwitch_mem s w
    have hegress : ((afterSwitch s w).setCycle ⟨w, true⟩).egress = s.egress := afterSwitch_egress s w
    obtain ⟨ns, hemits, hlimit⟩ := emissionAttempt_limit (s := (afterSwitch s w).setCycle ⟨w, true⟩) (hmem ▸ hm)
    exact ⟨ns, hemits, hegress ▸ hlimit, fun _ => State.emissionAttempt_heldBack (hmem ▸ hm), fun hno => absurd h hno⟩
  · rw [newCycle_of_not_pending h]
    refine ⟨[], ?_, .inl rfl, fun hp => absurd hp h, fun _ => ⟨rfl, rfl⟩⟩
    rw [afterSwitch_of_not_pending h]
    exact Emits.refl hm

end

/-! ## The distribution (R79) -/

section

variable {s t : State} {g : Segment} {d : Nat} {w : Word}

theorem distribute_of_no_waiting (h : s.waitingSync g = none) (d : Nat) (w : Word) :
    s.distribute g d w = s.joinQueue g d := by
  simp only [State.distribute, h]

theorem distribute_of_waiting {old : Nat} (h : s.waitingSync g = some old) (d : Nat) (w : Word) :
    s.distribute g d w = s.setMem (s.mem.rewriteWords old [w]) := by
  simp only [State.distribute, h]

theorem waitingSync_congr (hqueue : (t.seg g).queue = (s.seg g).queue)
    (hkind : ∀ k ∈ (s.seg g).queue, (t.desc k).kind = (s.desc k).kind) : t.waitingSync g = s.waitingSync g := by
  unfold State.waitingSync
  rw [hqueue]
  refine List.find?_congr fun k hk => ?_
  rw [hkind k hk]

theorem waitingSync_isSome_iff (s : State) (g : Segment) :
    (s.waitingSync g).isSome = true ↔ ∃ k ∈ (s.seg g).queue, (s.desc k).kind = .sync := by
  rw [State.waitingSync, List.find?_isSome]
  exact exists_congr fun k => and_congr_right fun _ => decide_eq_true_iff

theorem kind_of_waitingSync {old : Nat} (h : s.waitingSync g = some old) :
    old ∈ (s.seg g).queue ∧ (s.desc old).kind = .sync :=
  ⟨List.mem_of_find?_eq_some h,
    of_decide_eq_true (List.find?_some (p := fun k => decide ((s.desc k).kind = .sync)) h)⟩

theorem waitingSync_eq_some {pre post : List Nat} {old : Nat} (hqueue : (s.seg g).queue = pre ++ [old] ++ post)
    (hpre : ∀ k ∈ pre, (s.desc k).kind ≠ .sync) (hold : (s.desc old).kind = .sync) : s.waitingSync g = some old := by
  refine List.find?_eq_some_iff_append.2 ⟨decide_eq_true hold, pre, post, ?_, fun k hk => ?_⟩
  · rw [hqueue, List.append_assoc]
    rfl
  · simpa using hpre k hk

/-- A SYNC is a descriptor in use: an unlisted one reads as a poll. -/
theorem inUse_of_kind (hr : Table.rising s.mem.descs = true) {k : Nat} (h : (s.desc k).kind = .sync) :
    k ∈ s.mem.inUse := by
  by_contra hout
  have hnone : Table.lookup s.mem.descs k = none := (Table.lookup_eq_none hr k).2 hout
  have hblank : s.desc k = Descriptor.blank := by
    unfold State.desc TelegramMemory.desc
    rw [hnone]
    rfl
  rw [hblank] at h
  exact Kind.noConfusion h

/-- Queue `g` given the SYNC `d` with cycle number `w`: what changes is the queue, the holders of `d`, or the words of the
SYNC that waits there. -/
structure Distributes (s t : State) (g : Segment) (d : Nat) (w : Word) : Prop where
  carries : Carries s t (d :: (s.waitingSync g).toList) []
  free : SameFree s t
  others : ∀ k, k ≠ d → t.desc k = s.desc k
  desc : t.desc d = { s.desc d with holders := (s.desc d).holders + if (s.waitingSync g).isSome then 0 else 1 }
  words : s.waitingSync g ≠ some d → t.words d = s.words d
  joins : s.waitingSync g = none → t.seg g = { s.seg g with queue := (s.seg g).queue ++ [d] }
  stays : s.waitingSync g ≠ none → t.seg g = s.seg g
  coalesces : ∀ old, s.waitingSync g = some old → (s.desc old).count = 1 → t.words old = [w]
  rest : t = (s.setSeg g (t.seg g)).setMem t.mem

theorem distribute_distributes (hm : MemoryLaw s.mem) (hd : d ∈ s.mem.inUse) (g : Segment) (w : Word) :
    Distributes s (s.distribute g d w) g d w := by
  cases hwaits : s.waitingSync g with
  | none =>
    rw [distribute_of_no_waiting hwaits]
    obtain ⟨hself, hother, hwords⟩ := State.modDesc_spec s d (fun x => { x with holders := x.holders + 1 })
      fun _ => ⟨rfl, rfl⟩
    have hmod := Carries.modDesc hm hd (f := fun x => { x with holders := x.holders + 1 }) fun _ => ⟨rfl, rfl⟩
    rw [← hold_eq_modDesc] at hself hother hwords hmod
    have htraffic : SameTraffic (s.hold d) (s.joinQueue g d) := sameTraffic_setSeg _ _ _
    refine ⟨?_, ?_, fun k hk => (htraffic.desc k).trans (hother k hk), ?_, fun _ => (htraffic.words d).trans (hwords d),
      fun _ => ?_, fun h => absurd hwaits h, fun old h => ?_, ?_⟩
    · rw [hwaits]
      exact hmod.trans (Carries.sameTraffic hmod.law htraffic (setSeg_rx _ _ _)) (by simpa using hd)
    · constructor <;> rw [htraffic.mem] <;> rfl
    · rw [hwaits]
      exact (htraffic.desc d).trans hself
    · cases g <;> rfl
    · rw [hwaits] at h
      cases h
    · cases g <;> rfl
  | some old =>
    rw [distribute_of_waiting hwaits]
    have hold : old ∈ s.mem.inUse := inUse_of_kind hm.1 (kind_of_waitingSync hwaits).2
    obtain ⟨hcarries, hdesc, hwords⟩ := rewriteWords_spec hm hold [w]
    refine ⟨?_, sameFree_rewriteWords s old [w], fun k _ => hdesc k, ?_, fun hne => ?_, fun h => ?_, fun _ => ?_,
      fun k hk hcount => ?_, ?_⟩
    · rw [hwaits]
      exact hcarries.mono (by simp)
    · rw [hwaits]
      exact hdesc d
    · refine (hcarries.kept d hd fun hdo => hne ?_).2
      rw [hwaits, List.mem_singleton.1 hdo]
    · rw [hwaits] at h
      cases h
    · cases g <;> rfl
    · cases hwaits.symm.trans hk
      exact hwords hcount.symm
    · cases g <;> rfl

theorem Distributes.kind (h : Distributes s t g d w) (k : Nat) : (t.desc k).kind = (s.desc k).kind := by
  by_cases hk : k = d
  · rw [hk, h.desc]
  · rw [h.others k hk]

end

/-- The distribution to both queues. -/
structure Distributed (s t : State) (d : Nat) (w : Word) : Prop where
  carries : Carries s t (d :: ((s.waitingSync .a).toList ++ (s.waitingSync .b).toList)) []
  free : SameFree s t
  others : ∀ k, k ≠ d → t.desc k = s.desc k
  desc : t.desc d = { s.desc d with holders := (s.desc d).holders + (if (s.waitingSync .a).isSome then 0 else 1) +
    if (s.waitingSync .b).isSome then 0 else 1 }
  words : t.words d = s.words d
  joins : ∀ g, s.waitingSync g = none → t.seg g = { s.seg g with queue := (s.seg g).queue ++ [d] }
  stays : ∀ g, s.waitingSync g ≠ none → t.seg g = s.seg g
  coalesces : ∀ g old, s.waitingSync g = some old → (s.desc old).count = 1 → t.words old = [w]
  rest : t = ((s.setSeg .a (t.seg .a)).setSeg .b (t.seg .b)).setMem t.mem

theorem distribute_distributed {s : State} (hm : MemoryLaw s.mem) {d : Nat} (hd : d ∈ s.mem.inUse) (w : Word)
    (hne : ∀ g, s.waitingSync g ≠ some d) : Distributed s ((s.distribute .a d w).distribute .b d w) d w := by
  have ha := distribute_distributes hm hd .a w
  generalize s.distribute .a d w = v at ha
  have hdv : d ∈ v.mem.inUse := (ha.carries.inUse d).2 (.inr hd)
  have hb := distribute_distributes ha.carries.law hdv .b w
  generalize v.distribute .b d w = t at hb
  have hsegB : v.seg .b = s.seg .b := by rw [ha.rest]; rfl
  have hsegA : t.seg .a = v.seg .a := by rw [hb.rest]; rfl
  have hwaitB : v.waitingSync .b = s.waitingSync .b := waitingSync_congr (by rw [hsegB]) fun k _ => ha.kind k
  have hin : ∀ g, ∀ k ∈ (s.waitingSync g).toList, k ∈ s.mem.inUse := fun g k hk =>
    inUse_of_kind hm.1 (kind_of_waitingSync (Option.mem_toList.1 hk)).2
  have hbc := hb.carries
  have hbdesc := hb.desc
  have hbjoins := hb.joins
  have hbstays := hb.stays
  rw [hwaitB] at hbc hbdesc hbjoins hbstays
  rw [hsegB] at hbjoins hbstays
  refine ⟨?_, ha.free.trans hb.free, fun k hk => (hb.others k hk).trans (ha.others k hk), ?_,
    (hb.words (hwaitB ▸ hne .b)).trans (ha.words (hne .a)), fun g h => ?_, fun g h => ?_, fun g old h hcount => ?_, ?_⟩
  · refine (ha.carries.mono fun k hk => ?_).trans (hbc.mono fun k hk => ?_) fun k hk => ?_
    · rcases List.mem_cons.1 hk with rfl | hk
      · simp
      · simp [hk]
    · rcases List.mem_cons.1 hk with rfl | hk
      · simp
      · simp [hk]
    · rcases List.mem_cons.1 hk with rfl | hk
      · exact hd
      · exact (List.mem_append.1 hk).elim (hin .a k) (hin .b k)
  · rw [hbdesc, ha.desc]
  · cases g with
    | a => exact hsegA.trans (ha.joins h)
    | b => exact hbjoins h
  · cases g with
    | a => exact hsegA.trans (ha.stays h)
    | b => exact hbstays h
  · have hold : old ∈ v.mem.inUse := (ha.carries.inUse old).2 (.inr (hin g old (Option.mem_toList.2 h)))
    have hod : old ≠ d := fun he => hne g (he ▸ h)
    have hvcount : (v.desc old).count = 1 := by rw [ha.others old hod]; exact hcount
    by_cases hb' : v.waitingSync .b = some old
    · exact hb.coalesces old hb' hvcount
    · cases g with
      | b => exact absurd (hwaitB.trans h) hb'
      | a =>
        refine (hb.carries.kept old hold fun hmem => ?_).2.trans (ha.coalesces old h hcount)
        exact (List.mem_cons.1 hmem).elim hod fun hmem => hb' (Option.mem_toList.1 hmem)
  · rw [hsegA]
    conv_lhs => rw [hb.rest, ha.rest]
    rfl

/-! ## Admission with memory (R78) -/

/-- The part when the switch check of the SYNC taken into `d` is done. -/
def switched (s : State) (w : Word) (m : TelegramMemory) : State := ((s.countPort .t .rxGood).setMem m).newCycle w

theorem switched_seg (s : State) (w : Word) (m : TelegramMemory) (g : Segment) : (switched s w m).seg g = s.seg g := by
  simp [switched]

/-- The part when the SYNC has been given to both queues. -/
def distributed (s : State) (w : Word) (m : TelegramMemory) (d : Nat) : State :=
  ((switched s w m).distribute .a d w).distribute .b d w

theorem afterSwitch_heard (s : State) (w : Word) (m : TelegramMemory) :
    afterSwitch ((s.countPort .t .rxGood).setMem m) w = ((afterSwitch s w).countPort .t .rxGood).setMem m := by
  by_cases h : s.standbyState = .pending
  · rw [afterSwitch_of_pending h, afterSwitch_of_pending (s := (s.countPort .t .rxGood).setMem m) h]
    have hactive : ((s.countPort .t .rxGood).setMem m).active = s.active := rfl
    unfold State.standbyId
    rw [hactive]
    generalize s.active = b
    cases b <;> rfl
  · rw [afterSwitch_of_not_pending h, afterSwitch_of_not_pending (s := (s.countPort .t .rxGood).setMem m) h]

/-- The SYNC with cycle number `w` switched over, with the notices `ns`, and given to the queues as `d`. -/
structure Delivered (s u : State) (w : Word) (d : Nat) (ns : List Nat) : Prop where
  law : MemoryLaw u.mem
  joins : JoinsEgress (afterSwitch s w) u ns []
  heldBack : s.standbyState = .pending → HeldBackLaw u
  others : ∀ k ∈ s.mem.inUse, u.desc k = s.desc k
  kept : OthersKept s u ((s.waitingSync .a).toList ++ (s.waitingSync .b).toList)
  joinsQueue : ∀ g, s.waitingSync g = none → u.seg g = { s.seg g with queue := (s.seg g).queue ++ [d] }
  stays : ∀ g, s.waitingSync g ≠ none → u.seg g = s.seg g
  coalesces : ∀ g old, s.waitingSync g = some old → (s.desc old).count = 1 → u.words old = [w]
  cycle : u.cycle = ⟨w, true⟩
  only : OnlyEgress (((((afterSwitch s w).countPort .t .rxGood).setCycle ⟨w, true⟩).setSeg .a (u.seg .a)).setSeg .b
    (u.seg .b)) u

theorem Delivered.runtime {s u : State} {w : Word} {d : Nat} {ns : List Nat} (h : Delivered s u w d ns) :
    u.runtime = s.runtime := by
  rw [h.only.runtime]
  simp

/-- The delivered SYNC in its descriptor, ahead of the release. -/
structure Synced (s u : State) (t : Telegram) (w : Word) (d : Nat) (ns : List Nat) : Prop where
  delivered : Delivered s u w d ns
  limit : ns = [] ∨ s.egress.noticeCount + ns.length ≤ 2
  new : d ∉ s.mem.inUse
  apart : d ∉ ns
  inUse : ∀ k, k ∈ u.mem.inUse ↔ k = d ∨ k ∈ ns ∨ k ∈ s.mem.inUse
  desc : ∃ chain, u.desc d = { (arrivalOf t).header.descriptor 1 chain with
    holders := (if (s.waitingSync .a).isSome then 0 else 1) + if (s.waitingSync .b).isSome then 0 else 1 }
  chain : (u.desc d).chain = s.mem.freeBlocks.take 1
  words : u.words d = [w]
  freeDescs : u.mem.freeDescs = s.mem.freeDescs.drop (1 + ns.length)
  freeBlocks : u.mem.freeBlocks = s.mem.freeBlocks.drop (1 + ns.length)
  minDescs : u.mem.minDescs = min s.mem.minDescs u.mem.freeDescs.length
  minBlocks : u.mem.minBlocks = min s.mem.minBlocks u.mem.freeBlocks.length
  still : s.standbyState ≠ .pending → ns = [] ∧
    u = ((((s.countPort .t .rxGood).setCycle ⟨w, true⟩).setSeg .a (u.seg .a)).setSeg .b (u.seg .b)).setMem u.mem

/-- From `s` to `v` the SYNC is taken into `d`, and its switch check has emitted the notices `ns`. -/
structure Checked (s v : State) (t : Telegram) (w : Word) (d : Nat) (ns : List Nat) : Prop where
  emits : ∃ x, Emits x v ns ∧ x = (((afterSwitch s w).countPort .t .rxGood).setCycle ⟨w, true⟩).setMem x.mem ∧
    ∀ k, k ∈ x.mem.inUse ↔ k = d ∨ k ∈ s.mem.inUse
  limit : ns = [] ∨ s.egress.noticeCount + ns.length ≤ 2
  heldBack : s.standbyState = .pending → HeldBackLaw v
  new : d ∉ s.mem.inUse
  desc : ∃ chain, v.desc d = (arrivalOf t).header.descriptor 1 chain
  chain : (v.desc d).chain = s.mem.freeBlocks.take 1
  words : v.words d = [w]
  kept : OthersKept s v []
  freeDescs : v.mem.freeDescs = s.mem.freeDescs.drop (1 + ns.length)
  freeBlocks : v.mem.freeBlocks = s.mem.freeBlocks.drop (1 + ns.length)
  minDescs : v.mem.minDescs = min s.mem.minDescs v.mem.freeDescs.length
  minBlocks : v.mem.minBlocks = min s.mem.minBlocks v.mem.freeBlocks.length
  still : s.standbyState ≠ .pending → ns = [] ∧ v = ((s.countPort .t .rxGood).setCycle ⟨w, true⟩).setMem v.mem

/-- A minimum that has taken the count `n` of an allocation takes the count `k` of the emissions behind it. -/
theorem min_of_minima {a n k : Nat} {ns : List Nat} (hle : k ≤ n) (hk : ns = [] → k = n) {b : Nat}
    (hb : b = if ns = [] then min a n else min (min a n) k) : b = min a k := by
  by_cases h : ns = []
  · rw [hb, if_pos h, hk h]
  · rw [hb, if_neg h]
    omega

theorem switched_checked {s : State} (hm : MemoryLaw s.mem) {t : Telegram} {w : Word} {d : Nat} {m : TelegramMemory}
    (ha : s.mem.allocate .traffic (arrivalOf t).header [w] = some (d, m)) :
    ∃ ns, Checked s (switched s w m) t w d ns := by
  have htakes := takes_of_allocate hm (by simp) ha
  obtain ⟨ns, hswitch⟩ := newCycle_switches (s := (s.countPort .t .rxGood).setMem m) htakes.law w
  have hv : switched s w m = ((s.countPort .t .rxGood).setMem m).newCycle w := rfl
  rw [← hv] at hswitch
  generalize switched s w m = v at hswitch
  have hemits := hswitch.emits
  rw [afterSwitch_heard] at hemits
  obtain ⟨x, hx⟩ : ∃ x, x = (((afterSwitch s w).countPort .t .rxGood).setMem m).setCycle ⟨w, true⟩ := ⟨_, rfl⟩
  rw [← hx] at hemits
  have hxmem : x.mem = m := by rw [hx]; rfl
  have hxdesc : ∀ k, x.desc k = m.desc k := fun k => congrArg (TelegramMemory.desc · k) hxmem
  have hxwords : ∀ k, x.words k = m.words k := fun k => congrArg (TelegramMemory.words · k) hxmem
  have hxin : ∀ k, k ∈ x.mem.inUse ↔ k = d ∨ k ∈ s.mem.inUse := fun k => by rw [hxmem]; exact htakes.inUse k
  obtain ⟨hddesc, hdwords⟩ := hemits.kept d ((hxin d).2 (.inl rfl))
  have hone : ([w].length + 7) / 8 = 1 := by simp
  have htakenChain := htakes.chain
  have htakenBlocks := htakes.freeBlocks
  rw [hone] at htakenChain htakenBlocks
  have hfreeD : v.mem.freeDescs = s.mem.freeDescs.drop (1 + ns.length) := by
    rw [hemits.freeDescs, hxmem, ← List.drop_drop]
    exact congrArg _ htakes.freeDescs
  have hfreeB : v.mem.freeBlocks = s.mem.freeBlocks.drop (1 + ns.length) := by
    rw [hemits.freeBlocks, hxmem, ← List.drop_drop]
    exact congrArg _ htakenBlocks
  obtain ⟨hminD, hminB⟩ := hemits.minima
  have htakenD : x.mem.minDescs = min s.mem.minDescs x.mem.freeDescs.length := by rw [hxmem]; exact htakes.minDescs
  have htakenB : x.mem.minBlocks = min s.mem.minBlocks x.mem.freeBlocks.length := by rw [hxmem]; exact htakes.minBlocks
  refine ⟨ns, ⟨x, hemits, by rw [hxmem]; exact hx, hxin⟩, hswitch.limit, hswitch.heldBack, htakes.new, ?_, ?_, ?_,
    fun k hk _ => ?_, hfreeD, hfreeB, ?_, ?_, fun h => ?_⟩
  · rw [hddesc, hxdesc]
    exact htakes.desc
  · rw [hddesc, hxdesc]
    exact htakenChain
  · rw [hdwords, hxwords]
    exact htakes.words
  · obtain ⟨hdesc, hwords⟩ := hemits.kept k ((hxin k).2 (.inr hk))
    obtain ⟨hdesc', hwords'⟩ := htakes.kept k hk List.not_mem_nil
    exact ⟨hdesc.trans ((hxdesc k).trans hdesc'), hwords.trans ((hxwords k).trans hwords')⟩
  · rw [htakenD] at hminD
    refine min_of_minima (ns := ns) ?_ (fun h => ?_) hminD
    · rw [hemits.freeDescs, List.length_drop]
      omega
    · rw [hemits.freeDescs, h]
      rfl
  · rw [htakenB] at hminB
    refine min_of_minima (ns := ns) ?_ (fun h => ?_) hminB
    · rw [hemits.freeBlocks, List.length_drop]
      omega
    · rw [hemits.freeBlocks, h]
      rfl
  · obtain ⟨hns, hstill⟩ := hswitch.still h
    refine ⟨hns, ?_⟩
    rw [hstill]
    rfl

theorem Checked.law {s v : State} {t : Telegram} {w : Word} {d : Nat} {ns : List Nat} (h : Checked s v t w d ns) :
    MemoryLaw v.mem := by
  obtain ⟨x, hemits, -, -⟩ := h.emits
  exact hemits.law

theorem Checked.listed {s v : State} {t : Telegram} {w : Word} {d : Nat} {ns : List Nat} (h : Checked s v t w d ns) :
    d ∈ v.mem.inUse := by
  obtain ⟨x, hemits, -, hin⟩ := h.emits
  exact (hemits.inUse d).2 (.inr ((hin d).2 (.inl rfl)))

theorem onlyEgress_setSegs {s t : State} (h : OnlyEgress s t) (p q : SegmentController) (m : TelegramMemory) :
    OnlyEgress ((s.setSeg .a p).setSeg .b q) (((t.setSeg .a p).setSeg .b q).setMem m) := by
  have hset := congrArg (fun z : State => ((z.setSeg .a p).setSeg .b q).setMem m) h
  exact hset

/-- Notices emitted behind the switch check join trunk egress from the switched part. -/
theorem joinsEgress_of_switch {s x u : State} {w : Word} {ds ns : List Nat}
    (hx : x = (((afterSwitch s w).countPort .t .rxGood).setCycle ⟨w, true⟩).setMem x.mem)
    (hin : ∀ k ∈ s.mem.inUse, k ∈ x.mem.inUse) (hcarries : Carries x u ds ns) (hlen : ns.length ≤ 2) :
    JoinsEgress (afterSwitch s w) u ns [] := by
  refine joinsEgress_from ?_ ?_ ?_ ?_ (fun k hk => hin k ?_) (hcarries.joins hlen)
  · rw [hx]; rfl
  · rw [hx]; rfl
  · rw [hx]; rfl
  · rw [hx]; rfl
  · rwa [afterSwitch_mem] at hk

theorem Checked.distributed {s v u : State} {t : Telegram} {w : Word} {d : Nat} {ns : List Nat}
    (h : Checked s v t w d ns) (hseg : ∀ g, v.seg g = s.seg g) (hqueues : ∀ g, ∀ k ∈ (s.seg g).queue, k ∈ s.mem.inUse)
    (hdist : Distributed v u d w) : Synced s u t w d ns := by
  obtain ⟨x, hemits, hx, hxin⟩ := h.emits
  have hwaits : ∀ g, v.waitingSync g = s.waitingSync g := fun g =>
    waitingSync_congr (by rw [hseg]) fun k hk => by rw [(h.kept k (hqueues g k hk) List.not_mem_nil).1]
  have hwin : ∀ k ∈ (s.waitingSync .a).toList ++ (s.waitingSync .b).toList, k ∈ s.mem.inUse := fun k hk =>
    (List.mem_append.1 hk).elim (fun hk => hqueues .a k (kind_of_waitingSync (Option.mem_toList.1 hk)).1) fun hk =>
      hqueues .b k (kind_of_waitingSync (Option.mem_toList.1 hk)).1
  have hcarries := hdist.carries
  have hudesc := hdist.desc
  have hujoins := hdist.joins
  have hustays := hdist.stays
  have hucoal := hdist.coalesces
  simp only [hwaits, hseg] at hcarries hudesc hujoins hustays hucoal
  have hvin : ∀ k, k ∈ v.mem.inUse ↔ k = d ∨ k ∈ ns ∨ k ∈ s.mem.inUse := fun k => by
    rw [hemits.inUse, hxin]
    tauto
  have huin : ∀ k, k ∈ u.mem.inUse ↔ k ∈ v.mem.inUse := fun k => by
    rw [hcarries.inUse]
    simp
  have hkd : ∀ k ∈ s.mem.inUse, k ≠ d := fun k hk he => h.new (he ▸ hk)
  have hdns : d ∉ ns := fun hd => (hemits.fresh d hd).1 ((hxin d).2 (.inl rfl))
  have hegress : u.egress = v.egress := by rw [hdist.rest]; rfl
  have hnotices : u.notices = v.notices := by rw [hdist.rest]; rfl
  have hlen : ns.length ≤ 2 := h.limit.elim (fun hn => hn ▸ Nat.zero_le _) fun hn => by omega
  have honly : OnlyEgress (((afterSwitch s w).countPort .t .rxGood).setCycle ⟨w, true⟩) v := by
    have hxonly := OnlyEgress.setMem (((afterSwitch s w).countPort .t .rxGood).setCycle ⟨w, true⟩) x.mem
    rw [← hx] at hxonly
    exact hxonly.trans hemits.only
  refine ⟨⟨hcarries.law, ?_, fun hp => ?_, fun k hk => ?_, fun k hk hkw => ?_, hujoins, hustays, fun g old hold hcount => ?_,
    ?_, ?_⟩, h.limit, h.new, hdns, fun k => (huin k).trans (hvin k), ?_, ?_, ?_, ?_, ?_, ?_, ?_, fun hp => ?_⟩
  · have hcarried := (carries_of_emits hemits).trans hcarries fun k hk => (hxin k).2 ?_
    · rw [List.append_nil] at hcarried
      exact joinsEgress_of_switch hx (fun k hk => (hxin k).2 (.inr hk)) hcarried hlen
    · exact (List.mem_cons.1 hk).imp id (hwin k)
  · unfold HeldBackLaw
    rw [hegress, hnotices, hdist.free.freeDescs, hdist.free.freeBlocks]
    exact h.heldBack hp
  · exact (hdist.others k (hkd k hk)).trans (h.kept k hk List.not_mem_nil).1
  · obtain ⟨hdesc, hwords⟩ := hcarries.kept k ((hvin k).2 (.inr (.inr hk))) (by simpa [hkd k hk] using hkw)
    obtain ⟨hdesc', hwords'⟩ := h.kept k hk List.not_mem_nil
    exact ⟨hdesc.trans hdesc', hwords.trans hwords'⟩
  · refine hucoal g old hold ?_
    rw [(h.kept old (hqueues g old (kind_of_waitingSync hold).1) List.not_mem_nil).1]
    exact hcount
  · have hcycle := congrArg State.cycle honly
    rw [hdist.rest]
    exact hcycle
  · have hsegs := onlyEgress_setSegs honly (u.seg .a) (u.seg .b) u.mem
    rwa [← hdist.rest] at hsegs
  · obtain ⟨chain, hdesc⟩ := h.desc
    refine ⟨chain, ?_⟩
    rw [hudesc, hdesc]
    simp [Header.descriptor]
  · rw [hudesc]
    exact h.chain
  · exact hdist.words.trans h.words
  · exact hdist.free.freeDescs.trans h.freeDescs
  · exact hdist.free.freeBlocks.trans h.freeBlocks
  · rw [hdist.free.minDescs, hdist.free.freeDescs]
    exact h.minDescs
  · rw [hdist.free.minBlocks, hdist.free.freeBlocks]
    exact h.minBlocks
  · obtain ⟨hns, hv⟩ := h.still hp
    refine ⟨hns, ?_⟩
    conv_lhs => rw [hdist.rest, hv]
    rfl

theorem distributed_synced {s : State} (hm : MemoryLaw s.mem) (hqueues : ∀ g, ∀ k ∈ (s.seg g).queue, k ∈ s.mem.inUse)
    {t : Telegram} {w : Word} {d : Nat} {m : TelegramMemory}
    (ha : s.mem.allocate .traffic (arrivalOf t).header [w] = some (d, m)) :
    ∃ ns, Synced s (distributed s w m d) t w d ns := by
  obtain ⟨ns, hchecked⟩ := switched_checked hm ha
  have hdv : d ∈ (switched s w m).mem.inUse := hchecked.listed
  have hne : ∀ g, (switched s w m).waitingSync g ≠ some d := fun g h => by
    have hk := (kind_of_waitingSync h).1
    rw [switched_seg] at hk
    exact hchecked.new (hqueues g d hk)
  exact ⟨ns, hchecked.distributed (switched_seg s w m) hqueues (distribute_distributed hchecked.law hdv w hne)⟩

/-! ## Queues and telegram of the SYNC distributed (R79) -/

section

variable {s u : State} {t : Telegram} {w : Word} {d : Nat} {ns : List Nat}

/-- What every outcome of the distribution leaves of queues and telegrams. -/
theorem Delivered.queues (h : Delivered s u w d ns) :
    (∀ g, (¬∃ k ∈ (s.seg g).queue, (s.desc k).kind = .sync) →
      u.seg g = { s.seg g with queue := (s.seg g).queue ++ [d] }) ∧
    (∀ g, (∃ k ∈ (s.seg g).queue, (s.desc k).kind = .sync) → u.seg g = s.seg g) ∧
    ∀ g pre old post, (s.seg g).queue = pre ++ [old] ++ post → (∀ k ∈ pre, (s.desc k).kind ≠ .sync) →
      (s.desc old).kind = .sync → (s.desc old).count = 1 → u.words old = [w] := by
  refine ⟨fun g hg => h.joinsQueue g ?_, fun g hg => h.stays g ?_, fun g pre old post hqueue hpre hold hcount => ?_⟩
  · exact Option.not_isSome_iff_eq_none.1 fun hsome => hg ((waitingSync_isSome_iff s g).1 hsome)
  · exact Option.isSome_iff_ne_none.1 ((waitingSync_isSome_iff s g).2 hg)
  · exact h.coalesces g old (waitingSync_eq_some hqueue hpre hold) hcount

theorem Synced.telegram (h : Synced s u t w d ns) (hsrc : t.src = 0) (hkind : t.kind = .sync) (hdest : t.dest = 63) :
    u.telegram d = { dest := 63, src := 0, kind := .sync, marks := Marks.clear, seq := t.seq, status := 0, words := [w] } ∧
    (u.desc d).stamp = none := by
  obtain ⟨chain, hdesc⟩ := h.desc
  unfold State.telegram
  rw [hdesc, h.words]
  refine ⟨?_, rfl⟩
  rw [← hsrc, ← hkind, ← hdest]
  rfl

theorem Synced.holders (h : Synced s u t w d ns) : (u.desc d).holders =
    (if (s.waitingSync .a).isSome then 0 else 1) + if (s.waitingSync .b).isSome then 0 else 1 := by
  obtain ⟨chain, hdesc⟩ := h.desc
  rw [hdesc]

theorem Synced.holders_of_waits (h : Synced s u t w d ns)
    (hnot : ¬((s.waitingSync .a).isSome = true ∧ (s.waitingSync .b).isSome = true)) :
    1 ≤ (u.desc d).holders ∧ (u.desc d).holders ≤ 2 ∧
    ((u.desc d).holders = 2 ↔ ¬(s.waitingSync .a).isSome = true ∧ ¬(s.waitingSync .b).isSome = true) := by
  rw [h.holders]
  by_cases ha : (s.waitingSync .a).isSome = true
  · have hb : ¬(s.waitingSync .b).isSome = true := fun hb => hnot ⟨ha, hb⟩
    simp [ha, hb]
  · by_cases hb : (s.waitingSync .b).isSome = true <;> simp [ha, hb]

end

end Sys2Proof.Proofs.SyncAdmission
end

section
/-! PROOFS. What sync admission leaves (O31, O32): the SYNC waits in a queue, or both queues have coalesced it and it is
released; and the report of a switch. -/

namespace Sys2Proof.Proofs.SyncOutcomes

open Sys2Proof Sys2Proof.Machine Sys2Proof.Proofs.Commands Sys2Proof.Proofs.Intake Sys2Proof.Proofs.Reception
  Sys2Proof.Proofs.MemoryAndRuns Sys2Proof.Proofs.BankInvariants Sys2Proof.Proofs.ClearAndRestart Sys2Proof.Proofs.Answers
  Sys2Proof.Proofs.Carriage Sys2Proof.Proofs.TransactionEnds Sys2Proof.Proofs.MatchedReplies Sys2Proof.Proofs.Admissions
  Sys2Proof.Proofs.RoutedPolls Sys2Proof.Proofs.TransmissionCompletes Sys2Proof.Proofs.SyncAdmission

/-! ## The arrival -/

theorem exists_allocate_of_room {s : State} {ws : List Word} (hroom : HasRoom s ws.length) (h : Header) :
    ∃ d m, s.mem.freeDescs.head? = some d ∧ s.mem.allocate .traffic h ws = some (d, m) := by
  have hpos : 0 < s.mem.freeDescs.length := by omega
  obtain ⟨d, hd⟩ := Option.isSome_iff_exists.1 (List.isSome_head?.2 (List.length_pos_iff.1 hpos))
  obtain ⟨m, ha⟩ := allocate_of_room hroom hd h
  exact ⟨d, m, hd, ha⟩

theorem admitSync_of_no_room {s : State} {a : Arrival} {w : Word} (hwords : a.words = [w])
    (h : s.mem.allocate .traffic a.header [w] = none) : s.admitSync a = (s.newCycle w).countPort .t .rxNoroom := by
  unfold State.admitSync
  rw [hwords]
  simp only [h, List.getD_cons_zero]

theorem admitSync_of_room {s : State} {a : Arrival} {w : Word} (hwords : a.words = [w]) {d : Nat} {m : TelegramMemory}
    (h : s.mem.allocate .traffic a.header [w] = some (d, m)) :
    s.admitSync a = ((((s.setMem m).newCycle w).distribute .a d w).distribute .b d w).releaseUnheld d := by
  unfold State.admitSync
  rw [hwords]
  simp only [h, List.getD_cons_zero]

section

variable {s : State} {q : Port} {t : Telegram} {w : Word} (hears : HearsTrunk s t) (hkind : t.kind = .sync)
  (hdest : t.dest = 63) (hwords : t.words = [w])
include hears hkind hdest hwords

theorem exec_sync : exec (.receiveTelegram .t (lineSerial q t)) s = .next ((s.countPort .t .rxGood).admitSync (arrivalOf t)) := by
  obtain ⟨hrun, hrx, hsrc, hlen⟩ := hears
  rw [exec_receiveTelegram_lineSerial hrun.1 .t q hrx hlen]
  refine congrArg _ ((arriveTrunk_sync s (a := arrivalOf t) hsrc hkind).trans ?_)
  have hlength : (arrivalOf t).words.length = 1 := congrArg List.length hwords
  rw [if_neg (not_not.2 (show (arrivalOf t).dest = 63 from hdest)), if_neg (not_not.2 hlength)]

theorem exec_sync_of_no_room (h : ¬HasRoom s 1) : exec (.receiveTelegram .t (lineSerial q t)) s =
    .next (((s.countPort .t .rxGood).newCycle w).countPort .t .rxNoroom) := by
  rw [exec_sync hears hkind hdest hwords, admitSync_of_no_room hwords]
  exact allocate_of_no_room (s := s) (ws := [w]) h _

theorem exec_sync_of_room {d : Nat} {m : TelegramMemory}
    (ha : s.mem.allocate .traffic (arrivalOf t).header [w] = some (d, m)) :
    exec (.receiveTelegram .t (lineSerial q t)) s = .next ((distributed s w m d).releaseUnheld d) := by
  rw [exec_sync hears hkind hdest hwords, admitSync_of_room (s := s.countPort .t .rxGood) hwords ha]
  rfl

end

theorem releaseUnheld_of_held {s : State} {d : Nat} (h : (s.desc d).holders ≠ 0) : s.releaseUnheld d = s :=
  if_neg h

theorem releaseUnheld_of_unheld {s : State} {d : Nat} (h : (s.desc d).holders = 0) :
    s.releaseUnheld d = (s.setMem (s.mem.release d)).emissionAttempt :=
  if_pos h

/-! ## Without memory (R78) -/

theorem afterSwitch_countPort (s : State) (w : Word) :
    afterSwitch (s.countPort .t .rxGood) w = (afterSwitch s w).countPort .t .rxGood := by
  have h := afterSwitch_heard s w s.mem
  rw [← afterSwitch_mem s w] at h
  conv_lhs at h => rw [afterSwitch_mem]
  exact h

/-- What the refused SYNC leaves: the switch check and its notices. -/
theorem newCycle_of_no_room {s : State} (hm : MemoryLaw s.mem) (w : Word) :
    ∃ ns, Emits (((afterSwitch s w).countPort .t .rxGood).setCycle ⟨w, true⟩) ((s.countPort .t .rxGood).newCycle w) ns ∧
      (ns = [] ∨ s.egress.noticeCount + ns.length ≤ 2) ∧
      (s.standbyState = .pending → HeldBackLaw ((s.countPort .t .rxGood).newCycle w)) ∧
      (s.standbyState ≠ .pending → (s.countPort .t .rxGood).newCycle w = (s.countPort .t .rxGood).setCycle ⟨w, true⟩) := by
  obtain ⟨ns, hswitch⟩ := newCycle_switches (s := s.countPort .t .rxGood) hm w
  have hemits := hswitch.emits
  rw [afterSwitch_countPort] at hemits
  exact ⟨ns, hemits, hswitch.limit, hswitch.heldBack, fun h => (hswitch.still h).2⟩

/-! ## Coalesced in both queues: the release (R32, R78) -/

/-- A telegram released behind the first notices leaves the emissions behind it to go on with the rest. -/
theorem joinsEgress_released {s t u : State} {d : Nat} {ns ms : List Nat} (hm : MemoryLaw t.mem)
    (h : JoinsEgress s t ns []) (hruntime : t.runtime = s.runtime) (hin : ∀ k ∈ s.mem.inUse, k ∈ t.mem.inUse ∧ k ≠ d)
    (hns : ∀ k ∈ ns, k ∈ t.mem.inUse ∧ k ≠ d) (he : Emits (t.setMem (t.mem.release d)) u ms)
    (hlen : ns.length + ms.length ≤ 2) : JoinsEgress s u (ns ++ ms) [] := by
  obtain ⟨hqueue, -, hle, hpending, hnumber, hcount, htel, hfresh, hhands⟩ := h
  rw [List.append_nil] at hqueue hhands
  have hrel := released_of_emits hm rfl he
  have hstay : ∀ k ∈ ns, u.desc k = t.desc k ∧ u.words k = t.words k := fun k hk =>
    hrel.kept k (hns k hk).1 (by simpa using (hns k hk).2)
  have hstayTel : ∀ k ∈ ns, u.telegram k = t.telegram k := fun k hk => by
    unfold State.telegram
    rw [(hstay k hk).1, (hstay k hk).2]
  have hle' := he.le_pending
  have hpending' := he.pendingSet
  have htel' := he.telegrams
  rw [show (t.setMem (t.mem.release d)).notices = t.notices from rfl, hpending, hnumber] at htel'
  rw [show (t.setMem (t.mem.release d)).notices = t.notices from rfl, hpending] at hle' hpending'
  rw [List.length_drop] at hle'
  refine ⟨?_, ?_, ?_, ?_, ?_, ?_, ?_, fun k hk => ?_, ?_⟩
  · rw [he.queue, List.append_nil, ← List.append_assoc, ← hqueue]
    rfl
  · rwa [List.length_append]
  · rw [List.length_append]
    omega
  · rw [hpending', List.drop_drop, List.length_append]
  · rw [he.number, List.length_append, BitVec.ofNat_add, ← BitVec.add_assoc, ← hnumber]
    rfl
  · rw [he.noticeCount, List.length_append, ← Nat.add_assoc, ← hcount]
    rfl
  · have hlen' : (s.notices.pendingSet.take ns.length).length = ns.length := List.length_take_of_le hle
    have hruntime' : (t.setMem (t.mem.release d)).runtime = s.runtime := hruntime
    rw [List.map_append, List.map_congr_left hstayTel, htel, htel', List.length_append, List.take_add,
      noticeTelegrams_append, hlen', noticeTelegrams_congr hruntime']
  · rcases List.mem_append.1 hk with hk | hk
    · rw [(hstay k hk).1]
      exact hfresh k hk
    · obtain ⟨hnew, hrest⟩ := he.fresh k hk
      refine ⟨fun hks => hnew ?_, List.not_mem_nil, hrest⟩
      exact (mem_inUse_release hm d k).2 (hin k hks)
  · rw [List.append_nil]
    exact HandsTheHead.trans hhands hqueue he.hands hstayTel

/-- The SYNC that both queues have coalesced, once released. -/
structure Dropped (s u : State) (w : Word) (d : Nat) (ns : List Nat) : Prop where
  delivered : Delivered s u w d ns
  heldBack : HeldBackLaw u
  freeDescs : u.mem.freeDescs = (s.mem.freeDescs.drop 1 ++ [d]).drop ns.length
  freeBlocks : u.mem.freeBlocks = (s.mem.freeBlocks.drop 1 ++ s.mem.freeBlocks.take 1).drop ns.length

theorem drop_append_drop {α : Type} {l r : List α} {n : Nat} (h : n ≤ l.length) (k : Nat) :
    (l.drop n ++ r).drop k = (l ++ r).drop (n + k) := by
  rw [← List.drop_drop, List.drop_append_of_le_length h]

theorem released_dropped {s v : State} {t : Telegram} {w : Word} {d : Nat} {ns : List Nat} (h : Synced s v t w d ns)
    (hqueues : ∀ g, ∀ k ∈ (s.seg g).queue, k ∈ s.mem.inUse) (hroom : HasRoom s 1) :
    ∃ ms, Dropped s (v.setMem (v.mem.release d)).emissionAttempt w d ms := by
  have hdv : d ∈ v.mem.inUse := (h.inUse d).2 (.inl rfl)
  have hm := h.delivered.law
  have hz : MemoryLaw (v.setMem (v.mem.release d)).mem := hm.release hdv
  obtain ⟨ms, hemits, hlimit⟩ := emissionAttempt_limit hz
  have hheld := State.emissionAttempt_heldBack hz
  generalize (v.setMem (v.mem.release d)).emissionAttempt = u at hemits hheld
  have hrel := released_of_emits hm rfl hemits
  have hlen : ns.length + ms.length ≤ 2 := by
    have hcount : v.egress.noticeCount = s.egress.noticeCount + ns.length := by
      obtain ⟨-, -, -, -, -, hcount, -⟩ := h.delivered.joins
      rwa [afterSwitch_egress] at hcount
    rw [show (v.setMem (v.mem.release d)).egress = v.egress from rfl, hcount] at hlimit
    obtain ⟨-, htwo, -⟩ := h.delivered.joins
    rcases hlimit with hnone | hmore
    · rw [hnone]
      exact htwo
    · omega
  have hseg : ∀ g, u.seg g = v.seg g := fun g => by
    have hsame := congrArg (fun x : State => x.seg g) hemits.only
    exact hsame
  have hkd : ∀ k ∈ s.mem.inUse, k ≠ d := fun k hk he => h.new (he ▸ hk)
  have hstay : ∀ k ∈ s.mem.inUse, u.desc k = v.desc k ∧ u.words k = v.words k := fun k hk =>
    hrel.kept k ((h.inUse k).2 (.inr (.inr hk))) (by simpa using hkd k hk)
  refine ⟨ns ++ ms, ⟨hemits.law, ?_, fun _ => hheld, fun k hk => ?_, fun k hk hkw => ?_, fun g hg => ?_, fun g hg => ?_,
    fun g old hold hcount => ?_, ?_, ?_⟩, hheld, ?_, ?_⟩
  · refine joinsEgress_released hm h.delivered.joins ?_ (fun k hk => ?_) (fun k hk => ?_) hemits hlen
    · rw [h.delivered.runtime, afterSwitch_runtime]
    · rw [afterSwitch_mem] at hk
      exact ⟨(h.inUse k).2 (.inr (.inr hk)), hkd k hk⟩
    · exact ⟨(h.inUse k).2 (.inr (.inl hk)), fun he => h.apart (he ▸ hk)⟩
  · exact (hstay k hk).1.trans (h.delivered.others k hk)
  · obtain ⟨hdesc, hwords⟩ := h.delivered.kept k hk hkw
    exact ⟨(hstay k hk).1.trans hdesc, (hstay k hk).2.trans hwords⟩
  · exact (hseg g).trans (h.delivered.joinsQueue g hg)
  · exact (hseg g).trans (h.delivered.stays g hg)
  · exact (hstay old (hqueues g old (kind_of_waitingSync hold).1)).2.trans (h.delivered.coalesces g old hold hcount)
  · have hcycle := congrArg State.cycle hemits.only
    exact hcycle.trans h.delivered.cycle
  · rw [hseg, hseg]
    exact h.delivered.only.trans ((OnlyEgress.setMem v _).trans hemits.only)
  · rw [hrel.freeDescs, h.freeDescs, ← List.drop_drop, drop_append_drop, List.length_append]
    rw [List.length_drop]
    omega
  · rw [hrel.freeBlocks, h.chain, h.freeBlocks, ← List.drop_drop, drop_append_drop, List.length_append]
    rw [List.length_drop]
    omega

/-- The released descriptor goes to the end of the free list, behind what two emissions take. -/
theorem Dropped.free {s u : State} {w : Word} {d : Nat} {ns : List Nat} (h : Dropped s u w d ns) (hroom : HasRoom s 1) :
    d ∉ u.mem.inUse := by
  obtain ⟨-, htwo, -⟩ := h.delivered.joins
  refine h.delivered.law.free_not_inUse ?_
  rw [h.freeDescs, List.drop_append_of_le_length]
  · simp
  · rw [List.length_drop]
    omega

/-! ## The SYNC admitted -/

/-- Settles O31. -/
theorem syncAdvancesTheCycleAndIsDistributed : Obligations.SyncAdvancesTheCycleAndIsDistributed := by
  intro s q t w hears hkind hdest hwords hqueues
  have hm : MemoryLaw s.mem := hears.1.2.1
  by_cases hroom : HasRoom s 1
  · obtain ⟨d, m, hd, ha⟩ := exists_allocate_of_room (ws := [w]) hroom (arrivalOf t).header
    obtain ⟨ns, hsynced⟩ := distributed_synced hm hqueues ha
    have hexec := exec_sync_of_room (q := q) hears hkind hdest hwords ha
    have hholders := hsynced.holders
    have hwaits := waitingSync_isSome_iff s
    generalize distributed s w m d = v at hsynced hexec hholders
    by_cases hboth : (s.waitingSync .a).isSome = true ∧ (s.waitingSync .b).isSome = true
    · rw [releaseUnheld_of_unheld (by rw [hholders, if_pos hboth.1, if_pos hboth.2])] at hexec
      obtain ⟨ms, hdropped⟩ := released_dropped hsynced hqueues hroom
      have hdelivered := hdropped.delivered
      obtain ⟨hjoinsQueue, hstays, hcoalesces⟩ := hdelivered.queues
      refine ⟨_, ms, hexec, hdelivered.cycle, hdelivered.joins, hdelivered.heldBack, fun hno => absurd hroom hno,
        fun k _ hk => ?_⟩
      cases hd.symm.trans hk
      refine ⟨hjoinsQueue, hstays, hcoalesces, hdelivered.others, hdelivered.kept, fun hnot => absurd ?_ hnot, fun _ => ?_,
        hdelivered.only⟩
      · exact ⟨(hwaits .a).1 hboth.1, (hwaits .b).1 hboth.2⟩
      · exact ⟨hdropped.heldBack, hdropped.free hroom, hdropped.freeDescs, hdropped.freeBlocks⟩
    · obtain ⟨hone, htwo, hboth2⟩ := hsynced.holders_of_waits hboth
      rw [releaseUnheld_of_held (by omega)] at hexec
      have hdelivered := hsynced.delivered
      obtain ⟨hjoinsQueue, hstays, hcoalesces⟩ := hdelivered.queues
      obtain ⟨htelegram, hstamp⟩ := hsynced.telegram hears.2.2.1 hkind hdest
      refine ⟨v, ns, hexec, hdelivered.cycle, hdelivered.joins, hdelivered.heldBack, fun hno => absurd hroom hno,
        fun k _ hk => ?_⟩
      cases hd.symm.trans hk
      refine ⟨hjoinsQueue, hstays, hcoalesces, hdelivered.others, hdelivered.kept, fun _ => ⟨htelegram, hstamp, ?_, htwo,
        hone, hsynced.freeDescs, hsynced.freeBlocks, hsynced.minDescs, hsynced.minBlocks, hsynced.still⟩,
        fun hall => absurd ?_ hboth, hdelivered.only⟩
      · exact hboth2.trans (and_congr (not_congr (hwaits .a)) (not_congr (hwaits .b)))
      · exact ⟨(hwaits .a).2 hall.1, (hwaits .b).2 hall.2⟩
  · obtain ⟨ns, hemits, hlimit, hheld, hstill⟩ := newCycle_of_no_room hm w
    have hexec := exec_sync_of_no_room (q := q) hears hkind hdest hwords hroom
    generalize (s.countPort .t .rxGood).newCycle w = v at hemits hheld hstill hexec
    have hmem : (((afterSwitch s w).countPort .t .rxGood).setCycle ⟨w, true⟩).mem = s.mem := afterSwitch_mem s w
    have hlen : ns.length ≤ 2 := hlimit.elim (fun hn => hn ▸ Nat.zero_le _) fun hn => by omega
    refine ⟨_, ns, hexec, ?_, ?_, hheld, fun _ => ⟨fun k hk _ => ?_, fun h => ?_, ?_⟩,
      fun _ h => absurd h hroom⟩
    · have hcycle := congrArg State.cycle hemits.only
      exact hcycle
    · have hjoins := joinsEgress_of_switch rfl (fun k hk => hmem ▸ hk) (carries_of_emits (ds := []) hemits) hlen
      exact hjoins
    · obtain ⟨hdesc, hkwords⟩ := hemits.kept k (hmem ▸ hk)
      exact ⟨hdesc.trans (congrArg (TelegramMemory.desc · k) hmem), hkwords.trans (congrArg (TelegramMemory.words · k) hmem)⟩
    · rw [hstill h]
    · have hcounted := congrArg (State.countPort · .t .rxNoroom) hemits.only
      exact hcounted

end Sys2Proof.Proofs.SyncOutcomes
end

section
/-! PROOFS. The switch of a pending bank and its report (O32): BANK_SWITCHED becomes a NOTICE at once or waits in the pending
set, and what sync admission does behind the switch check leaves it alone. -/

namespace Sys2Proof.Proofs.BankSwitch

open Sys2Proof Sys2Proof.Machine Sys2Proof.Proofs.Commands Sys2Proof.Proofs.Intake Sys2Proof.Proofs.Reception
  Sys2Proof.Proofs.MemoryAndRuns Sys2Proof.Proofs.BankInvariants Sys2Proof.Proofs.ClearAndRestart Sys2Proof.Proofs.Answers
  Sys2Proof.Proofs.Carriage Sys2Proof.Proofs.Admissions Sys2Proof.Proofs.SyncAdmission Sys2Proof.Proofs.SyncOutcomes

/-! ## The report in the pending set (R184) -/

section

variable {b : BankId} {label cycle : Word} {es : List NoticeEntry}

theorem updateBankEntry_of_not_bank {e : NoticeEntry} (h : e.isBank = false) : updateBankEntry b label cycle e = e := by
  cases e with
  | bank _ _ _ => cases h
  | station _ _ => rfl

theorem map_updateBankEntry (h : ∀ e ∈ es, e.isBank = false) : es.map (updateBankEntry b label cycle) = es := by
  exact (List.map_congr_left (g := id) fun e he => updateBankEntry_of_not_bank (h e he)).trans (List.map_id es)

theorem reportBankIn_of_no_bank (h : ∀ e ∈ es, e.isBank = false) :
    reportBankIn b label cycle es = es ++ [.bank b label cycle] := by
  refine if_neg fun hany => ?_
  obtain ⟨e, he, hbank⟩ := List.any_eq_true.1 hany
  rw [h e he] at hbank
  exact Bool.noConfusion hbank

theorem reportBankIn_of_bank {pre post : List NoticeEntry} {k : BankId} {l c : Word}
    (hes : es = pre ++ [.bank k l c] ++ post) (h : ∀ e ∈ pre ++ post, e.isBank = false) :
    reportBankIn b label cycle es = pre ++ [.bank b label cycle] ++ post := by
  have hany : es.any NoticeEntry.isBank = true := List.any_eq_true.2 ⟨.bank k l c, by simp [hes], rfl⟩
  have hpre := map_updateBankEntry (b := b) (label := label) (cycle := cycle) fun e he => h e (List.mem_append_left post he)
  have hpost := map_updateBankEntry (b := b) (label := label) (cycle := cycle) fun e he => h e (List.mem_append_right pre he)
  refine (if_pos hany).trans ?_
  rw [hes, List.map_append, List.map_append, hpre, hpost]
  rfl

end

/-! ## The banks (R60) -/

section

variable {s : State} {w : Word} (h : s.standbyState = .pending)
include h

theorem afterSwitch_bank_standby :
    (afterSwitch s w).bank s.standbyId = { s.bank s.standbyId with state := .active } := by
  rw [afterSwitch_of_pending h]
  exact (State.setBank_bank_other _ _ _ _ (other_ne s.active)).trans (State.setBank_bank_same _ _ _)

theorem afterSwitch_bank_active : (afterSwitch s w).bank s.active =
    { s.bank s.active with state := if (s.bank s.active).inFlight = 0 then .standby else .retiring } := by
  rw [afterSwitch_of_pending h]
  exact State.setBank_bank_same _ _ _

theorem afterSwitch_notices : (afterSwitch s w).notices = { s.notices with
    pendingSet := reportBankIn s.standbyId (s.bank s.standbyId).label w s.notices.pendingSet } := by
  rw [afterSwitch_of_pending h]
  rfl

/-- The switch makes the pending bank the active one. -/
theorem active_of_afterSwitch {u : State} (hbank : ∀ k, u.bank k = (afterSwitch s w).bank k) : u.active = s.standbyId := by
  refine active_eq ?_ ?_
  · rw [hbank, afterSwitch_bank_standby h]
  · have hother : s.standbyId.other = s.active := by
      unfold State.standbyId
      cases s.active <;> rfl
    rw [hother, hbank, afterSwitch_bank_active h]
    dsimp only
    split <;> decide

end

/-! ## The emission of the report (R187, R188) -/

/-- From `s` to `v` the pending bank is switched in, and its report's emission attempt has made the notices `ns`. -/
structure Reports (s v : State) (w : Word) (ns : List Nat) : Prop where
  bank : ∀ k, v.bank k = (afterSwitch s w).bank k
  cycle : v.cycle = ⟨w, true⟩
  joins : JoinsEgress (afterSwitch s w) v ns []
  limit : ns = [] ∨ s.egress.noticeCount + ns.length ≤ 2
  law : MemoryLaw v.mem
  heldBack : HeldBackLaw v
  room : ns = [] → 2 ≤ s.mem.freeDescs.length → v.mem.freeDescs ≠ []

theorem notices_eq {s : State} {es : List NoticeEntry} {number : Byte} (hset : s.notices.pendingSet = es)
    (hnumber : s.notices.number = number) : s.notices = ⟨es, number⟩ := by
  rw [← hset, ← hnumber]

/-- Four blocks a telegram leave one free as long as a descriptor is. -/
theorem freeBlocks_of_freeDescs {m : TelegramMemory} (hm : MemoryLaw m) (h : m.freeDescs ≠ []) : m.freeBlocks ≠ [] := by
  intro hnone
  have hdescs := hm.freeDescs_length
  have hblocks := hm.freeBlocks_length
  have hchains := chains_length_le (t := m.descs) fun e he => ?_
  · have hpos := List.length_pos_iff.2 h
    rw [hnone, List.length_nil] at hblocks
    omega
  · obtain ⟨-, -, -, -, hfit⟩ := hm
    obtain ⟨hcount, hlen⟩ := hfit e he
    rw [hlen, blocksFor_eq]
    omega

section

variable {s v : State} {w : Word} {ns : List Nat} (h : Reports s v w ns) (hpending : s.standbyState = .pending)
include h hpending

/-- At the notice limit the report waits. -/
theorem Reports.notices_of_limit (hfull : 2 ≤ s.egress.noticeCount) : v.notices = { s.notices with
    pendingSet := reportBankIn s.standbyId (s.bank s.standbyId).label w s.notices.pendingSet } := by
  have hnone : ns = [] := h.limit.elim id fun hle => List.length_eq_zero_iff.1 (by omega)
  obtain ⟨-, -, -, hset, hnumber, -⟩ := h.joins
  rw [hnone] at hset hnumber
  rw [afterSwitch_notices hpending] at hset hnumber
  exact notices_eq hset (hnumber.trans (BitVec.add_zero _))

/-- Below the limit the report of an empty pending set is a NOTICE at once. -/
theorem Reports.emitted (hfew : s.egress.noticeCount < 2) (hempty : s.notices.pendingSet = [])
    (hfree : 2 ≤ s.mem.freeDescs.length) : v.notices = ⟨[], s.notices.number + 1⟩ ∧
      ∃ k, ns = [k] ∧ v.egress.queue = s.egress.queue ++ [k] ∧
        v.telegram k = { dest := 0, src := 62, kind := .notice, marks := Marks.clear, seq := s.notices.number, status := 0,
                         words := [1, s.standbyId.code, (s.bank s.standbyId).label, w] } := by
  obtain ⟨hqueue, -, hle, hset, hnumber, hcount, htelegrams, -⟩ := h.joins
  have hentry : (afterSwitch s w).notices = ⟨[.bank s.standbyId (s.bank s.standbyId).label w], s.notices.number⟩ := by
    rw [afterSwitch_notices hpending, hempty, reportBankIn_of_no_bank (by simp)]
    rfl
  rw [hentry] at hle hset hnumber htelegrams
  rw [afterSwitch_egress] at hqueue hcount
  have hsome : ns ≠ [] := fun hnone => by
    rw [hnone] at hset hcount
    have hdescs := h.room hnone hfree
    rcases h.heldBack with hnil | hfull | hdescs' | hblocks
    · rw [hnil] at hset
      cases hset
    · rw [hcount, List.length_nil] at hfull
      omega
    · exact hdescs hdescs'
    · exact freeBlocks_of_freeDescs h.law hdescs hblocks
  obtain ⟨k, rfl⟩ : ∃ k, ns = [k] := by
    refine List.length_eq_one_iff.1 ?_
    have hpos := List.length_pos_iff.2 hsome
    simp only [List.length_singleton] at hle
    omega
  refine ⟨?_, k, rfl, ?_, ?_⟩
  · exact notices_eq hset hnumber
  · rw [hqueue, List.append_nil]
  · have htelegram := List.cons.inj htelegrams
    exact htelegram.1

end

/-! ## Behind the switch check -/

/-- From `v` to `u` the notices `ns` and, when no entry can be emitted, the Notice Unit and trunk egress stay. -/
structure Settles (v u : State) (ns : List Nat) : Prop where
  bank : ∀ k, u.bank k = v.bank k
  cycle : u.cycle = v.cycle
  quiet : v.notices.pendingSet = [] ∨ 2 ≤ v.egress.noticeCount →
    u.notices = v.notices ∧ u.egress = v.egress ∧ ∀ k ∈ ns, u.telegram k = v.telegram k

theorem Settles.trans {s t u : State} {ns : List Nat} (h1 : Settles s t ns) (h2 : Settles t u ns) : Settles s u ns := by
  refine ⟨fun k => (h2.bank k).trans (h1.bank k), h2.cycle.trans h1.cycle, fun hquiet => ?_⟩
  obtain ⟨hnotices, hegress, htelegrams⟩ := h1.quiet hquiet
  obtain ⟨hnotices', hegress', htelegrams'⟩ := h2.quiet (by rwa [hnotices, hegress])
  exact ⟨hnotices'.trans hnotices, hegress'.trans hegress, fun k hk => (htelegrams' k hk).trans (htelegrams k hk)⟩

/-- The distribution works on SYNCs alone. -/
theorem distribute_settles {s : State} (hm : MemoryLaw s.mem) {d : Nat} (hd : d ∈ s.mem.inUse)
    (hkind : (s.desc d).kind = .sync) {ns : List Nat} (hns : ∀ k ∈ ns, k ∈ s.mem.inUse ∧ (s.desc k).kind = .notice)
    (g : Segment) (w : Word) : Settles s (s.distribute g d w) ns := by
  have h := distribute_distributes hm hd g w
  refine ⟨fun k => ?_, ?_, fun _ => ⟨?_, ?_, fun k hk => ?_⟩⟩
  · rw [h.rest]
    simp
  · rw [h.rest]
    simp
  · rw [h.rest]
    simp
  · rw [h.rest]
    simp
  · obtain ⟨hin, hnotice⟩ := hns k hk
    have hne : ∀ j, (s.desc j).kind = .sync → k ≠ j := fun j hj he => by
      rw [he, hj] at hnotice
      exact Kind.noConfusion hnotice
    obtain ⟨hdesc, hwords⟩ := h.carries.kept k hin fun hmem => by
      rcases List.mem_cons.1 hmem with he | hwaits
      · exact hne d hkind he
      · exact hne k (kind_of_waitingSync (Option.mem_toList.1 hwaits)).2 rfl
    unfold State.telegram
    rw [hdesc, hwords]

theorem releaseUnheld_settles {s : State} (hm : MemoryLaw s.mem) {d : Nat} {ns : List Nat} (hns : d ∉ ns) :
    Settles s (s.releaseUnheld d) ns := by
  by_cases hheld : (s.desc d).holders = 0
  · rw [releaseUnheld_of_unheld hheld]
    refine ⟨fun k => by simp, by simp, fun hquiet => ?_⟩
    have hstill : (s.setMem (s.mem.release d)).emissionAttempt = s.setMem (s.mem.release d) :=
      hquiet.elim (fun hnone => State.emissionAttempt_of_empty hnone) fun hfull => State.emissionAttempt_of_limit hfull
    rw [hstill]
    refine ⟨rfl, rfl, fun k hk => ?_⟩
    obtain ⟨-, hdesc, hwords, -, -⟩ := TelegramMemory.release_spec hm d
    have hkd : k ≠ d := fun he => hns (he ▸ hk)
    have hdesc' : (s.setMem (s.mem.release d)).desc k = s.desc k := hdesc k hkd
    have hwords' : (s.setMem (s.mem.release d)).words k = s.words k := hwords k hkd
    unfold State.telegram
    rw [hdesc', hwords']
  · rw [releaseUnheld_of_held hheld]
    exact ⟨fun _ => rfl, rfl, fun _ => ⟨rfl, rfl, fun _ _ => rfl⟩⟩

/-! ## Sync admission with a bank pending -/

theorem reports_of_no_room {s : State} (hm : MemoryLaw s.mem) (hpending : s.standbyState = .pending) (w : Word) :
    ∃ ns, Reports s (((s.countPort .t .rxGood).newCycle w).countPort .t .rxNoroom) w ns := by
  obtain ⟨ns, hemits, hlimit, hheld, -⟩ := newCycle_of_no_room hm w
  generalize (s.countPort .t .rxGood).newCycle w = v at hemits hheld
  have hmem : (((afterSwitch s w).countPort .t .rxGood).setCycle ⟨w, true⟩).mem = s.mem := afterSwitch_mem s w
  have hlen : ns.length ≤ 2 := hlimit.elim (fun hn => hn ▸ Nat.zero_le _) fun hn => by omega
  refine ⟨ns, fun k => ?_, ?_, ?_, hlimit, hemits.law, hheld hpending, fun hnone hfree => ?_⟩
  · have hbank := congrArg (fun x : State => x.bank k) hemits.only
    exact hbank
  · have hcycle := congrArg State.cycle hemits.only
    exact hcycle
  · have hjoins := joinsEgress_of_switch rfl (fun k hk => hmem ▸ hk) (carries_of_emits (ds := []) hemits) hlen
    exact hjoins
  · have hdescs : v.mem.freeDescs = s.mem.freeDescs := by rw [hemits.freeDescs, hmem, hnone]; rfl
    exact List.ne_nil_of_length_pos (Nat.lt_of_lt_of_le Nat.two_pos (hdescs ▸ hfree))

theorem reports_of_checked {s v : State} {t : Telegram} {w : Word} {d : Nat} {ns : List Nat}
    (hpending : s.standbyState = .pending) (hroom : HasRoom s 1) (h : Checked s v t w d ns) : Reports s v w ns := by
  obtain ⟨x, hemits, hx, hin⟩ := h.emits
  have hlen : ns.length ≤ 2 := h.limit.elim (fun hn => hn ▸ Nat.zero_le _) fun hn => by omega
  refine ⟨fun k => ?_, ?_, ?_, h.limit, hemits.law, h.heldBack hpending, fun hnone _ => ?_⟩
  · have hbank := congrArg (fun x : State => x.bank k) hemits.only
    rw [hx] at hbank
    exact hbank
  · have hcycle := congrArg State.cycle hemits.only
    rw [hx] at hcycle
    exact hcycle
  · exact joinsEgress_of_switch hx (fun k hk => (hin k).2 (.inr hk)) (carries_of_emits (ds := []) hemits) hlen
  · refine List.ne_nil_of_length_pos ?_
    rw [h.freeDescs, List.length_drop, hnone, List.length_nil]
    omega

/-- Behind the switch check of a SYNC taken into `d` come its distribution and its release. -/
theorem settles_of_checked {s v : State} {t : Telegram} {w : Word} {d : Nat} {ns : List Nat} (h : Checked s v t w d ns)
    (hkind : t.kind = .sync) : Settles v (((v.distribute .a d w).distribute .b d w).releaseUnheld d) ns := by
  have hd := h.listed
  have hdkind : (v.desc d).kind = .sync := by
    obtain ⟨chain, hdesc⟩ := h.desc
    rw [hdesc, ← hkind]
    rfl
  obtain ⟨x, hemits, -, hin⟩ := h.emits
  have hns : ∀ k ∈ ns, k ∈ v.mem.inUse ∧ (v.desc k).kind = .notice := fun k hk => by
    obtain ⟨-, hnotice, -⟩ := hemits.fresh k hk
    exact ⟨(hemits.inUse k).2 (.inl hk), hnotice⟩
  have hapart : d ∉ ns := fun hk => (hemits.fresh d hk).1 ((hin d).2 (.inl rfl))
  have ha := distribute_settles h.law hd hdkind hns .a w
  have hfirst := distribute_distributes h.law hd .a w
  generalize v.distribute .a d w = y at ha hfirst
  have hyin : ∀ k ∈ v.mem.inUse, k ∈ y.mem.inUse := fun k hk => (hfirst.carries.inUse k).2 (.inr hk)
  have hykind : ∀ k, (y.desc k).kind = (v.desc k).kind := hfirst.kind
  have hb := distribute_settles hfirst.carries.law (hyin d hd) ((hykind d).trans hdkind) (fun k hk => by
    rw [hykind]
    exact ⟨hyin k (hns k hk).1, (hns k hk).2⟩) .b w
  have hsecond := distribute_distributes hfirst.carries.law (hyin d hd) .b w
  exact (ha.trans hb).trans (releaseUnheld_settles hsecond.carries.law hapart)

/-- Settles O32. -/
theorem syncSwitchesAPendingBank : Obligations.SyncSwitchesAPendingBank := by
  intro s q t w _ hears hkind hdest hwords hpending
  have hm : MemoryLaw s.mem := hears.1.2.1
  obtain ⟨u, v, ns, hexec, hreports, hsettles⟩ : ∃ u v ns, exec (.receiveTelegram .t (lineSerial q t)) s = .next u ∧
      Reports s v w ns ∧ Settles v u ns := by
    by_cases hroom : HasRoom s 1
    · obtain ⟨d, m, -, ha⟩ := exists_allocate_of_room (ws := [w]) hroom (arrivalOf t).header
      obtain ⟨ns, hchecked⟩ := switched_checked hm ha
      exact ⟨_, _, ns, exec_sync_of_room hears hkind hdest hwords ha, reports_of_checked hpending hroom hchecked,
        settles_of_checked hchecked hkind⟩
    · obtain ⟨ns, hreports⟩ := reports_of_no_room hm hpending w
      exact ⟨_, _, ns, exec_sync_of_no_room hears hkind hdest hwords hroom, hreports, fun _ => rfl, rfl,
        fun _ => ⟨rfl, rfl, fun _ _ => rfl⟩⟩
  have hbank : ∀ k, u.bank k = (afterSwitch s w).bank k := fun k => (hsettles.bank k).trans (hreports.bank k)
  refine ⟨u, hexec, hsettles.cycle.trans hreports.cycle, active_of_afterSwitch hpending hbank,
    (hbank _).trans (afterSwitch_bank_standby hpending), (hbank _).trans (afterSwitch_bank_active hpending),
    fun hfull => ?_, fun hfew hempty hfree => ?_⟩
  · have hcount : 2 ≤ v.egress.noticeCount := by
      obtain ⟨-, -, -, -, -, hcount, -⟩ := hreports.joins
      rw [hcount, afterSwitch_egress]
      omega
    obtain ⟨hnotices, -, -⟩ := hsettles.quiet (.inr hcount)
    rw [hnotices, hreports.notices_of_limit hpending hfull]
    exact ⟨rfl, reportBankIn_of_no_bank, fun pre post b l c hset hothers => reportBankIn_of_bank hset hothers⟩
  · obtain ⟨hnotices, k, hns, hqueue, htelegram⟩ := hreports.emitted hpending hfew hempty hfree
    obtain ⟨hnotices', hegress, htelegrams⟩ := hsettles.quiet (.inl (by rw [hnotices]))
    exact ⟨hnotices'.trans hnotices, k, (congrArg _ hegress).trans hqueue,
      (htelegrams k (by simp [hns])).trans htelegram⟩

end Sys2Proof.Proofs.BankSwitch
end
